-- ==== Sys2Proof/Word.lean ====
section
/-! DEFINITION. The word types of the Shukan-2304 and their plainest arithmetic (spec R4, R50, R89). -/
namespace Sys2Proof

/-- A 32-bit register value. -/
abbrev Word := BitVec 32
/-- A 64-bit value: a register pair, an address, a witness, a PC. -/
abbrev DWord := BitVec 64
/-- One byte of memory. -/
abbrev Byte := BitVec 8
/-- One significance tag (R89). -/
abbrev Tag := BitVec 8
/-- One 96-bit instruction slot (R50). -/
abbrev Slot := BitVec 96

/-- The integer tag, written by every integer, logic, compare and address result (R89). -/
def intTag : Tag := 0xFE
/-- The tag of the odd register of a 64-bit floating result (R89). -/
def oddTag : Tag := 0xFF

/-- The 64-bit value of an even and an odd register (R4: the even register holds bits [31:0]). -/
def joinPair (lo hi : Word) : DWord := hi ++ lo
/-- Bits [31:0] of a 64-bit value. -/
def loWord (x : DWord) : Word := x.extractLsb' 0 32
/-- Bits [63:32] of a 64-bit value. -/
def hiWord (x : DWord) : Word := x.extractLsb' 32 32

/-- The field of `n` bits of a number that starts at bit `lo`. -/
def bitsAt (x lo n : Nat) : Nat := (x >>> lo) % 2 ^ n
/-- Bit `i` of a number. -/
def bitAt (x i : Nat) : Bool := (x >>> i) % 2 == 1

/-- A number read as two's complement at a width. -/
def toSigned (w x : Nat) : Int := if x % 2 ^ w < 2 ^ (w - 1) then ((x % 2 ^ w : Nat) : Int) else ((x % 2 ^ w : Nat) : Int) - (2 ^ w : Nat)
/-- An integer reduced modulo 2 to the width. -/
def wrapNat (w : Nat) (x : Int) : Nat := (x % ((2 ^ w : Nat) : Int)).toNat

/-- The little-endian bytes of a number (R4). -/
def bytesOf : Nat → Nat → List Byte
  | 0, _ => []
  | n + 1, x => BitVec.ofNat 8 x :: bytesOf n (x / 256)
/-- The number that little-endian bytes hold (R4). -/
def natOfBytes : List Byte → Nat
  | [] => 0
  | b :: bs => b.toNat + 256 * natOfBytes bs

/-- The number of one bits among the low `n` bits. -/
def popCount : Nat → Nat → Nat
  | 0, _ => 0
  | n + 1, x => x % 2 + popCount n (x / 2)

end Sys2Proof
end

