-- ==== Sys2Proof/Syntax.lean ====
section
/-! DEFINITION. The instructions of the Shukan-2304 as syntax: the slot instructions of spec R60 with their operands,
and the steps of the machine that no slot encodes (spec 95), one constructor for each row of the opcode table. -/
namespace Sys2Proof

/-- A register name (R26). In a cox program `v n`, with n below 64, stands for the cox register c<n> (R82). -/
inductive Reg where
  | v (n : Fin 224) | k (n : Fin 24) | vz | tid | widlo | widhi | role | lmask | tfp
  deriving DecidableEq, Repr

/-- A second source: a register, or IMM32 chosen by B = 255 (R50). -/
inductive Src where
  | reg (r : Reg) | imm (w : Word)
  deriving DecidableEq, Repr

/-- A guard (R24): the predicate register and its negation; `vz` not negated means always. -/
structure Guard where
  p : Reg
  neg : Bool
  deriving DecidableEq, Repr

/-- The guard of an unguarded instruction. -/
def Guard.always : Guard := ⟨.vz, false⟩

/-- Type codes 0 to 14 (R53). -/
inductive Ty where
  | i32 | u32 | i64 | u64 | f32 | f64 | bf16x2 | f16x2 | bf16 | f16 | e4m3 | e5m2 | e2m1 | i8 | bfp
  deriving DecidableEq, Repr

/-- Rounding field (R362): the path's FMTR.RM or an override. -/
inductive Rnd where
  | fmtr | rn | rz | ru | rd
  deriving DecidableEq, Repr

/-- Integer compare predicates (R385). -/
inductive ICmp where
  | eq | ne | lt | le | gt | ge
  deriving DecidableEq, Repr

/-- Floating compare predicates (R366). -/
inductive FCmp where
  | eq | ne | lt | le | gt | ge | un | ord
  deriving DecidableEq, Repr

/-- Address spaces (R52, R129). -/
inductive Space where
  | global | priv | vault
  deriving DecidableEq, Repr

/-- Access widths (R52): 1, 2, 4, 8 and 16 bytes. -/
inductive Width where
  | b1 | b2 | b4 | b8 | b16
  deriving DecidableEq, Repr

/-- Scopes (R28, R153). -/
inductive Scope where
  | core | cluster | module | domain | system
  deriving DecidableEq, Repr

/-- SHFL modes (R427). -/
inductive ShflMode where
  | idx | up | down | xor
  deriving DecidableEq, Repr

/-- VOTE modes (R439). -/
inductive VoteMode where
  | all | any | eq | ballot
  deriving DecidableEq, Repr

/-- Operations of REDX and SCANX (R419). -/
inductive RedOp where
  | add | min | max | and | or | xor
  deriving DecidableEq, Repr

/-- What BSIG tests (R108). -/
inductive SigKind where
  | f32 | f64 | h2
  deriving DecidableEq, Repr

/-- The byte offset of a format M address (R52): an index register (vz: none), or a 24-bit signed immediate. -/
inductive Off where
  | reg (r : Reg) | imm (w : BitVec 24)
  deriving DecidableEq, Repr

/-- The address part of a format M instruction with its guard (R52). -/
structure MAddr where
  g : Guard
  space : Space
  width : Width
  scope : Scope
  base : Reg
  off : Off
  deriving DecidableEq, Repr

/-- Operands of a unary register instruction. -/
structure R1 where
  g : Guard
  d : Reg
  a : Reg
  deriving DecidableEq, Repr

/-- Operands of a binary register instruction. -/
structure R2 where
  g : Guard
  d : Reg
  a : Reg
  b : Src
  deriving DecidableEq, Repr

/-- Operands of a ternary register instruction. -/
structure R3 where
  g : Guard
  d : Reg
  a : Reg
  b : Src
  c : Reg
  deriving DecidableEq, Repr

/-- The target of CALL (R348). -/
inductive CallTgt where
  | direct (imm : Word) | indirect (a : Reg)
  deriving DecidableEq, Repr

/-- The quarter modifiers of MMA and MMAS (R222). -/
structure QMods where
  qd : Bool
  qa : Bool
  qb : Bool
  qc : Bool
  deriving DecidableEq, Repr

/-- Every row of the opcode table. The first part are slot instructions (R60) and the MOVC writes with a row of their
own (R403); the second part are steps of the machine, with the data that comes from outside as arguments. Unit
numbers are those of R7 and R13, crew slots those of R240 (SLOTC). -/
inductive Instr where
  -- integer and logic
  | iadd (ty : Ty) (o : R2) | iadd64 (ty : Ty) (o : R2) | isub (ty : Ty) (o : R2) | imul (ty : Ty) (o : R2)
  | imulhi (ty : Ty) (o : R2) | imad (ty : Ty) (o : R3) | imad64 (ty : Ty) (o : R3) | imin (ty : Ty) (o : R2)
  | imax (ty : Ty) (o : R2) | iabs (o : R1) | ineg (ty : Ty) (o : R1) | icmp (cc : ICmp) (ty : Ty) (o : R2)
  | and (o : R2) | or (o : R2) | xor (o : R2) | not (o : R1) | shl (o : R2) | shr (o : R2) | sar (o : R2)
  | bfx (sx : Bool) (o : R2) | bfi (o : R3) | popc (o : R1) | clz (o : R1) | brev (o : R1)
  | sel (ty : Ty) (o : R3) | mov (ty : Ty) (o : R1) | movi (ty : Ty) (g : Guard) (d : Reg) (imm : Word)
  -- FP32
  | fadd (rm : Rnd) (o : R2) | fsub (rm : Rnd) (o : R2) | fmul (rm : Rnd) (o : R2) | ffma (rm : Rnd) (o : R3)
  | fmin (o : R2) | fmax (o : R2) | fcmp (cc : FCmp) (o : R2) | fdiv (rm : Rnd) (o : R2) | fsqrt (rm : Rnd) (o : R1)
  | frcp (rm : Rnd) (o : R1) | frsq (rm : Rnd) (o : R1) | fexp2 (rm : Rnd) (o : R1) | flog2 (rm : Rnd) (o : R1)
  | frnd (rm : Rnd) (o : R1)
  -- FP64, packed halves, conversion
  | dadd (rm : Rnd) (o : R2) | dsub (rm : Rnd) (o : R2) | dmul (rm : Rnd) (o : R2) | dfma (rm : Rnd) (o : R3)
  | ddiv (rm : Rnd) (o : R2) | dsqrt (rm : Rnd) (o : R1) | dcmp (cc : FCmp) (o : R2)
  | hadd2 (rm : Rnd) (o : R2) | hmul2 (rm : Rnd) (o : R2) | hfma2 (rm : Rnd) (o : R3) | hmax2 (o : R2)
  | hcmp2 (cc : FCmp) (o : R2) | cvt (dst src : Ty) (hi : Bool) (rm : Rnd) (o : R2)
  -- significance and cross-thread
  | sigget (o : R1) | sigset (ty : Ty) (o : R2) | sigmin (ty : Ty) (o : R2)
  | bsig (kind : SigKind) (n : Fin 64) (g : Guard) (a : Reg) (target : Word)
  | shfl (ty : Ty) (seg : Fin 8) (mode : ShflMode) (o : R2) | vote (mode : VoteMode) (o : R1)
  | redx (op : RedOp) (rm : Rnd) (ty : Ty) (o : R1) | scanx (op : RedOp) (ex : Bool) (rm : Rnd) (ty : Ty) (o : R1)
  | bxch (ty : Ty) (lk ld : Fin 8) (o : R1) | mrgk (ty : Ty) (o : R1)
  -- memory, witnesses, fences
  | ld (ty : Ty) (m : MAddr) (fsel : Bool) (sig : BitVec 8) (d after : Reg)
  | st (ty : Ty) (m : MAddr) (after d wit : Reg)
  | spill (m : MAddr) (d wit : Reg) | fill (m : MAddr) (fsel : Bool) (d : Reg) | pref (l2 : Bool) (m : MAddr)
  | l1wb (m : MAddr) (d : Reg) | l1inv (m : MAddr) (d : Reg) | monitor (m : MAddr)
  | mwait (g : Guard) (timeout : Word) (d : Reg)
  | wmerge (sc : Scope) (g : Guard) (d a b : Reg) | wwait (sc : Scope) (g : Guard) (a : Reg) | wtest (sc : Scope) (o : R1)
  | fence (sc : Scope) (g : Guard) (pred succ : BitVec 8) | qfence (g : Guard) (mask : BitVec 3)
  | atomAdd (ty : Ty) (m : MAddr) (fsel : Bool) (e d wit : Reg) | atomMin (ty : Ty) (m : MAddr) (fsel : Bool) (e d wit : Reg)
  | atomMax (ty : Ty) (m : MAddr) (fsel : Bool) (e d wit : Reg) | atomAnd (ty : Ty) (m : MAddr) (fsel : Bool) (e d wit : Reg)
  | atomOr (ty : Ty) (m : MAddr) (fsel : Bool) (e d wit : Reg) | atomXor (ty : Ty) (m : MAddr) (fsel : Bool) (e d wit : Reg)
  | atomXchg (ty : Ty) (m : MAddr) (fsel : Bool) (e d wit : Reg) | atomCas (ty : Ty) (m : MAddr) (fsel : Bool) (e d wit : Reg)
  -- matrix and tiles
  | tcfg (g : Guard) (qd : Bool) (d : Fin 16) (a : Reg)
  | tld (g : Guard) (fsel sc qd : Bool) (sp : Space) (scope : Scope) (sig : BitVec 8) (d : Fin 16) (a b after : Reg)
  | tst (g : Guard) (fsel qd : Bool) (sp : Space) (scope : Scope) (d : Fin 16) (a b after wit : Reg)
  | scld (g : Guard) (fsel qd : Bool) (sp : Space) (scope : Scope) (d : Fin 16) (a after : Reg)
  | tzero (g : Guard) (qd : Bool) (d : Fin 16)
  | mma (g : Guard) (fsel : Bool) (q : QMods) (nc : Bool) (d a b c : Fin 16)
  | mmas (g : Guard) (fsel : Bool) (q : QMods) (nc : Bool) (d a b c : Fin 16) (ka kb : Fin 24)
  | ttov (g : Guard) (n : Fin 8) (row0 col0 : BitVec 8) (d : Reg) (a : Fin 16)
  | vtot (g : Guard) (n : Fin 8) (row0 col0 : BitVec 8) (d : Fin 16) (a : Reg)
  | blgive (g : Guard) | bltake (g : Guard)
  -- control and synchronisation
  | bra (g : Guard) (target : Word) | brd (g : Guard) (a : Reg) (target : Word) | brx (g : Guard) (a : Reg)
  | call (g : Guard) (d : Reg) (t : CallTgt) | ret (g : Guard) (a : Reg) | recv (mask : BitVec 12) | regang
  | exit (g : Guard) | nop (g : Guard) | yield (n : BitVec 16) | catch (g : Guard) (n : Word)
  | mark (g : Guard) (id : BitVec 24) | give (g : Guard) (n : Word) | claim (g : Guard) (n : Word)
  | bar (g : Guard) (lvl : Fin 7) (d : Reg) | bara (g : Guard) (lvl : Fin 7) (d : Reg) | barw (g : Guard) (lvl : Fin 7) (d : Reg)
  | sltake (m : MAddr) (d : Reg) | slput (m : MAddr) (after d wit : Reg)
  -- enumeration
  | enum (cert list : Bool) (d a : Reg) (b : Src) | smerge (join : Bool) (d a b : Reg) | compose (d a b : Reg)
  | mapat (d a b : Reg) | logst (m : MAddr) (d : Reg) | logcmt (sc : Scope) (d a b : Reg) | logdrop
  -- engines and tasks
  | cpy (g : Guard) (fsel : Bool) (sc : Scope) (src dst : Space) (a after : Reg)
  | gath (g : Guard) (fsel : Bool) (sc : Scope) (src dst : Space) (a after : Reg)
  | coll (g : Guard) (fsel : Bool) (sc : Scope) (a after : Reg) | evpop (g : Guard) (nb : Bool) (d : Reg)
  | dqpush (g : Guard) (a : Reg) (b : Src) | dqpop (g : Guard) (d : Reg) | aestart (g : Guard) (a : Reg) (off : Word)
  | oqpop (g : Guard) (q : Fin 4) (d : Reg) | spawn (g : Guard) (a after : Reg) | join (g : Guard) (d a : Reg)
  | park (g : Guard) (a after : Reg) (live : BitVec 16) (livebase : BitVec 8) | grtrig (g : Guard) (d a : Reg)
  -- system, debug, text
  | csacc (ty : Ty) (o : R1) | cschk (ty : Ty) (k : Fin 64) (g : Guard) (a b : Reg)
  | movc (g : Guard) (w : Bool) (num : BitVec 12) (r : Reg) | eret (g : Guard) | trap (g : Guard) (code : Word) | tfence
  | bkpt (g : Guard) (code : BitVec 24) | hprobe (m : MAddr) (fsel : Bool) (n : Fin 32) (d b : Reg) | noise (ty : Ty) (o : R3)
  -- MOVC writes with a row of their own (R403)
  | dmbWrite (g : Guard) (n : Fin 64) (a : Reg) | dmbDoorbell (g : Guard) (a : Reg) | trbaseWrite (g : Guard) (a : Reg)
  | tracePointerWrite (g : Guard) (tail : Bool) (a : Reg) | sctrClear (g : Guard) (n : Fin 64) (a : Reg)
  | dtblWrite (g : Guard) (a : Reg) | fstatWrite (g : Guard) (a : Reg) | tfWrite (g : Guard) (n : Fin 16) (a : Reg)
  -- steps of the cores
  | seatIssue (u seat : Nat) | pieceBoundary (u slot : Nat) | icacheFill (u line : Nat) (bad1 bad2 : Bool)
  | trapDelivery (u slot : Nat) | timerExpiry (u slot : Nat) | yieldExpiry (u slot : Nat) | mwaitTimeout (u slot : Nat)
  | haltComplete (u slot : Nat) | barrierPhaseComplete (u gid bnd key : Nat) | claimGrant (u : Nat)
  | sltakeGrant (u id : Nat) (remote : List DWord) | queueWaitResume (u slot : Nat) | witnessWaitResume (u slot : Nat)
  | regangGang (u slot : Nat) | monitorTrigger (id : Nat)
  -- steps of the shell
  | storeEnter (u seq : Nat) | storeSweep (u seq : Nat) | storeThrough (u seq : Nat) | l1WriteBack (u a : Nat) | l1WriteByte (u a : Nat) | l1Drop (u a : Nat)
  | l1Fetch (u a : Nat) | loadBind (u id t : Nat) (remote : List Byte) | loadBindEarly (u id t : Nat) | loadEarly (u slot t pc : Nat) | translationWalk (cl ctx va : Nat)
  | atomApply (u id : Nat) (remote : List DWord) | replicaLock (u seq : Nat) | replicaUpdate (u seq : Nat)
  | replicaCopyEvict (cl line : Nat)
  -- steps of the engines
  | engineEntryBegin (u q : Nat) | engineEntryComplete (u q : Nat) | collRoundComplete (group : DWord) (round : Nat)
  | aeElementLoad (u gid : Nat) | tileInterlockRelease (u slot : Nat)
  -- steps of the scheduler
  | trigger (w : DWord) | triggerErrorClear | runBegin (graph : Nat) | queuedRunBegin (graph : Nat)
  | recordPlace (cl u : Nat) | groupEnd (u gid : Nat) | recordPush (id : Nat) | preemptDeadlineExpiry (ctx cl : Nat)
  | jobCutRelease (ctx : Nat) | jobCutTimeout (ctx : Nat)
  -- the host and the mailbox
  | hostWrite (stream a : Nat) (data : List Byte) | hostRead (stream a n : Nat) | hostWitnessRead (stream : Nat)
  | mbxInstallGraph (image : List Byte) (ok : Bool) | mbxRemoveGraph | mbxWriteDescriptor | mbxPreempt | mbxResume | mbxJobCut
  | mbxTranslationInvalidate | mbxDebugCommand | mbxAttestation (ok : Bool) | mbxLoadFirmware (image : List Byte) (ok : Bool)
  | mbxUnknownCommand | mailboxReply
  -- debug commands (R292)
  | dbgNone (u slot cu cslot : Nat) | dbgHaltRequest (u slot cu cslot : Nat) | dbgRelease (u slot cu cslot : Nat)
  | dbgStep (u slot cu cslot : Nat) | dbgReadRegister (u slot cu cslot reg thr : Nat)
  | dbgWriteRegister (u slot cu cslot reg thr : Nat) (data : Word) | dbgReadPc (u slot cu cslot thr : Nat)
  | dbgReplay (u slot cu cslot : Nat) (pos : DWord) | dmb63Ack
  -- reliability
  | correctableError (kind idx n : Nat) | uncorrectableError (array : Nat) (owner a : Nat) | scoreHalving (kind idx : Nat)
  | unitTestOutcome (kind idx : Nat) (pass : Bool) | l2WayRetire (cl slice set way : Nat) | l2SliceRetire (cl slice : Nat)
  | hbmRegionRetire (lo len : Nat) | hbmRowRepair (stack row : Nat) | linkFlitRetry (port lane n : Nat)
  | laneSpareSwap (port lane : Nat) | routeRewrite (table : List (Nat × Nat))
  -- the fabric, power and bring-up
  | zwinenRequest (src ctx va kind : Nat) (wit : DWord) (data : List Byte) | zwinenAck (u seq : Nat)
  | clockAdjust (die : Nat) (up : Bool) | moduleReset | firmwareBoot (image : List Byte) | readyBitSet (bit : Nat) (val : Nat)
  | unitReset (u : Nat) | returnToService (u : Nat) | portRetrained (port : Nat)
  -- writes of the trace ring's registers of a core by an umpire core (R285)
  | umpireTraceBase (u : Nat) (x : DWord) | umpireTracePointer (u : Nat) (tail : Bool) (x : DWord)
  deriving DecidableEq, Repr, Inhabited

end Sys2Proof
end

