-- ==== Sys2Proof/Config.lean ====
section
/-! DEFINITION. What the spec leaves open, as constants with no body: nothing can evaluate them, so a claim that holds
holds whatever they are. Each is named in a log entry. -/
namespace Sys2Proof.Config

/-- Which step of the machine comes next when none is pending (R171, R187; log entry 1). -/
opaque schedule : Nat → Instr
/-- Whether an access still uses the held translation instead of the tables as they stand (R147; log entry 6). -/
opaque keepsOld : Nat → Bool
/-- Whether an idle lane's recomputation disagrees with the active lane (R86; log entry 8). -/
opaque shadowMismatch : Nat → Bool
/-- Whether a witness of another module is satisfied, and what its check answers (R158, R327; log entry 7): 0 satisfied,
1 not yet, 2 stale, 3 expired. -/
opaque remoteWitness : Nat → DWord → Nat
/-- Values that another module returns (R149; log entry 7). -/
opaque remoteValue : Nat → DWord
/-- A byte that another module holds, by time and address (R149; log entry 7). -/
opaque remoteByte : Nat → Nat → BitVec 8
/-- Whether the word of another module that an access reads is poisoned there (R149, R304; log entry 7). -/
opaque remotePoison : Nat → Nat → Bool
/-- The cluster and slice of another module that hold a word consumed there, as 64 * cluster + slice modulo 768 (R306; log entry 7). -/
opaque remoteOwner : Nat → Nat
/-- The set of the L1 that a line belongs to, and the line of a full set that gives its way up, as an index (R136; log entry 48). -/
opaque l1Set : Nat → Nat
opaque l1Victim : Nat → Nat
/-- The line that leaves a full instruction cache, as an index (R8, R37; log entry 20). -/
opaque icacheVictim : Nat → Nat
/-- The pseudo-channel of its stack that serves an HBM address (R306, R309; log entry 41). -/
opaque channelOf : Nat → Nat
/-- Cycles that pass on the counter of a starter or an umpire core, by its unit number, between two of its steps (R14; log entry 10). -/
opaque idleCycles : Nat → Nat → Nat
/-- Which half of a packed pair an atomic updates first (R143; log entry 26). -/
opaque highFirst : Nat → Bool
/-- Whether a rank of a collective GROUP takes part from another module (R353; log entry 7). -/
opaque remoteRank : DWord → Nat → Bool
/-- The fault that an access to another module finds there (R149; log entry 7): cause and subcode. -/
opaque remoteFault : Nat → Nat → Option (Nat × Nat)
/-- What a result that no log holds reads as while a crew replays (R288; log entry 16). -/
opaque replayValue : Nat → BitVec 32
/-- SHA-512 (R323; log entry 9). -/
opaque sha512 : List Byte → List Byte
/-- Ed25519 verification: key, message, signature (R323; log entry 9). -/
opaque ed25519 : List Byte → List Byte → List Byte → Bool
/-- The Ed25519 signature made with the device identity key (R325; log entry 9). -/
opaque identitySign : List Byte → List Byte
/-- The SHA-512 digest of the root public key held in the boot ROM (R323; log entry 9). -/
opaque rootDigest : List Byte
/-- The module's serial number (R325; log entry 9). -/
opaque serial : List Byte
/-- The CREW field of the record of a command that a cox context issued (R193; log entry 17). -/
opaque coxSlot : Nat → Nat
/-- The address that the HDR field of a node's own record holds, by graph and node (R184, R186; log entry 17). -/
opaque nodeHeader : Nat → Nat → DWord
/-- Whether scheduler memory cannot hold one more graph of a size (R321; log entry 9). -/
opaque schedulerFull : Nat → Nat → Bool
/-- What DMB48 holds after a boot that failed (R323; log entry 9). -/
opaque bootReport : Nat → BitVec 32

end Sys2Proof.Config
end

