-- ==== Sys2Proof/WellFormed.lean ====
section
/-! DEFINITION. Which instructions are well formed: the register uses of each instruction (spec R26, R27, R55) and the
conditions its reference entry puts on its fields. A failed condition is named by its ILLEGAL_FIELD subcode (R62). -/
namespace Sys2Proof

/-- A per-thread register (in a cox program: a cox register). -/
def Reg.isPer : Reg → Bool | .v _ => true | _ => false
/-- A crew register. -/
def Reg.isCrew : Reg → Bool | .k _ => true | _ => false
/-- A name that may stand in a D position (R26). -/
def Reg.isDst : Reg → Bool | .v _ => true | .k _ => true | .vz => true | _ => false

/-- Which registers a position accepts. -/
inductive Kind where
  | any | noCrew | crewOnly | crewOrVz | perOnly
  deriving DecidableEq, Repr

/-- One register operand: the low bit of its field, the register, how many registers it spans, whether it is written,
and which registers the position accepts. -/
structure Use where
  fld : Nat
  r : Reg
  n : Nat
  wr : Bool
  kind : Kind
  deriving DecidableEq, Repr

/-- The span of `n` registers from `r` is aligned to `n` and exists (R27, R55). -/
def Reg.spans (r : Reg) (n : Nat) : Bool :=
  match r with
  | .v i => i.val % n == 0 && decide (i.val + n ≤ 224)
  | .k i => i.val % n == 0 && decide (i.val + n ≤ 24)
  | .vz => true
  | .widlo => decide (n ≤ 2)
  | _ => n == 1

/-- The position accepts the register. -/
def Kind.accepts (k : Kind) (r : Reg) : Bool :=
  match k with
  | .any => true
  | .noCrew => !r.isCrew
  | .crewOnly => r.isCrew
  | .crewOrVz => r.isCrew || r == .vz
  | .perOnly => r.isPer

/-- The use breaks no static rule of R26, R27, R55 and its position. D positions take no read-only name, nor does the pair in C to which a
witness is written: R55 bars the read-only names from D, and lets `widlo` stand in a pair position without saying what a write of it would
do (DESIGN CHOICE, log entry 12). -/
def Use.ok (u : Use) : Bool := u.r.spans u.n && u.kind.accepts u.r && (u.r.isDst || (u.fld != 10 && !u.wr))

/-- A subcode when a condition fails. -/
def ck (b : Bool) (code : Nat) : List Nat := if b then [] else [code]

/-- A guard's register; a negated guard names one (R55: PN with P = vz). -/
def Guard.uses (g : Guard) : List Use := ⟨42, g.p, 1, false, .any⟩ :: (if g.neg && g.p == .vz then [⟨50, .vz, 1, false, .perOnly⟩] else [])
def Src.uses (s : Src) (n : Nat) : List Use := match s with | .reg r => [⟨26, r, n, false, .any⟩] | .imm _ => []
def R1.uses (o : R1) (nd na : Nat) : List Use := ⟨10, o.d, nd, true, .any⟩ :: ⟨18, o.a, na, false, .any⟩ :: o.g.uses
def R2.uses (o : R2) (nd na nb : Nat) : List Use := ⟨10, o.d, nd, true, .any⟩ :: ⟨18, o.a, na, false, .any⟩ :: (o.b.uses nb ++ o.g.uses)
def R3.uses (o : R3) (nd na nb nc : Nat) : List Use :=
  ⟨10, o.d, nd, true, .any⟩ :: ⟨18, o.a, na, false, .any⟩ :: ⟨34, o.c, nc, false, .any⟩ :: (o.b.uses nb ++ o.g.uses)
def Off.uses (o : Off) : List Use := match o with | .reg r => [⟨26, r, 1, false, .any⟩] | .imm _ => []
def MAddr.uses (m : MAddr) : List Use := ⟨18, m.base, 2, false, .any⟩ :: (m.off.uses ++ m.g.uses)
def useA (r : Reg) (n : Nat) (k : Kind := .any) : Use := ⟨18, r, n, false, k⟩
def useB (r : Reg) (n : Nat) (k : Kind := .any) : Use := ⟨26, r, n, false, k⟩
def useC (r : Reg) (n : Nat) (k : Kind := .any) : Use := ⟨34, r, n, false, k⟩
def useD (r : Reg) (n : Nat) (k : Kind := .any) : Use := ⟨10, r, n, true, k⟩
def useData (r : Reg) (n : Nat) (k : Kind := .any) : Use := ⟨10, r, n, false, k⟩
/-- A witness destination in C (R162). -/
def useWit (r : Reg) : Use := ⟨34, r, 2, true, .any⟩

/-- Registers a memory width spans (R392). -/
def Width.regs : Width → Nat | .b8 => 2 | .b16 => 4 | _ => 1
/-- Bytes of a memory width (R52). -/
def Width.bytes : Width → Nat | .b1 => 1 | .b2 => 2 | .b4 => 4 | .b8 => 8 | .b16 => 16
/-- The type occupies a register pair. -/
def Ty.wide : Ty → Bool | .i64 => true | .u64 => true | .f64 => true | _ => false
/-- Registers a value of the type occupies. -/
def Ty.regs (t : Ty) : Nat := if t.wide then 2 else 1
def Ty.isFloat : Ty → Bool | .f32 => true | .f64 => true | _ => false
def Ty.packed : Ty → Bool | .bf16x2 => true | .f16x2 => true | _ => false
/-- The type is an integer type of loads and arithmetic. -/
def Ty.isInt : Ty → Bool | .i32 => true | .u32 => true | .i64 => true | .u64 => true | _ => false
/-- The type's precision p where a tag is set by it (R90). -/
def Ty.prec : Ty → Nat | .f64 => 53 | .f32 => 24 | .f16x2 => 11 | .f16 => 11 | .bf16x2 => 8 | .bf16 => 8 | .e4m3 => 4 | .e5m2 => 3 | .e2m1 => 2 | _ => 0

/-- Pairings of type and width that LD and ST accept (R392). -/
def tyWidth (t : Ty) (w : Width) : Bool :=
  match t with
  | .i32 | .u32 => true
  | .i64 | .u64 => w == .b8
  | .f32 | .bf16x2 | .f16x2 => w == .b4 || w == .b16
  | .f64 => w == .b8 || w == .b16
  | _ => false

/-- A 64-bit control register (R403). -/
def ctl64 (n : Nat) : Bool :=
  [0x008, 0x009, 0x00A, 0x00B, 0x00C, 0x00D, 0x00E, 0x00F, 0x011, 0x013, 0x014, 0x015, 0x016].contains n ||
    decide (0x030 ≤ n ∧ n ≤ 0x03B) || decide (0x080 ≤ n ∧ n ≤ 0x0BF)
/-- An assigned control number (R403). -/
def ctlAssigned (n : Nat) : Bool :=
  decide (n ≤ 0x016) || decide (0x020 ≤ n ∧ n ≤ 0x03B) || decide (0x040 ≤ n ∧ n ≤ 0x07F) || decide (0x080 ≤ n ∧ n ≤ 0x0BF)
/-- A control register whose write has a row of its own in the opcode table. -/
def ctlOwnWrite (n : Nat) : Bool :=
  [0x004, 0x006, 0x014, 0x015, 0x016].contains n || decide (0x020 ≤ n ∧ n ≤ 0x02F) || decide (0x040 ≤ n ∧ n ≤ 0x0BF)
/-- A control register that only a crew register may write (R403). -/
def ctlCrewWrite (n : Nat) : Bool :=
  [0x001, 0x005, 0x007, 0x00A, 0x00C, 0x00F, 0x010, 0x011, 0x012].contains n || decide (0x030 ≤ n ∧ n ≤ 0x03B)
/-- The registers a MOVC write of control register `n` accepts. -/
def ctlSrc (n : Nat) : Kind := if ctlCrewWrite n then .crewOnly else .any
def ctlRegs (n : Nat) : Nat := if ctl64 n then 2 else 1

def slotOk (w : Word) : Bool := decide (w.toNat % 8 ≤ 4)

/-- ATOM's accepted type and operation (R336): 0 add, 1 min, 2 max, 3 and, 4 or, 5 xor, 6 xchg, 7 cas. -/
def atomTy (t : Ty) (op : Nat) : Bool :=
  match t with
  | .i32 | .u32 | .i64 | .u64 => true
  | .f32 => op ≤ 2 || op == 6 || op == 7
  | .bf16x2 | .f16x2 => op ≤ 2 || op == 6
  | _ => false

def atomUses (op : Nat) (t : Ty) (m : MAddr) (e d wit : Reg) : List Use :=
  m.uses ++ [useData d (t.regs * (if op == 7 then 2 else 1)), useWit wit, ⟨88, e, t.regs, true, .noCrew⟩]
def atomBad (op : Nat) (t : Ty) (m : MAddr) : List Nat :=
  ck (m.space != .priv) 52 ++ ck (atomTy t op) 60 ++ ck (m.width == (if t.wide then .b8 else .b4)) 54

/-- Every register operand of a slot instruction. -/
def Instr.uses : Instr → List Use
  | .iadd _ o | .isub _ o | .imul _ o | .imulhi _ o | .imin _ o | .imax _ o | .icmp _ _ o => o.uses 1 1 1
  | .iadd64 _ o => o.uses 2 2 2
  | .imad _ o => o.uses 1 1 1 1
  | .imad64 _ o => o.uses 2 1 1 2
  | .iabs o | .ineg _ o | .not o | .popc o | .clz o | .brev o => o.uses 1 1
  | .and o | .or o | .xor o | .shl o | .shr o | .sar o | .bfx _ o => o.uses 1 1 1
  | .bfi o => o.uses 1 1 1 1
  | .sel ty o => o.uses ty.regs ty.regs ty.regs 1
  | .mov ty o => o.uses ty.regs ty.regs
  | .movi _ g d _ => useD d 1 :: g.uses
  | .fadd _ o | .fsub _ o | .fmul _ o | .fdiv _ o | .fmin o | .fmax o | .fcmp _ o => o.uses 1 1 1
  | .ffma _ o => o.uses 1 1 1 1
  | .fsqrt _ o | .frcp _ o | .frsq _ o | .fexp2 _ o | .flog2 _ o | .frnd _ o => o.uses 1 1
  | .dadd _ o | .dsub _ o | .dmul _ o | .ddiv _ o => o.uses 2 2 2
  | .dfma _ o => o.uses 2 2 2 2
  | .dsqrt _ o => o.uses 2 2
  | .dcmp _ o => o.uses 1 2 2
  | .hadd2 _ o | .hmul2 _ o | .hmax2 o | .hcmp2 _ o => o.uses 1 1 1
  | .hfma2 _ o => o.uses 1 1 1 1
  | .cvt dst src _ _ o => o.uses dst.regs src.regs src.regs
  | .sigget o => o.uses 1 1
  | .sigset ty o => o.uses ty.regs ty.regs 1
  | .sigmin ty o => o.uses ty.regs ty.regs ty.regs
  | .bsig kind _ g a _ => useA a (if kind == .f64 then 2 else 1) :: g.uses
  | .shfl ty _ _ o => ⟨10, o.d, ty.regs, true, .noCrew⟩ :: useA o.a ty.regs :: (o.b.uses 1 ++ o.g.uses)
  | .vote _ o => o.uses 1 1
  | .redx _ _ ty o => o.uses ty.regs ty.regs
  | .scanx _ _ _ ty o => ⟨10, o.d, ty.regs, true, .noCrew⟩ :: useA o.a ty.regs :: o.g.uses
  | .bxch _ _ _ o => o.uses 2 2
  | .mrgk _ o => o.uses 1 2
  | .ld _ m _ _ d after => m.uses ++ [useD d m.width.regs, useC after 2]
  | .st _ m after d wit => m.uses ++ [useData d m.width.regs, useWit wit, ⟨88, after, 2, false, .any⟩]
  | .spill m d wit => m.uses ++ [useData d m.width.regs .noCrew, useWit wit]
  | .fill m _ d => m.uses ++ [useD d m.width.regs .noCrew]
  | .pref _ m => m.uses
  | .l1wb m d | .l1inv m d => useData d 1 :: m.uses
  | .monitor m => m.uses
  | .mwait g _ d => useD d 1 .noCrew :: g.uses
  | .wmerge _ g d a b => useD d 2 :: useA a 2 :: useB b 2 :: g.uses
  | .wwait _ g a => useA a 2 :: g.uses
  | .wtest _ o => o.uses 1 2
  | .fence _ g _ _ | .qfence g _ => g.uses
  | .atomAdd ty m _ e d w => atomUses 0 ty m e d w
  | .atomMin ty m _ e d w => atomUses 1 ty m e d w
  | .atomMax ty m _ e d w => atomUses 2 ty m e d w
  | .atomAnd ty m _ e d w => atomUses 3 ty m e d w
  | .atomOr ty m _ e d w => atomUses 4 ty m e d w
  | .atomXor ty m _ e d w => atomUses 5 ty m e d w
  | .atomXchg ty m _ e d w => atomUses 6 ty m e d w
  | .atomCas ty m _ e d w => atomUses 7 ty m e d w
  | .tcfg g _ _ a => useA a 1 .crewOnly :: g.uses
  | .tld g _ sc _ _ _ _ _ a b after => useA a (if sc then 4 else 2) :: useB b 1 :: useC after 2 :: g.uses
  | .tst g _ _ _ _ _ a b after wit => useA a 2 :: useB b 1 :: useC after 2 :: ⟨72, wit, 2, true, .any⟩ :: g.uses
  | .scld g _ _ _ _ _ a after => useA a 2 :: useC after 2 :: g.uses
  | .tzero g _ _ | .mma g _ _ _ _ _ _ _ => g.uses
  | .mmas g _ _ _ _ _ _ _ ka kb => ⟨64, .k ka, 1, false, .any⟩ :: ⟨64, .k kb, 1, false, .any⟩ :: g.uses
  | .ttov g _ _ _ d _ => useD d 1 .noCrew :: g.uses
  | .vtot g _ _ _ _ a => useA a 1 .noCrew :: g.uses
  | .blgive g | .bltake g | .bra g _ => g.uses
  | .brd g a _ => ⟨18, a, 1, true, .any⟩ :: g.uses
  | .brx g a | .ret g a => useA a 2 :: g.uses
  | .call g d t => useD d 2 :: ((match t with | .direct _ => [] | .indirect a => [useA a 2]) ++ g.uses)
  | .recv _ | .regang | .yield _ | .tfence => []
  | .exit g | .nop g | .catch g _ | .mark g _ | .give g _ | .claim g _ => g.uses
  | .bar g _ d | .bara g _ d | .barw g _ d => useD d 1 .noCrew :: g.uses
  | .sltake m d => useD d 1 :: m.uses
  | .slput m after d wit => m.uses ++ [useData d 1, useWit wit, ⟨88, after, 2, false, .any⟩]
  | .enum _ _ d a b => useD d 1 .perOnly :: useA a 1 :: b.uses 1
  | .smerge _ d a b | .compose d a b => [useD d 1 .perOnly, useA a 1, useB b 1]
  | .mapat d a b => [useD d 1, useA a 1, useB b 1]
  | .logst m d => useData d (if m.width = .b16 then 1 else m.width.regs) :: m.uses
  | .logcmt _ d a b => [useD d 2 .crewOrVz, useA a 1, useB b 1]
  | .logdrop => []
  | .cpy g _ _ _ _ a after | .gath g _ _ _ _ a after => useA a 2 :: useC after 2 :: g.uses
  | .coll g _ _ a after => useA a 2 :: useC after 2 :: g.uses
  | .evpop g _ d => useD d 8 :: g.uses
  | .dqpush g a b => useA a 1 :: (b.uses 1 ++ g.uses)
  | .dqpop g d => useD d 1 :: g.uses
  | .aestart g a _ => useA a 2 :: g.uses
  | .oqpop g _ d => useD d 1 .noCrew :: g.uses
  | .spawn g a after => useA a 2 :: useC after 2 :: g.uses
  | .join g d a => useD d 1 .noCrew :: useA a 2 :: g.uses
  | .park g a after _ _ => useA a 2 :: useC after 2 :: g.uses
  | .grtrig g d a => useD d 1 :: useA a 2 :: g.uses
  | .csacc ty o => o.uses 2 ty.regs
  | .cschk _ _ g a b => useA a 2 :: useB b 2 :: g.uses
  | .movc g w num r =>
      (if w then ⟨18, r, ctlRegs num.toNat, false, ctlSrc num.toNat⟩ else ⟨10, r, ctlRegs num.toNat, true, .any⟩) :: g.uses
  | .eret g | .trap g _ | .bkpt g _ => g.uses
  | .hprobe m _ _ d b => useD d 1 :: useB b 4 :: m.uses
  | .noise _ o => o.uses 1 2 1 2
  | .dmbWrite g n a => useA a 1 (if n.val ≤ 47 then .crewOnly else .any) :: g.uses
  | .dmbDoorbell g a => useA a 1 .crewOnly :: g.uses
  | .trbaseWrite g a => useA a 2 :: g.uses
  | .tracePointerWrite g _ a => useA a 2 :: g.uses
  | .sctrClear g _ a => useA a 2 :: g.uses
  | .dtblWrite g a => useA a 1 :: g.uses
  | .fstatWrite g a => useA a 1 :: g.uses
  | .tfWrite g _ a => useA a 1 .crewOnly :: g.uses
  | _ => []

def ty01 (t : Ty) : List Nat := ck (t == .i32 || t == .u32) 60
def ty02 (t : Ty) : List Nat := ck (t == .i32 || t == .i64) 60
def cvtTy (t : Ty) : Bool := match t with | .bf16 | .f16 | .bfp => false | _ => true
def noImm (s : Src) (code : Nat := 26) : List Nat := match s with | .reg _ => [] | .imm _ => ck false code
/-- R419: the rounding field stands only in a floating add. -/
def redBad (op : RedOp) (rm : Rnd) (ty : Ty) : List Nat :=
  ck (ty.isInt || ty.isFloat) 60 ++
  ck (!(ty.isFloat && (op == .and || op == .or || op == .xor))) 52 ++ ck (rm == .fmtr || (ty.isFloat && op == .add)) 55
def privSpace (m : MAddr) : List Nat := ck (m.space == .priv) 52 ++ ck (m.width == .b4 || m.width == .b8 || m.width == .b16) 54
/-- The width and scope fields of an instruction that does not use them are zero (R54). -/
def bareAddr (m : MAddr) : List Nat := ck (m.width == .b1) 54 ++ ck (m.scope == .core) 57
def liveTop (livebase : Nat) : Nat → Nat → Bool
  | 0, _ => true
  | n + 1, live => (!bitAt live n || decide (livebase + n ≤ 223)) && liveTop livebase n live

/-- The conditions of the reference entries on fields other than registers. -/
def Instr.fieldBad : Instr → List Nat
  | .iadd ty _ | .isub ty _ | .imul ty _ | .imulhi ty _ | .imad ty _ | .imad64 ty _ | .imin ty _ | .imax ty _
  | .ineg ty _ | .icmp _ ty _ => ty01 ty
  | .iadd64 ty _ => ck (ty == .i64 || ty == .u64) 60
  | .sel ty _ | .mov ty _ => ty02 ty
  | .shfl ty seg _ _ => ty02 ty ++ ck (decide (seg.val ≤ 5)) 54
  | .movi ty _ _ _ => ck (ty == .i32 || ty == .f32) 60
  | .cvt dst src hi _ o => ck (cvtTy dst && dst != src) 60 ++ ck (cvtTy src) 52 ++ ck (!hi || src.packed) 56 ++
      ck (dst.packed || o.b == .reg .vz) 26 ++ ck (!(src.wide && (match o.b with | .imm _ => true | _ => false))) 26
  | .sigset ty o => ck (ty.isFloat || ty.packed) 60 ++ (match o.b with | .imm w => ck (decide (w.toNat ≤ 255)) 64 | _ => [])
  | .sigmin ty o => ck (ty.isFloat || ty.packed) 60 ++ (match o.b with | .imm w => ck (decide (w.toNat ≤ ty.prec)) 64 | _ => [])
  | .bsig kind n _ _ t => ck (decide (n.val ≤ (match kind with | .f32 => 24 | .f64 => 53 | .h2 => 11))) 52 ++ ck (slotOk t) 64
  | .redx op rm ty _ | .scanx op _ rm ty _ => redBad op rm ty
  | .bxch ty lk l _ => ck (ty == .f32 || ty == .u32) 60 ++ ck (decide (l.val < lk.val ∧ l.val ≤ 4)) 52 ++ ck (decide (1 ≤ lk.val ∧ lk.val ≤ 5)) 55
  | .mrgk ty _ => ck (ty == .f32 || ty == .u32) 60
  | .ld ty m _ sig _ _ => ck (tyWidth ty m.width) 60 ++ ck (decide (sig.toNat = 0) || (!ty.isInt && decide (sig.toNat ≤ ty.prec + 1))) 88
  | .st ty m _ _ _ => ck (tyWidth ty m.width) 60
  | .spill m _ _ => privSpace m
  | .fill m _ _ => privSpace m ++ ck (m.scope == .core) 57
  | .pref _ m => ck (m.space != .vault) 52 ++ bareAddr m
  | .l1wb m _ | .l1inv m _ => ck (m.space == .global) 52 ++ bareAddr m
  | .monitor m => ck (m.space != .priv) 52 ++ bareAddr m
  | .atomAdd ty m _ _ _ _ => atomBad 0 ty m
  | .atomMin ty m _ _ _ _ => atomBad 1 ty m
  | .atomMax ty m _ _ _ _ => atomBad 2 ty m
  | .atomAnd ty m _ _ _ _ => atomBad 3 ty m
  | .atomOr ty m _ _ _ _ => atomBad 4 ty m
  | .atomXor ty m _ _ _ _ => atomBad 5 ty m
  | .atomXchg ty m _ _ _ _ => atomBad 6 ty m
  | .atomCas ty m _ _ _ _ => atomBad 7 ty m
  | .tld _ _ _ _ sp _ _ _ _ _ _ | .tst _ _ _ sp _ _ _ _ _ _ | .scld _ _ _ sp _ _ _ _ => ck (sp != .priv) 56
  | .mma _ _ q nc _ _ _ c => ck (!nc || c.val == 0) 34 ++ ck (!(nc && q.qc)) 55
  | .mmas _ _ q nc _ _ _ c _ _ => ck (!nc || c.val == 0) 34 ++ ck (!(nc && q.qc)) 55
  | .bra _ t | .brd _ _ t => ck (slotOk t) 64
  | .call _ _ (.direct t) => ck (slotOk t) 64
  | .sltake m _ => ck (m.space != .priv) 52 ++ ck (m.width == .b8) 54
  | .slput m _ _ _ => ck (m.space != .priv) 52 ++ ck (m.width == .b8) 54
  | .enum _ list _ _ b => (match list, b with
      | true, b => ck (b == .reg .vz) 26
      | false, .imm w => ck (decide (1 ≤ w.toNat ∧ w.toNat ≤ 32)) 64
      | false, _ => [])
  | .logst m _ => ck (m.space != .priv) 52 ++ ck (m.width != .b16) 54 ++ ck (m.scope == .core) 57
  | .cpy _ _ _ s d _ _ | .gath _ _ _ s d _ _ => ck (d != .priv) 52 ++ ck (s != .priv) 54
  | .dqpush _ _ (.imm w) => ck (decide (w.toNat ≤ 31)) 64
  | .aestart _ _ off => ck (decide (off.toNat % 8 = 0)) 64
  | .ttov _ n _ _ (.v d) _ => ck (decide (d.val + n.val < 224)) 10
  | .vtot _ n _ _ _ (.v a) => ck (decide (a.val + n.val < 224)) 18
  | .give _ n | .claim _ n => ck (n.toNat % 8 == 0 && n.toNat != 0) 64
  | .park _ _ _ live lb => ck (liveTop lb.toNat 16 live.toNat) 64
  | .csacc ty _ => ck (ty == .u32 || ty == .u64 || ty.isFloat || ty.packed) 60
  | .cschk ty k _ _ _ => ck (ty == .u64 || ty == .f64) 60 ++ ck (decide (k.val ≤ 52) && (ty != .u64 || k.val == 0)) 64
  | .movc _ w num _ => ck (ctlAssigned num.toNat) 64 ++ ck (!(w && ctlOwnWrite num.toNat)) 64
  | .hprobe m _ n _ _ => ck (m.space != .priv) 52 ++ ck (m.width == .b16) 54 ++ ck (decide (1 ≤ n.val ∧ n.val ≤ 16)) 64 ++
      ck (m.off == .reg .vz) 26
  | .noise ty _ => ck (ty == .u32 || ty == .f32) 60
  | .dmbWrite _ n _ => ck (n.val != 47) 64
  | _ => []

/-- Every ILLEGAL_FIELD subcode the instruction earns by itself. -/
def Instr.bad (i : Instr) : List Nat := (i.uses.filter (fun u => !u.ok)).map (·.fld) ++ i.fieldBad

/-- The instruction is well formed: an encoding the decoder accepts stands for it. -/
def Instr.wf (i : Instr) : Bool := i.bad.isEmpty

/-- The steps of the machine that the open order of its agents may bring at any time (95). Debug commands are steps too, but
come only with the write or the mailbox command that gives them (R292, R320). -/
def Instr.isEvent : Instr → Bool
  | .seatIssue .. | .pieceBoundary .. | .icacheFill .. | .trapDelivery .. | .timerExpiry .. | .yieldExpiry .. | .mwaitTimeout ..
  | .haltComplete .. | .barrierPhaseComplete .. | .claimGrant .. | .sltakeGrant .. | .queueWaitResume .. | .witnessWaitResume ..
  | .regangGang .. | .monitorTrigger .. | .storeEnter .. | .storeSweep .. | .storeThrough .. | .l1WriteBack .. | .l1WriteByte .. | .l1Drop ..
  | .l1Fetch .. | .loadBind .. | .loadBindEarly .. | .loadEarly .. | .translationWalk .. | .atomApply .. | .replicaLock .. | .replicaUpdate .. | .replicaCopyEvict ..
  | .engineEntryBegin .. | .engineEntryComplete .. | .collRoundComplete .. | .aeElementLoad .. | .tileInterlockRelease ..
  | .trigger .. | .triggerErrorClear | .runBegin .. | .queuedRunBegin .. | .recordPlace .. | .groupEnd .. | .recordPush ..
  | .preemptDeadlineExpiry .. | .jobCutRelease .. | .jobCutTimeout .. | .hostWrite .. | .hostRead .. | .hostWitnessRead ..
  | .mbxInstallGraph .. | .mbxRemoveGraph | .mbxWriteDescriptor | .mbxPreempt | .mbxResume | .mbxJobCut | .mbxTranslationInvalidate
  | .mbxDebugCommand | .mbxAttestation .. | .mbxLoadFirmware .. | .mbxUnknownCommand | .mailboxReply | .dmb63Ack
  | .correctableError .. | .uncorrectableError .. | .scoreHalving .. | .unitTestOutcome .. | .l2WayRetire .. | .l2SliceRetire ..
  | .hbmRegionRetire .. | .hbmRowRepair .. | .linkFlitRetry .. | .laneSpareSwap .. | .routeRewrite .. | .zwinenRequest ..
  | .zwinenAck .. | .clockAdjust .. | .moduleReset | .firmwareBoot .. | .readyBitSet .. | .unitReset .. | .returnToService ..
  | .portRetrained .. | .umpireTraceBase .. | .umpireTracePointer .. => true
  | _ => false

end Sys2Proof
end

