-- ==== Sys2Proof/Decode.lean ====
section
/-! DEFINITION. Decoding one 96-bit slot (spec R50 to R62) and, after it, the encoder. -/
namespace Sys2Proof

/-! Codes of the small fields. -/

/-- The register a number names (R26); 255 names none. -/
def Reg.ofNum (n : Nat) : Option Reg :=
  if h : n < 224 then some (.v ⟨n, h⟩)
  else if h : n - 224 < 24 then some (.k ⟨n - 224, h⟩)
  else if n = 248 then some .vz else if n = 249 then some .tid else if n = 250 then some .widlo else if n = 251 then some .widhi
  else if n = 252 then some .role else if n = 253 then some .lmask else if n = 254 then some .tfp else none
/-- The number of a register (R26). -/
def Reg.num : Reg → Nat
  | .v n => n.val | .k n => 224 + n.val | .vz => 248 | .tid => 249 | .widlo => 250 | .widhi => 251 | .role => 252
  | .lmask => 253 | .tfp => 254

/-- The type of a TY code (R53). -/
def Ty.ofCode : Nat → Option Ty
  | 0 => some .i32 | 1 => some .u32 | 2 => some .i64 | 3 => some .u64 | 4 => some .f32 | 5 => some .f64 | 6 => some .bf16x2
  | 7 => some .f16x2 | 8 => some .bf16 | 9 => some .f16 | 10 => some .e4m3 | 11 => some .e5m2 | 12 => some .e2m1
  | 13 => some .i8 | 14 => some .bfp | _ => none
/-- The TY code of a type (R53). -/
def Ty.code : Ty → Nat
  | .i32 => 0 | .u32 => 1 | .i64 => 2 | .u64 => 3 | .f32 => 4 | .f64 => 5 | .bf16x2 => 6 | .f16x2 => 7 | .bf16 => 8 | .f16 => 9
  | .e4m3 => 10 | .e5m2 => 11 | .e2m1 => 12 | .i8 => 13 | .bfp => 14

def Rnd.ofCode : Nat → Option Rnd | 0 => some .fmtr | 1 => some .rn | 2 => some .rz | 3 => some .ru | 4 => some .rd | _ => none
def Rnd.code : Rnd → Nat | .fmtr => 0 | .rn => 1 | .rz => 2 | .ru => 3 | .rd => 4
def ICmp.ofCode : Nat → Option ICmp | 0 => some .eq | 1 => some .ne | 2 => some .lt | 3 => some .le | 4 => some .gt | 5 => some .ge | _ => none
def ICmp.code : ICmp → Nat | .eq => 0 | .ne => 1 | .lt => 2 | .le => 3 | .gt => 4 | .ge => 5
def FCmp.ofCode : Nat → FCmp | 0 => .eq | 1 => .ne | 2 => .lt | 3 => .le | 4 => .gt | 5 => .ge | 6 => .un | _ => .ord
def FCmp.code : FCmp → Nat | .eq => 0 | .ne => 1 | .lt => 2 | .le => 3 | .gt => 4 | .ge => 5 | .un => 6 | .ord => 7
def Space.ofCode : Nat → Option Space | 0 => some .global | 1 => some .priv | 2 => some .vault | _ => none
def Space.code : Space → Nat | .global => 0 | .priv => 1 | .vault => 2
def Width.ofCode : Nat → Option Width | 0 => some .b1 | 1 => some .b2 | 2 => some .b4 | 3 => some .b8 | 4 => some .b16 | _ => none
def Width.code : Width → Nat | .b1 => 0 | .b2 => 1 | .b4 => 2 | .b8 => 3 | .b16 => 4
def Scope.ofCode : Nat → Option Scope | 0 => some .core | 1 => some .cluster | 2 => some .module | 3 => some .domain | 4 => some .system | _ => none
def Scope.code : Scope → Nat | .core => 0 | .cluster => 1 | .module => 2 | .domain => 3 | .system => 4
def ShflMode.ofCode : Nat → ShflMode | 0 => .idx | 1 => .up | 2 => .down | _ => .xor
def ShflMode.code : ShflMode → Nat | .idx => 0 | .up => 1 | .down => 2 | .xor => 3
def VoteMode.ofCode : Nat → VoteMode | 0 => .all | 1 => .any | 2 => .eq | _ => .ballot
def VoteMode.code : VoteMode → Nat | .all => 0 | .any => 1 | .eq => 2 | .ballot => 3
def RedOp.ofCode : Nat → Option RedOp | 0 => some .add | 1 => some .min | 2 => some .max | 3 => some .and | 4 => some .or | 5 => some .xor | _ => none
def RedOp.code : RedOp → Nat | .add => 0 | .min => 1 | .max => 2 | .and => 3 | .or => 4 | .xor => 5
def SigKind.ofCode : Nat → Option SigKind | 0 => some .f32 | 1 => some .f64 | 2 => some .h2 | _ => none
def SigKind.code : SigKind → Nat | .f32 => 0 | .f64 => 1 | .h2 => 2

/-- The fields of a slot (R50). -/
structure Raw where
  opc : BitVec 10
  d : BitVec 8
  a : BitVec 8
  b : BitVec 8
  c : BitVec 8
  p : BitVec 8
  pn : Bool
  fsel : Bool
  mod : BitVec 8
  ty : BitVec 4
  imm : BitVec 32
  deriving DecidableEq, Repr

/-- The fields of a slot, at the bit positions of R50. -/
def Raw.ofSlot (s : Slot) : Raw where
  opc := s.extractLsb' 0 10
  d := s.extractLsb' 10 8
  a := s.extractLsb' 18 8
  b := s.extractLsb' 26 8
  c := s.extractLsb' 34 8
  p := s.extractLsb' 42 8
  pn := s.getLsbD 50
  fsel := s.getLsbD 51
  mod := s.extractLsb' 52 8
  ty := s.extractLsb' 60 4
  imm := s.extractLsb' 64 32

/-! Reading fields. Each check names the subcode it earns (R62). -/
namespace Raw

def m (r : Raw) (lo n : Nat) : Nat := bitsAt r.mod.toNat lo n
def i (r : Raw) (lo n : Nat) : Nat := bitsAt r.imm.toNat lo n
/-- A field of MOD that must be zero. -/
def mz (r : Raw) (lo n code : Nat) : List Nat := ck (r.m lo n == 0) code
/-- A field of IMM32 that must be zero. -/
def iz (r : Raw) (lo n code : Nat) : List Nat := ck (r.i lo n == 0) code
def reg (x : BitVec 8) : Reg := (Reg.ofNum x.toNat).getD .vz
/-- A register field that holds a register (R55). -/
def isReg (x : BitVec 8) (code : Nat) : List Nat := ck (x != 255#8) code
/-- An unused register field holds vz (R54). -/
def un (x : BitVec 8) (code : Nat) : List Nat := ck (x == 248#8) code
def tile (x : BitVec 8) : Fin 16 := Fin.ofNat 16 x.toNat
def isTile (x : BitVec 8) (code : Nat) : List Nat := ck (decide (x.toNat < 16)) code

def src (r : Raw) : Src := if r.b == 255#8 then .imm r.imm else .reg (reg r.b)
/-- IMM32 holds zero unless B = 255 selects it. -/
def srcOk (r : Raw) : List Nat := ck (r.b == 255#8 || r.imm == 0#32) 64
def guard (r : Raw) : Guard := ⟨reg r.p, r.pn⟩
/-- R55: 255 in P, or PN with P = vz. -/
def guardOk (r : Raw) : List Nat := isReg r.p 42 ++ ck (!(r.pn && r.p == 248#8)) 50
def noGuard (r : Raw) : List Nat := un r.p 42 ++ ck (!r.pn) 50
def noFsel (r : Raw) : List Nat := ck (!r.fsel) 51
def tyIs (r : Raw) (n : Nat) : List Nat := ck (r.ty.toNat == n) 60
def tyOk (r : Raw) : List Nat := ck (r.ty.toNat != 15) 60
def typ (r : Raw) : Ty := (Ty.ofCode r.ty.toNat).getD .i32

def r1 (r : Raw) : R1 := ⟨r.guard, reg r.d, reg r.a⟩
def r2 (r : Raw) : R2 := ⟨r.guard, reg r.d, reg r.a, r.src⟩
def r3 (r : Raw) : R3 := ⟨r.guard, reg r.d, reg r.a, r.src, reg r.c⟩
/-- Field use of a unary instruction: B and C unused, no immediate. -/
def ok1 (r : Raw) : List Nat := r.guardOk ++ r.noFsel ++ isReg r.d 10 ++ isReg r.a 18 ++ un r.b 26 ++ un r.c 34 ++ r.iz 0 32 64
def ok2 (r : Raw) : List Nat := r.guardOk ++ r.noFsel ++ isReg r.d 10 ++ isReg r.a 18 ++ un r.c 34 ++ r.srcOk
def ok3 (r : Raw) : List Nat := r.guardOk ++ r.noFsel ++ isReg r.d 10 ++ isReg r.a 18 ++ isReg r.c 34 ++ r.srcOk
/-- Rounding in MOD[7:5] (R362). -/
def rnd (r : Raw) : Rnd := (Rnd.ofCode (r.m 5 3)).getD .fmtr
def rndOk (r : Raw) : List Nat := ck (decide (r.m 5 3 ≤ 4)) 57 ++ r.mz 3 2 55 ++ r.mz 0 3 52
def noRnd (r : Raw) : List Nat := r.mz 5 3 57 ++ r.mz 3 2 55
/-- Integer members: MOD[7:3] zero, MOD[2:0] zero outside ICMP (R384). -/
def intMod (r : Raw) : List Nat := r.mz 3 5 55 ++ r.mz 0 3 52

def maddr (r : Raw) : MAddr where
  g := r.guard
  space := (Space.ofCode (r.m 0 2)).getD .global
  width := (Width.ofCode (r.m 2 3)).getD .b1
  scope := (Scope.ofCode (r.m 5 3)).getD .core
  base := reg r.a
  off := if r.b == 255#8 then .imm (r.imm.extractLsb' 0 24) else .reg (reg r.b)
/-- Format M checks (R52), without the extension byte. -/
def maddrOk (r : Raw) : List Nat :=
  r.guardOk ++ ck (r.m 0 2 != 3) 52 ++ ck (decide (r.m 2 3 ≤ 4)) 54 ++ ck (decide (r.m 5 3 ≤ 4)) 57 ++ isReg r.a 18 ++
    ck (r.b == 255#8 || r.i 0 24 == 0) 64
def ext (r : Raw) : BitVec 8 := r.imm.extractLsb' 24 8
def isPairExt (r : Raw) : List Nat := isReg r.ext 88

def scopeLo (r : Raw) : Scope := (Scope.ofCode (r.m 0 3)).getD .core
def scopeHi (r : Raw) : Scope := (Scope.ofCode (r.m 5 3)).getD .core
/-- A control instruction of format S that uses only its guard and IMM32. -/
def okS (r : Raw) : List Nat := r.guardOk ++ r.noFsel ++ un r.d 10 ++ un r.a 18 ++ un r.b 26 ++ un r.c 34 ++ r.tyIs 0 ++ r.mz 0 8 52
/-- A branch of format C. -/
def okC (r : Raw) : List Nat := r.guardOk ++ r.noFsel ++ r.tyIs 0 ++ un r.b 26 ++ un r.c 34
/-- An engine or task instruction of format E with no modifier. -/
def okE (r : Raw) : List Nat := r.guardOk ++ r.tyIs 0 ++ r.mz 0 8 52
/-- The tile instructions' scope and bytes in IMM32 (R424). -/
def scopeImm (r : Raw) : Scope := (Scope.ofCode (r.i 0 3)).getD .core
def tileOk (r : Raw) : List Nat :=
  r.guardOk ++ r.tyIs 0 ++ r.mz 7 1 59 ++ ck (r.m 4 2 != 3) 56 ++ r.mz 1 3 53 ++ isTile r.d 10 ++ isReg r.a 18 ++ isReg r.c 34 ++
    ck (decide (r.i 0 3 ≤ 4)) 64 ++ r.iz 3 5 67 ++ r.iz 16 16 80
def spaceTile (r : Raw) : Space := (Space.ofCode (r.m 4 2)).getD .global
def qmods (r : Raw) : QMods := ⟨bitAt r.mod.toNat 0, bitAt r.mod.toNat 1, bitAt r.mod.toNat 2, bitAt r.mod.toNat 3⟩
def mmaOk (r : Raw) : List Nat := r.guardOk ++ r.tyIs 0 ++ r.mz 5 3 57 ++ isTile r.d 10 ++ isTile r.a 18 ++ isTile r.b 26 ++ isTile r.c 34
def copyOk (r : Raw) : List Nat :=
  r.guardOk ++ r.tyIs 0 ++ ck (decide (r.m 5 3 ≤ 4)) 57 ++ r.mz 4 1 56 ++ ck (r.m 2 2 != 3) 54 ++ ck (r.m 0 2 != 3) 52 ++
    un r.d 10 ++ isReg r.a 18 ++ un r.b 26 ++ isReg r.c 34 ++ r.iz 0 32 64
def spDst (r : Raw) : Space := (Space.ofCode (r.m 0 2)).getD .global
def spSrc (r : Raw) : Space := (Space.ofCode (r.m 2 2)).getD .global
def xOk (r : Raw) : List Nat := r.noGuard ++ r.noFsel ++ r.tyIs 0 ++ un r.c 34
/-- The MOVC a word stands for: the writes with a row of their own by control number (R403). -/
def movcInstr (r : Raw) : Instr :=
  let n := r.i 0 12
  let a := reg r.a
  let g := r.guard
  if r.m 0 1 == 0 then .movc g false (r.imm.extractLsb' 0 12) (reg r.d)
  else if n == 4 then .dtblWrite g a
  else if n == 6 then .fstatWrite g a
  else if n == 0x14 then .trbaseWrite g a
  else if n == 0x15 then .tracePointerWrite g false a
  else if n == 0x16 then .tracePointerWrite g true a
  else if 0x20 ≤ n ∧ n < 0x30 then .tfWrite g (Fin.ofNat 16 (n - 0x20)) a
  else if n == 0x6F then .dmbDoorbell g a
  else if 0x40 ≤ n ∧ n < 0x80 then .dmbWrite g (Fin.ofNat 64 (n - 0x40)) a
  else if 0x80 ≤ n ∧ n < 0xC0 then .sctrClear g (Fin.ofNat 64 (n - 0x80)) a
  else .movc g true (r.imm.extractLsb' 0 12) a
def movcOk (r : Raw) : List Nat :=
  r.guardOk ++ r.noFsel ++ r.tyIs 0 ++ r.mz 1 7 53 ++ un r.b 26 ++ un r.c 34 ++ r.iz 12 20 76 ++
    (if r.m 0 1 == 0 then un r.a 18 ++ isReg r.d 10 else un r.d 10 ++ isReg r.a 18)

end Raw

/-- The instruction of an operation id and the subcodes that its unused fields and reserved values earn, field by
field as the reference entries give them; none for an unassigned id (R60, R61). -/
def parse (id : Nat) (r : Raw) : Option (List Nat × Instr) :=
  let g := r.guard
  let ty := r.typ
  let m := r.maddr
  let rm := r.rnd
  let d := Raw.reg r.d
  let a := Raw.reg r.a
  let b := Raw.reg r.b
  let c := Raw.reg r.c
  let int2 (f : Ty → R2 → Instr) := some (r.ok2 ++ r.tyOk ++ r.intMod, f ty r.r2)
  let log2 (f : R2 → Instr) := some (r.ok2 ++ r.tyIs 0 ++ r.mz 0 8 52, f r.r2)
  let log1 (f : R1 → Instr) := some (r.ok1 ++ r.tyIs 0 ++ r.mz 0 8 52, f r.r1)
  let fp2 (t : Nat) (f : Rnd → R2 → Instr) := some (r.ok2 ++ r.tyIs t ++ r.rndOk, f rm r.r2)
  let fp3 (t : Nat) (f : Rnd → R3 → Instr) := some (r.ok3 ++ r.tyIs t ++ r.rndOk, f rm r.r3)
  let fp1 (t : Nat) (f : Rnd → R1 → Instr) := some (r.ok1 ++ r.tyIs t ++ r.rndOk, f rm r.r1)
  let fpx (t : Nat) (f : R2 → Instr) := some (r.ok2 ++ r.tyIs t ++ r.noRnd ++ r.mz 0 3 52, f r.r2)
  let fpc (t : Nat) (f : FCmp → R2 → Instr) := some (r.ok2 ++ r.tyIs t ++ r.noRnd, f (FCmp.ofCode (r.m 0 3)) r.r2)
  let atom (f : Ty → MAddr → Bool → Reg → Reg → Reg → Instr) :=
    some (r.maddrOk ++ r.tyOk ++ Raw.isReg r.d 10 ++ Raw.isReg r.c 34 ++ r.isPairExt, f ty m r.fsel (Raw.reg r.ext) d c)
  let sI (f : Guard → Word → Instr) := some (r.okS, f g r.imm)
  match id with
  | 0x000 => int2 .iadd | 0x001 => int2 .iadd64 | 0x002 => int2 .isub | 0x003 => int2 .imul | 0x004 => int2 .imulhi
  | 0x005 => some (r.ok3 ++ r.tyOk ++ r.intMod, .imad ty r.r3)
  | 0x006 => some (r.ok3 ++ r.tyOk ++ r.intMod, .imad64 ty r.r3)
  | 0x007 => int2 .imin | 0x008 => int2 .imax
  | 0x009 => some (r.ok1 ++ r.tyIs 0 ++ r.intMod, .iabs r.r1)
  | 0x00A => some (r.ok1 ++ r.tyOk ++ r.intMod, .ineg ty r.r1)
  | 0x00B => log2 .and | 0x00C => log2 .or | 0x00D => log2 .xor | 0x00E => log1 .not
  | 0x00F => log2 .shl | 0x010 => log2 .shr | 0x011 => log2 .sar
  | 0x012 => some (r.ok2 ++ r.tyIs 0 ++ r.mz 1 7 53, .bfx (bitAt r.mod.toNat 0) r.r2)
  | 0x013 => some (r.ok3 ++ r.tyIs 0 ++ r.mz 0 8 52, .bfi r.r3)
  | 0x014 => log1 .popc | 0x015 => log1 .clz | 0x016 => log1 .brev
  | 0x017 => some (r.ok2 ++ r.tyOk ++ r.mz 3 5 55 ++ ck (decide (r.m 0 3 ≤ 5)) 52, .icmp ((ICmp.ofCode (r.m 0 3)).getD .eq) ty r.r2)
  | 0x018 => some (r.ok3 ++ r.tyOk ++ r.mz 0 8 52, .sel ty r.r3)
  | 0x019 => some (r.ok1 ++ r.tyOk ++ r.mz 0 8 52, .mov ty r.r1)
  | 0x01A => some (r.guardOk ++ r.noFsel ++ Raw.isReg r.d 10 ++ Raw.un r.a 18 ++ ck (r.b == 255#8) 26 ++ Raw.un r.c 34 ++ r.tyOk ++ r.mz 0 8 52,
      .movi ty g d r.imm)
  | 0x040 => fp2 4 .fadd | 0x041 => fp2 4 .fsub | 0x042 => fp2 4 .fmul | 0x043 => fp3 4 .ffma
  | 0x044 => fpx 4 .fmin | 0x045 => fpx 4 .fmax | 0x046 => fpc 4 .fcmp | 0x047 => fp2 4 .fdiv
  | 0x048 => fp1 4 .fsqrt | 0x049 => fp1 4 .frcp | 0x04A => fp1 4 .frsq | 0x04B => fp1 4 .fexp2 | 0x04C => fp1 4 .flog2 | 0x04D => fp1 4 .frnd
  | 0x080 => fp2 5 .dadd | 0x081 => fp2 5 .dsub | 0x082 => fp2 5 .dmul | 0x083 => fp3 5 .dfma | 0x084 => fp2 5 .ddiv
  | 0x085 => fp1 5 .dsqrt | 0x086 => fpc 5 .dcmp
  | 0x088 => fp2 0 .hadd2 | 0x089 => fp2 0 .hmul2 | 0x08A => fp3 0 .hfma2 | 0x08B => fpx 0 .hmax2 | 0x08C => fpc 0 .hcmp2
  | 0x090 => some (r.ok2 ++ r.tyOk ++ ck (r.m 0 4 != 15) 52 ++ ck (decide (r.m 5 3 ≤ 4)) 57,
      .cvt ty ((Ty.ofCode (r.m 0 4)).getD .i32) (bitAt r.mod.toNat 4) rm r.r2)
  | 0x0C0 => log1 .sigget
  | 0x0C1 => some (r.ok2 ++ r.tyOk ++ r.mz 0 8 52, .sigset ty r.r2)
  | 0x0C2 => some (r.ok2 ++ r.tyOk ++ r.mz 0 8 52, .sigmin ty r.r2)
  | 0x0C3 => some (r.okC ++ Raw.un r.d 10 ++ Raw.isReg r.a 18 ++ ck (r.m 6 2 != 3) 58,
      .bsig ((SigKind.ofCode (r.m 6 2)).getD .f32) (Fin.ofNat 64 (r.m 0 6)) g a r.imm)
  | 0x0C8 => some (r.ok2 ++ r.tyOk ++ r.mz 5 3 57, .shfl ty (Fin.ofNat 8 (r.m 2 3)) (ShflMode.ofCode (r.m 0 2)) r.r2)
  | 0x0C9 => some (r.ok1 ++ r.tyIs 0 ++ r.mz 2 6 54, .vote (VoteMode.ofCode (r.m 0 2)) r.r1)
  | 0x0CA => some (r.ok1 ++ r.tyOk ++ r.mz 6 2 58 ++ ck (decide (r.m 3 3 ≤ 4)) 55 ++ ck (decide (r.m 0 3 ≤ 5)) 52,
      .redx ((RedOp.ofCode (r.m 0 3)).getD .add) ((Rnd.ofCode (r.m 3 3)).getD .fmtr) ty r.r1)
  | 0x0CB => some (r.ok1 ++ r.tyOk ++ r.mz 7 1 59 ++ ck (decide (r.m 3 3 ≤ 4)) 55 ++ ck (decide (r.m 0 3 ≤ 5)) 52,
      .scanx ((RedOp.ofCode (r.m 0 3)).getD .add) (bitAt r.mod.toNat 6) ((Rnd.ofCode (r.m 3 3)).getD .fmtr) ty r.r1)
  | 0x0CC => some (r.ok1 ++ r.tyOk ++ r.mz 6 2 58, .bxch ty (Fin.ofNat 8 (r.m 3 3)) (Fin.ofNat 8 (r.m 0 3)) r.r1)
  | 0x0CD => some (r.ok1 ++ r.tyOk ++ r.mz 0 8 52, .mrgk ty r.r1)
  | 0x100 => some (r.maddrOk ++ r.tyOk ++ Raw.isReg r.d 10 ++ Raw.isReg r.c 34, .ld ty m r.fsel r.ext d c)
  | 0x101 => some (r.maddrOk ++ r.noFsel ++ r.tyOk ++ Raw.isReg r.d 10 ++ Raw.isReg r.c 34 ++ r.isPairExt, .st ty m (Raw.reg r.ext) d c)
  | 0x102 => some (r.maddrOk ++ r.noFsel ++ r.tyIs 0 ++ Raw.isReg r.d 10 ++ Raw.isReg r.c 34 ++ r.iz 24 8 88, .spill m d c)
  | 0x103 => some (r.maddrOk ++ r.tyIs 0 ++ Raw.isReg r.d 10 ++ Raw.un r.c 34 ++ r.iz 24 8 88, .fill m r.fsel d)
  | 0x104 => some (r.maddrOk ++ r.noFsel ++ r.tyIs 0 ++ Raw.un r.d 10 ++ Raw.un r.c 34 ++ r.iz 24 8 88 ++ ck (decide (r.m 5 3 ≤ 1)) 57,
      .pref (r.m 5 3 == 1) { m with scope := .core })
  | 0x105 => some (r.maddrOk ++ r.noFsel ++ r.tyIs 0 ++ Raw.isReg r.d 10 ++ Raw.un r.c 34 ++ r.iz 24 8 88, .l1wb m d)
  | 0x106 => some (r.maddrOk ++ r.noFsel ++ r.tyIs 0 ++ Raw.isReg r.d 10 ++ Raw.un r.c 34 ++ r.iz 24 8 88, .l1inv m d)
  | 0x107 => some (r.maddrOk ++ r.noFsel ++ r.tyIs 0 ++ Raw.un r.d 10 ++ Raw.un r.c 34 ++ r.iz 24 8 88, .monitor m)
  | 0x108 => some (r.guardOk ++ r.noFsel ++ Raw.isReg r.d 10 ++ Raw.un r.a 18 ++ Raw.un r.b 26 ++ Raw.un r.c 34 ++ r.tyIs 0 ++ r.mz 0 8 52,
      .mwait g r.imm d)
  | 0x110 => some (r.guardOk ++ r.noFsel ++ r.tyIs 0 ++ r.mz 3 5 55 ++ ck (decide (r.m 0 3 ≤ 4)) 52 ++ Raw.isReg r.d 10 ++ Raw.isReg r.a 18 ++
      Raw.isReg r.b 26 ++ Raw.un r.c 34 ++ r.iz 0 32 64, .wmerge r.scopeLo g d a b)
  | 0x111 => some (r.guardOk ++ r.noFsel ++ r.tyIs 0 ++ r.mz 3 5 55 ++ ck (decide (r.m 0 3 ≤ 4)) 52 ++ Raw.un r.d 10 ++ Raw.isReg r.a 18 ++
      Raw.un r.b 26 ++ Raw.un r.c 34 ++ r.iz 0 32 64, .wwait r.scopeLo g a)
  | 0x112 => some (r.ok1 ++ r.tyIs 0 ++ r.mz 3 5 55 ++ ck (decide (r.m 0 3 ≤ 4)) 52, .wtest r.scopeLo r.r1)
  | 0x118 => some (r.guardOk ++ r.noFsel ++ Raw.un r.d 10 ++ Raw.un r.a 18 ++ Raw.un r.b 26 ++ Raw.un r.c 34 ++ r.tyIs 0 ++ r.mz 3 5 55 ++
      ck (decide (r.m 0 3 ≤ 4)) 52 ++ r.iz 16 16 80, .fence r.scopeLo g (r.imm.extractLsb' 0 8) (r.imm.extractLsb' 8 8))
  | 0x119 => some (r.okS ++ r.iz 3 29 67, .qfence g (r.imm.extractLsb' 0 3))
  | 0x140 => atom .atomAdd | 0x141 => atom .atomMin | 0x142 => atom .atomMax | 0x143 => atom .atomAnd
  | 0x144 => atom .atomOr | 0x145 => atom .atomXor | 0x146 => atom .atomXchg | 0x147 => atom .atomCas
  | 0x180 => some (r.guardOk ++ r.noFsel ++ r.tyIs 0 ++ r.mz 1 7 53 ++ Raw.isTile r.d 10 ++ Raw.isReg r.a 18 ++ Raw.un r.b 26 ++ Raw.un r.c 34 ++
      r.iz 0 32 64, .tcfg g (bitAt r.mod.toNat 0) (Raw.tile r.d) a)
  | 0x181 => some (r.tileOk ++ Raw.isReg r.b 26,
      .tld g r.fsel (bitAt r.mod.toNat 6) (bitAt r.mod.toNat 0) r.spaceTile r.scopeImm (r.imm.extractLsb' 8 8) (Raw.tile r.d) a b c)
  | 0x182 => some (r.tileOk ++ r.mz 6 1 58 ++ Raw.isReg r.b 26 ++ Raw.isReg (r.imm.extractLsb' 8 8) 72,
      .tst g r.fsel (bitAt r.mod.toNat 0) r.spaceTile r.scopeImm (Raw.tile r.d) a b c (Raw.reg (r.imm.extractLsb' 8 8)))
  | 0x183 => some (r.guardOk ++ r.noFsel ++ r.tyIs 0 ++ r.mz 1 7 53 ++ Raw.isTile r.d 10 ++ Raw.un r.a 18 ++ Raw.un r.b 26 ++ Raw.un r.c 34 ++
      r.iz 0 32 64, .tzero g (bitAt r.mod.toNat 0) (Raw.tile r.d))
  | 0x184 => some (r.mmaOk ++ r.iz 0 32 64, .mma g r.fsel r.qmods (bitAt r.mod.toNat 4) (Raw.tile r.d) (Raw.tile r.a) (Raw.tile r.b) (Raw.tile r.c))
  | 0x185 => some (r.mmaOk ++ r.iz 16 16 80 ++ ck (decide (224 ≤ r.i 0 8 ∧ r.i 0 8 < 248 ∧ 224 ≤ r.i 8 8 ∧ r.i 8 8 < 248)) 64,
      .mmas g r.fsel r.qmods (bitAt r.mod.toNat 4) (Raw.tile r.d) (Raw.tile r.a) (Raw.tile r.b) (Raw.tile r.c)
        (Fin.ofNat 24 (r.i 0 8 - 224)) (Fin.ofNat 24 (r.i 8 8 - 224)))
  | 0x186 => some (r.guardOk ++ r.noFsel ++ r.tyIs 0 ++ r.mz 3 5 55 ++ r.iz 16 16 80 ++ Raw.isReg r.d 10 ++ Raw.isTile r.a 18 ++ Raw.un r.b 26 ++
      Raw.un r.c 34, .ttov g (Fin.ofNat 8 (r.m 0 3)) (r.imm.extractLsb' 8 8) (r.imm.extractLsb' 0 8) d (Raw.tile r.a))
  | 0x187 => some (r.guardOk ++ r.noFsel ++ r.tyIs 0 ++ r.mz 3 5 55 ++ r.iz 16 16 80 ++ Raw.isTile r.d 10 ++ Raw.isReg r.a 18 ++ Raw.un r.b 26 ++
      Raw.un r.c 34, .vtot g (Fin.ofNat 8 (r.m 0 3)) (r.imm.extractLsb' 8 8) (r.imm.extractLsb' 0 8) (Raw.tile r.d) a)
  | 0x188 => some (r.tileOk ++ r.mz 6 1 58 ++ Raw.un r.b 26 ++ r.iz 8 8 72,
      .scld g r.fsel (bitAt r.mod.toNat 0) r.spaceTile r.scopeImm (Raw.tile r.d) a c)
  | 0x189 => some (r.okS ++ r.iz 0 32 64, .blgive g)
  | 0x18A => some (r.okS ++ r.iz 0 32 64, .bltake g)
  | 0x1C0 => some (r.okC ++ r.mz 0 8 52 ++ Raw.un r.d 10 ++ Raw.un r.a 18, .bra g r.imm)
  | 0x1C1 => some (r.okC ++ r.mz 0 8 52 ++ Raw.un r.d 10 ++ Raw.isReg r.a 18, .brd g a r.imm)
  | 0x1C2 => some (r.okC ++ r.mz 0 8 52 ++ Raw.un r.d 10 ++ Raw.isReg r.a 18 ++ r.iz 0 32 64, .brx g a)
  | 0x1C3 => some (r.okC ++ r.mz 1 7 53 ++ Raw.isReg r.d 10 ++
      (if r.m 0 1 == 0 then Raw.un r.a 18 else Raw.isReg r.a 18 ++ r.iz 0 32 64),
      .call g d (if r.m 0 1 == 0 then .direct r.imm else .indirect a))
  | 0x1C4 => some (r.okC ++ r.mz 0 8 52 ++ Raw.un r.d 10 ++ Raw.isReg r.a 18 ++ r.iz 0 32 64, .ret g a)
  | 0x1C5 => some (r.okS ++ r.noGuard ++ r.iz 12 20 76, .recv (r.imm.extractLsb' 0 12))
  | 0x1C6 => some (r.okS ++ r.noGuard ++ r.iz 0 32 64, .regang)
  | 0x1C7 => some (r.okS ++ r.iz 0 32 64, .exit g)
  | 0x1C8 => some (r.okS ++ r.iz 0 32 64, .nop g)
  | 0x1C9 => some (r.okS ++ r.noGuard ++ r.iz 16 16 80, .yield (r.imm.extractLsb' 0 16))
  | 0x1CA => sI .catch
  | 0x1CB => some (r.okS ++ r.iz 24 8 88, .mark g (r.imm.extractLsb' 0 24))
  | 0x1D0 => sI .give | 0x1D1 => sI .claim
  | 0x1D8 | 0x1D9 | 0x1DA =>
      some (r.guardOk ++ r.noFsel ++ Raw.isReg r.d 10 ++ Raw.un r.a 18 ++ Raw.un r.b 26 ++ ck (decide (r.c.toNat ≤ 6)) 34 ++ r.tyIs 0 ++
        r.mz 0 8 52 ++ r.iz 0 32 64,
        if id = 0x1D8 then .bar g (Fin.ofNat 7 r.c.toNat) d else if id = 0x1D9 then .bara g (Fin.ofNat 7 r.c.toNat) d
        else .barw g (Fin.ofNat 7 r.c.toNat) d)
  | 0x1DB => some (r.maddrOk ++ r.noFsel ++ r.tyIs 1 ++ Raw.isReg r.d 10 ++ Raw.un r.c 34 ++ r.iz 24 8 88, .sltake m d)
  | 0x1DC => some (r.maddrOk ++ r.noFsel ++ r.tyIs 1 ++ Raw.isReg r.d 10 ++ Raw.isReg r.c 34 ++ r.isPairExt, .slput m (Raw.reg r.ext) d c)
  | 0x200 => some (r.xOk ++ r.mz 2 6 54 ++ Raw.isReg r.d 10 ++ Raw.isReg r.a 18 ++ r.srcOk,
      .enum (bitAt r.mod.toNat 1) (bitAt r.mod.toNat 0) d a r.src)
  | 0x201 => some (r.xOk ++ r.mz 1 7 53 ++ Raw.isReg r.d 10 ++ Raw.isReg r.a 18 ++ Raw.isReg r.b 26 ++ r.iz 0 32 64, .smerge (bitAt r.mod.toNat 0) d a b)
  | 0x202 => some (r.xOk ++ r.mz 0 8 52 ++ Raw.isReg r.d 10 ++ Raw.isReg r.a 18 ++ Raw.isReg r.b 26 ++ r.iz 0 32 64, .compose d a b)
  | 0x203 => some (r.xOk ++ r.mz 0 8 52 ++ Raw.isReg r.d 10 ++ Raw.isReg r.a 18 ++ Raw.isReg r.b 26 ++ r.iz 0 32 64, .mapat d a b)
  | 0x204 => some (r.maddrOk ++ r.noFsel ++ r.tyIs 0 ++ Raw.isReg r.d 10 ++ Raw.un r.c 34 ++ r.iz 24 8 88, .logst m d)
  | 0x205 => some (r.xOk ++ r.mz 3 5 55 ++ ck (decide (r.m 0 3 ≤ 4)) 52 ++ Raw.isReg r.d 10 ++ Raw.isReg r.a 18 ++ Raw.isReg r.b 26 ++ r.iz 0 32 64,
      .logcmt r.scopeLo d a b)
  | 0x206 => some (r.okS ++ r.noGuard ++ r.iz 0 32 64, .logdrop)
  | 0x240 => some (r.copyOk, .cpy g r.fsel r.scopeHi r.spSrc r.spDst a c)
  | 0x241 => some (r.copyOk, .gath g r.fsel r.scopeHi r.spSrc r.spDst a c)
  | 0x242 => some (r.guardOk ++ r.tyIs 0 ++ r.mz 3 5 55 ++ ck (decide (r.m 0 3 ≤ 4)) 52 ++ Raw.un r.d 10 ++ Raw.isReg r.a 18 ++ Raw.un r.b 26 ++
      Raw.isReg r.c 34 ++ r.iz 0 32 64, .coll g r.fsel r.scopeLo a c)
  | 0x243 => some (r.guardOk ++ r.noFsel ++ r.tyIs 0 ++ r.mz 1 7 53 ++ Raw.isReg r.d 10 ++ Raw.un r.a 18 ++ Raw.un r.b 26 ++ Raw.un r.c 34 ++ r.iz 0 32 64,
      .evpop g (bitAt r.mod.toNat 0) d)
  | 0x244 => some (r.okE ++ r.noFsel ++ Raw.un r.d 10 ++ Raw.isReg r.a 18 ++ Raw.un r.c 34 ++ r.srcOk, .dqpush g a r.src)
  | 0x245 => some (r.okE ++ r.noFsel ++ Raw.isReg r.d 10 ++ Raw.un r.a 18 ++ Raw.un r.b 26 ++ Raw.un r.c 34 ++ r.iz 0 32 64, .dqpop g d)
  | 0x246 => some (r.okE ++ r.noFsel ++ Raw.un r.d 10 ++ Raw.isReg r.a 18 ++ Raw.un r.b 26 ++ Raw.un r.c 34, .aestart g a r.imm)
  | 0x247 => some (r.okE ++ r.noFsel ++ Raw.isReg r.d 10 ++ Raw.un r.a 18 ++ ck (decide (r.b.toNat ≤ 3)) 26 ++ Raw.un r.c 34 ++ r.iz 0 32 64,
      .oqpop g (Fin.ofNat 4 r.b.toNat) d)
  | 0x250 => some (r.okE ++ r.noFsel ++ Raw.un r.d 10 ++ Raw.isReg r.a 18 ++ Raw.un r.b 26 ++ Raw.isReg r.c 34 ++ r.iz 0 32 64, .spawn g a c)
  | 0x251 => some (r.okE ++ r.noFsel ++ Raw.isReg r.d 10 ++ Raw.isReg r.a 18 ++ Raw.un r.b 26 ++ Raw.un r.c 34 ++ r.iz 0 32 64, .join g d a)
  | 0x252 => some (r.okE ++ r.noFsel ++ Raw.un r.d 10 ++ Raw.isReg r.a 18 ++ Raw.un r.b 26 ++ Raw.isReg r.c 34 ++ r.iz 24 8 64,
      .park g a c (r.imm.extractLsb' 0 16) (r.imm.extractLsb' 16 8))
  | 0x253 => some (r.okE ++ r.noFsel ++ Raw.isReg r.d 10 ++ Raw.isReg r.a 18 ++ Raw.un r.b 26 ++ Raw.un r.c 34 ++ r.iz 0 32 64, .grtrig g d a)
  | 0x280 => some (r.ok1 ++ r.tyOk ++ r.mz 0 8 52, .csacc ty r.r1)
  | 0x281 => some (r.guardOk ++ r.noFsel ++ r.tyOk ++ r.mz 0 8 52 ++ r.iz 6 26 64 ++ Raw.un r.d 10 ++ Raw.isReg r.a 18 ++ Raw.isReg r.b 26 ++ Raw.un r.c 34,
      .cschk ty (Fin.ofNat 64 (r.i 0 6)) g a b)
  | 0x288 => some (r.movcOk, r.movcInstr)
  | 0x289 => some (r.okS ++ r.iz 0 32 64, .eret g)
  | 0x28A => sI .trap
  | 0x28B => some (r.okS ++ r.noGuard ++ r.iz 0 32 64, .tfence)
  | 0x28C => some (r.okS ++ r.iz 24 8 88, .bkpt g (r.imm.extractLsb' 0 24))
  | 0x290 => some (r.guardOk ++ r.tyIs 1 ++ ck (r.m 0 2 != 3) 52 ++ ck (decide (r.m 2 3 ≤ 4)) 54 ++ ck (decide (r.m 5 3 ≤ 4)) 57 ++ Raw.isReg r.d 10 ++
      Raw.isReg r.a 18 ++ Raw.isReg r.b 26 ++ Raw.un r.c 34 ++ r.iz 5 27 69, .hprobe { m with off := .reg .vz } r.fsel (Fin.ofNat 32 (r.i 0 5)) d b)
  | 0x291 => some (r.ok3 ++ r.tyOk ++ r.mz 0 8 52, .noise ty r.r3)
  | _ => none

/-- What the decoder must know of the issuing agent: a cox program or a crew, its register count (R55), whether the crew is
converged (R56), and whether it is parted (R425). -/
structure DecEnv where
  cox : Bool
  regs : Nat
  converged : Bool
  parted : Bool
  deriving DecidableEq, Repr

/-- A decode trap (R62). -/
inductive DecTrap where
  | illegalOp | illegalField (sub : Nat) | diverged
  deriving DecidableEq, Repr

/-- The least number of a list that is not empty. -/
def leastOf : List Nat → Nat
  | [] => 0
  | [x] => x
  | x :: xs => min x (leastOf xs)

/-- Operations a cox program may hold (R82); LD and ST only in the global space. -/
def coxLegal (id : Nat) (r : Raw) : Bool :=
  decide (id ≤ 0x01A) || [0x1C0, 0x1C2, 0x1C3, 0x1C4, 0x1C7, 0x1C8].contains id ||
    ((id == 0x100 || id == 0x101) && r.m 0 2 == 0) || (decide (0x240 ≤ id ∧ id ≤ 0x253) && id != 0x245 && id != 0x252)

/-- Registers a use reaches beyond those its span check names: TTOV, VTOT and PARK by their counts (R437, R414). -/
def Instr.reach : Instr → List (Nat × Nat)
  | .ttov _ n _ _ (.v d) _ => [(10, d.val + n.val + 1)]
  | .vtot _ n _ _ _ (.v a) => [(18, a.val + n.val + 1)]
  | .park _ _ _ live lb => [(64, if live.toNat = 0 then 0 else lb.toNat + live.toNat.log2 + 1)]
  | _ => []

/-- The subcodes of register operands the issuing agent does not have (R55, R82). -/
def regBad (env : DecEnv) (i : Instr) : List Nat :=
  ((i.uses.filter (fun u => match u.r with
    | .v n => decide (n.val + u.n > (if env.cox then 64 else env.regs))
    | .vz => false
    | _ => env.cox)).map (·.fld)) ++
  (i.reach.filter (fun p => decide (p.2 > (if env.cox then 64 else env.regs)))).map (·.1)

/-- The subcodes of fields that the issuing agent does not take as it stands: a TST's crew-numbered witness pair while the crew is parted
(R425), a count that GIVE or CLAIM cannot reach (R350, R380). -/
def stateBad (env : DecEnv) : Instr → List Nat
  | .tst _ _ _ _ _ _ _ _ _ wit => if wit.isCrew && env.parted then [72] else []
  | .give _ n => if n.toNat + 8 > env.regs then [64] else []
  | .claim _ n => if env.regs + n.toNat > 224 then [64] else []
  | _ => []

/-- The instruction names a crew register, or acts on the uniform path (R56, R343, R349, R350, R380, R199). -/
def Instr.needsConverged (i : Instr) : Bool :=
  i.uses.any (fun u => u.r.isCrew) ||
  match i with
  | .blgive _ | .bltake _ | .catch _ _ | .give _ _ | .claim _ _ | .park .. | .enum .. | .smerge .. | .compose .. | .mapat ..
  | .mmas .. => true
  | _ => false

/-- Decode the fields of a slot whose decode table entry is `id` (R62: ILLEGAL_OP, then the lowest offending field,
then UNIFORM_DIVERGED). -/
def decodeRaw (env : DecEnv) (id : Nat) (r : Raw) : Except DecTrap Instr :=
  match parse id r with
  | none => .error .illegalOp
  | some (bad, i) =>
    if env.cox && !coxLegal id r then .error .illegalOp
    else
      let all := bad ++ i.bad ++ regBad env i ++ stateBad env i
      if all.isEmpty then (if !env.cox && !env.converged && i.needsConverged then .error .diverged else .ok i)
      else .error (.illegalField (leastOf all))

/-- Decode table 1 as a map of opcodes to operation ids (R59); 0xFFFF is unassigned. -/
def table1 (opc : Nat) : Nat :=
  if 0x088 ≤ opc ∧ opc ≤ 0x08B then opc + 0x40
  else if 0x0C8 ≤ opc ∧ opc ≤ 0x0CC then opc - 0x40
  else if opc = 0x08C ∨ opc = 0x0CD ∨ (0x200 ≤ opc ∧ opc ≤ 0x206) ∨ opc = 0x280 ∨ opc = 0x281 ∨ opc = 0x290 ∨ opc = 0x291 then 0xFFFF
  else opc

/-- The operation id of an opcode (R57, R58): table 1, table 2 or the held loaded table. SEL = 0 behaves as 2. -/
def tableEntry (sel : Nat) (held : List Nat) (opc : Nat) : Nat :=
  if sel = 1 then table1 opc else if sel = 3 then held.getD opc 0xFFFF else opc

/-- Decode a slot (R57, R62). -/
def decodeSlot (env : DecEnv) (sel : Nat) (held : List Nat) (w : Slot) : Except DecTrap Instr :=
  let r := Raw.ofSlot w
  decodeRaw env (tableEntry sel held r.opc.toNat) r

/-- The decoder's environment of a converged crew that holds every register, under table 2. -/
def DecEnv.wide : DecEnv := ⟨false, 224, true, false⟩

/-- The registers of a converged crew for which a slot decodes under table 2: all 224, but for those that a CLAIM asks for (R350). -/
def regsFor (w : Slot) : Nat :=
  match parse (Raw.ofSlot w).opc.toNat (Raw.ofSlot w) with | some (_, .claim _ n) => 224 - n.toNat | _ => 224
/-- The instruction whose slot bits are `w`, bit 0 the lowest bit of the slot. -/
def decodeTableWord (nbits w : Nat) : Option Instr :=
  let x : Slot := BitVec.ofNat 96 (w % 2 ^ nbits)
  match decodeSlot { DecEnv.wide with regs := regsFor x } 2 [] x with
  | .ok i => some i
  | .error _ => none

/-! The encoder, written from the same encoding rows. -/

/-- The slot that holds the fields, at the bit positions of R50. -/
def Raw.toSlot (r : Raw) : Slot :=
  r.imm ++ r.ty ++ r.mod ++ BitVec.ofBool r.fsel ++ BitVec.ofBool r.pn ++ r.p ++ r.c ++ r.b ++ r.a ++ r.d ++ r.opc

/-- A slot with an opcode, every register field vz, and the rest zero (R54). -/
def Raw.blank (opc : Nat) : Raw := ⟨BitVec.ofNat 10 opc, 248#8, 248#8, 248#8, 248#8, 248#8, false, false, 0#8, 0#4, 0#32⟩

def Reg.enc (r : Reg) : BitVec 8 := BitVec.ofNat 8 r.num
def Raw.withGuard (r : Raw) (g : Guard) : Raw := { r with p := g.p.enc, pn := g.neg }
def Raw.withSrc (r : Raw) : Src → Raw
  | .reg x => { r with b := x.enc }
  | .imm w => { r with b := 255#8, imm := w }
def Raw.withTy (r : Raw) (t : Ty) : Raw := { r with ty := BitVec.ofNat 4 t.code }
def Raw.withMod (r : Raw) (n : Nat) : Raw := { r with mod := BitVec.ofNat 8 n }
def Raw.withImm (r : Raw) (n : Nat) : Raw := { r with imm := BitVec.ofNat 32 n }
def Raw.of1 (opc : Nat) (o : R1) : Raw := { (Raw.blank opc).withGuard o.g with d := o.d.enc, a := o.a.enc }
def Raw.of2 (opc : Nat) (o : R2) : Raw := ({ (Raw.blank opc).withGuard o.g with d := o.d.enc, a := o.a.enc } : Raw).withSrc o.b
def Raw.of3 (opc : Nat) (o : R3) : Raw := ({ (Raw.blank opc).withGuard o.g with d := o.d.enc, a := o.a.enc, c := o.c.enc } : Raw).withSrc o.b
def Raw.ofM (opc : Nat) (m : MAddr) (ext : BitVec 8) : Raw :=
  { (Raw.blank opc).withGuard m.g with
    mod := BitVec.ofNat 8 (m.space.code + 4 * m.width.code + 32 * m.scope.code)
    a := m.base.enc
    b := match m.off with | .reg r => r.enc | .imm _ => 255#8
    imm := ext ++ (match m.off with | .reg _ => 0#24 | .imm w => w) }
def Raw.ofAtom (op : Nat) (t : Ty) (m : MAddr) (fsel : Bool) (e d wit : Reg) : Raw :=
  { (Raw.ofM (0x140 + op) m e.enc).withTy t with d := d.enc, c := wit.enc, fsel := fsel }
def Raw.ofS (opc : Nat) (g : Guard) (imm : Word) : Raw := { (Raw.blank opc).withGuard g with imm := imm }
def tileNum (t : Fin 16) : BitVec 8 := BitVec.ofNat 8 t.val
def b2n (b : Bool) : Nat := if b then 1 else 0
def QMods.code (q : QMods) : Nat := b2n q.qd + 2 * b2n q.qa + 4 * b2n q.qb + 8 * b2n q.qc
def Raw.ofMovc (g : Guard) (n : Nat) (a : Reg) : Raw := { ((Raw.ofS 0x288 g (BitVec.ofNat 32 n)).withMod 1) with a := a.enc }
def Raw.ofTile (opc : Nat) (g : Guard) (fsel sc qd : Bool) (sp : Space) (scope : Scope) (byte : BitVec 8) (d : Fin 16) (a b after : Reg) : Raw :=
  { (((Raw.blank opc).withGuard g).withMod (b2n qd + 16 * sp.code + 64 * b2n sc)) with
    fsel := fsel, d := tileNum d, a := a.enc, b := b.enc, c := after.enc, imm := BitVec.ofNat 32 (scope.code + 256 * byte.toNat) }
def Raw.ofMma (opc : Nat) (g : Guard) (fsel : Bool) (q : QMods) (nc : Bool) (d a b c : Fin 16) (imm : Nat) : Raw :=
  { ((((Raw.blank opc).withGuard g).withMod (q.code + 16 * b2n nc)).withImm imm) with
    fsel := fsel, d := tileNum d, a := tileNum a, b := tileNum b, c := tileNum c }
def Raw.ofCopy (opc : Nat) (g : Guard) (fsel : Bool) (mod : Nat) (a after : Reg) : Raw :=
  { (((Raw.blank opc).withGuard g).withMod mod) with fsel := fsel, a := a.enc, c := after.enc }

/-- The fields that encode a slot instruction; none for a step that no slot encodes. -/
def encodeRaw : Instr → Option Raw
  | .iadd t o => some ((Raw.of2 0x000 o).withTy t) | .iadd64 t o => some ((Raw.of2 0x001 o).withTy t)
  | .isub t o => some ((Raw.of2 0x002 o).withTy t) | .imul t o => some ((Raw.of2 0x003 o).withTy t)
  | .imulhi t o => some ((Raw.of2 0x004 o).withTy t) | .imad t o => some ((Raw.of3 0x005 o).withTy t)
  | .imad64 t o => some ((Raw.of3 0x006 o).withTy t) | .imin t o => some ((Raw.of2 0x007 o).withTy t)
  | .imax t o => some ((Raw.of2 0x008 o).withTy t) | .iabs o => some (Raw.of1 0x009 o)
  | .ineg t o => some ((Raw.of1 0x00A o).withTy t) | .icmp cc t o => some (((Raw.of2 0x017 o).withTy t).withMod cc.code)
  | .and o => some (Raw.of2 0x00B o) | .or o => some (Raw.of2 0x00C o) | .xor o => some (Raw.of2 0x00D o)
  | .not o => some (Raw.of1 0x00E o) | .shl o => some (Raw.of2 0x00F o) | .shr o => some (Raw.of2 0x010 o)
  | .sar o => some (Raw.of2 0x011 o) | .bfx s o => some ((Raw.of2 0x012 o).withMod (b2n s)) | .bfi o => some (Raw.of3 0x013 o)
  | .popc o => some (Raw.of1 0x014 o) | .clz o => some (Raw.of1 0x015 o) | .brev o => some (Raw.of1 0x016 o)
  | .sel t o => some ((Raw.of3 0x018 o).withTy t) | .mov t o => some ((Raw.of1 0x019 o).withTy t)
  | .movi t g d w => some { ((Raw.blank 0x01A).withGuard g).withTy t with d := d.enc, b := 255#8, imm := w }
  | .fadd m o => some (((Raw.of2 0x040 o).withTy .f32).withMod (32 * m.code)) | .fsub m o => some (((Raw.of2 0x041 o).withTy .f32).withMod (32 * m.code))
  | .fmul m o => some (((Raw.of2 0x042 o).withTy .f32).withMod (32 * m.code)) | .ffma m o => some (((Raw.of3 0x043 o).withTy .f32).withMod (32 * m.code))
  | .fmin o => some ((Raw.of2 0x044 o).withTy .f32) | .fmax o => some ((Raw.of2 0x045 o).withTy .f32)
  | .fcmp c o => some (((Raw.of2 0x046 o).withTy .f32).withMod c.code) | .fdiv m o => some (((Raw.of2 0x047 o).withTy .f32).withMod (32 * m.code))
  | .fsqrt m o => some (((Raw.of1 0x048 o).withTy .f32).withMod (32 * m.code)) | .frcp m o => some (((Raw.of1 0x049 o).withTy .f32).withMod (32 * m.code))
  | .frsq m o => some (((Raw.of1 0x04A o).withTy .f32).withMod (32 * m.code)) | .fexp2 m o => some (((Raw.of1 0x04B o).withTy .f32).withMod (32 * m.code))
  | .flog2 m o => some (((Raw.of1 0x04C o).withTy .f32).withMod (32 * m.code)) | .frnd m o => some (((Raw.of1 0x04D o).withTy .f32).withMod (32 * m.code))
  | .dadd m o => some (((Raw.of2 0x080 o).withTy .f64).withMod (32 * m.code)) | .dsub m o => some (((Raw.of2 0x081 o).withTy .f64).withMod (32 * m.code))
  | .dmul m o => some (((Raw.of2 0x082 o).withTy .f64).withMod (32 * m.code)) | .dfma m o => some (((Raw.of3 0x083 o).withTy .f64).withMod (32 * m.code))
  | .ddiv m o => some (((Raw.of2 0x084 o).withTy .f64).withMod (32 * m.code)) | .dsqrt m o => some (((Raw.of1 0x085 o).withTy .f64).withMod (32 * m.code))
  | .dcmp c o => some (((Raw.of2 0x086 o).withTy .f64).withMod c.code)
  | .hadd2 m o => some ((Raw.of2 0x088 o).withMod (32 * m.code)) | .hmul2 m o => some ((Raw.of2 0x089 o).withMod (32 * m.code))
  | .hfma2 m o => some ((Raw.of3 0x08A o).withMod (32 * m.code)) | .hmax2 o => some (Raw.of2 0x08B o)
  | .hcmp2 c o => some ((Raw.of2 0x08C o).withMod c.code)
  | .cvt d s hi m o => some (((Raw.of2 0x090 o).withTy d).withMod (s.code + 16 * b2n hi + 32 * m.code))
  | .sigget o => some (Raw.of1 0x0C0 o) | .sigset t o => some ((Raw.of2 0x0C1 o).withTy t) | .sigmin t o => some ((Raw.of2 0x0C2 o).withTy t)
  | .bsig k n g a t => some { ((Raw.ofS 0x0C3 g t).withMod (n.val + 64 * k.code)) with a := a.enc }
  | .shfl t seg mode o => some (((Raw.of2 0x0C8 o).withTy t).withMod (mode.code + 4 * seg.val))
  | .vote mode o => some ((Raw.of1 0x0C9 o).withMod mode.code)
  | .redx op m t o => some (((Raw.of1 0x0CA o).withTy t).withMod (op.code + 8 * m.code))
  | .scanx op ex m t o => some (((Raw.of1 0x0CB o).withTy t).withMod (op.code + 8 * m.code + 64 * b2n ex))
  | .bxch t lk l o => some (((Raw.of1 0x0CC o).withTy t).withMod (l.val + 8 * lk.val))
  | .mrgk t o => some ((Raw.of1 0x0CD o).withTy t)
  | .ld t m fsel sig d after => some { (Raw.ofM 0x100 m sig).withTy t with d := d.enc, c := after.enc, fsel := fsel }
  | .st t m after d wit => some { (Raw.ofM 0x101 m after.enc).withTy t with d := d.enc, c := wit.enc }
  | .spill m d wit => some { Raw.ofM 0x102 m 0 with d := d.enc, c := wit.enc }
  | .fill m fsel d => some { Raw.ofM 0x103 m 0 with d := d.enc, fsel := fsel }
  | .pref l2 m => some (Raw.ofM 0x104 { m with scope := if l2 then .cluster else .core } 0)
  | .l1wb m d => some { Raw.ofM 0x105 m 0 with d := d.enc } | .l1inv m d => some { Raw.ofM 0x106 m 0 with d := d.enc }
  | .monitor m => some (Raw.ofM 0x107 m 0) | .mwait g t d => some { Raw.ofS 0x108 g t with d := d.enc }
  | .wmerge sc g d a b => some { (((Raw.blank 0x110).withGuard g).withMod sc.code) with d := d.enc, a := a.enc, b := b.enc }
  | .wwait sc g a => some { (((Raw.blank 0x111).withGuard g).withMod sc.code) with a := a.enc }
  | .wtest sc o => some ((Raw.of1 0x112 o).withMod sc.code)
  | .fence sc g pred succ => some ((Raw.ofS 0x118 g (0#16 ++ succ ++ pred)).withMod sc.code)
  | .qfence g mask => some (Raw.ofS 0x119 g (0#29 ++ mask))
  | .atomAdd t m f e d w => some (Raw.ofAtom 0 t m f e d w) | .atomMin t m f e d w => some (Raw.ofAtom 1 t m f e d w)
  | .atomMax t m f e d w => some (Raw.ofAtom 2 t m f e d w) | .atomAnd t m f e d w => some (Raw.ofAtom 3 t m f e d w)
  | .atomOr t m f e d w => some (Raw.ofAtom 4 t m f e d w) | .atomXor t m f e d w => some (Raw.ofAtom 5 t m f e d w)
  | .atomXchg t m f e d w => some (Raw.ofAtom 6 t m f e d w) | .atomCas t m f e d w => some (Raw.ofAtom 7 t m f e d w)
  | .tcfg g qd d a => some { (((Raw.blank 0x180).withGuard g).withMod (b2n qd)) with d := tileNum d, a := a.enc }
  | .tld g f sc qd sp s sig d a b c => some (Raw.ofTile 0x181 g f sc qd sp s sig d a b c)
  | .tst g f qd sp s d a b c w => some (Raw.ofTile 0x182 g f false qd sp s w.enc d a b c)
  | .scld g f qd sp s d a c => some (Raw.ofTile 0x188 g f false qd sp s 0 d a .vz c)
  | .tzero g qd d => some { (((Raw.blank 0x183).withGuard g).withMod (b2n qd)) with d := tileNum d }
  | .mma g f q nc d a b c => some (Raw.ofMma 0x184 g f q nc d a b c 0)
  | .mmas g f q nc d a b c ka kb => some (Raw.ofMma 0x185 g f q nc d a b c (224 + ka.val + 256 * (224 + kb.val)))
  | .ttov g n row col d a => some { ((Raw.ofS 0x186 g (0#16 ++ row ++ col)).withMod n.val) with d := d.enc, a := tileNum a }
  | .vtot g n row col d a => some { ((Raw.ofS 0x187 g (0#16 ++ row ++ col)).withMod n.val) with d := tileNum d, a := a.enc }
  | .blgive g => some (Raw.ofS 0x189 g 0) | .bltake g => some (Raw.ofS 0x18A g 0)
  | .bra g t => some (Raw.ofS 0x1C0 g t) | .brd g a t => some { Raw.ofS 0x1C1 g t with a := a.enc } | .brx g a => some { Raw.ofS 0x1C2 g 0 with a := a.enc }
  | .call g d (.direct t) => some { Raw.ofS 0x1C3 g t with d := d.enc }
  | .call g d (.indirect a) => some { ((Raw.ofS 0x1C3 g 0).withMod 1) with d := d.enc, a := a.enc }
  | .ret g a => some { Raw.ofS 0x1C4 g 0 with a := a.enc } | .recv mask => some (Raw.ofS 0x1C5 .always (0#20 ++ mask))
  | .regang => some (Raw.blank 0x1C6) | .exit g => some (Raw.ofS 0x1C7 g 0) | .nop g => some (Raw.ofS 0x1C8 g 0)
  | .yield n => some (Raw.ofS 0x1C9 .always (0#16 ++ n)) | .catch g n => some (Raw.ofS 0x1CA g n) | .mark g n => some (Raw.ofS 0x1CB g (0#8 ++ n))
  | .give g n => some (Raw.ofS 0x1D0 g n) | .claim g n => some (Raw.ofS 0x1D1 g n)
  | .bar g l d => some { Raw.ofS 0x1D8 g 0 with c := BitVec.ofNat 8 l.val, d := d.enc }
  | .bara g l d => some { Raw.ofS 0x1D9 g 0 with c := BitVec.ofNat 8 l.val, d := d.enc }
  | .barw g l d => some { Raw.ofS 0x1DA g 0 with c := BitVec.ofNat 8 l.val, d := d.enc }
  | .sltake m d => some { (Raw.ofM 0x1DB m 0).withTy .u32 with d := d.enc }
  | .slput m after d wit => some { (Raw.ofM 0x1DC m after.enc).withTy .u32 with d := d.enc, c := wit.enc }
  | .enum cert list d a b => some (({ ((Raw.blank 0x200).withMod (b2n list + 2 * b2n cert)) with d := d.enc, a := a.enc } : Raw).withSrc b)
  | .smerge j d a b => some { ((Raw.blank 0x201).withMod (b2n j)) with d := d.enc, a := a.enc, b := b.enc }
  | .compose d a b => some { Raw.blank 0x202 with d := d.enc, a := a.enc, b := b.enc }
  | .mapat d a b => some { Raw.blank 0x203 with d := d.enc, a := a.enc, b := b.enc }
  | .logst m d => some { Raw.ofM 0x204 m 0 with d := d.enc }
  | .logcmt sc d a b => some { ((Raw.blank 0x205).withMod sc.code) with d := d.enc, a := a.enc, b := b.enc }
  | .logdrop => some (Raw.blank 0x206)
  | .cpy g f sc s d a c => some (Raw.ofCopy 0x240 g f (d.code + 4 * s.code + 32 * sc.code) a c)
  | .gath g f sc s d a c => some (Raw.ofCopy 0x241 g f (d.code + 4 * s.code + 32 * sc.code) a c)
  | .coll g f sc a c => some (Raw.ofCopy 0x242 g f sc.code a c)
  | .evpop g nb d => some { ((Raw.ofS 0x243 g 0).withMod (b2n nb)) with d := d.enc }
  | .dqpush g a b => some (({ Raw.ofS 0x244 g 0 with a := a.enc } : Raw).withSrc b)
  | .dqpop g d => some { Raw.ofS 0x245 g 0 with d := d.enc } | .aestart g a off => some { Raw.ofS 0x246 g off with a := a.enc }
  | .oqpop g q d => some { Raw.ofS 0x247 g 0 with b := BitVec.ofNat 8 q.val, d := d.enc }
  | .spawn g a c => some { Raw.ofS 0x250 g 0 with a := a.enc, c := c.enc } | .join g d a => some { Raw.ofS 0x251 g 0 with d := d.enc, a := a.enc }
  | .park g a c live lb => some { Raw.ofS 0x252 g (0#8 ++ lb ++ live) with a := a.enc, c := c.enc }
  | .grtrig g d a => some { Raw.ofS 0x253 g 0 with d := d.enc, a := a.enc }
  | .csacc t o => some ((Raw.of1 0x280 o).withTy t)
  | .cschk t k g a b => some { (((Raw.blank 0x281).withGuard g).withTy t).withImm k.val with a := a.enc, b := b.enc }
  | .movc g w n r => if w then some { ((Raw.ofS 0x288 g (0#20 ++ n)).withMod 1) with a := r.enc } else some { Raw.ofS 0x288 g (0#20 ++ n) with d := r.enc }
  | .eret g => some (Raw.ofS 0x289 g 0) | .trap g n => some (Raw.ofS 0x28A g n) | .tfence => some (Raw.blank 0x28B)
  | .bkpt g n => some (Raw.ofS 0x28C g (0#8 ++ n))
  | .hprobe m f n d b => some { (Raw.ofM 0x290 m 0).withTy .u32 with d := d.enc, b := b.enc, fsel := f, imm := BitVec.ofNat 32 n.val }
  | .noise t o => some ((Raw.of3 0x291 o).withTy t)
  | .dmbWrite g n a => some (Raw.ofMovc g (0x40 + n.val) a) | .dmbDoorbell g a => some (Raw.ofMovc g 0x6F a)
  | .trbaseWrite g a => some (Raw.ofMovc g 0x14 a) | .tracePointerWrite g tail a => some (Raw.ofMovc g (0x15 + b2n tail) a)
  | .sctrClear g n a => some (Raw.ofMovc g (0x80 + n.val) a) | .dtblWrite g a => some (Raw.ofMovc g 4 a)
  | .fstatWrite g a => some (Raw.ofMovc g 6 a) | .tfWrite g n a => some (Raw.ofMovc g (0x20 + n.val) a)
  | _ => none

/-- The 96-bit slot of a slot instruction (R50). -/
def encode (i : Instr) : Option Slot := (encodeRaw i).map Raw.toSlot

end Sys2Proof
end

