-- ==== Sys2Proof/Machine/Num.lean ====
section
/-! DEFINITION. Number formats, exact values and the one rounding of every floating result (spec R109 to R121). -/
namespace Sys2Proof.Machine

/-- What the largest exponent code of a format means (R109). -/
inductive Top where
  /-- M = 0 is infinity, any other M is a NaN. -/
  | ieee
  /-- M all ones is a NaN, every other M a normal value (E4M3). -/
  | e4m3
  /-- Every M is a normal value (E2M1). -/
  | e2m1
  deriving DecidableEq, Repr

/-- A floating element format (R109): precision, exponent width, bias, meaning of the top exponent. -/
structure Fmt where
  p : Nat
  ew : Nat
  bias : Nat
  top : Top
  deriving DecidableEq, Repr

def fp64 : Fmt := ⟨53, 11, 1023, .ieee⟩
def fp32 : Fmt := ⟨24, 8, 127, .ieee⟩
def fp16 : Fmt := ⟨11, 5, 15, .ieee⟩
def bf16 : Fmt := ⟨8, 8, 127, .ieee⟩
def e5m2 : Fmt := ⟨3, 5, 15, .ieee⟩
def e4m3 : Fmt := ⟨4, 4, 7, .e4m3⟩
def e2m1 : Fmt := ⟨2, 2, 1, .e2m1⟩

/-- Bits of the M field. -/
def Fmt.mw (f : Fmt) : Nat := f.p - 1
/-- Width of an element. -/
def Fmt.bits (f : Fmt) : Nat := f.p + f.ew
/-- The exponent of the smallest normal value. -/
def Fmt.emin (f : Fmt) : Int := 1 - (f.bias : Int)
/-- The exponent of the largest finite value. -/
def Fmt.emax (f : Fmt) : Int :=
  match f.top with
  | .ieee => (2 ^ f.ew - 2 : Nat) - (f.bias : Int)
  | .e4m3 => (2 ^ f.ew - 1 : Nat) - (f.bias : Int)
  | .e2m1 => (2 ^ f.ew - 1 : Nat) - (f.bias : Int)
/-- The significand of the largest finite value, as an integer of `p` bits. -/
def Fmt.maxSig (f : Fmt) : Nat :=
  match f.top with
  | .ieee => 2 ^ f.p - 1
  | .e4m3 => 2 ^ f.p - 2
  | .e2m1 => 2 ^ f.p - 1
/-- The sign bit in place. -/
def Fmt.signBit (f : Fmt) (neg : Bool) : Nat := if neg then 2 ^ (f.bits - 1) else 0
/-- The encoding of infinity; formats without one have their largest finite value here. -/
def Fmt.infBits (f : Fmt) (neg : Bool) : Nat :=
  f.signBit neg + (match f.top with
    | .ieee => (2 ^ f.ew - 1) * 2 ^ f.mw
    | .e4m3 => 2 ^ (f.bits - 1) - 2
    | .e2m1 => 2 ^ (f.bits - 1) - 1)
/-- The encoding of the largest finite value. -/
def Fmt.maxBits (f : Fmt) (neg : Bool) : Nat :=
  f.signBit neg + (match f.top with
    | .ieee => (2 ^ f.ew - 1) * 2 ^ f.mw - 1
    | .e4m3 => 2 ^ (f.bits - 1) - 2
    | .e2m1 => 2 ^ (f.bits - 1) - 1)
/-- The canonical NaN (R111); E2M1 has none and reads +0 here. -/
def Fmt.nanBits (f : Fmt) : Nat :=
  match f.top with
  | .ieee => (2 ^ f.ew - 1) * 2 ^ f.mw + 2 ^ (f.mw - 1)
  | .e4m3 => 2 ^ (f.bits - 1) - 1
  | .e2m1 => 0

/-- A floating value, exact (R109): finite values are ±m·2^e, and a zero keeps its sign. -/
inductive FVal where
  | nan (signalling : Bool)
  | inf (neg : Bool)
  | fin (neg : Bool) (m : Nat) (e : Int)
  deriving DecidableEq, Repr

/-- The value of an encoding (R109, R111). -/
def Fmt.value (f : Fmt) (x : Nat) : FVal :=
  let M := x % 2 ^ f.mw
  let E := bitsAt x f.mw f.ew
  let S := bitAt x (f.bits - 1)
  let top := E == 2 ^ f.ew - 1
  if f.top = .ieee && top then
    (if M = 0 then .inf S else .nan (!bitAt M (f.mw - 1)))
  else if f.top = .e4m3 && top && M == 2 ^ f.mw - 1 then .nan false
  else if E = 0 then .fin S M (f.emin - (f.mw : Int))
  else .fin S (2 ^ f.mw + M) ((E : Int) - (f.bias : Int) - (f.mw : Int))

/-- A BF16 subnormal read as a zero of its sign: the input rule of R128 under NBV = 1. -/
def Fmt.flush (f : Fmt) (x : Nat) : Nat :=
  if bitsAt x f.mw f.ew = 0 then x - x % 2 ^ f.mw else x

def FVal.isNan : FVal → Bool | .nan _ => true | _ => false
def FVal.isSnan : FVal → Bool | .nan s => s | _ => false
def FVal.isInf : FVal → Bool | .inf _ => true | _ => false
def FVal.isZero : FVal → Bool | .fin _ m _ => m == 0 | _ => false
/-- Finite and nonzero. -/
def FVal.isNum : FVal → Bool | .fin _ m _ => m != 0 | _ => false
def FVal.neg : FVal → Bool | .nan _ => false | .inf n => n | .fin n _ _ => n
/-- The value with its sign changed. -/
def FVal.negate : FVal → FVal | .nan s => .nan s | .inf n => .inf (!n) | .fin n m e => .fin (!n) m e
/-- Exp(x): the exponent of the leading one bit (R92). -/
def FVal.exp : FVal → Int | .fin _ m e => e + (m.log2 : Int) | _ => 0
/-- Held(r): significand bits from the leading one down to the lowest the format holds (R92). -/
def FVal.held : FVal → Nat | .fin _ m _ => if m = 0 then 0 else m.log2 + 1 | _ => 0

/-- The four rounding modes of FMTR.RM (R114). -/
inductive Mode where
  | near | zero | up | down
  deriving DecidableEq, Repr

/-- The mode that a two-bit RM field names. -/
def Mode.ofRm (n : Nat) : Mode :=
  match n % 4 with | 0 => .near | 1 => .zero | 2 => .up | _ => .down

/-- Sticky arithmetic conditions in FSTAT bit order (R236). -/
abbrev Conds := BitVec 7
def condNV : Conds := 1
def condDZ : Conds := 2
def condOF : Conds := 4
def condUF : Conds := 8
def condNX : Conds := 16
def condSIG : Conds := 32
def condSHD : Conds := 64

/-- A floating result: its encoding, whether it differs from the exact value, and the conditions raised (R119). -/
structure FRes where
  bits : Nat
  inexact : Bool
  conds : Conds
  deriving DecidableEq, Repr

/-- An exact result, with no condition. -/
def FRes.exact (b : Nat) : FRes := ⟨b, false, 0⟩
/-- The canonical NaN, with invalid raised when asked. -/
def FRes.nan (f : Fmt) (nv : Bool) : FRes := ⟨f.nanBits, false, if nv then condNV else 0⟩

/-- Whether a magnitude with remainder `r` of a unit `2 * half`, plus a smaller nonzero part when
`sticky`, is rounded away from zero under a mode. -/
def roundsUp (mode : Mode) (neg odd : Bool) (r half : Nat) (sticky : Bool) : Bool :=
  match mode with
  | .near => decide (half < r) || (r == half && (sticky || odd))
  | .zero => false
  | .up => (r != 0 || sticky) && !neg
  | .down => (r != 0 || sticky) && neg

/-- The integer nearest to `m·2^(-sh)` in the sense of the mode, and whether it is exact. -/
def roundShift (mode : Mode) (neg : Bool) (m : Nat) (sh : Int) (sticky : Bool) : Nat × Bool :=
  if sh ≤ 0 then
    let n := m <<< (-sh).toNat
    (if sticky && roundsUp mode neg (n % 2 == 1) 0 1 true then n + 1 else n, !sticky)
  else
    let k := sh.toNat
    let n := m >>> k
    let r := m % 2 ^ k
    (if roundsUp mode neg (n % 2 == 1) r (2 ^ (k - 1)) sticky then n + 1 else n, r == 0 && !sticky)

/-- The encoding of `n·2^q`, `q` being the quantum of the result. -/
def Fmt.pack (f : Fmt) (neg : Bool) (n : Nat) (q : Int) : Nat :=
  if n < 2 ^ f.mw then f.signBit neg + n
  else if n = 2 ^ f.p then f.signBit neg + (q + 1 + f.mw + f.bias).toNat * 2 ^ f.mw
  else f.signBit neg + (q + f.mw + f.bias).toNat * 2 ^ f.mw + (n - 2 ^ f.mw)

/-- What overflow delivers (R117). -/
def Fmt.overflow (f : Fmt) (mode : Mode) (sat neg : Bool) : Nat :=
  if f.top ≠ .ieee || sat then f.maxBits neg
  else match mode with
    | .near => f.infBits neg
    | .zero => f.maxBits neg
    | .up => if neg then f.maxBits neg else f.infBits neg
    | .down => if neg then f.infBits neg else f.maxBits neg

/-- RoundTo (R116, R117) of a nonzero magnitude `m·2^e`, or one strictly between `m·2^e` and
`(m+1)·2^e` when `sticky`; `m` is not 0. -/
def Fmt.round (f : Fmt) (mode : Mode) (sat : Bool) (neg : Bool) (m : Nat) (e : Int) (sticky : Bool := false) : FRes :=
  let q := max (e + (m.log2 : Int)) f.emin - (f.mw : Int)
  let qmax := f.emax - (f.mw : Int)
  let (n, ex) := roundShift mode neg m (q - e) sticky
  if q > qmax ∨ (q = qmax ∧ n > f.maxSig) then
    ⟨f.overflow mode sat neg, true, condOF ||| condNX⟩
  else
    let uf := n ≠ 0 ∧ n < 2 ^ f.mw ∧ ex = false
    ⟨f.pack neg n q, !ex, (if ex then 0 else condNX) ||| (if uf then condUF else 0)⟩

/-- RoundTo of an exact finite value whose zero, if it is one, carries its own sign. -/
def Fmt.roundVal (f : Fmt) (mode : Mode) (sat : Bool) : FVal → FRes
  | .nan _ => FRes.exact f.nanBits
  | .inf n => FRes.exact (f.infBits n)
  | .fin n m e => if m = 0 then FRes.exact (f.signBit n) else f.round mode sat n m e

/-- The signed integer of a finite value in units of `2^e0`, for `e0` at or below its exponent. -/
def scaled (neg : Bool) (m : Nat) (e e0 : Int) : Int :=
  let k : Nat := m <<< (e - e0).toNat
  if neg then -(k : Int) else k

/-- The exact sum of two finite values; an exact zero takes its sign by the sum rule of R116. -/
def sumFin (mode : Mode) (na : Bool) (ma : Nat) (ea : Int) (nb : Bool) (mb : Nat) (eb : Int) : FVal :=
  let e0 := min ea eb
  let s := scaled na ma ea e0 + scaled nb mb eb e0
  if s = 0 then
    (if ma = 0 && mb = 0 && na == nb then .fin na 0 0 else .fin (mode == .down) 0 0)
  else .fin (decide (s < 0)) s.natAbs e0

/-- Addition with one rounding (R363, R365). -/
def Fmt.add (f : Fmt) (mode : Mode) (a b : FVal) : FRes :=
  match a, b with
  | .nan s, y => FRes.nan f (s || y.isSnan)
  | x, .nan s => FRes.nan f (s || x.isSnan)
  | .inf n, .inf k => if n = k then FRes.exact (f.infBits n) else FRes.nan f true
  | .inf n, .fin _ _ _ => FRes.exact (f.infBits n)
  | .fin _ _ _, .inf n => FRes.exact (f.infBits n)
  | .fin na ma ea, .fin nb mb eb => f.roundVal mode false (sumFin mode na ma ea nb mb eb)

/-- The exact product of two values that are not NaN, or none for 0 · ∞. -/
def mulVal (a b : FVal) : Option FVal :=
  match a, b with
  | .nan s, _ => some (.nan s)
  | _, .nan s => some (.nan s)
  | .inf n, y => if y.isZero then none else some (.inf (n != y.neg))
  | x, .inf n => if x.isZero then none else some (.inf (x.neg != n))
  | .fin na ma ea, .fin nb mb eb => some (.fin (na != nb) (ma * mb) (ea + eb))

/-- Multiplication with one rounding (R363, R365). -/
def Fmt.mul (f : Fmt) (mode : Mode) (a b : FVal) : FRes :=
  if a.isNan || b.isNan then FRes.nan f (a.isSnan || b.isSnan)
  else match mulVal a b with
    | none => FRes.nan f true
    | some v => f.roundVal mode false v

/-- Fused multiply-add with one rounding (R363, R365); 0 · ∞ is invalid whatever the addend (R119). -/
def Fmt.fma (f : Fmt) (mode : Mode) (a b c : FVal) : FRes :=
  let nv0 := a.isSnan || b.isSnan || c.isSnan
  let zi := (a.isZero && b.isInf) || (a.isInf && b.isZero)
  if zi then FRes.nan f true
  else if a.isNan || b.isNan || c.isNan then FRes.nan f nv0
  else match mulVal a b with
    | none => FRes.nan f true
    | some p => f.add mode p c

/-- Integer square root by bits, from bit `n` down. -/
def isqrtFrom : Nat → Nat → Nat → Nat
  | 0, r, x => if (r + 1) * (r + 1) ≤ x then r + 1 else r
  | n + 1, r, x =>
    let c := r + 2 ^ (n + 1)
    isqrtFrom n (if c * c ≤ x then c else r) x
/-- The largest integer whose square is at most `x`. -/
def isqrt (x : Nat) : Nat := isqrtFrom (x.log2 / 2 + 1) 0 x

/-- Division with one rounding (R363, R365). -/
def Fmt.div (f : Fmt) (mode : Mode) (a b : FVal) : FRes :=
  match a, b with
  | .nan s, y => FRes.nan f (s || y.isSnan)
  | x, .nan s => FRes.nan f (s || x.isSnan)
  | .inf _, .inf _ => FRes.nan f true
  | .inf n, .fin nb _ _ => FRes.exact (f.infBits (n != nb))
  | .fin na _ _, .inf n => FRes.exact (f.signBit (na != n))
  | .fin na ma ea, .fin nb mb eb =>
    if mb = 0 then
      (if ma = 0 then FRes.nan f true else ⟨f.infBits (na != nb), false, condDZ⟩)
    else if ma = 0 then FRes.exact (f.signBit (na != nb))
    else
      let k := (f.p + 3 + mb.log2) - ma.log2
      let x := ma <<< k
      f.round mode false (na != nb) (x / mb) (ea - eb - (k : Int)) (x % mb != 0)

/-- Square root with one rounding (R363, R365). -/
def Fmt.sqrt (f : Fmt) (mode : Mode) (a : FVal) : FRes :=
  match a with
  | .nan s => FRes.nan f s
  | .inf n => if n then FRes.nan f true else FRes.exact (f.infBits false)
  | .fin n m e =>
    if m = 0 then FRes.exact (f.signBit n)
    else if n then FRes.nan f true
    else
      let k0 := 2 * (f.p + 3)
      let k := if (e - (k0 : Int)) % 2 = 0 then k0 else k0 + 1
      let x := m <<< k
      let r := isqrt x
      f.round mode false false r ((e - (k : Int)) / 2) (r * r != x)

/-- Reciprocal (R372, R373). -/
def Fmt.rcp (f : Fmt) (mode : Mode) (a : FVal) : FRes := f.div mode (.fin false 1 0) a

/-- Reciprocal square root (R372, R373). -/
def Fmt.rsqrt (f : Fmt) (mode : Mode) (a : FVal) : FRes :=
  match a with
  | .nan s => FRes.nan f s
  | .inf n => if n then FRes.nan f true else FRes.exact 0
  | .fin n m e =>
    if m = 0 then ⟨f.infBits n, false, condDZ⟩
    else if n then FRes.nan f true
    else
      let m2 := if e % 2 = 0 then m else 2 * m
      let e2 := if e % 2 = 0 then e else e - 1
      let k := f.p + 3 + m2.log2 / 2 + 1
      let r := isqrt (2 ^ (2 * k) / m2)
      f.round mode false false r (-(k : Int) - e2 / 2) (r * r * m2 != 2 ^ (2 * k))

/-- Fraction bits of the fixed-point evaluation of 2^x and log2. -/
def fixBits : Nat := 320
/-- Bits cut from a fixed-point value before it is rounded; the rest brackets the real value. -/
def guardBits : Nat := 64

/-- 2·atanh(a/b) in fixed point from below: the first `n` terms of 2·Σ (a/b)^(2k+1)/(2k+1), `t` being the current power. -/
def atanhTerms : Nat → Nat → Nat → Nat → Nat → Nat → Nat
  | 0, _, _, _, _, acc => acc
  | n + 1, a, b, k, t, acc => atanhTerms n a b (k + 2) (t * a * a / (b * b)) (acc + t / k)
/-- ln((b+a)/(b-a)) in fixed point, for a/b at most 1/3. -/
def fixLn (a b : Nat) : Nat := 2 * atanhTerms 110 a b 1 (2 ^ fixBits * a / b) 0
/-- ln 2 in fixed point. -/
def fixLn2 : Nat := fixLn 1 3
/-- The first `n` terms of Σ z^k/k! in fixed point, `t` being the current term. -/
def expTerms : Nat → Nat → Nat → Nat → Nat → Nat
  | 0, _, _, _, acc => acc
  | n + 1, z, k, t, acc => expTerms n z (k + 1) (t * z / 2 ^ fixBits / k) (acc + t)
/-- 2^x in fixed point for a fraction x of [0, 1) in fixed point. -/
def fixExp2 (x : Nat) : Nat := expTerms 80 (x * fixLn2 / 2 ^ fixBits) 1 (2 ^ fixBits) 0

/-- 2^A with one rounding (R372, R373). -/
def Fmt.exp2 (f : Fmt) (mode : Mode) (a : FVal) : FRes :=
  match a with
  | .nan s => FRes.nan f s
  | .inf n => if n then FRes.exact 0 else FRes.exact (f.infBits false)
  | .fin n m e =>
    if m = 0 then f.round mode false false 1 0
    else if (.fin n m e : FVal).exp ≥ 9 then
      (if n then f.round mode false false 1 (-1000) true else f.round mode false false 1 1000 true)
    else
      let x : Int := scaled n m (e + (fixBits : Int)) 0
      let one : Int := ((2 ^ fixBits : Nat) : Int)
      let i := x.fdiv one
      let fr := (x.fmod one).toNat
      if fr = 0 then f.round mode false false 1 i
      else f.round mode false false (fixExp2 fr >>> guardBits) (i - (fixBits : Int) + (guardBits : Int)) true

/-- log2 A with one rounding (R372, R373). -/
def Fmt.log2 (f : Fmt) (mode : Mode) (a : FVal) : FRes :=
  match a with
  | .nan s => FRes.nan f s
  | .inf n => if n then FRes.nan f true else FRes.exact (f.infBits false)
  | .fin n m e =>
    if m = 0 then ⟨f.infBits true, false, condDZ⟩
    else if n then FRes.nan f true
    else
      let l := m.log2
      let i : Int := e + (l : Int)
      if m = 2 ^ l then f.roundVal mode false (.fin (decide (i < 0)) i.natAbs 0)
      else
        let r := fixLn (m - 2 ^ l) (m + 2 ^ l) * 2 ^ fixBits / fixLn2
        let v : Int := i * ((2 ^ fixBits : Nat) : Int) + (r : Int)
        f.round mode false (decide (v < 0)) (v.natAbs >>> guardBits) (-(fixBits : Int) + (guardBits : Int)) true

/-- The integral value of the same format (R374): inexact is never raised. -/
def Fmt.rint (f : Fmt) (mode : Mode) (x : Nat) : FRes :=
  match f.value x with
  | .nan s => FRes.nan f s
  | .inf _ => FRes.exact x
  | .fin n m e =>
    if m = 0 ∨ e ≥ 0 then FRes.exact x
    else
      let (k, ex) := roundShift mode n m (-e) false
      { f.roundVal .near false (.fin n k 0) with inexact := !ex, conds := 0 }

/-- −1, 0 or 1 as the first of two ordered values is smaller, equal or larger; −0 and +0 are equal. -/
def cmpVal (a b : FVal) : Int :=
  match a, b with
  | .inf n, .inf k => if n = k then 0 else if n then -1 else 1
  | .inf n, _ => if n then -1 else 1
  | _, .inf n => if n then 1 else -1
  | .fin na ma ea, .fin nb mb eb =>
    let e0 := min ea eb
    let d := scaled na ma ea e0 - scaled nb mb eb e0
    if d < 0 then -1 else if d = 0 then 0 else 1
  | _, _ => 0

/-- Whether `a` lies below `b` in the order of R120, in which −0 lies below +0; neither is a NaN. -/
def ltTotal (a b : FVal) : Bool :=
  cmpVal a b == -1 || (cmpVal a b == 0 && a.isZero && b.isZero && a.neg && !b.neg)

/-- Which operand a minimum or maximum returns (R120). -/
inductive Pick where
  | first | second | nan
  deriving DecidableEq, Repr

/-- The choice of FMIN and FMAX (R120, R373). -/
def pickMinMax (isMax : Bool) (a b : FVal) : Pick :=
  if a.isNan && b.isNan then .nan
  else if a.isNan then .second
  else if b.isNan then .first
  else if isMax then (if ltTotal a b then .second else .first)
  else (if ltTotal b a then .second else .first)

/-- Whether a floating predicate holds (R366). -/
def fcmpHolds (c : FCmp) (a b : FVal) : Bool :=
  let un := a.isNan || b.isNan
  let o := cmpVal a b
  match c with
  | .eq => !un && o == 0
  | .ne => un || o != 0
  | .lt => !un && o == -1
  | .le => !un && o != 1
  | .gt => !un && o == 1
  | .ge => !un && o != -1
  | .un => un
  | .ord => !un

/-- A float converted to an integer of `w` bits (R118): the value and the conditions. -/
def toInt (mode : Mode) (signed : Bool) (w : Nat) (a : FVal) : Int × Conds :=
  let hi : Int := if signed then ((2 ^ (w - 1) : Nat) : Int) - 1 else ((2 ^ w : Nat) : Int) - 1
  let lo : Int := if signed then -((2 ^ (w - 1) : Nat) : Int) else 0
  match a with
  | .nan _ => (0, condNV)
  | .inf n => (if n then lo else hi, condNV)
  | .fin n m e =>
    let (k, ex) := roundShift mode n m (-e) false
    let v : Int := if n then -(k : Int) else k
    if v > hi then (hi, condNV)
    else if v < lo then (lo, condNV)
    else (v, if ex then 0 else condNX)

/-- An integer converted to a float (R361). -/
def Fmt.ofInt (f : Fmt) (mode : Mode) (sat : Bool) (x : Int) : FRes :=
  f.roundVal mode sat (.fin (decide (x < 0)) x.natAbs 0)

/-- A float converted to another float format (R117, R361). -/
def Fmt.convert (f : Fmt) (mode : Mode) (sat : Bool) (a : FVal) : FRes :=
  match a with
  | .nan s =>
    if f.top = .e2m1 then ⟨0, false, condNV⟩ else FRes.nan f s
  | .inf n =>
    if f.top = .ieee then FRes.exact (f.infBits n) else ⟨f.maxBits n, true, condNX⟩
  | .fin _ _ _ => f.roundVal mode sat a

end Sys2Proof.Machine
end

