-- ==== Sys2Proof/Machine/Sparse.lean ====
section
/-! DEFINITION. Sparse maps: lists of (key, value) with strictly rising keys, the form in which State holds memory, registers and units. -/
namespace Sys2Proof.Machine

/-- A list of keys and values; kept in strictly rising key order by `SMap.put` and `SMap.set`. -/
abbrev SMap (α : Type) := List (Nat × α)

/-- The value at a key, if one is listed. -/
def SMap.find? {α : Type} : SMap α → Nat → Option α
  | [], _ => none
  | (k, v) :: m, i => if k = i then some v else SMap.find? m i

/-- The value at a key, or what an unlisted key reads as. -/
def SMap.get {α : Type} (m : SMap α) (d : α) (i : Nat) : α := (m.find? i).getD d

/-- List a value at a key, in order, in place of an earlier one. -/
def SMap.put {α : Type} : SMap α → Nat → α → SMap α
  | [], i, v => [(i, v)]
  | (k, w) :: m, i, v =>
    if i < k then (i, v) :: (k, w) :: m
    else if i = k then (i, v) :: m
    else (k, w) :: SMap.put m i v

/-- Take a key out of the list. -/
def SMap.drop {α : Type} : SMap α → Nat → SMap α
  | [], _ => []
  | (k, w) :: m, i => if k = i then SMap.drop m i else (k, w) :: SMap.drop m i

/-- Write a value, keeping the canonical form: a value equal to what an unlisted key reads as is not listed. -/
def SMap.set {α : Type} [DecidableEq α] (m : SMap α) (d : α) (i : Nat) (v : α) : SMap α :=
  if v = d then m.drop i else m.put i v

/-- Change the value at a listed key. -/
def SMap.modify {α : Type} : SMap α → Nat → (α → α) → SMap α
  | [], _, _ => []
  | (k, w) :: m, i, f => if k = i then (k, f w) :: m else (k, w) :: SMap.modify m i f

/-- The keys are strictly rising and lie above `lo` (when `lo` is given). -/
def SMap.risesFrom {α : Type} : Option Nat → SMap α → Bool
  | _, [] => true
  | lo, (k, _) :: m => (match lo with | none => true | some l => decide (l < k)) && SMap.risesFrom (some k) m

/-- The canonical form: strictly rising keys, and no entry equal to what an unlisted key reads as. -/
def SMap.wf {α : Type} [DecidableEq α] (d : α) (m : SMap α) : Bool :=
  SMap.risesFrom none m && m.all (fun p => p.2 ≠ d)

/-- Put a list of values at successive keys. -/
def SMap.setMany {α : Type} [DecidableEq α] (d : α) (m : SMap α) (i : Nat) : List α → SMap α
  | [] => m
  | v :: vs => SMap.setMany d (m.set d i v) (i + 1) vs

/-- Replace the element of a list at an index. -/
def setNth {α : Type} : List α → Nat → α → List α
  | [], _, _ => []
  | _ :: xs, 0, v => v :: xs
  | x :: xs, n + 1, v => x :: setNth xs n v

/-- Map a list with the index of each element, counted from `i`. -/
def imapFrom {α β : Type} (f : Nat → α → β) : Nat → List α → List β
  | _, [] => []
  | i, x :: xs => f i x :: imapFrom f (i + 1) xs
/-- Map a list with the index of each element. -/
def imap {α β : Type} (xs : List α) (f : Nat → α → β) : List β := imapFrom f 0 xs

/-- Insert a number in a strictly rising list. -/
def insertNat : List Nat → Nat → List Nat
  | [], i => [i]
  | k :: m, i => if i < k then i :: k :: m else if i = k then k :: m else k :: insertNat m i

end Sys2Proof.Machine
end

