-- ==== Sys2Proof/Machine/State.lean ====
section
/-! DEFINITION. The state of the module, all of it plain data (INVENTORY.md lists each piece with its rule), and the state
right after reset. Times and orders of arrival are values of the step counter `free`. -/
namespace Sys2Proof.Machine

/-- A register write of a member: the thread it belongs to, the register key, the value and tag. -/
structure RegW where
  t : Nat
  key : Nat
  val : Word
  tag : Tag
  deriving DecidableEq, Repr

/-- Why a path or a cox context waits. Retry waits keep the path at its instruction, which issues again once the wait
is over; the others end in a step of their own. -/
inductive Wait where
  | none
  /-- completion flags: a line's WAIT mask (R45) or RECV (R418) -/
  | flags (m : Nat)
  /-- an instruction line not held (R37) -/
  | fetch (line : Nat)
  /-- registers with a pending write (R45) -/
  | regs (keys : List Nat)
  /-- loads, own store events and engine entries that must end first; `leaf` is the counter charged (R280) -/
  | ops (leaf : Nat) (loads seqs entries atoms : List Nat)
  /-- witnesses with the scope each is awaited at, by WWAIT or by WMERGE (R166, R167) -/
  | wit (ws : List (DWord × Nat)) (merge : Bool)
  /-- a read inside the instruction that cannot bind yet (R152, R369) -/
  | read
  /-- an empty or full queue: 0 decision queue, 1 event queue, 2 to 5 operand queues, 6 the affine engine, 7 a full decision queue -/
  | queue (q : Nat) (crew : Nat)
  /-- a completion flag at its limit (R44) -/
  | full (f : Nat)
  /-- the origin's counter runs too far ahead (R158) -/
  | stall
  /-- the tile interlock (R223) -/
  | tile (entries : List Nat)
  | blade
  | bar (bnd key phase : Nat) (d : Reg) (mask : Nat) (status : Nat)
  /-- BARA with an arrival whose phase is not complete (R339) -/
  | bara (bnd key phase : Nat)
  | regang
  | claim (n : Nat)
  | mwait (deadline : Option Nat) (d : Reg) (mask : Nat)
  | sltake (d : Reg)
  | join
  | bltake
  | catch (step : Nat)
  /-- a debug command that applies at the end of the cycle (R293) -/
  | command
  /-- the threads hold an undelivered cause (R243) -/
  | trap
  /-- a wait that has ended while the crew may not go on (R244, R292), with the register writes that its end brings -/
  | over (w : Wait) (ws : List RegW)
  deriving DecidableEq, Repr

/-- A path of a scull (R72). `inLine` says that it has passed the WAIT check of its line (R45), `issued` are its threads, as a mask
like `mask`, whose instruction at the PC has issued and waits, `since` is the cycle of its core at which its wait began. -/
structure Path where
  pc : DWord
  mask : Nat
  fmtr : Word
  age : Nat
  inLine : Bool
  wait : Wait
  issued : Nat
  since : Nat
  deriving DecidableEq, Repr

/-- A scull: its running path, its 16-entry stack, and its own state (R43, R72, R87, R105, R200, R236). `stopped` says that a trap
in the system context stopped it (R246, R293). -/
structure Scull where
  run : Option Path
  stack : SMap Path
  cf : List Nat
  fstat : BitVec 7
  losspc : DWord
  pkmask : Nat
  age : Nat
  stopped : Bool
  yielded : Option Nat
  deriving DecidableEq, Repr

/-- A cause a thread holds until its delivery (R243), with what its frame needs (R240); `mem` is the member that raised it, and
`ganged` says that the crew was not parted then (R246). -/
structure Pend where
  cause : Nat
  sub : Nat
  faddr : Nat
  rpc : DWord
  pc : DWord
  instr : Slot
  issue : Nat
  stroke : Nat
  grp : Bool
  mem : Nat
  ganged : Bool
  waited : Bool
  cox : Bool
  deriving DecidableEq, Repr

/-- A thread: lmask bit (R66), handler level (R241), pending cause, outstanding BARA arrivals as (boundary, phase) (R339),
`mark`, the first number of a load issued after its last witness wait (R171), and `resume`, where it goes on when a stop in the system context is
released (R246), and `barst`, the status that the barrier instruction it waits at took when it first issued (R340). -/
structure Thread where
  live : Bool
  hlvl : Nat
  pend : Option Pend
  noMatch : Bool
  bara : List (Nat × Nat)
  mark : Nat
  resume : Option DWord
  barst : Option Nat
  deriving DecidableEq, Repr

/-- Where a halt stands (R292, R293): `step` is a release for one issue, `stepping` the same once its group has started, in the sculls
named and at a PC, and waits. -/
inductive Halt where
  | none | requested | halted
  | step
  | stepping (ks : List Nat) (pc : DWord)
  deriving DecidableEq, Repr

/-- A replay in progress (R288): the live point and the position to reach, the log of the piece as (stroke, register, thread,
value), and the completion flags and BARA arrivals that the crew has at the live point. -/
structure Replay where
  livePiece : Nat
  liveStroke : Nat
  toPiece : Nat
  toStroke : Nat
  log : List (Nat × Nat × Nat × DWord)
  cf : List (List Nat)
  bara : List (List (Nat × Nat))
  deriving DecidableEq, Repr

/-- Bytes that a load which thread t issues later may bind, read ahead of its issue (R171, R270). `taint` are the keys of the registers that hold
what has been computed since from loads that had not bound then: a load that takes its address from one of them depends on such a load, and `bars`
are the numbers of those. A branch is no dependence. -/
structure Early where
  t : Nat
  bytes : List (Nat × Byte)
  taint : List Nat
  bars : List Nat
  deriving DecidableEq, Repr

/-- A crew (R66, R69) with its control registers. `slot0` and `slot1` hold the threads of each busy save slot (R242); `entered` says that
the code pointer it was started with needs no check any more (R47). -/
structure Crew where
  gid : Nat
  cnum : Nat
  pos : Nat
  regs : SMap (Word × Tag)
  count : Nat
  fmtr : Word
  sigfloor : Word
  logctl : Word
  tbase : DWord
  tcmp : DWord
  ctime : DWord
  timer : Bool
  enm : Bool
  cert : Bool
  dbgctl : Word
  recbase : DWord
  dbgsel : Word
  dbgdata : DWord
  recPos : Nat
  recOk : Bool
  piece : Nat
  stroke : Nat
  plog : Nat
  sinceMark : Nat
  halt : Halt
  replay : Option Replay
  slot0 : Nat
  slot1 : Nat
  abandoned : Bool
  entered : Bool
  dq : List (Word × Tag)
  early : List Early
  parted : Bool
  killed : Bool
  yielded : Option Nat
  sculls : List Scull
  threads : List Thread
  deriving DecidableEq, Repr

/-- A barrier's current phase and the threads that arrived, each as 32·crew + thread (R339). -/
structure Barrier where
  bnd : Nat
  key : Nat
  phase : Nat
  arrived : List Nat
  deriving DecidableEq, Repr

/-- One element of an operand queue entry: its value, or the cause and address of its fault (R191); `home` is the word of a POISON (R302). -/
structure OqElem where
  val : Word
  cause : Nat
  sub : Nat
  addr : Nat
  home : Nat
  deriving DecidableEq, Repr

/-- One stream of an access descriptor (R332). -/
structure Stream where
  base : DWord
  queue : Nat
  size : Nat
  strides : List DWord
  deriving DecidableEq, Repr

/-- The affine engine's run: its loops, where it stands, the partial entry of each queue, and the events that its loads follow (R191, R333). -/
structure AeRun where
  base : DWord
  counts : List Nat
  streams : List Stream
  index : List Nat
  stream : Nat
  partials : List (List OqElem)
  need : List Nat
  deriving DecidableEq, Repr

/-- A cox context (R82); `begun` says that its instruction has issued and waits. -/
structure Cox where
  pc : DWord
  inLine : Bool
  wait : Wait
  begun : Bool
  regs : SMap Word
  stopped : Bool
  trap : Option Pend
  deriving DecidableEq, Repr

/-- A resident group (R68, R182). `hdr` is the launch header as 16 doublewords, `hdrva` the HDR of its
record. -/
structure Group where
  ctx : Nat
  graph : Nat
  run : Nat
  node : Nat
  hdr : List DWord
  hdrva : DWord
  prio : Nat
  join : DWord
  cnums : List Nat
  slots : List Nat
  tiles : List Nat
  nscr : List Nat
  regx : List Nat
  l1x : List Nat
  regxFree : Nat
  bars : List Barrier
  lastSeq : Option Nat
  joined : Bool
  aeStarted : Bool
  ae : Option AeRun
  oq : List (List (List OqElem))
  cox : Option Cox
  deriving DecidableEq, Repr

/-- A valid L1 byte: its value, the store events behind its dirty mark (R136) in the order in which they entered, none for a clean byte, and
when it became valid (R185). -/
structure L1Byte where
  val : Byte
  dirty : List Nat
  fill : Nat
  deriving DecidableEq, Repr

/-- Where a stored byte goes (R163): through the L1, straight to its home, to a replicated line, to another module. -/
inductive Dest where
  | l1 | home | repl | remote
  deriving DecidableEq, Repr

/-- One part of a load: bytes at a home key, the register it writes, and how (R392); a FILL takes its tag from memory (R376). `missed`
says that its bytes came from the home after an L1 miss (R302); `known` is the value of a part whose reads have bound (HPROBE). -/
structure LPart where
  ha : Nat
  n : Nat
  dest : Dest
  dst : Option Nat
  sx : Bool
  tag : Tag
  tagAt : Option (Nat × Dest)
  missed : Bool
  known : Option Word
  deriving DecidableEq, Repr

/-- The access of one thread of a load. `cls` is its FENCE class as a mask (R172). -/
structure LElem where
  t : Nat
  va : Nat
  parts : List LPart
  cls : Nat
  after : DWord
  deriving DecidableEq, Repr

/-- Who issued: a crew slot, or a cox context by its group. -/
inductive Who where
  | crew (slot : Nat) | cox (gid : Nat)
  deriving DecidableEq, Repr

/-- Where an operation was issued, for the frame of a kill (R240, R315): its group's PC, its word, whether the group had several members,
the crew's stroke count; the origin's CNT and the core's operation number then. -/
structure Site where
  pc : DWord
  instr : Slot
  grp : Bool
  stroke : Nat
  cnt : Nat
  ord : Nat
  deriving DecidableEq, Repr

/-- An issued load that has not bound everywhere (R171, R393). -/
structure Load where
  who : Who
  scope : Nat
  forced : Bool
  flag : Option Nat
  sculls : List Nat
  elems : List LElem
  need : List Nat
  src : Site
  deriving DecidableEq, Repr

/-- One byte of a store event. -/
structure SByte where
  ha : Nat
  val : Byte
  dest : Dest
  deriving DecidableEq, Repr

/-- A store event of an origin that is not yet at its homes (R156, R170). `cls` is its FENCE classes as a mask (R172),
`await` the scope its instruction names, at which its after-witnesses are awaited (log entry 51), `locks` the copies of its lowest replicated
line that it has locked (R152), `marks` the home keys that it poisons (R303). A `held` event
is a number taken by an ATOM, a JOIN, a TST or a group's end, which performs in a step of its own. -/
structure StoreEv where
  seq : Nat
  who : Option Who
  threads : Nat
  scope : Nat
  await : Nat
  after : List DWord
  wit : Bool
  cls : Nat
  bytes : List SByte
  waits : List Nat
  entered : Bool
  swept : Bool
  locks : Nat
  held : Bool
  marks : List Nat
  deriving DecidableEq, Repr

/-- An origin unit: its store counter, incarnation and buffer (R156, R157, R170), and `behind`, the last number whose Sweep
has begun: an older event that enters the L1 after that goes home at once (R163). -/
structure Origin where
  cnt : Nat
  inc : Nat
  pend : List StoreEv
  behind : Option Nat
  deriving DecidableEq, Repr

/-- The operation of one thread at a home: ATOM (R337), JOIN (R189), SLTAKE and SLPUT (R192). -/
structure AElem where
  t : Nat
  va : Nat
  ha : Nat
  remote : Bool
  operand : DWord
  swap : DWord
  deriving DecidableEq, Repr

/-- An issued operation that performs at a home. `op` 0 to 7 are those of ATOM, 8 JOIN, 9 SLTAKE, 10 SLPUT. `grp` names its group
for a push. `elems` are the operations still to perform, in ascending thread order; `got` the old values so far, and `half` the half of a
packed pair that the first of them has updated with its old value (R143). `flushed` says that the core's L1 has given up their lines (R168). -/
structure Atom where
  who : Who
  op : Nat
  ty : Ty
  seq : Option Nat
  scope : Nat
  wit : Bool
  after : List DWord
  need : List Nat
  dst : Option Reg
  flag : Option Nat
  sculls : List Nat
  elems : List AElem
  order : Nat
  src : Site
  grp : Group
  got : List (Nat × Nat)
  half : Option (Nat × Nat)
  flushed : Bool
  deriving DecidableEq, Repr

/-- A part of a checked transfer inside one 128-byte line. -/
structure Seg where
  ha : Nat
  n : Nat
  dest : Dest
  deriving DecidableEq, Repr

/-- What an engine queue entry does. Tiles are physical tile numbers; `lines` are the checked lines of a tile (R224, R225).
A COLL whose round is complete delivers its result; `marks` are the elements made of poisoned words. -/
inductive EKind where
  | tld (tile : Nat) (lines : List (List Seg)) (scale : List Seg) (tag : Nat)
  | tst (tile : Nat) (lines : List (List Seg)) (seqs : List Nat)
  | scld (tile : Nat) (scale : List Seg)
  | mma (d a b c : Nat) (nc scaled : Bool) (sa sb : Word) (rm nbv : Nat)
  | cpy (dst src len : Nat) (dv sv : Bool)
  | gath (dst src idx count esz iw : Nat) (dv sv : Bool)
  | coll (desc : List Byte)
  | deliver (dst size : Nat) (data : List Byte) (marks : List Nat)
  | fence (id : Nat) (queues : Nat)
  deriving DecidableEq, Repr

/-- An entry of an engine queue (R174). `grp` holds the context and the grants of its group, `need` the operations of its own issue group that
it follows (R40). -/
structure Entry where
  id : Nat
  who : Who
  gid : Nat
  grp : Group
  quarter : Nat
  scope : Nat
  after : DWord
  flag : Option Nat
  sculls : List Nat
  kind : EKind
  tag : DWord
  begun : Bool
  pos : Nat
  finished : Bool
  status : Nat
  wit : DWord
  origin : Nat
  conds : BitVec 7
  drop : Bool
  need : List Nat
  src : Site
  deriving DecidableEq, Repr

/-- A tile with its control register, contents, tag, scale slot and poison mark (R102, R219, R220, R225). -/
structure Tile where
  tf : Word
  data : SMap Byte
  tag : Nat
  scale : SMap Byte
  poisoned : Bool
  deriving DecidableEq, Repr

/-- A flex unit's assignment (R138). -/
inductive Flex where
  | free | regx (gid : Nat) | nscr (gid : Nat) | l1x
  deriving DecidableEq, Repr

/-- A seat: the slot that issued last, the cycles each lane is still busy with useful or masked threads, and its counters (R71, R87, R280). -/
structure Seat where
  last : Option Nat
  lanes : List (List Nat)
  ctr : List Nat
  deriving DecidableEq, Repr

/-- A core. `seatPtr` is what has its turn in the cycle: the cox (4), seats 0 to 3, the cycle's end (5). `ways` is the way that each line held in the L1 has in its set: 0 to 3, and 4 + 4·i to 7 + 4·i in flex unit i (R136, R138).
`dbg` are the debug commands of this cycle with the number of the commanding crew (R293), `late` the groups removed by force whose join
decrement is still to perform (R195), `torn` the 64-byte lines of which only some dirty bytes have gone home, so that no line of code is read
half old and half new (R63). -/
structure Core where
  ccyc : Nat
  seatPtr : Nat
  seats : List Seat
  coxLast : Nat
  pool : Nat
  flex : List Flex
  claims : List Nat
  crews : SMap Crew
  groups : SMap Group
  l1 : SMap L1Byte
  l1poison : List Nat
  torn : List Nat
  ways : SMap Nat
  icache : SMap (List Byte)
  loads : SMap Load
  atoms : SMap Atom
  evq : List (List DWord)
  queues : List (List Entry)
  tiles : SMap Tile
  blade : Option Nat
  bladeWait : List Nat
  trbase : DWord
  trhead : DWord
  trtail : DWord
  nextGid : Nat
  owed : List (Nat × Nat)
  dbg : List (Nat × Instr)
  late : SMap Group
  deriving DecidableEq, Repr

/-- A record in a starter's queue (R186, R187) with the run it belongs to; `park` says that PARK wrote it (R47). -/
structure QRec where
  words : List DWord
  hdr : List DWord
  ctx : Nat
  graph : Nat
  run : Nat
  node : Nat
  bypass : Nat
  pushed : Nat
  park : Bool
  deriving DecidableEq, Repr

/-- A held translation (R147, R148): the walk's result for one page. -/
structure Trans where
  fault : Option (Nat × Nat)
  pa : Nat
  bits : Nat
  flags : Nat
  deriving DecidableEq, Repr

/-- A cluster: its starter and what its caches hold (R142, R147, R187). -/
structure Cluster where
  queues : List (List QRec)
  cyc : Nat
  tc : SMap Trans
  slices : List Nat
  retiredSlices : List Nat
  retiredWays : List Nat
  retiredVaults : List Nat
  deriving DecidableEq, Repr

/-- A copy of a replicated line in a cluster, its lock (R151, R152), and its poisoned words, 0 to 15 (R303). -/
structure Copy where
  bytes : List Byte
  lock : Option (Nat × Nat)
  marks : List Nat
  deriving DecidableEq, Repr

/-- A job cut of a context (R196): the largest step reported, the cycle of each core when it began, and how it ended. -/
structure Cut where
  step : Option Nat
  starts : SMap Nat
  failed : Bool
  completed : Bool
  deriving DecidableEq, Repr

/-- A context's descriptor and control registers (R58, R177, R289). -/
structure Ctx where
  qbase : DWord
  dtaddr : DWord
  root : DWord
  deadline : Word
  shadow : Bool
  sel : Nat
  held : List Nat
  brk : List DWord
  watch : List DWord
  draining : Option (SMap Nat)
  preempted : Bool
  cut : Option Cut
  deriving DecidableEq, Repr

/-- A node of an installed graph (R178). -/
structure GNode where
  hdr : List DWord
  npred : Nat
  succs : List Nat
  deriving DecidableEq, Repr

/-- A node of a run: predecessors still open, groups and records still open, and whether it was launched or is complete. -/
structure RNode where
  preds : Nat
  left : Nat
  launched : Bool
  done : Bool
  deriving DecidableEq, Repr

/-- A run of a graph (R181). -/
structure Run where
  seq : Nat
  plist : Nat
  begun : Bool
  nodes : List RNode
  status : Nat
  failNode : Nat
  deriving DecidableEq, Repr

/-- An installed graph (R178) with its run, its trigger queue and its last done word. -/
structure Graph where
  installed : Bool
  ctx : Nat
  vector : Nat
  doneaddr : Nat
  pblock : Nat
  pblen : Nat
  nodes : List GNode
  run : Option Run
  waiting : List DWord
  seq : Nat
  lastDone : DWord
  deriving DecidableEq, Repr

/-- A push that waits for its conditions (R188, R189, R190): `gid`, `slot` and `ord` say which group, crew and operation of the core made it;
`seq` is the event that writes the record of a PARK. -/
structure Push where
  va : Nat
  ctx : Nat
  graph : Nat
  run : Nat
  node : Nat
  cluster : Nat
  unit : Nat
  gid : Nat
  slot : Option Nat
  ord : Nat
  after : DWord
  seq : Option Nat
  deriving DecidableEq, Repr

/-- One contribution to a collective round (R353); `marks` are its elements read from poisoned words. -/
structure Contrib where
  rank : Nat
  unit : Nat
  entry : Nat
  ctx : Nat
  ok : Bool
  op : Nat
  ty : Nat
  nrank : Nat
  count : Nat
  data : List Byte
  marks : List Nat
  deriving DecidableEq, Repr

/-- A round of a GROUP that gathers (R353). -/
structure Round where
  group : DWord
  round : Nat
  parts : List Contrib
  closed : Bool
  deriving DecidableEq, Repr

/-- A monitor armed on a line (R399, R400): the line's number at its home, and the slice (64·cluster + slice), vault
(2^20 + 48·cluster + vault) or other place (2^21) that holds it. -/
structure Monitor where
  id : Nat
  unit : Nat
  slot : Nat
  thread : Nat
  home : Nat
  place : Nat
  hit : Bool
  triggered : Bool
  deriving DecidableEq, Repr

/-- A mailbox command that U0 has taken (R319): its code, the context, crew (64·unit + slot) or umpire core it acts on, the words of
its reply so far, and an image that U0 itself resets into after its reply. -/
structure Cmd where
  code : Nat
  arg : Nat
  reply : List Word
  image : List Byte
  deriving DecidableEq, Repr

/-- The I/O die and the host-visible registers (R294, R318 to R325, R313). `ready` holds the bits of the ready bitmap but ALL, with
CORES in [43:32]. `sent` lists what has left the module: completions of host reads by stream (32 for BAR0), replies to module m under 64 + m,
reports written to host memory under 4064; each with its bytes and the poison indication. `ucyc` are the cycle counters of the umpire
cores (R14). -/
structure Iod where
  trigErr : Nat
  ready : Nat
  replace : Word
  mailbox : List Word
  doorbell : Word
  cmd : Option Cmd
  dmb : List Word
  reports : List (DWord × Word)
  msix : SMap Nat
  dbgIrq : Nat
  sent : List (Nat × List Byte × Bool)
  kills : List (List Byte)
  log : List (List Byte)
  umpire : SMap (List Byte)
  ucyc : SMap Nat
  bootFailed : Bool
  deriving DecidableEq, Repr

/-- A Zwinen port (R311). -/
structure Port where
  retries : SMap Nat
  spareUsed : Bool
  lost : Nat
  retraining : Bool
  deriving DecidableEq, Repr

/-- Reliability state (R308 to R312, R328). Unit keys: 2^20·kind + index, kinds 0 seat, 1 core, 2 vault, 3 L2 slice,
4 HBM pseudo-channel, 5 Zwinen port. `due` are the seats and cores whose halving has come, `retired` the retired channels and ports. -/
structure Ras where
  score : SMap Nat
  due : List Nat
  suspect : List Nat
  retired : List Nat
  retiredCores : List Nat
  spareRows : SMap Nat
  rowErrs : SMap Nat
  hbmRetired : List (Nat × Nat)
  ports : SMap Port
  clock : SMap Nat
  deriving DecidableEq, Repr

/-- A precise cause raised by a member in a thread (R235). -/
structure Raise where
  t : Nat
  cause : Nat
  sub : Nat
  faddr : Nat
  next : Bool
  mem : Nat
  deriving DecidableEq, Repr

/-- A store of one issue before it is numbered: per thread its bytes. -/
structure StoreReq where
  scope : Nat
  wit : Option Reg
  cls : Nat
  elems : List (Nat × DWord × List SByte)
  deriving DecidableEq, Repr

/-- What a seat instruction does to a tile (R220, R231, R438): per thread the bytes it moves in and the trust they carry. -/
inductive TileOp where
  | cfg (tf : Word)
  | zero
  | move (cells : List (Nat × List (Nat × Byte))) (trusts : List (Nat × Nat))
  deriving DecidableEq, Repr

/-- A memory or engine operation of a member, issued when the group commits (R40, R42). -/
inductive MOp where
  | load (l : Load)
  | store (r : StoreReq)
  | atom (a : Atom) (wit : Option Reg)
  | fetch (keys : List Nat)
  | entry (q : Nat) (e : Entry) (threads : List Nat) (wit : Option Reg)
  | tile (n : Nat) (op : TileOp) (threads : List Nat)
  deriving DecidableEq, Repr

/-- What the members of an issue group do, gathered until the group commits: register writes, raised causes, conditions,
falls below the floor with the member that fell, threads that jump, return from a handler with an FMTR, exit, issue again or are parked,
operations, suspicion charged to
the seat, and values to log while recording. -/
structure Fx where
  wr : List RegW
  raises : List Raise
  conds : List (Nat × BitVec 7)
  falls : List (Nat × Nat)
  jumps : List (Nat × DWord)
  rets : List (Nat × Word)
  gone : List Nat
  again : List Nat
  parks : List Nat
  ops : List MOp
  suspects : Nat
  log : List (Nat × Nat × DWord)
  deriving DecidableEq, Repr

def Fx.empty : Fx := ⟨[], [], [], [], [], [], [], [], [], [], 0, []⟩

/-- A cycle of a seat (R280): its lanes after it, the leaves of the lanes that a leaf is known for, and the number of the
others with the first leaf that the seat's other candidates wait on. -/
structure SeatTick where
  lanes : List (List Nat)
  busy : List Nat
  free : Nat
  leaf : Nat
  deriving DecidableEq, Repr

/-- The issue group in flight: who issues it, where, the words of the members still to execute, what the members
so far do, and the seat as it becomes if the group starts (`go`) or waits (`stall`). `group` are the words of all its members, and `off` the
threads, as a mask, that count as predicated off in this run over them (R42); `srcs` are the numbers of the registers that members which only compute read, and none
where some member does more (R171). -/
structure Issue where
  unit : Nat
  who : Who
  pc : DWord
  next : DWord
  parts : List Nat
  mask : Nat
  words : List Slot
  cur : Slot
  idx : Nat
  nmem : Nat
  setA : Nat
  setB : Nat
  beats : Nat
  id : Nat
  resume : Wait
  go : Option SeatTick
  stall : Option SeatTick
  group : List Slot
  off : Nat
  srcs : Option (List Nat)
  fx : Fx
  deriving DecidableEq, Repr

/-- The whole module. -/
structure State where
  free : Nat
  agenda : List Instr
  issue : Option Issue
  mem : List Host.Cell
  poison : List Nat
  cores : SMap Core
  origins : SMap Origin
  contexts : SMap Ctx
  graphs : SMap Graph
  pushes : SMap Push
  rounds : List Round
  roundOf : SMap Nat
  monitors : List Monitor
  clusters : SMap Cluster
  copies : SMap Copy
  iod : Iod
  ras : Ras
  routes : SMap Nat
  modnum : Nat
  deriving DecidableEq, Repr

/-- The reasons a step can stop. -/
inductive Fault where
  /-- Raised by the meaning of a slot instruction that is executed while no issue group is in flight: no core executes
  an instruction outside an issue (R87). Safe: `step` never does it. -/
  | notIssuing
  deriving DecidableEq, Repr

/-- The reasons a step has no meaning. -/
inductive Refusal where
  /-- Raised by an arm of `exec` whose instruction has no meaning yet. Safe: the machine goes no further. -/
  | notModelled (mnemonic : String)
  deriving DecidableEq, Repr

/-! What an unlisted entry of a map stands for, which is also its value at reset. -/

/-- What a byte of memory that nothing has written reads as (log entry 4). -/
def memDefault : Byte := 0
/-- What a register that nothing has written reads as (R69). -/
def regDefault : Word × Tag := (0, intTag)

def Seat.reset : Seat := ⟨none, List.replicate 8 [], List.replicate 16 0⟩
def Tile.reset : Tile := ⟨0xF, [], 0, [], false⟩
def Core.reset : Core where
  ccyc := 0
  seatPtr := 4
  seats := List.replicate 4 Seat.reset
  coxLast := 0
  pool := 65536
  flex := List.replicate 3 .free
  claims := []
  crews := []
  groups := []
  l1 := []
  l1poison := []
  torn := []
  ways := []
  icache := []
  loads := []
  atoms := []
  evq := []
  queues := [[], [], []]
  tiles := []
  blade := none
  bladeWait := []
  trbase := 0
  trhead := 0
  trtail := 0
  nextGid := 0
  owed := []
  dbg := []
  late := []
def Origin.reset : Origin := ⟨0, 0, [], none⟩
def Cluster.reset : Cluster := ⟨List.replicate 8 [], 0, [], List.range 64, [], [], []⟩
def Ctx.reset : Ctx := ⟨0, 0, 0, 0, false, 2, [], List.replicate 8 0, List.replicate 4 0, none, false, none⟩
def Graph.reset : Graph := ⟨false, 0, 0, 0, 0, 0, [], none, [], 0, 0⟩
def Port.reset : Port := ⟨[], false, 0, false⟩
def Iod.reset : Iod where
  trigErr := 0
  ready := 0
  replace := 0
  mailbox := List.replicate 64 0
  doorbell := 0
  cmd := none
  dmb := List.replicate 64 0
  reports := []
  msix := []
  dbgIrq := 0
  sent := []
  kills := []
  log := []
  umpire := []
  ucyc := []
  bootFailed := false
def Ras.reset : Ras := ⟨[], [], [], [], [], [], [], [], [], []⟩

/-- The module right after reset (R14, R58, R69, R156, R157, R183, R220, R281, R285, R289, R308, R313, R322). -/
def State.reset : State where
  free := 0
  agenda := []
  issue := none
  mem := []
  poison := []
  cores := []
  origins := []
  contexts := []
  graphs := []
  pushes := []
  rounds := []
  roundOf := []
  monitors := []
  clusters := []
  copies := []
  iod := Iod.reset
  ras := Ras.reset
  routes := []
  modnum := 0

end Sys2Proof.Machine
end

