-- ==== Sys2Proof/Machine/Access.lean ====
section
/-! DEFINITION. Reading and replacing parts of the state, memory at its homes, and the fields of launch headers. -/
namespace Sys2Proof.Machine

/-! Parts of the state. -/

def State.core (s : State) (u : Nat) : Core := s.cores.get Core.reset u
def State.setCore (s : State) (u : Nat) (c : Core) : State := { s with cores := s.cores.put u c }
def State.origin (s : State) (o : Nat) : Origin := s.origins.get Origin.reset o
def State.setOrigin (s : State) (o : Nat) (x : Origin) : State := { s with origins := s.origins.put o x }
def State.ctx (s : State) (n : Nat) : Ctx := s.contexts.get Ctx.reset n
def State.setCtx (s : State) (n : Nat) (x : Ctx) : State := { s with contexts := s.contexts.put n x }
def State.graph (s : State) (n : Nat) : Graph := s.graphs.get Graph.reset n
def State.setGraph (s : State) (n : Nat) (x : Graph) : State := { s with graphs := s.graphs.put n x }
def State.cluster (s : State) (n : Nat) : Cluster := s.clusters.get Cluster.reset n
def State.setCluster (s : State) (n : Nat) (x : Cluster) : State := { s with clusters := s.clusters.put n x }
/-- Put a step of the machine at the end of the agenda: it follows before any freely chosen one. -/
def State.push (s : State) (i : Instr) : State := { s with agenda := s.agenda ++ [i] }
/-- A step of the machine that comes before every other one. -/
def State.pushNext (s : State) (i : Instr) : State := { s with agenda := i :: s.agenda }
def Core.setCrew (c : Core) (slot : Nat) (w : Crew) : Core := { c with crews := c.crews.put slot w }
def Core.setGroup (c : Core) (gid : Nat) (g : Group) : Core := { c with groups := c.groups.put gid g }
def State.modCore (s : State) (u : Nat) (f : Core → Core) : State := s.setCore u (f (s.core u))
def State.modCrew (s : State) (u slot : Nat) (f : Crew → Crew) : State := s.modCore u (fun c => { c with crews := c.crews.modify slot f })
def State.modGroup (s : State) (u gid : Nat) (f : Group → Group) : State := s.modCore u (fun c => { c with groups := c.groups.modify gid f })
def State.crew? (s : State) (u slot : Nat) : Option Crew := (s.core u).crews.find? slot
def State.group? (s : State) (u gid : Nat) : Option Group := (s.core u).groups.find? gid

/-- The cluster of a core (R7). -/
def clusterOf (u : Nat) : Nat := u / 192
/-- The quad of a core in its cluster (R7). -/
def quadOf (u : Nat) : Nat := u % 192 / 4
/-- The data engine that serves a core (R13). -/
def dataEngineOf (u : Nat) : Nat := 2304 + 32 * clusterOf u + quadOf u / 3
def collEngine : Nat := 2688
def starterOf (cl : Nat) : Nat := 2304 + 32 * cl + 16
/-- A number R13 issues. -/
def isOrigin (o : Nat) : Bool :=
  decide (o < 2304) || (decide (2304 ≤ o ∧ o < 2688) && decide ((o - 2304) % 32 ≤ 16)) || o == 2688 || decide (4032 ≤ o ∧ o ≤ 4071)

/-! Homes. A home key is the physical address for HBM and the host window (R140), and lies above 2^40 for the vaults,
near scratch and the umpire cores' memory. -/

def vaultKey (cl off : Nat) : Nat := 2 ^ 40 + cl * 2 ^ 27 + off
def scratchKey (u unit off : Nat) : Nat := 2 ^ 41 + u * 2 ^ 18 + unit * 2 ^ 16 + off
def tcmKey (core off : Nat) : Nat := 2 ^ 42 + core * 2 ^ 20 + off
/-- The host window's key of a host bus address (R140). -/
def hostKey (a : Nat) : Nat := 15 * 2 ^ 36 + a % 2 ^ 36
def isHostKey (a : Nat) : Bool := decide (15 * 2 ^ 36 ≤ a ∧ a < 2 ^ 40)
/-- The cluster whose L2 is home to an HBM line (R141). -/
def homeCluster (a : Nat) : Nat := a / 2 ^ 36
/-- The slice of R141. -/
def homeSlice (a : Nat) : Nat :=
  ((bitsAt a 7 6 ^^^ bitsAt a 13 6) ^^^ (bitsAt a 19 6 ^^^ bitsAt a 25 6)) ^^^ bitsAt a 31 5

/-- One byte at its home. -/
def State.byte (s : State) (a : Nat) : Byte := SMap.get s.mem memDefault a
/-- Write one byte at its home, keeping the canonical form. -/
def State.putByte (s : State) (a : Nat) (b : Byte) : State := { s with mem := SMap.set s.mem memDefault a b }
def State.bytes (s : State) (a : Nat) : Nat → List Byte
  | 0 => []
  | n + 1 => s.byte a :: s.bytes (a + 1) n
def State.putBytes (s : State) (a : Nat) : List Byte → State
  | [] => s
  | b :: bs => (s.putByte a b).putBytes (a + 1) bs
/-- A little-endian number at its home (R4). -/
def State.num (s : State) (a n : Nat) : Nat := natOfBytes (s.bytes a n)
def State.dword (s : State) (a : Nat) : DWord := BitVec.ofNat 64 (s.num a 8)
/-- The memory is in its canonical form. -/
def Memory.wf (m : List Host.Cell) : Bool := SMap.wf memDefault m

/-- A word of the home is poisoned (R303). -/
def State.isPoisoned (s : State) (a n : Nat) : Bool := s.poison.any (fun w => decide (w * 8 < a + n ∧ a < w * 8 + 8))
def State.setPoison (s : State) (a : Nat) (on : Bool) : State :=
  { s with poison := if on then insertNat s.poison (a / 8) else s.poison.filter (· != a / 8) }

/-- Monitors on the line of a written home byte are hit (R400). -/
def State.hitMonitors (s : State) (a : Nat) : State :=
  let hit (m : Monitor) : Bool := m.home == a / 128 && !m.hit && !m.triggered
  { s with
    monitors := s.monitors.map (fun m => if hit m then { m with hit := true } else m)
    agenda := s.agenda ++ (s.monitors.filter hit).map (fun m => .monitorTrigger m.id) }

/-- All eight bytes of word `w` are among the written bytes. -/
def coversWord (w : Nat) (bs : List (Nat × Byte)) : Bool := (List.range 8).all (fun i => bs.any (fun p => p.1 == 8 * w + i))
/-- The words wholly written by a list of bytes. -/
def wholeWords (bs : List (Nat × Byte)) : List Nat := ((bs.map (·.1 / 8)).eraseDups).filter (fun w => coversWord w bs)

/-- Write bytes at their homes: memory, poison marks (a store of all eight bytes of a word clears its mark, R303), monitors. -/
def State.writeHome (s : State) (bs : List (Nat × Byte)) : State :=
  let s := bs.foldl (fun s p => s.putByte p.1 p.2) s
  let s := { s with poison := s.poison.filter (fun w => !(wholeWords bs).contains w) }
  ((bs.map (·.1 / 128)).eraseDups).foldl (fun s l => s.hitMonitors (128 * l)) s

/-- The array code of the array a home key lies in, as a consuming access reads it (R302). -/
def arrayCode (a : Nat) : Nat := if a < 2 ^ 40 then 7 else if a < 2 ^ 41 then 6 else if a < 2 ^ 42 then 5 else if a < 2 ^ 56 then 10 else 7

/-! Launch headers (R182). -/

def hdrW (h : List DWord) (i : Nat) : Nat := (h.getD i 0).toNat
def hdrBase (h : List DWord) : Nat := hdrW h 2
def hdrCount (h : List DWord) : Nat := hdrW h 3
def hdrPriv (h : List DWord) : Nat := hdrW h 4
def hdrWidth (h : List DWord) (j : Nat) : Nat := bitsAt (hdrW h 6) (22 + 7 * j) 7
/-- The boundary B_j (R65). -/
def hdrBound (h : List DWord) : Nat → Nat
  | 0 => 0
  | j + 1 => hdrBound h j + hdrWidth h j
def hdrG (h : List DWord) : Nat := bitsAt (hdrW h 6) 19 3
def hdrRegs (h : List DWord) : Nat := bitsAt (hdrW h 6) 11 8
def hdrPrio (h : List DWord) : Nat := bitsAt (hdrW h 6) 8 3
def hdrNbv (h : List DWord) : Nat := if bitsAt (hdrW h 6) 6 2 = 1 then 1 else 2
def hdrTiles (h : List DWord) : Nat := bitsAt (hdrW h 6) 0 5
def hdrWords (h : List DWord) : Nat := bitsAt (hdrW h 7) 44 20
def hdrVbase (h : List DWord) : Nat := bitsAt (hdrW h 7) 29 15
def hdrVlen (h : List DWord) : Nat := bitsAt (hdrW h 7) 14 15
def hdrRegx (h : List DWord) : Nat := bitsAt (hdrW h 7) 12 2
def hdrNscr (h : List DWord) : Nat := bitsAt (hdrW h 7) 10 2
def hdrL1x (h : List DWord) : Nat := bitsAt (hdrW h 7) 8 2
def hdrClmask (h : List DWord) : Nat := bitsAt (hdrW h 8) 32 12
/-- A MOVC-written, header or frame FMTR with a nonzero reserved bit (R114). -/
def fmtrBad (w : Word) : Bool := bitsAt w.toNat 16 15 != 0 || bitsAt w.toNat 4 5 != 0
/-- The initial FMTR of a launch; its reserved bits hold zero (R69, R114). -/
def hdrFmtr (h : List DWord) : Word := BitVec.ofNat 32 (hdrW h 8) &&& 0x8000FE0F#32
/-- The role of crew c (R66, R182). -/
def hdrRole (h : List DWord) (c : Nat) : Nat := bitsAt (hdrW h 9 + hdrW h 10 * 2 ^ 64) (3 * c) 3
/-- B_G, the bits of an identifier inside a group (R66). -/
def hdrBG (h : List DWord) : Nat := hdrBound h (hdrG h)
def hdrCoxEntry (h : List DWord) : Nat := hdrW h 1

/-- Crews of a launch (R238). -/
def hdrNC (h : List DWord) : Nat := (hdrCount h + 31) / 32
/-- PBASE of the crew at position c (R131). -/
def pbase (h : List DWord) (c : Nat) : Nat := (hdrPriv h + 160 * hdrWords h * c) % 2 ^ 64
/-- FRBASE of the crew at position c (R238). -/
def frbase (h : List DWord) (c : Nat) : Nat := (hdrPriv h + 160 * hdrWords h * hdrNC h + 256 * c) % 2 ^ 64
/-- A header names NBV 3, a reserved bit or a value out of range (R183); the capacity check is `hdrFits`. -/
def hdrRejected (h : List DWord) : Bool :=
  bitAt (hdrW h 6) 5 || bitsAt (hdrW h 7) 0 8 != 0 || bitsAt (hdrW h 8) 44 20 != 0 || fmtrBad (BitVec.ofNat 32 (hdrW h 8)) || bitsAt (hdrW h 10) 32 32 != 0 ||
  [11, 12, 13, 14, 15].any (fun i => hdrW h i != 0) || hdrG h == 7 || decide (hdrBound h 6 > 64) ||
  decide (hdrBG h < 5 ∨ hdrBG h > 10) || hdrRegs h == 0 || decide (hdrRegs h > 224) || hdrRegs h % 8 != 0 ||
  bitsAt (hdrW h 6) 6 2 == 3 || hdrWords h % 4 != 0 || decide (hdrRegx h + hdrNscr h + hdrL1x h > 3) || decide (hdrTiles h > 16) ||
  decide (hdrVbase h + hdrVlen h > 24576) || hdrBase h % 32 != 0
/-- A core could hold a group of `crews` crews with `regs` registers per thread (R183). -/
def hdrFits (h : List DWord) (crews regs : Nat) : Bool :=
  decide (crews ≤ 48) && decide (32 * regs * crews ≤ 65536 + 12288 * hdrRegx h)

/-! Registers of a crew: `32·n + t` is v<n> of thread t, `7168 + n` is k<n>. -/

def crewKey (n : Nat) : Nat := 7168 + n
def Crew.get (w : Crew) (key : Nat) : Word × Tag := w.regs.get regDefault key
def Crew.set (w : Crew) (key : Nat) (v : Word) (t : Tag) : Crew := { w with regs := w.regs.set regDefault key (v, t) }
def Crew.scull (w : Crew) (k : Nat) : Scull := w.sculls.getD k ⟨none, [], [], 0, 0, 0, 0, false, none⟩
def Crew.setScull (w : Crew) (k : Nat) (x : Scull) : Crew := { w with sculls := setNth w.sculls k x }
def Crew.thread (w : Crew) (t : Nat) : Thread := w.threads.getD t ⟨false, 0, none, false, [], 0, none, none⟩
def Crew.setThread (w : Crew) (t : Nat) (x : Thread) : Crew := { w with threads := setNth w.threads t x }

/-- The numbers of the set bits of a mask, ascending. -/
def bitsOf (n m : Nat) : List Nat := (List.range n).filter (fun i => bitAt m i)
def maskOf (ts : List Nat) : Nat := ts.foldl (fun m t => m ||| 2 ^ t) 0

/-- A scull none of whose threads is live, or whose live threads are all parked, counts as exited (R79, R200). -/
def Scull.gone (x : Scull) : Bool := x.run.isNone && x.stack.isEmpty
/-- Every thread of the crew has exited (R79). -/
def Crew.exited (w : Crew) : Bool := w.threads.all (fun t => !t.live)
/-- The crew is converged (R77). -/
def Crew.converged (w : Crew) : Bool := !w.parted && w.sculls.all (fun x => x.stack.isEmpty)

/-- What an operation in flight keeps of its group: the context, the node it runs for, and the grants of its launch. -/
def Group.tag (g : Group) : Group :=
  { g with
    hdrva := 0
    cnums := []
    slots := []
    tiles := []
    regx := []
    l1x := []
    regxFree := 0
    bars := []
    lastSeq := none
    joined := false
    aeStarted := false
    ae := none
    oq := []
    cox := none }
/-- First work identifier of a crew (R66): `pos` is its position in the launch (R131). -/
def Group.firstWid (g : Group) (w : Crew) : Nat := (hdrBase g.hdr + 32 * w.pos) % 2 ^ 64

end Sys2Proof.Machine
end

