-- ==== Sys2Proof/Machine/Operands.lean ====
section
/-! DEFINITION. What a member of the issue group in flight reads: registers, sources, pairs, effective addresses (R129
to R133), translations (R144 to R149) and watchpoints (R290). -/
namespace Sys2Proof.Machine

/-- The issue in flight with the parts of the state it reads. For a cox issue `crew` is a crew with no state. -/
structure View where
  iss : Issue
  core : Core
  crew : Crew
  grp : Group
  cox : Cox
  deriving DecidableEq, Repr

def Thread.fresh : Thread := ⟨true, 0, none, false, [], 0, none, none⟩
def Scull.fresh : Scull := ⟨none, [], List.replicate 12 0, 0, 0, 0, 0, false, none⟩
/-- DBGCTL at group start: zero but PLOG 20 (R282). -/
def dbgctlStart : Word := BitVec.ofNat 32 (20 * 2 ^ 11)
def Crew.blank : Crew where
  gid := 0
  cnum := 0
  pos := 0
  regs := []
  count := 0
  fmtr := 0
  sigfloor := 0
  logctl := 0
  tbase := 0
  tcmp := 0
  ctime := 0
  timer := false
  enm := false
  cert := false
  dbgctl := dbgctlStart
  recbase := 0
  dbgsel := 0
  dbgdata := 0
  recPos := 0
  recOk := false
  piece := 0
  stroke := 0
  plog := 20
  sinceMark := 0
  halt := .none
  replay := none
  slot0 := 0
  slot1 := 0
  abandoned := false
  entered := false
  dq := []
  early := []
  parted := false
  killed := false
  yielded := none
  sculls := List.replicate 8 Scull.fresh
  threads := List.replicate 32 Thread.fresh
def Cox.blank : Cox := ⟨0, false, .none, false, [], false, none⟩
def Group.blank : Group where
  ctx := 0
  graph := 0
  run := 0
  node := 0
  hdr := []
  hdrva := 0
  prio := 0
  join := 0
  cnums := []
  slots := []
  tiles := []
  nscr := []
  regx := []
  l1x := []
  regxFree := 0
  bars := []
  lastSeq := none
  joined := false
  aeStarted := false
  ae := none
  oq := [[], [], [], []]
  cox := none

/-- The view of the issue in flight, when the agent that issues is resident. -/
def State.view (s : State) : Option View :=
  match s.issue with
  | none => none
  | some iss =>
    let c := s.core iss.unit
    match iss.who with
    | .crew slot =>
      match c.crews.find? slot with
      | none => none
      | some w => some ⟨iss, c, w, c.groups.get Group.blank w.gid, Cox.blank⟩
    | .cox gid =>
      match c.groups.find? gid with
      | none => none
      | some g => some ⟨iss, c, Crew.blank, g, g.cox.getD Cox.blank⟩

def View.isCox (v : View) : Bool := match v.iss.who with | .cox _ => true | .crew _ => false
/-- The group of the issuing agent. -/
def View.gid (v : View) : Nat := match v.iss.who with | .crew _ => v.crew.gid | .cox g => g
def View.slot (v : View) : Nat := match v.iss.who with | .crew k => k | .cox _ => 0
def View.cluster (v : View) : Nat := clusterOf v.iss.unit
/-- The running path of the scull of a thread. -/
def View.path (v : View) (t : Nat) : Option Path := (v.crew.scull (t / 4)).run
/-- The FMTR copy of the path that issues thread t (R115). -/
def View.fmtr (v : View) (t : Nat) : Word := match v.path t with | some p => p.fmtr | none => v.crew.fmtr
/-- The first work identifier of the crew (R66). -/
def View.wid (v : View) (t : Nat) : Nat := v.grp.firstWid v.crew + t
def View.nbv (v : View) : Nat := hdrNbv v.grp.hdr

/-- The lmask register: the active-thread mask of the scull (R26). -/
def View.lmask (v : View) (t : Nat) : Nat := match v.path t with | some p => p.mask | none => 0
/-- tfp: 128 times the slot of the delivery the thread handles; zero outside a handler (R238). -/
def View.tfp (v : View) (t : Nat) : Nat := 128 * ((v.crew.thread t).hlvl - 1)

/-- The value and tag of a register as thread t reads it (R26, R56). -/
def View.reg (v : View) (t : Nat) (r : Reg) : Word × Tag :=
  match r with
  | .v n => if v.isCox then (v.cox.regs.get 0 n.val, intTag) else v.crew.get (32 * n.val + t)
  | .k n => v.crew.get (crewKey n.val)
  | .vz => (0, intTag)
  | .tid => (BitVec.ofNat 32 t, intTag)
  | .widlo => (BitVec.ofNat 32 (v.wid t), intTag)
  | .widhi => (BitVec.ofNat 32 (v.wid t / 2 ^ 32), intTag)
  | .role => (BitVec.ofNat 32 (hdrRole v.grp.hdr v.crew.cnum), intTag)
  | .lmask => (BitVec.ofNat 32 (v.lmask t), intTag)
  | .tfp => (BitVec.ofNat 32 (v.tfp t), intTag)

/-- The register `i` places after `r` in a span. -/
def regPlus (r : Reg) (i : Nat) : Reg :=
  match r with
  | .v n => .v (Fin.ofNat 224 (n.val + i))
  | .k n => .k (Fin.ofNat 24 (n.val + i))
  | .widlo => if i = 1 then .widhi else .widlo
  | r => r

def View.val (v : View) (t : Nat) (r : Reg) : Word := (v.reg t r).1
def View.tag (v : View) (t : Nat) (r : Reg) : Tag := (v.reg t r).2
/-- The 64-bit pair from an even register (R27, R55). -/
def View.pair (v : View) (t : Nat) (r : Reg) : DWord := joinPair (v.val t r) (v.val t (regPlus r 1))
/-- Src(B) for 32-bit operands (R64): the value and its tag, an immediate with the integer tag. -/
def View.src (v : View) (t : Nat) (b : Src) : Word × Tag := match b with | .reg r => v.reg t r | .imm w => (w, intTag)

/-- The key a register is stored under for thread t; none for a name that stores nothing. -/
def View.key (v : View) (t : Nat) (r : Reg) : Option Nat :=
  match r with
  | .v n => some (if v.isCox then n.val else 32 * n.val + t)
  | .k n => some (crewKey n.val)
  | _ => none

/-- The threads active in the issuing path, ascending. -/
def View.active (v : View) : List Nat := bitsOf 32 v.iss.mask
/-- The guard holds in thread t (R24, R55: bit 0 of the predicate). -/
def View.holds (v : View) (g : Guard) (t : Nat) : Bool := if g.p = .vz then true else bitAt (v.val t g.p).toNat 0 != g.neg
/-- Threads that raised a cause commit no member of the group (R42). -/
def Fx.bad (fx : Fx) (t : Nat) : Bool := fx.raises.any (fun r => r.t == t)
/-- The active, unpredicated threads (R64). A thread in which an earlier member of the group raised a cause counts as
predicated off (R42). -/
def View.acting (v : View) (g : Guard) : List Nat := v.active.filter (fun t => v.holds g t && !v.iss.fx.bad t)
/-- The threads an instruction runs for: with a crew register in D only the lowest acting thread (R56). -/
def View.lanes (v : View) (g : Guard) (d : Reg) : List Nat := if d.isCrew then (v.acting g).take 1 else v.acting g

/-- A write of one register for thread t; nothing for vz. -/
def View.w1 (v : View) (t : Nat) (r : Reg) (x : Word) (g : Tag) : List RegW :=
  match v.key t r with | some k => [⟨t, k, x, g⟩] | none => []
/-- A write of a pair: its two registers with their tags. -/
def View.w2 (v : View) (t : Nat) (r : Reg) (x : DWord) (g0 g1 : Tag) : List RegW :=
  match r with | .vz => [] | r => v.w1 t r (loWord x) g0 ++ v.w1 t (regPlus r 1) (hiWord x) g1

/-! Translation. -/

/-- A page table entry is malformed at its level (R145). -/
def pteBad (e level : Nat) : Bool :=
  let bank := bitsAt e 36 4
  let leaf := bitAt e 1
  bitsAt e 40 24 != 0 || decide (12 ≤ bank ∧ bank ≤ 14) ||
  if leaf then bitsAt e 8 8 != 0 || bitAt e 2 || (bitAt e 6 && bank == 15) ||
      (level == 2 && bitsAt e 16 14 != 0) || (level == 1 && bitsAt e 16 5 != 0)
  else level == 0 || bitsAt e 2 6 != 0 || (level == 2 && bitsAt e 8 4 != 0)

/-- The three-level walk (R144): level 2 indexed by VA[45:30], level 1 by VA[29:21], level 0 by VA[20:16]. A pointer into bank 15, which R145
does not call malformed, is followed into the host window (DESIGN CHOICE, log entry 50). -/
def walkFrom (s : State) (table va : Nat) : Nat → Trans
  | 0 =>
    let e := s.num (table + 8 * bitsAt va 16 5) 8
    if !bitAt e 0 then ⟨some (0x10, 0), 0, 16, 0⟩ else if pteBad e 0 then ⟨some (0x10, 1), 0, 16, 0⟩
    else ⟨none, bitsAt e 16 24 * 2 ^ 16, 16, e % 256⟩
  | level + 1 =>
    let bits := if level = 0 then 21 else 30
    let idx := if level = 0 then bitsAt va 21 9 else bitsAt va 30 16
    let e := s.num (table + 8 * idx) 8
    if !bitAt e 0 then ⟨some (0x10, 0), 0, bits, 0⟩ else if pteBad e (level + 1) then ⟨some (0x10, 1), 0, bits, 0⟩
    else if bitAt e 1 then ⟨none, bitsAt e 16 24 * 2 ^ 16, bits, e % 256⟩
    else walkFrom s (bitsAt e 8 32 * 256) va level
/-- The walk of a context's tables for an address. -/
def State.walk (s : State) (ctx va : Nat) : Trans := walkFrom s ((s.ctx ctx).root.toNat % 2 ^ 40) va 2

/-- The key of a page in a cluster's translation cache. -/
def tcKey (ctx va : Nat) : Nat := ctx * 2 ^ 30 + bitsAt va 16 30
/-- The translation an access of cluster `cl` uses: the tables, or an entry held from before (R147). -/
def State.trans (s : State) (cl ctx va : Nat) : Trans :=
  match (s.cluster cl).tc.find? (tcKey ctx va) with
  | some t => if Config.keepsOld s.free then t else s.walk ctx va
  | none => s.walk ctx va

/-- An address lies in a retired HBM region (R142), or is served by a retired pseudo-channel (R309), which counts as one. -/
def State.hbmGone (s : State) (pa : Nat) : Bool :=
  s.ras.hbmRetired.any (fun r => decide (r.1 ≤ pa ∧ pa < r.1 + r.2)) ||
  (decide (pa < 12 * 2 ^ 36) && s.ras.retired.contains (2 ^ 20 * 4 + (64 * (pa / 2 ^ 36) + Config.channelOf pa % 64)))

/-- What an access needs of its page (R146). -/
inductive Perm where
  | present | load | store | fetch | atomic
  deriving DecidableEq, Repr

/-- A located access: the home key of its first byte and how it reaches it. -/
structure Loc where
  ha : Nat
  dest : Dest
  host : Bool
  deriving DecidableEq, Repr

/-- The permission of a leaf (R145): bits 3 RD, 4 W, 5 X. -/
def Perm.ok (p : Perm) (flags : Nat) : Bool :=
  match p with | .present => true | .load => bitAt flags 3 | .store => bitAt flags 4 | .fetch => bitAt flags 5 | .atomic => bitAt flags 4

/-- Translate a canonical global address in the order of R146. A failure is a cause and its subcode. -/
def State.xlate (s : State) (cl ctx va : Nat) (p : Perm) : Except (Nat × Nat) Loc :=
  let m := bitsAt va 46 10
  if m ≠ s.modnum then
    (match s.routes.find? m with
     | none => .error (0x10, 3)
     | some _ => if let some f := Config.remoteFault s.free va then .error f else .ok ⟨2 ^ 56 + va % 2 ^ 56, .remote, false⟩)
  else
    let t := s.trans cl ctx va
    let pa := t.pa + va % 2 ^ t.bits
    match t.fault with
    | some f => .error f
    | none =>
      if s.hbmGone pa then .error (0x10, 4)
      else if !p.ok t.flags then .error (0x11, 0)
      else if p = .atomic ∧ bitAt t.flags 6 then .error (0x11, 2)
      else if p = .atomic ∧ isHostKey pa then .error (0x11, 3)
      else .ok ⟨pa, if bitAt t.flags 6 then .repl else if bitAt t.flags 7 || isHostKey pa then .home else .l1, isHostKey pa⟩

/-- One contiguous part of an access. `off` is its byte offset in the value, `va` its address for faults and watchpoints. -/
structure Piece where
  ha : Nat
  n : Nat
  off : Nat
  va : Nat
  dest : Dest
  host : Bool
  deriving DecidableEq, Repr

/-- A fault of an access: cause, subcode, fault address. -/
abbrev AFault := Nat × Nat × Nat

/-- A global access of n bytes at `va` (R129, R130, R146). -/
def State.locGlobal (s : State) (cl ctx va n : Nat) (p : Perm) : Except AFault (List Piece) :=
  if va / 2 ^ 56 ≠ 0 then .error (0x12, 0, va)
  else if va % n ≠ 0 then .error (0x13, 0, va)
  else match s.xlate cl ctx va p with
    | .error (c, sub) => .error (c, sub, va)
    | .ok l => .ok [⟨l.ha, n, 0, va, l.dest, l.host⟩]

/-- The words of a private access, from word `w` on (R131). -/
def State.locWords (s : State) (cl ctx base t e : Nat) (p : Perm) : Nat → Nat → Except AFault (List Piece)
  | 0, _ => .ok []
  | k + 1, i =>
    match s.locGlobal cl ctx ((base + 128 * (e / 4 + i) + 4 * t) % 2 ^ 64) 4 p with
    | .error f => .error f
    | .ok ps =>
      match s.locWords cl ctx base t e p k (i + 1) with
      | .error f => .error f
      | .ok qs => .ok (ps.map (fun q => { q with off := 4 * i }) ++ qs)

/-- A private access of n bytes at offset e (R131). -/
def State.locPriv (s : State) (cl ctx base privw t e n : Nat) (p : Perm) : Except AFault (List Piece) :=
  let words := (n + 3) / 4
  if e % n ≠ 0 then .error (0x13, 0, e)
  else if e / 4 + words > privw then .error (0x14, max (e / 4) privw % 2 ^ 32, e)
  else if n < 4 then
    (match s.locGlobal cl ctx ((base + 128 * (e / 4) + 4 * t + e % 4) % 2 ^ 64) n p with
     | .error f => .error f
     | .ok ps => .ok ps)
  else s.locWords cl ctx base t e p words 0

/-- Vault bytes e to e + n - 1 inside one line (R133, R312). -/
def State.vaultPiece (s : State) (u : Nat) (g : Group) (e n : Nat) : Except AFault (List Piece) :=
  let cl := clusterOf u
  if e < 0x6000000 then
    (if 4096 * hdrVbase g.hdr ≤ e ∧ e + n ≤ 4096 * (hdrVbase g.hdr + hdrVlen g.hdr) then
      (if (s.cluster cl).retiredVaults.contains (e / 0x200000) then .error (0x15, 3, e) else .ok [⟨vaultKey cl e, n, 0, e, .home, false⟩])
     else .error (0x15, 0, e))
  else
    let k := (e - 0x6000000) / 0x10000
    match g.nscr[k]? with
    | some unit => .ok [⟨scratchKey u unit (e % 0x10000), n, 0, e, .home, false⟩]
    | none => .error (0x15, 0, e)

/-- A vault access of n bytes at offset e (R130, R133). -/
def State.locVault (s : State) (u : Nat) (g : Group) (e n : Nat) : Except AFault (List Piece) :=
  if e % n ≠ 0 then .error (0x13, 0, e) else s.vaultPiece u g e n

/-- The parts of a transfer of n bytes, cut at 128-byte lines, in ascending order; the lowest failing address faults. -/
def State.span (s : State) (u : Nat) (g : Group) (sp : Space) (p : Perm) : Nat → Nat → Nat → Except AFault (List Seg)
  | 0, _, _ => .ok []
  | fuel + 1, e, n =>
    if n = 0 then .ok []
    else
      let k := min n (128 - e % 128)
      let one : Except AFault (List Piece) :=
        match sp with
        | .vault => s.vaultPiece u g e k
        | _ =>
          if e / 2 ^ 56 ≠ 0 then .error (0x12, 0, e)
          else match s.xlate (clusterOf u) g.ctx e p with
            | .error (c, sub) => .error (c, sub, e)
            | .ok l => .ok [⟨l.ha, k, 0, e, l.dest, l.host⟩]
      match one with
      | .error f => .error f
      | .ok ps => match s.span u g sp p fuel (e + k) (n - k) with | .error f => .error f | .ok r => .ok (ps.map (fun q => ⟨q.ha, q.n, q.dest⟩) ++ r)

/-- The byte offset of a format M address for thread t (R52). -/
def View.off (v : View) (t : Nat) (o : Off) : Int := match o with | .reg r => (v.val t r).toInt | .imm w => w.toInt
/-- The effective address of thread t (R129). -/
def View.ea (v : View) (t : Nat) (m : MAddr) : Nat := wrapNat 64 ((v.pair t m.base).toNat + v.off t m.off)

/-- The pieces of an access of n bytes at address e of a space for thread t, or its fault in the order of R130. -/
def View.locate (v : View) (s : State) (t : Nat) (sp : Space) (e n : Nat) (p : Perm) : Except AFault (List Piece) :=
  match sp with
  | .global => s.locGlobal v.cluster v.grp.ctx e n p
  | .priv => s.locPriv v.cluster v.grp.ctx (pbase v.grp.hdr v.crew.pos) (hdrWords v.grp.hdr) t e n p
  | .vault => s.locVault v.iss.unit v.grp e n

/-- The lowest watchpoint whose kind, space and range match one of the pieces (R290): kind bit 0 stores, bit 1 loads. -/
def watchHit (ws : List DWord) (kind spc : Nat) (ps : List Piece) : Nat → Option (Nat × Nat)
  | 0 => none
  | k + 1 =>
    match watchHit ws kind spc ps k with
    | some r => some r
    | none =>
      let w := (ws.getD k 0).toNat
      let lo := bitsAt w 0 56
      let len := 2 ^ bitsAt w 56 4
      if bitsAt w 62 2 &&& kind = 0 ∨ bitsAt w 60 2 ≠ spc then none
      else match ps.find? (fun p => decide (p.va < lo + len ∧ lo < p.va + p.n)) with
        | some p => some (k, p.va)
        | none => none

/-- The instruction has issued before for thread t, and waited: no watchpoint written since then matches it (R296). -/
def View.begun (v : View) (t : Nat) : Bool := if v.isCox then v.cox.begun else match v.path t with | some p => bitAt p.issued (t % 4) | none => false
/-- The watchpoint fault of thread t's access, if one matches (R290). -/
def View.watched (v : View) (s : State) (t kind : Nat) (sp : Space) (ps : List Piece) : Option AFault :=
  if v.begun t || ((v.crew.thread t).noMatch && !v.isCox) then none
  else match watchHit (s.ctx v.grp.ctx).watch kind (if sp = .vault then 2 else 0) ps 4 with
    | some (n, a) => some (0x31, n, a)
    | none => none

/-- Locate an access and apply the watchpoints after every other check (R243). -/
def View.access (v : View) (s : State) (t kind : Nat) (sp : Space) (e n : Nat) (p : Perm) : Except AFault (List Piece) :=
  match v.locate s t sp e n p with
  | .error f => .error f
  | .ok ps => match v.watched s t kind sp ps with | some f => .error f | none => .ok ps

/-! Reading now, as a load of the core would bind (R171): from the L1 where the byte is valid there, else the home. -/

/-- The byte a load of core u would bind now. -/
def State.l1Byte (s : State) (u : Nat) (d : Dest) (a : Nat) : Byte :=
  match d with
  | .l1 => (match (s.core u).l1.find? a with | some b => b.val | none => s.byte a)
  | .repl => (match s.copies.find? (clusterOf u * 2 ^ 40 + a / 128) with | some c => c.bytes.getD (a % 128) 0 | none => s.byte a)
  | .remote => Config.remoteByte s.free a
  | .home => s.byte a
def State.readBytes (s : State) (u : Nat) (d : Dest) (a : Nat) : Nat → List Byte
  | 0 => []
  | n + 1 => s.l1Byte u d a :: s.readBytes u d (a + 1) n

/-- What stops a read that binds inside its instruction: a fault, a copy that is locked or bytes that the thread's own stores have yet to
bring (R152, R369), or a poisoned word with its array code, address and home word (R302, R304). -/
inductive ReadStop where
  | fault (f : AFault)
  | busy
  | poison (array va home : Nat)
  deriving DecidableEq, Repr
/-- The array and the home word of a marked word among the bytes read: the L1 for a hit, the copy for a replicated page, else the home's
array (R302, R303). `missed` says that the line of an L1 byte came from its home. -/
def State.marked (s : State) (u : Nat) (missed : Bool) (d : Dest) (a n : Nat) : Option (Nat × Nat) :=
  let words := (List.range ((a % 8 + n + 7) / 8)).map (fun i => a / 8 + i)
  match d with
  | .l1 =>
    (words.find? (fun w => (s.core u).l1poison.contains w)).map (fun w =>
      (if missed && s.isPoisoned (8 * w) 1 then arrayCode a else if decide ((((s.core u).ways.find? (a / 128)).getD 0) ≥ 4) then 5 else 3, 8 * w))
  | .remote => (words.find? (fun w => Config.remotePoison s.free (8 * w))).map (fun w => (7, 8 * w))
  | .repl =>
    (match s.copies.find? (clusterOf u * 2 ^ 40 + a / 128) with
     | some c => (words.find? (fun w => c.marks.contains (w % 16))).map (fun w => (7, 8 * w))
     | none => (words.find? (fun w => s.isPoisoned (8 * w) 1)).map (fun w => (7, 8 * w)))
  | .home => (words.find? (fun w => s.isPoisoned (8 * w) 1)).map (fun w => (arrayCode a, 8 * w))
/-- The port that reaches a module is retraining or down: its flits are held (R311). -/
def State.portHeld (s : State) (m : Nat) : Bool :=
  match s.routes.find? m with
  | some p => let x := s.ras.ports.get Port.reset p; x.retraining || decide (x.lost ≥ 3)
  | none => false
/-- The module of a byte that lies on another one. -/
def farModule (ha : Nat) : Nat := bitsAt ha 46 10
/-- A read meets a copy of a replicated line that is locked (R152), or a port that holds its flits (R311). -/
def State.pieceBusy (s : State) (u : Nat) (p : Piece) : Bool :=
  match p.dest with
  | .repl => (match s.copies.find? (clusterOf u * 2 ^ 40 + p.ha / 128) with | some c => c.lock.isSome | none => false)
  | .remote => s.portHeld (farModule p.ha)
  | _ => false
/-- The bytes of an access are all valid in the L1. -/
def State.l1Valid (s : State) (u a n : Nat) : Bool := (List.range n).all (fun i => ((s.core u).l1.find? (a + i)).isSome)
/-- The bytes of a part of an access as bound now: where one of them misses in the L1, the line is fetched first, so that only dirty bytes keep their L1
value (R136, R171). -/
def State.readPiece (s : State) (u : Nat) (p : Piece) : List Byte :=
  if p.dest == .l1 && !s.l1Valid u p.ha p.n then
    (List.range p.n).map (fun i => match (s.core u).l1.find? (p.ha + i) with | some b => if b.dirty.isEmpty then s.byte (p.ha + i) else b.val | none => s.byte (p.ha + i))
  else s.readBytes u p.dest p.ha p.n
/-- The bytes of a located access as bound now. -/
def State.readPieces (s : State) (u : Nat) (ps : List Piece) : List Byte := ps.flatMap (s.readPiece u)
/-- The marked word that a read would bind now: where bytes of an L1 space miss, or are `forced` to, the fetch brings the home's marks
(R302, R303). -/
def State.readMark (s : State) (u : Nat) (forced : Bool) (d : Dest) (a n : Nat) : Option (Nat × Nat) :=
  if d == .l1 && (forced || !s.l1Valid u a n) then
    (match s.marked u false .home a n with | some m => some m | none => s.marked u false .l1 a n)
  else s.marked u false d a n
def State.pieceMark (s : State) (u : Nat) (p : Piece) : Option (Nat × Nat) := s.readMark u false p.dest p.ha p.n
/-- A read that binds now: its bytes, with the L1 bytes whose lines it fetches and, 2^57 higher, the replicated lines it copies, or what stops it (R152, R171, R304); poison only where the value is
consumed (`eats`). -/
def State.bindNow (s : State) (u e : Nat) (eats : Bool) (r : Except AFault (List Piece)) : Except ReadStop (List Byte × List Nat) :=
  match r with
  | .error f => .error (.fault f)
  | .ok ps =>
    if ps.any (s.pieceBusy u) then .error .busy
    else match (if eats then ps.findSome? (s.pieceMark u) else none) with
      | some m => .error (.poison m.1 e m.2)
      | none => .ok (s.readPieces u ps, ps.flatMap (fun p => if p.dest == .l1 then (List.range p.n).map (p.ha + ·) else if p.dest == .repl then [2 ^ 57 + p.ha] else []))
/-- A bound read at an address of a thread. -/
def View.readNow (v : View) (s : State) (t kind : Nat) (eats : Bool) (sp : Space) (e n : Nat) : Except ReadStop (List Byte × List Nat) :=
  s.bindNow v.iss.unit e eats (v.access s t kind sp e n .load)
/-- A structure of `k` chunks of 8 bytes read as loads of the thread, the first chunk that stops ending it. -/
def View.readChunks (v : View) (s : State) (t kind : Nat) (eats : Bool) (sp : Space) (e : Nat) : Nat → Except ReadStop (List Byte × List Nat)
  | 0 => .ok ([], [])
  | k + 1 =>
    match v.readNow s t kind eats sp (e % 2 ^ 64) 8 with
    | .error f => .error f
    | .ok bs => match v.readChunks s t kind eats sp (e + 8) k with | .error f => .error f | .ok cs => .ok (bs.1 ++ cs.1, bs.2 ++ cs.2)

end Sys2Proof.Machine
end

