-- ==== Sys2Proof/Machine/Flags.lean ====
section
/-! DEFINITION. Significance tags (R89 to R98), the floor (R103, R104), and the floating results with their tags and
conditions that the arithmetic families share. -/
namespace Sys2Proof.Machine

/-- A trust count and a debt (R89). -/
structure Trust where
  t : Nat
  debt : Nat
  deriving DecidableEq, Repr

/-- A tag read in the FP32 or FP64 layout of precision p; an invalid one reads as t = p, debt 0 (R91). -/
def readTag (p : Nat) (g : Tag) : Trust := if g.toNat / 4 ≤ p ∧ g ≠ oddTag ∧ g ≠ intTag then ⟨g.toNat / 4, g.toNat % 4⟩ else ⟨p, 0⟩
/-- A trust count and a debt in the FP32 or FP64 layout (R89). -/
def Trust.tag (x : Trust) : Tag := BitVec.ofNat 8 (4 * x.t + x.debt)
/-- The trust of one half of a packed tag; an invalid half reads as p (R91). -/
def readHalf (p : Nat) (hi : Bool) (g : Tag) : Trust :=
  let n := if hi then g.toNat / 16 else g.toNat % 16
  ⟨if n ≤ p then n else p, 0⟩
/-- A packed tag from the trusts of its halves (R89). -/
def halfTag (hi lo : Trust) : Tag := BitVec.ofNat 8 (16 * hi.t + lo.t)

/-- An operand as the tag rules see it. -/
structure Opd where
  v : FVal
  tr : Trust
  deriving DecidableEq, Repr

/-- Debt 4 clears and costs one trusted bit (R93). -/
def Trust.roll (x : Trust) : Trust := if x.debt = 4 then ⟨x.t - 1, 0⟩ else x
/-- Boundary of a nonzero operand (R92). -/
def Opd.boundary (x : Opd) : Int := x.v.exp - (x.tr.t : Int) + 1
def FVal.special (v : FVal) : Bool := v.isNan || v.isInf
/-- The larger boundary of the nonzero operands. -/
def boundaryOf (a b : Opd) : Int :=
  if a.v.isNum then (if b.v.isNum then max a.boundary b.boundary else a.boundary) else b.boundary

/-- The tag of a sum (R93). -/
def addTag (p : Nat) (a b : Opd) (r : FVal) (inexact : Bool) : Trust :=
  if FVal.special a.v || FVal.special b.v || FVal.special r then ⟨0, 0⟩
  else if r.isZero then ⟨if !inexact && a.tr.t == p && b.tr.t == p then p else 0, 0⟩
  else
    let t := min r.held (r.exp - boundaryOf a b + 1).toNat
    Trust.roll ⟨t, max a.tr.debt b.tr.debt + if inexact then 1 else 0⟩

/-- The tag of a fused multiply-add (R94): the sum rule with the exact product as an operand. -/
def fmaTag (p : Nat) (a b c : Opd) (r : FVal) (inexact : Bool) : Trust :=
  match mulVal a.v b.v with
  | none => ⟨0, 0⟩
  | some v => addTag p ⟨v, ⟨min a.tr.t b.tr.t, max a.tr.debt b.tr.debt⟩⟩ c r inexact

/-- The tag of the Product class (R95). -/
def mulTag (p : Nat) (a b : Opd) (r : FVal) (inexact : Bool) : Trust :=
  if FVal.special r then ⟨0, 0⟩
  else if r.isZero then
    ⟨if (!inexact && a.tr.t == p && b.tr.t == p) || (a.v.isZero && a.tr.t == p && !FVal.special b.v) ||
        (b.v.isZero && b.tr.t == p && !FVal.special a.v) then p else 0, 0⟩
  else Trust.roll ⟨min (min a.tr.t b.tr.t) r.held, max a.tr.debt b.tr.debt + if inexact then 1 else 0⟩

/-- The tag of the Unary class (R95). -/
def unTag (p : Nat) (a : Opd) (r : FVal) (inexact : Bool) : Trust :=
  if FVal.special r then ⟨0, 0⟩
  else if r.isZero then ⟨if !inexact && a.tr.t == p then p else 0, 0⟩
  else Trust.roll ⟨min a.tr.t r.held, a.tr.debt + if inexact then 1 else 0⟩

/-- The tag of the Rounding class (R95): the debt stands. -/
def rndTag (p : Nat) (a : Opd) (r : FVal) (inexact : Bool) : Trust :=
  if FVal.special r then ⟨0, 0⟩
  else if r.isZero then ⟨if !inexact && a.tr.t == p then p else 0, 0⟩
  else ⟨min a.tr.t r.held, a.tr.debt⟩

/-- A floating result with its tag. -/
structure FOut where
  bits : Nat
  tr : Trust
  conds : Conds
  deriving DecidableEq, Repr

def FOut.of (f : Fmt) (r : FRes) (tag : FVal → Bool → Trust) : FOut := ⟨r.bits, tag (f.value r.bits) r.inexact, r.conds⟩

def outAdd (f : Fmt) (mode : Mode) (a b : Opd) : FOut := FOut.of f (f.add mode a.v b.v) (addTag f.p a b)
/-- Subtraction is the addition of the negated second operand (R116). -/
def outSub (f : Fmt) (mode : Mode) (a b : Opd) : FOut := FOut.of f (f.add mode a.v b.v.negate) (addTag f.p a b)
def outMul (f : Fmt) (mode : Mode) (a b : Opd) : FOut := FOut.of f (f.mul mode a.v b.v) (mulTag f.p a b)
def outDiv (f : Fmt) (mode : Mode) (a b : Opd) : FOut := FOut.of f (f.div mode a.v b.v) (mulTag f.p a b)
def outFma (f : Fmt) (mode : Mode) (a b c : Opd) : FOut := FOut.of f (f.fma mode a.v b.v c.v) (fmaTag f.p a b c)
def outUn (f : Fmt) (r : FRes) (a : Opd) : FOut := FOut.of f r (unTag f.p a)

/-- FMIN, FMAX and their kin on encodings x and y (R120, R373): the operand itself with its tag; when both compare
equal the smaller t and the larger debt (R95). A zero of each sign does not count as equal here: R120 orders them for these members, R366
calls them equal for CMP, and R95 does not say which it means (DESIGN CHOICE, log entry 13). -/
def outPick (f : Fmt) (isMax : Bool) (x y : Nat) (a b : Opd) : FOut :=
  let nv : Conds := if a.v.isSnan || b.v.isSnan then condNV else 0
  match pickMinMax isMax a.v b.v with
  | .nan => ⟨f.nanBits, ⟨0, 0⟩, nv⟩
  | p =>
    let both := !a.v.isNan && !b.v.isNan && cmpVal a.v b.v == 0
    let differ := a.v.isZero && b.v.isZero && a.v.neg != b.v.neg
    ⟨if p = .first then x else y,
     if both && !differ then ⟨min a.tr.t b.tr.t, max a.tr.debt b.tr.debt⟩ else if p = .first then a.tr else b.tr, nv⟩

/-- The rounding mode of an instruction: its override or FMTR.RM of the issuing path (R115, R362). -/
def modeOf (rm : Rnd) (fmtr : Word) : Mode :=
  match rm with | .fmtr => Mode.ofRm fmtr.toNat | .rn => .near | .rz => .zero | .ru => .up | .rd => .down
/-- FMTR.HF: the half format (R114). -/
def halfFmt (fmtr : Word) : Fmt := if bitAt fmtr.toNat 2 then fp16 else bf16
def satOf (fmtr : Word) : Bool := bitAt fmtr.toNat 3

def sfloor (w : Word) : Nat := bitsAt w.toNat 16 5
def dfloor (w : Word) : Nat := bitsAt w.toNat 24 6
def hfloor (w : Word) : Nat := bitsAt w.toNat 8 4

/-- The cap of an inexact half (R96). -/
def capHalf (p : Nat) (t : Trust) (inexact : Bool) : Trust := ⟨if inexact then min t.t (p - 1) else t.t, 0⟩

/-- The layouts a floating value is held in. -/
inductive Lay where
  | f32 | f64 | half
  deriving DecidableEq, Repr

/-- A result's tag falls below the floor of its layout (R104). -/
def fallsBelow (floor : Word) (l : Lay) (t : Trust) : Bool :=
  match l with | .f32 => decide (t.t < sfloor floor) | .f64 => decide (t.t < dfloor floor) | .half => decide (t.t < hfloor floor)

end Sys2Proof.Machine
end

