-- ==== Sys2Proof/Machine/Ops.lean ====
section
/-! DEFINITION. The shared operations of the meanings: witnesses (R153 to R161), the events of an origin, ending a member
(`emit`), committing an issue group (R40 to R42), waiting (`block`), and taking a precise cause. Delivery and return
(R239 to R243, R242) stand at the end. -/
namespace Sys2Proof.Machine

/-! Witnesses. -/

def witScope (w : DWord) : Nat := bitsAt w.toNat 60 4
def witKind (w : DWord) : Nat := bitsAt w.toNat 56 4
def witMod (w : DWord) : Nat := bitsAt w.toNat 46 10
def witOrigin (w : DWord) : Nat := bitsAt w.toNat 34 12
def witInc (w : DWord) : Nat := bitsAt w.toNat 30 4
def witSeq (w : DWord) : Nat := bitsAt w.toNat 0 30
/-- The witness with the given fields (R153). -/
def mkWit (scope kind m origin inc seq : Nat) : DWord :=
  BitVec.ofNat 64 (scope * 2 ^ 60 + kind * 2 ^ 56 + m * 2 ^ 46 + origin * 2 ^ 34 + inc * 2 ^ 30 + seq)

/-- The distance from a sequence number back from CNT (R158). -/
def seqDist (cnt seq : Nat) : Nat := (cnt + 2 ^ 30 - seq % 2 ^ 30) % 2 ^ 30
/-- `a` is `b` or an earlier event, seen from CNT. -/
def seqLe (cnt a b : Nat) : Bool := decide (seqDist cnt a ≥ seqDist cnt b)

/-- A single or host witness is expired (R158); one of another module is judged there (log entry 7). -/
def State.expired (s : State) (w : DWord) : Bool :=
  (witKind w == 1 || witKind w == 3) &&
  if witMod w = s.modnum then decide (seqDist (s.origin (witOrigin w)).cnt (witSeq w) ≥ 2 ^ 29) else Config.remoteWitness s.free w == 3

/-- The cluster an origin belongs to; none for the units of the I/O die (R159). -/
def originCluster (o : Nat) : Option Nat :=
  if o < 2304 then some (o / 192) else if o < 2688 then some ((o - 2304) / 32) else none
/-- A consumer unit lies in the domain of a witness at a scope (R159). -/
def inDomain (own unit : Nat) (w : DWord) (sc : Nat) : Bool :=
  match sc with
  | 0 => witMod w == own && witOrigin w == unit
  | 1 => witMod w == own && (originCluster (witOrigin w)).isSome && originCluster (witOrigin w) == originCluster unit
  | 2 => witMod w == own
  | _ => true

/-- The check of a witness at a consumer (R155, R157, R158, R161): a cause and subcode, or none. -/
def State.witBad (s : State) (unit : Nat) (w : DWord) (sc : Nat) : Option (Nat × Nat) :=
  if witKind w = 0 then none
  else if !isOrigin (witOrigin w) then some (0x17, 1)
  else if witKind w > 3 ∨ witScope w > 4 then some (0x17, 2)
  else if (witKind w = 1 ∨ witKind w = 3) ∧ (if witMod w = s.modnum then witInc w ≠ (s.origin (witOrigin w)).inc else Config.remoteWitness s.free w = 2)
    then some (0x17, 0)
  else if s.expired w then none
  else if sc > witScope w then some (0x16, 1)
  else if !inDomain s.modnum unit w sc then some (0x16, 0)
  else none

/-- An L1 byte still holds an event at or before `seq` of its core that is not at home (R160). -/
def L1Byte.holds (b : L1Byte) (cnt seq : Nat) : Bool := b.dirty.any (fun q => seqLe cnt q seq)
/-- The event stands in its core's L1 view, with no byte that goes elsewhere (R160). -/
def StoreEv.inView (e : StoreEv) : Bool := e.entered && e.bytes.all (fun b => b.dest == .l1)
/-- Some event of the origin up to `seq` is still in its buffer and, at core scope, not in the L1 view (R160). -/
def State.pendLate (s : State) (o seq sc : Nat) : Bool :=
  (s.origin o).pend.any (fun e => seqLe (s.origin o).cnt e.seq seq && !(sc == 0 && e.inView))
/-- Every event of the origin up to `seq` is performed at the scope (R160, R170). -/
def State.performed (s : State) (o seq sc : Nat) : Bool :=
  !s.pendLate o seq sc && (sc == 0 || decide (o ≥ 2304) || !(s.core o).l1.any (fun p => p.2.holds (s.origin o).cnt seq))
/-- Satisfied(w, s) (R160). -/
def State.satisfied (s : State) (w : DWord) (sc : Nat) : Bool :=
  if witKind w = 0 then true
  else if witKind w = 2 then decide (sc ≤ witScope w)
  else if witMod w ≠ s.modnum then Config.remoteWitness s.free w == 0 || s.expired w
  else s.expired w || s.performed (witOrigin w) (witSeq w) sc

/-- Take the next sequence number of an origin (R156). -/
def Origin.next (x : Origin) : Nat := (x.cnt + 1) % 2 ^ 30
/-- The next `n` events may not issue while the oldest event not performed at its own scope lies 2^28 or more behind the last of
them (R158). -/
def Origin.stallsBy (x : Origin) (n : Nat) : Bool := x.pend.any (fun e => decide (seqDist ((x.cnt + n) % 2 ^ 30) e.seq ≥ 2 ^ 28))
def Origin.stalls (x : Origin) : Bool := x.stallsBy 1
/-- The witness of event `seq` of an origin (R162). -/
def State.witOf (s : State) (o seq scope kind : Nat) : DWord := mkWit scope kind s.modnum o (s.origin o).inc seq
/-- Append a store event to its origin's buffer (R156, R171 Issue). -/
def State.addEvent (s : State) (o : Nat) (e : StoreEv) : State :=
  let x := s.origin o
  s.setOrigin o { x with cnt := x.next, pend := x.pend ++ [{ e with seq := x.next }] }

/-- The scope of a store event whose bytes reach another module is raised to domain (R159). -/
def raiseScope (bytes : List SByte) (sc : Nat) : Nat := if bytes.any (fun b => b.dest == .remote) then max sc 3 else sc

/-! Program counters (R46). -/

def lineOf (pc : Nat) : Nat := pc / 64 * 64
def slotOf (pc : Nat) : Nat := pc % 8
/-- The key of a context's line in an instruction cache. -/
def lineKey (ctx pc : Nat) : Nat := ctx * 2 ^ 56 + lineOf pc
/-- A PC whose form breaks R46. -/
def pcBad (pc : Nat) : Bool := decide (pc / 2 ^ 56 ≠ 0) || bitsAt pc 3 3 != 0 || decide (pc % 8 ≥ 5)
/-- The PC after slot `e` of the line of `pc`. -/
def pcAfter (pc e : Nat) : Nat := if e ≥ 4 then lineOf pc + 64 else lineOf pc + e + 1

/-! Headers of the tentative log (R203, R204). -/

def logNent (w : Crew) : Nat := bitsAt w.logctl.toNat 23 9
def logBlock (w : Crew) (t : Nat) : Nat := 16 * bitsAt w.logctl.toNat 0 23 + 16 * (logNent w + 2) * t
/-- A 16-byte slot of thread t's log block as a number: slot 0 is A, 1 is B, 2 + i entry i. -/
def State.logSlot (s : State) (cl : Nat) (w : Crew) (t i : Nat) : Nat := s.num (vaultKey cl (logBlock w t + 16 * i)) 16
def State.setLogSlot (s : State) (cl : Nat) (w : Crew) (t i x : Nat) : State :=
  let a := vaultKey cl (logBlock w t + 16 * i)
  s.writeHome (imap (bytesOf 16 x) (fun i b => (a + i, b)))
/-- Replace a field of a number. -/
def setBits (x lo n v : Nat) : Nat := x - bitsAt x lo n * 2 ^ lo + v % 2 ^ n * 2 ^ lo

/-- The log headers of threads become zero (R371). -/
def State.zeroLogs (s : State) (u : Nat) (w : Crew) (ts : List Nat) : State :=
  ts.foldl (fun s t => (s.setLogSlot (clusterOf u) w t 0 0).setLogSlot (clusterOf u) w t 1 0) s
/-- Every header of a crew's log becomes zero (R211, R212). -/
def State.zeroLog (s : State) (u : Nat) (w : Crew) : State := s.zeroLogs u w (List.range 32)

/-- The event number is the group's last (R185). -/
def State.noteEvent (s : State) (u gid seq : Nat) : State := s.modGroup u gid (fun g => { g with lastSeq := some seq })

/-! Recording (R286). -/

def recOn (w : Crew) : Bool := bitAt w.dbgctl.toNat 10
/-- A copy of replicated line `l` after the writes `ws`; a word written whole loses its mark (R303). -/
def copyWith (l : Nat) (ws : List (Nat × Byte)) (c : Copy) : Copy :=
  { c with
    bytes := imap c.bytes (fun i b => match List.find? (fun (e : Nat × Byte) => e.1 == l * 128 + i) ws with | some e => e.2 | none => b)
    marks := c.marks.filter (fun w => !(wholeWords ws).contains (16 * l + w)) }
/-- Bytes written at their homes and in every copy of a replicated line (R151, R152). -/
def State.writeAll (s : State) (ws : List (Nat × Byte)) : State :=
  let s := s.writeHome ws
  { s with copies := s.copies.map (fun q => (q.1, copyWith (q.1 % 2 ^ 40) ws q.2)) }
/-- The byte of a store to a virtual address; none when its page fails. -/
def State.byteAt (s : State) (cl ctx va : Nat) (b : Byte) : Option SByte :=
  if va / 2 ^ 56 ≠ 0 then none
  else match s.xlate cl ctx va .store with | .ok l => some ⟨l.ha, b, l.dest⟩ | .error _ => none
/-- A store event of a core by a step of the machine itself, at cluster scope: what is left of its bytes is to go home (R152). -/
def ownEvent (seq scope : Nat) (rest : List SByte) : StoreEv where
  seq := seq
  who := none
  threads := 0
  scope := raiseScope rest scope
  await := scope
  after := []
  wit := false
  cls := 0
  bytes := rest
  waits := []
  entered := true
  swept := true
  locks := 0
  held := false
  marks := []
/-- A core stores a recording at a virtual address, as one event (R158, R286): bytes of this module's other pages go to their homes at once, those of
replicated pages and other modules take the steps of R152. Bytes whose page fails are lost. -/
def State.recStore (s : State) (u gid ctx va : Nat) (bs : List Byte) : State :=
  let x := s.origin u
  let all := (imap bs (fun i b => s.byteAt (clusterOf u) ctx (va + i) b)).filterMap id
  let far (b : SByte) : Bool := b.dest == .repl || b.dest == .remote
  let rest := all.filter far
  let s := s.setOrigin u { x with cnt := x.next, pend := if rest.isEmpty then x.pend else x.pend ++ [ownEvent x.next 1 rest] }
  (s.writeHome ((all.filter (fun b => !far b)).map (fun b => (b.ha, b.val)))).noteEvent u gid x.next
def recBase (w : Crew) : Nat := bitsAt w.recbase.toNat 16 40 * 2 ^ 16
def recLen (w : Crew) : Nat := bitsAt w.recbase.toNat 0 16 * 65536
/-- Append bytes to the crew's recording, or stop recording with OVF when they do not fit. -/
def State.record (s : State) (u slot : Nat) (bs : List Byte) : State :=
  match s.crew? u slot with
  | none => s
  | some w =>
    if !recOn w then s
    else if w.recPos + bs.length > recLen w then
      s.modCrew u slot (fun w => { w with dbgctl := (w.dbgctl &&& ~~~(0x400#32)) ||| 0x80#32, recOk := false })
    else
      let ctx := ((s.group? u w.gid).getD Group.blank).ctx
      (s.recStore u w.gid ctx (recBase w + w.recPos) bs).modCrew u slot (fun w => { w with recPos := w.recPos + bs.length })
/-- The 16-byte log entry of R286. -/
def recEntry (val : DWord) (stroke reg thr : Nat) : List Byte :=
  bytesOf 16 (val.toNat * 2 ^ 64 + stroke * 2 ^ 40 + reg * 2 ^ 32 + thr * 2 ^ 27)
def State.logValue (s : State) (u slot : Nat) (val : DWord) (stroke reg thr : Nat) : State :=
  match s.crew? u slot with
  | some w => if w.recOk && w.replay.isNone then s.record u slot (recEntry val stroke reg thr) else s
  | none => s
/-- The VALUE of a logged register: its value, and its tag in bits [39:32] (log entry 16). -/
def logVal (x : Word × Tag) : DWord := BitVec.ofNat 64 (x.2.toNat * 2 ^ 32 + x.1.toNat)

/-- The register number of a key of a crew's registers (R26). -/
def regNumOf (key : Nat) : Nat := if key < 7168 then key / 32 else 224 + (key - 7168)
/-- The log entries of register writes: (register number, thread, value). -/
def logOf (ws : List RegW) : List (Nat × Nat × DWord) := ws.map (fun r => (regNumOf r.key, r.t, logVal (r.val, r.tag)))

/-! What the words of a group name. -/

/-- The operation id of a word in a context. -/
def Ctx.opOf (x : Ctx) (w : Slot) : Nat := tableEntry x.sel x.held (Raw.ofSlot w).opc.toNat
/-- The registers, as numbers of R26, that a word names in a role. -/
def regNums (id : Nat) (w : Slot) (role : Use → Bool) : List Nat :=
  match parse id (Raw.ofSlot w) with
  | none => []
  | some (_, i) =>
    let span (r : Reg) (n : Nat) : List Nat := if r = .vz then [] else (List.range n).map (fun j => r.num + j)
    (i.uses.filter role).flatMap (fun u => span u.r u.n)

/-! Paths. -/

/-- The lowest free entry of a stack (R73). -/
def freeEntry (st : SMap Path) : Nat := ((List.range 16).find? (fun i => (st.find? i).isNone)).getD 15
def Scull.pushPath (x : Scull) (p : Path) : Scull := { x with stack := x.stack.put (freeEntry x.stack) { p with age := 0 } }
/-- A path that goes on: it stays in its line only by falling through it (R45). -/
def Path.goTo (p : Path) (pc : Nat) (fmtr : Word) (mask : Nat) (fell : Bool) : Path :=
  { p with
    pc := BitVec.ofNat 64 pc
    fmtr := fmtr
    mask := mask
    age := 0
    inLine := fell && decide (lineOf pc = lineOf p.pc.toNat ∧ pc ≥ p.pc.toNat) && p.inLine
    wait := .none
    issued := if fell && BitVec.ofNat 64 pc == p.pc then p.issued &&& mask else 0 }

/-- Where a thread goes: its next PC, its FMTR, and whether it returns from a handler. Threads that differ in one of them
part (R73, R242). -/
structure Goal where
  pc : Nat
  fmtr : Word
  ret : Bool
  deriving DecidableEq, Repr
/-- Insert a goal in a list that ascends by PC, without repeats. -/
def insertGoal : List Goal → Goal → List Goal
  | [], g => [g]
  | x :: xs, g => if x = g then x :: xs else if g.pc < x.pc then g :: x :: xs else x :: insertGoal xs g

/-- Threads of scull k as a 4-bit mask. -/
def scullMask (k : Nat) (ts : List Nat) : Nat := maskOf ((ts.filter (fun t => t / 4 == k)).map (· % 4))

/-- Split the running path of a scull over where its threads go (R73): `dest` gives the goal of each thread that goes on, `moved` those that
a transfer took there, `held` the threads that keep an undelivered cause and stay at `pc`. -/
def Scull.split (x : Scull) (k : Nat) (p : Path) (pc : Nat) (dest : List (Nat × Goal)) (moved held : List Nat) : Scull :=
  let mine := dest.filter (fun d => d.1 / 4 == k)
  let goals := mine.foldl (fun gs d => insertGoal gs d.2) []
  let of (g : Goal) : List Nat := (mine.filter (fun d => d.2 == g)).map (·.1)
  let mk (g : Goal) : Path := p.goTo g.pc g.fmtr (scullMask k (of g)) (!(of g).any moved.contains)
  let heldMask := scullMask k held
  let hold : Path := { p with pc := BitVec.ofNat 64 pc, mask := heldMask, age := 0, wait := .trap, issued := 0 }
  match goals with
  | [] => { x with run := if heldMask = 0 then none else some hold }
  | g :: gs =>
    let x := { x with run := some (mk g) }
    let x := gs.foldl (fun x g => x.pushPath (mk g)) x
    if heldMask = 0 then x else x.pushPath hold

/-- When a scull has no running path but a stack, the lowest-numbered entry with the lowest PC becomes it, ready or not, until the next
offer resolves the paths (DESIGN CHOICE, log entry 49: R79 does not say which entry runs). -/
def Scull.refill (x : Scull) : Scull :=
  match x.run with
  | some _ => x
  | none =>
    match x.stack with
    | [] => x
    | (i, p) :: ps =>
      let best := ps.foldl (fun b q => if q.2.pc.toNat < b.2.pc.toNat then q else b) (i, p)
      { x with run := some { best.2 with age := 0 }, stack := x.stack.drop best.1 }

/-- The crew parts when the running PCs of its non-exited sculls stop agreeing (R76). -/
def Crew.checkPart (w : Crew) : Crew :=
  let pcs := w.sculls.filterMap (fun x => x.run.map (·.pc))
  match pcs with
  | [] => w
  | p :: ps => if w.parted || ps.all (· == p) then w else { w with parted := true }

/-- The slot of the crew that takes what a group's cox brings (R83): its crew 0, else its first one (DESIGN CHOICE, log entry 19); 48 when that slot
has gone to another group. -/
def State.coxSlot (s : State) (u gid : Nat) : Nat :=
  let first := ((s.group? u gid).getD Group.blank).cnums.head?
  match List.find? (fun (p : Nat × Crew) => p.2.gid == gid && some p.2.cnum == first) (s.core u).crews with | some p => p.1 | none => 48

/-! Registers of a core and returning them (R79, R80, R249). -/

/-- Registers per thread times 32 that a crew holds go back: first to its group's extension units, then to the pool;
waiting CLAIMs are granted first. -/
def State.returnRegs (s : State) (u gid n : Nat) : State :=
  let c := s.core u
  let g := c.groups.get Group.blank gid
  let room := 12288 * g.regx.length - g.regxFree
  let toExt := min n room
  let c := { c with pool := c.pool + (n - toExt), groups := c.groups.modify gid (fun g => { g with regxFree := g.regxFree + toExt }) }
  let s := s.setCore u c
  if c.claims.isEmpty then s else s.push (.claimGrant u)

/-- Loads of a crew that still write registers. -/
def Core.crewLoads (c : Core) (slot : Nat) : List (Nat × Load) := c.loads.filter (fun p => p.2.who == .crew slot)
/-- The bytes of the word that an operation acts on. -/
def Atom.size (a : Atom) : Nat := if a.op = 8 then 4 else if a.ty.wide then 8 else 4
/-- The register keys that an operation at a home will write. -/
def Atom.keys (a : Atom) : List Nat :=
  let n := if a.ty.wide && decide (a.op ≤ 7) then 2 else 1
  match a.dst with
  | some (.v r) => (a.elems.map (·.t) ++ a.got.map (·.1)).flatMap (fun t =>
      (List.range n).map (fun i => match a.who with | .crew _ => 32 * (r.val + i) + t | .cox _ => r.val + i))
  | some (.k r) => (List.range n).map (fun i => crewKey (r.val + i))
  | _ => []
/-- Register keys of a crew or cox with a pending write (R45). -/
def Core.pendingKeys (c : Core) (who : Who) : List Nat :=
  (c.loads.filter (fun p => p.2.who == who)).flatMap (fun p => p.2.elems.flatMap (fun e => e.parts.filterMap (·.dst))) ++
  (c.atoms.filter (fun p => p.2.who == who)).flatMap (fun p => p.2.keys)

/-- Crews of a crew's group that have not exited. -/
def State.liveCrews (s : State) (u gid : Nat) : Nat :=
  let c := s.core u
  ((c.groups.get Group.blank gid).slots.filter (fun k => match c.crews.find? k with | some w => !w.exited | none => false)).length

/-- What follows when threads of a crew have exited or were parked: REGANG and barriers may complete, a crew with no unparked
thread left exits (R79, R200), an exited crew gives its registers back, and its group may end. -/
def State.afterExit (s : State) (u slot : Nat) : State :=
  match s.crew? u slot with
  | none => s
  | some w =>
    let w1 := if w.sculls.all (fun x => x.gone) && !w.exited then
        { w with threads := w.threads.map (fun t => { t with live := false, pend := none }), sculls := w.sculls.map (fun x => { x with pkmask := 0 }),
                 enm := false }
      else w
    let s := if w1.exited && !w.exited && w.enm then s.zeroLog u w else s
    let s := s.modCrew u slot (fun _ => w1)
    let bars := (((s.group? u w.gid).getD Group.blank).bars).map (fun b => Instr.barrierPhaseComplete u w.gid b.bnd b.key)
    let s := { s with agenda := s.agenda ++ bars ++ [.regangGang u slot, .trapDelivery u slot] }
    if w1.exited && !w.exited || w1.exited && w1.count != 0 then
      let c := s.core u
      let n := 32 * w1.count
      let s := s.modCrew u slot (fun w => { w with count := 0 })
      let s : State := if (c.crewLoads slot).isEmpty then s.returnRegs u w.gid n
        else s.modCore u (fun c => { c with owed := c.owed ++ [(slot, n)] })
      if s.liveCrews u w.gid = 0 then s.push (.groupEnd u w.gid) else s
    else s

/-! Ending a member, and committing the group. -/

def Fx.append (a b : Fx) : Fx where
  wr := a.wr ++ b.wr
  raises := a.raises ++ b.raises
  conds := a.conds ++ b.conds
  falls := a.falls ++ b.falls
  jumps := a.jumps ++ b.jumps
  rets := a.rets ++ b.rets
  gone := a.gone ++ b.gone
  again := a.again ++ b.again
  parks := a.parks ++ b.parks
  ops := a.ops ++ b.ops
  suspects := a.suspects + b.suspects
  log := a.log ++ b.log

/-- A suspicion charge to a unit, saturating at 127; a score that reaches 64 marks the unit suspect (R308, R309). -/
def State.charge (s : State) (kind idx n : Nat) : State :=
  if n = 0 then s
  else
    let key := 2 ^ 20 * kind + idx
    let v := min 127 (s.ras.score.get 0 key + n)
    { s with ras := { s.ras with score := s.ras.score.put key v, suspect := if v ≥ 64 then insertNat s.ras.suspect key else s.ras.suspect } }

/-- Registers are written after the bytes were read early: unless only computed from registers that were not, a load that takes its address from
them does not bind those (R171). -/
def Early.wrote (e : Early) (keys : List Nat) : Early := { e with taint := e.taint ++ keys.filter (fun k => !e.taint.contains k) }
/-- Apply register writes to a crew. -/
def Crew.writes (w : Crew) (ws : List RegW) : Crew :=
  { w with
    regs := ws.foldl (fun m x => m.set regDefault x.key (x.val, x.tag)) w.regs
    early := w.early.map (fun e => e.wrote (ws.map (·.key))) }

/-- Conditions and falls of the committing threads, scull by scull (R105, R119). -/
def Scull.conditions (x : Scull) (k : Nat) (pc : Nat) (conds : List (Nat × BitVec 7)) (falls : List (Nat × Nat)) : Scull :=
  let c := (conds.filter (fun p => p.1 / 4 == k)).foldl (fun a p => a ||| p.2) 0
  let x := { x with fstat := x.fstat ||| c }
  let mine := falls.filter (fun p => p.1 / 4 == k)
  match mine with
  | [] => x
  | p :: ps =>
    if bitAt x.fstat.toNat 5 then x
    else
      let m := ps.foldl (fun m q => min m q.2) p.2
      let mask := scullMask k ((mine.filter (fun q => q.2 == m)).map (·.1))
      { x with fstat := x.fstat ||| condSIG, losspc := BitVec.ofNat 64 (mask * 2 ^ 60 + lineOf pc + slotOf pc + m) }

/-- Keep the parts of an operation that belong to committing threads; none when nothing is left. -/
def MOp.keep (bad : Nat → Bool) : MOp → Option MOp
  | .load l =>
    let es := l.elems.filter (fun e => !bad e.t)
    if es.isEmpty then none else some (.load { l with elems := es })
  | .store r =>
    let es := r.elems.filter (fun e => !bad e.1)
    if es.isEmpty then none else some (.store { r with elems := es })
  | .atom a w =>
    let es := a.elems.filter (fun e => !bad e.t)
    if es.isEmpty then none else some (.atom { a with elems := es } w)
  | .fetch ks => some (.fetch ks)
  | .entry q e ts w => if ts.all bad then none else some (.entry q e (ts.filter (fun t => !bad t)) w)
  | .tile n op ts =>
    if ts.all bad then none
    else match op with
      | .move cells trusts => some (.tile n (.move (cells.filter (fun c => !bad c.1)) (trusts.filter (fun c => !bad c.1))) ts)
      | op => some (.tile n op ts)

/-- One more operation in flight that will clear a completion flag (R44). -/
def Crew.raiseFlag (w : Crew) (flag : Option Nat) (sculls : List Nat) : Crew :=
  match flag with
  | none => w
  | some f => sculls.foldl (fun w k => let x := w.scull k; w.setScull k { x with cf := setNth x.cf f (x.cf.getD f 0 + 1) }) w
/-- An operation completed: its flag falls by one in its sculls (R44). While the crew replays, that is the flag it has at its live
point (R288). -/
def Crew.lowerFlag (w : Crew) (flag : Option Nat) (sculls : List Nat) : Crew :=
  let down (cf : List Nat) (f : Nat) : List Nat := setNth cf f (cf.getD f 0 - 1)
  match flag, w.replay with
  | none, _ => w
  | some f, none => sculls.foldl (fun w k => let x := w.scull k; w.setScull k { x with cf := down x.cf f }) w
  | some f, some r => { w with replay := some { r with cf := imap r.cf (fun k cf => if sculls.contains k then down cf f else cf) } }
def State.lowerFlag (s : State) (u : Nat) (who : Who) (flag : Option Nat) (sculls : List Nat) : State :=
  match who with | .crew slot => s.modCrew u slot (fun w => w.lowerFlag flag sculls) | .cox _ => s

/-- Write a witness pair for each of the threads (R162). -/
def witWrites (isCox : Bool) (wit : Option Reg) (ts : List Nat) (x : DWord) : List RegW :=
  match wit with
  | some (.v n) => ts.flatMap (fun t => let k (i : Nat) := if isCox then n.val + i else 32 * (n.val + i) + t
      [⟨t, k 0, loWord x, intTag⟩, ⟨t, k 1, hiWord x, intTag⟩])
  | some (.k n) => [⟨ts.headD 0, crewKey n.val, loWord x, intTag⟩, ⟨ts.headD 0, crewKey (n.val + 1), hiWord x, intTag⟩]
  | _ => []

/-- The register keys that a crew's operations write with their witnesses (R162). -/
def MOp.witKeys (op : MOp) : List Nat :=
  let keys (wit : Option Reg) (ts : List Nat) : List Nat := (witWrites false wit ts 0).map (·.key)
  match op with
  | .store r => keys r.wit (r.elems.map (·.1))
  | .atom a w => keys w (a.elems.map (·.t))
  | .entry _ _ ts w => keys w ts
  | _ => []
/-- Log a register of a crew as it stands (R286). -/
def State.logReg (s : State) (u slot stroke key : Nat) : State :=
  match s.crew? u slot with
  | some w => s.logValue u slot (logVal (w.get key)) stroke (regNumOf key) (if key < 7168 then key % 32 else 0)
  | none => s

/-- Apply register writes to the issuing agent. -/
def State.applyWrites (s : State) (u : Nat) (who : Who) (ws : List RegW) : State :=
  match who with
  | .crew slot => s.modCrew u slot (fun w => w.writes ws)
  | .cox gid => s.modGroup u gid (fun g => { g with cox := g.cox.map (fun x => { x with regs := ws.foldl (fun m y => m.set 0 y.key y.val) x.regs }) })

/-- The bytes of one event: where threads overlap, the highest thread's value stands (R156). -/
def mergeBytes (es : List (Nat × DWord × List SByte)) : List SByte :=
  let m : SMap SByte := es.foldl (fun m e => e.2.2.foldl (fun m b => m.put b.ha b) m) []
  m.map (·.2)

/-! The L1 (R136, R138, R303). -/

/-- The 128 home keys of the line of a home key. -/
def lineKeys (a : Nat) : List Nat := (List.range 128).map (fun i => a / 128 * 128 + i)
/-- All eight dirty bytes of word `w` were stored last by one event: only that clears the mark of a poisoned word (R303). -/
def oneStore (out : List (Nat × L1Byte)) (w : Nat) : Bool :=
  let bs := out.filter (fun e => e.1 / 8 == w)
  match bs with
  | [] => false
  | e :: _ => bs.length == 8 && bs.all (fun x => x.2.dirty.getLast? == e.2.dirty.getLast?)
/-- The instruction lines of a list of which an L1 still holds dirty bytes. -/
def tornLines (l1 : SMap L1Byte) (ns : List Nat) : List Nat := ns.eraseDups.filter (fun n => l1.any (fun e => e.1 / 64 == n && !e.2.dirty.isEmpty))
/-- Dirty bytes of the core's L1 go to their homes and become clean; a poisoned word carries its mark (R136, R303). Instruction lines of which
dirty bytes are left are noted as `torn` (R63). -/
def State.writeBack (s : State) (u : Nat) (sel : Nat → L1Byte → Bool) : State :=
  let c := s.core u
  let out := c.l1.filter (fun e => !e.2.dirty.isEmpty && sel e.1 e.2)
  if out.isEmpty then s
  else
    let marks := ((out.map (·.1 / 8)).eraseDups).filter (fun w => c.l1poison.contains w || (s.poison.contains w && !oneStore out w))
    let s := s.writeHome (out.map (fun e => (e.1, e.2.val)))
    let s := marks.foldl (fun s w => s.setPoison (8 * w) true) s
    s.modCore u (fun c =>
      let l1 := c.l1.map (fun e => if !e.2.dirty.isEmpty && sel e.1 e.2 then (e.1, { e.2 with dirty := [] }) else e)
      { c with l1 := l1, torn := tornLines l1 ((out.map (fun (e : Nat × L1Byte) => e.1 / 64)) ++ c.torn) })
/-- The later of an event of an origin and another one. -/
def Origin.later (x : Origin) (a : Option Nat) (b : Nat) : Nat := match a with | some q => if seqLe x.cnt b q then q else b | none => b
/-- The Sweep of an origin's dirty bytes behind event `seq` (R163). -/
def State.sweep (s : State) (u seq : Nat) : State :=
  let x := s.origin u
  (s.setOrigin u { x with behind := some (x.later x.behind seq) }).writeBack u (fun _ b => b.holds x.cnt seq)
/-- A line of which no byte is valid gives up its way, and a word of which no byte is valid its mark. -/
def Core.tidy (c : Core) : Core :=
  { c with
    l1poison := c.l1poison.filter (fun w => c.l1.any (fun e => e.1 / 8 == w))
    ways := c.ways.filter (fun q => c.l1.any (fun e => e.1 / 128 == q.1)) }
/-- Clean valid bytes become invalid (R171 Drop). -/
def State.dropClean (s : State) (u : Nat) (sel : Nat → Bool) : State :=
  s.modCore u (fun c => { c with l1 := c.l1.filter (fun e => !e.2.dirty.isEmpty || !sel e.1) }.tidy)
/-- A line leaves the L1: its dirty bytes go home and it becomes invalid (R136). -/
def State.evict (s : State) (u line : Nat) : State :=
  (s.writeBack u (fun k _ => k / 128 == line)).dropClean u (fun k => k / 128 == line)
/-- The ways that each set has: four, and four more for each unit assigned as L1 extension (R136, R138). -/
def Core.usableWays (c : Core) : List Nat := (List.range 16).filter (fun w => decide (w < 4) || c.flex.getD (w / 4 - 1) .free == .l1x)
/-- The lines that are held in the set of a line. -/
def Core.sameSet (c : Core) (line : Nat) : SMap Nat := c.ways.filter (fun q => Config.l1Set q.1 % 128 == Config.l1Set line % 128)
/-- A line that is absent gets a way: one that no line holds, one that is free in its set, or that of a line of its set, which is
evicted (R136; log entry 48). -/
def State.allocate (s : State) (u line : Nat) : State :=
  let c := s.core u
  let give (s : State) (w : Nat) : State := s.modCore u (fun c => { c with ways := c.ways.put line w })
  let without (held : SMap Nat) : Option Nat := c.usableWays.find? (fun w => !held.any (fun q => q.2 == w))
  if (c.ways.find? line).isSome then s
  else match without c.ways with
    | some w => give s w
    | none =>
      match without (c.sameSet line) with
      | some w => give s w
      | none =>
        match (c.sameSet line)[Config.l1Victim s.free % (c.sameSet line).length]? with
        | some q => give (s.evict u q.1) q.2
        | none => s
/-- A byte becomes valid in the L1: its old entry becomes `f` of it. -/
def State.putL1 (s : State) (u a : Nat) (f : Option L1Byte → L1Byte) : State :=
  (s.allocate u (a / 128)).modCore u (fun c => { c with l1 := c.l1.put a (f (c.l1.find? a)) })
/-- When a byte became valid: at its fill, or now. -/
def fillOf (now : Nat) (old : Option L1Byte) : Nat := match old with | some b => b.fill | none => now
/-- The home values fill the bytes of a line that are not dirty, with the home's marks for the words filled (R136, R303). -/
def State.fetchLine (s : State) (u a : Nat) : State :=
  let s := s.allocate u (a / 128)
  s.modCore u (fun c =>
    let keys := (lineKeys a).filter (fun k => match c.l1.find? k with | some b => b.dirty.isEmpty | none => true)
    let held (w : Nat) : Bool := c.l1.any (fun e => e.1 / 8 == w && !e.2.dirty.isEmpty)
    let words := (keys.map (· / 8)).eraseDups
    { c with
      l1 := keys.foldl (fun m k => m.put k ⟨s.byte k, [], s.free⟩) c.l1
      l1poison := words.foldl (fun m w => if s.isPoisoned (8 * w) 1 then insertNat m w else if held w then m else m.filter (· != w)) c.l1poison })
def copyKey (cl line : Nat) : Nat := cl * 2 ^ 40 + line
/-- The marked words of a line at its home, 0 to 15. -/
def State.lineMarks (s : State) (line : Nat) : List Nat := (List.range 16).filter (fun w => s.isPoisoned (128 * line + 8 * w) 1)
/-- The copy of a line in a cluster: the one held, or one fetched clean from the home with its marks (R151, R303). -/
def State.copyOf (s : State) (cl line : Nat) : Copy := (s.copies.find? (copyKey cl line)).getD ⟨s.bytes (128 * line) 128, none, s.lineMarks line⟩
/-- A read of a replicated line leaves a copy in the reader's cluster (R151). -/
def State.listCopy (s : State) (u a : Nat) : State :=
  { s with copies := s.copies.put (copyKey (clusterOf u) (a / 128)) (s.copyOf (clusterOf u) (a / 128)) }
/-- The lines that reads inside an instruction missed are fetched, and copies of replicated lines (keys from 2^57 on) are held. -/
def State.fetchNow (s : State) (u : Nat) (as : List Nat) : State :=
  as.foldl (fun s a => if a ≥ 2 ^ 57 then s.listCopy u (a - 2 ^ 57) else if s.l1Valid u a 1 then s else s.fetchLine u a) s

/-- Own SPILLs that a FILL must see (R376): earlier events of its threads to its bytes that have not entered. -/
def State.ownEvents (s : State) (u : Nat) (l : Load) : List Nat :=
  let fills (e : LElem) : Bool := e.parts.any (fun p => p.tagAt.isSome)
  let meets (e : LElem) (b : SByte) : Bool := e.parts.any (fun p => decide (p.ha ≤ b.ha ∧ b.ha < p.ha + p.n))
  ((s.origin u).pend.filter (fun v => v.who == some l.who && l.elems.any (fun e => fills e && bitAt v.threads e.t && v.bytes.any (meets e)))).map (·.seq)
/-- The place of an operation in its core's order. -/
def Site.stamp (x : Site) (o : Origin) (c : Core) : Site := { x with cnt := o.cnt, ord := c.nextGid }
/-- CNT of a core and its operation number: what is issued from now on counts from them. -/
def State.opBase (s : State) (u : Nat) : Nat × Nat := ((s.origin u).cnt, (s.core u).nextGid)
/-- An event of an origin is later than the CNT `base`. -/
def Origin.after (x : Origin) (base seq : Nat) : Bool := decide (seqDist x.cnt seq < seqDist x.cnt base)
/-- Memory operations of the same issue group, earlier in slot order, which an access follows (R40): events by number, loads and engine entries as
2^32 + their number; `base` is what stood before the group. -/
def State.groupBefore (s : State) (u : Nat) (base : Nat × Nat) : List Nat :=
  let x := s.origin u
  (x.pend.filter (fun e => x.after base.1 e.seq)).map (·.seq) ++
  ((s.core u).loads.filter (fun l => decide (l.1 ≥ base.2))).map (fun l => 2 ^ 32 + l.1) ++
  (s.core u).queues.flatMap (fun q => (q.filter (fun e => decide (e.id ≥ base.2))).map (fun e => 2 ^ 32 + e.id))
/-- Loads of its threads that stand before a witness wait of theirs (R171), as 2^32 + their number. -/
def State.markedLoads (s : State) (u : Nat) (l : Load) : List Nat :=
  match l.who with
  | .cox _ => []
  | .crew slot =>
    match s.crew? u slot with
    | none => []
    | some w =>
      let before (p : Nat × Load) (t : Nat) : Bool := decide (p.1 < (w.thread t).mark) && p.2.elems.any (fun e => e.t == t)
      (((s.core u).crewLoads slot).filter (fun p => l.elems.any (fun e => before p e.t))).map (fun p => 2 ^ 32 + p.1)
/-- Loads and SLTAKEs of the threads that an SLPUT follows (R430), as 2^32 + their number. -/
def Core.openReads (c : Core) (who : Who) (threads : Nat) : List Nat :=
  (c.loads.filter (fun p => p.2.who == who && p.2.elems.any (fun e => bitAt threads e.t))).map (fun p => 2 ^ 32 + p.1) ++
  (c.atoms.filter (fun p => p.2.who == who && p.2.op == 9 && p.2.elems.any (fun e => bitAt threads e.t))).map (fun p => 2 ^ 32 + p.1)

/-! Tiles (R219 to R221, R102). -/

def tfFmt (tf : Word) : Nat := bitsAt tf.toNat 0 4
def tfRows (tf : Word) : Nat := bitsAt tf.toNat 16 8 + 1
def tfCols (tf : Word) : Nat := bitsAt tf.toNat 8 8 + 1
def tfKdir (tf : Word) : Bool := bitAt tf.toNat 24
/-- Bits of an element of a format (R221). -/
def tfBits (tf : Word) : Nat :=
  match tfFmt tf with | 0 => 32 | 4 => 32 | 5 => 64 | 8 => 16 | 9 => 16 | 10 => 8 | 11 => 8 | 12 => 4 | 13 => 8 | 14 => bitsAt tf.toNat 4 4 | _ => 0
/-- p of an element format (R90); integers carry no trust. -/
def tfPrec (tf : Word) : Nat :=
  match tfFmt tf with | 4 => 24 | 5 => 53 | 8 => 8 | 9 => 11 | 10 => 4 | 11 => 3 | 12 => 2 | 14 => bitsAt tf.toNat 4 4 - 1 | _ => 0
/-- Lines of a tile, elements of a line, bytes of a line (R224). -/
def tfLines (tf : Word) : Nat := if tfKdir tf then tfCols tf else tfRows tf
def tfLineElems (tf : Word) : Nat := if tfKdir tf then tfRows tf else tfCols tf
def tfLineBytes (tf : Word) : Nat := tfLineElems tf * tfBits tf / 8
/-- The K dimension of a tile. -/
def tfK (tf : Word) : Nat := tfLineElems tf
/-- Block scales of a tile (R226): one for 32 elements of a line, whatever the format, where R226 gives a count for block-scaled formats only (DESIGN
CHOICE, log entry 29). -/
def tfBlocks (tf : Word) : Nat := tfLines tf * (tfLineElems tf / 32)
/-- A value that TF does not take (R221). -/
def tfBad (tf : Word) : Bool :=
  let f := tfFmt tf
  let bm := bitsAt tf.toNat 4 4
  bitsAt tf.toNat 25 7 != 0 || [1, 2, 3, 6, 7, 15].contains f || (if f = 14 then decide (bm < 2 ∨ bm > 8) else bm != 0) ||
  decide (tfRows tf * tfCols tf * tfBits tf > 8192 * 8) || ([10, 11, 12, 14].contains f && tfK tf % 32 != 0)
/-- A configured tile: all zero, tag p, scale slot zero (R221). -/
def Tile.fresh (tf : Word) : Tile := ⟨tf, [], tfPrec tf, [], false⟩
/-- A seat instruction's effect on a tile. -/
def TileOp.apply (op : TileOp) (x : Tile) : Tile :=
  match op with
  | .cfg tf => Tile.fresh tf
  | .zero => { x with data := [], tag := tfPrec x.tf, poisoned := false }
  | .move cells trusts =>
    { x with
      data := cells.foldl (fun m c => c.2.foldl (fun m b => m.set 0 b.1 b.2) m) x.data
      tag := match trusts with | [] => x.tag | q :: qs => qs.foldl (fun a b => min a b.2) q.2 }

/-- An entry of a tile load or store, which may stand in one group with other memory instructions (R40, R41). -/
def Entry.inGroup (e : Entry) : Bool := match e.kind with | .tld .. | .tst .. | .scld .. => true | _ => false
/-- A load's address depends on registers that stand under the keys `taint` (R171). -/
def Load.follows (x : Ctx) (l : Load) (taint : List Nat) : Bool :=
  let ns := regNums (x.opOf l.src.instr) l.src.instr (fun r => !r.wr)
  taint.any (fun k => ns.contains (regNumOf k))
/-- Issue one operation of a committed group (R171); `base` is what stood before the group. -/
def State.issueOp (s : State) (base : Nat × Nat) (u : Nat) (who : Who) (gid : Nat) (op : MOp) : State :=
  let isCox := match who with | .cox _ => true | .crew _ => false
  match op with
  | .load l =>
    let c := s.core u
    let s := s.setCore u { c with
      loads := c.loads.put c.nextGid { l with
        need := s.ownEvents u l ++ s.markedLoads u l ++ s.groupBefore u base
        src := l.src.stamp (s.origin u) c }
      nextGid := c.nextGid + 1 }
    let x := s.ctx ((s.group? u gid).getD Group.blank).ctx
    let bar (y : Early) : Early := if l.follows x y.taint then { y with bars := y.bars ++ [c.nextGid] } else y
    match who with | .crew slot => s.modCrew u slot (fun w => { w.raiseFlag l.flag l.sculls with early := w.early.map bar }) | .cox _ => s
  | .store r =>
    let bytes := mergeBytes r.elems
    let x := s.origin u
    let seq := x.next
    let scope := raiseScope bytes r.scope
    let threads := maskOf (r.elems.map (·.1))
    let waits := (x.pend.filter (fun e => e.who == some who && e.threads &&& threads != 0)).map (·.seq)
    let atomWaits := ((s.core u).atoms.filter (fun a => a.2.who == who && a.2.elems.any (fun e => bitAt threads e.t) && a.2.seq.isSome)).filterMap (·.2.seq)
    let e : StoreEv :=
      { seq := seq, who := some who, threads := threads, scope := scope, await := r.scope, after := (r.elems.map (·.2.1)).filter (fun w => witKind w != 0),
        wit := r.wit.isSome, cls := r.cls, bytes := bytes, waits := waits ++ atomWaits ++ s.groupBefore u base, entered := false, swept := false, locks := 0, held := false,
        marks := [] }
    let s := (s.addEvent u e).noteEvent u gid seq
    s.applyWrites u who (witWrites isCox r.wit (r.elems.map (·.1)) (s.witOf u seq scope 1))
  | .atom a wit =>
    let c := s.core u
    let x := s.origin u
    let seq := x.next
    let threads := maskOf (a.elems.map (·.t))
    let waits := (x.pend.filter (fun e => e.who == some who && e.threads &&& threads != 0)).map (·.seq)
    let isEv := decide (a.op ≤ 8) || a.op == 10
    let a := { a with
      seq := if isEv then some seq else none
      need := waits ++ (if a.op = 10 then c.openReads who threads else []) ++ s.groupBefore u base
      order := s.free
      src := a.src.stamp x c }
    let scope := if a.elems.any (·.remote) then max a.scope 3 else a.scope
    let ev : StoreEv :=
      { seq := seq, who := some who, threads := threads, scope := scope, await := a.scope, after := a.after, wit := a.wit, cls := 2, bytes := [],
        waits := [], entered := false, swept := false, locks := 0, held := true, marks := [] }
    let s := if isEv then (s.setOrigin u { x with cnt := seq, pend := x.pend ++ [ev] }).noteEvent u gid seq else s
    let s := s.setCore u { c with atoms := c.atoms.put c.nextGid a, nextGid := c.nextGid + 1, groups := (s.core u).groups }
    let s := match who with | .crew slot => s.modCrew u slot (fun w => w.raiseFlag a.flag a.sculls) | .cox _ => s
    if isEv then s.applyWrites u who (witWrites isCox wit (a.elems.map (·.t)) (s.witOf u seq scope 1)) else s
  | .fetch ks => ks.foldl (fun s a => s.fetchLine u a) s
  | .tile n op _ => s.modCore u (fun c => { c with tiles := c.tiles.set Tile.reset n (op.apply (c.tiles.get Tile.reset n)) })
  | .entry q e ts wit =>
    let c := s.core u
    let e := { e with id := c.nextGid, need := if e.inGroup then s.groupBefore u base else [], src := e.src.stamp (s.origin u) c }
    match e.kind with
    | .tst tile lines _ =>
      let x := s.origin u
      let n := lines.length
      let seqs := (List.range n).map (fun i => (x.cnt + 1 + i) % 2 ^ 30)
      let last := (x.cnt + n) % 2 ^ 30
      let lineScope (i : Nat) : Nat := if (lines.getD i []).any (fun g => g.dest == .remote) then max e.scope 3 else e.scope
      let ev (i q : Nat) : StoreEv :=
        { seq := q, who := some who, threads := 0, scope := lineScope i, await := e.scope, after := [], wit := wit.isSome && q == last, cls := 128, bytes := [],
          waits := [], entered := false, swept := false, locks := 0, held := true, marks := [] }
      let evs := imap seqs ev
      let s := (s.setOrigin u { x with cnt := last, pend := x.pend ++ evs }).noteEvent u gid last
      let e := { e with kind := .tst tile lines seqs, wit := s.witOf u last (lineScope (n - 1)) 1 }
      let s := s.modCore u (fun c => { c with queues := setNth c.queues q ((c.queues.getD q []) ++ [e]), nextGid := c.nextGid + 1 })
      let s := s.applyWrites u who (witWrites isCox wit ts (s.witOf u last (lineScope (n - 1)) 1))
      match who with | .crew slot => s.modCrew u slot (fun w => w.raiseFlag e.flag e.sculls) | .cox _ => s
    | _ =>
      let s := s.modCore u (fun c => { c with queues := setNth c.queues q ((c.queues.getD q []) ++ [e]), nextGid := c.nextGid + 1 })
      match who with | .crew slot => s.modCrew u slot (fun w => w.raiseFlag e.flag e.sculls) | .cox _ => s

/-- A fault that a speculative run defers (R202): recorded in the thread's log header with the PC of the faulting instruction (R204). -/
def State.deferFault (s : State) (u : Nat) (w : Crew) (pc : Nat) (r : Raise) : State :=
  let cl := clusterOf u
  let a := s.logSlot cl w r.t 0
  let s := s.setLogSlot cl w r.t 0 (setBits (setBits a 24 8 r.cause) 64 32 r.sub)
  s.setLogSlot cl w r.t 1 (pc + r.faddr * 2 ^ 64)

/-- The first cause a thread raised in member order. -/
def Fx.causeOf (fx : Fx) (t : Nat) : Option Raise := fx.raises.find? (fun r => r.t == t)

/-- The context whose decode table the issuing agent uses (R58). -/
def State.issueCtx (s : State) (iss : Issue) : Nat :=
  match iss.who with
  | .crew slot => (match s.crew? iss.unit slot with | some w => ((s.group? iss.unit w.gid).getD Group.blank).ctx | none => 0)
  | .cox gid => ((s.group? iss.unit gid).getD Group.blank).ctx

/-- The words of the members of the group as they stand in the fetched line, for the frame of R240. -/
def State.memberWord (s : State) (iss : Issue) (i : Nat) : Slot :=
  if i = iss.idx then iss.cur
  else match (s.core iss.unit).icache.find? (lineKey (s.issueCtx iss) iss.pc.toNat) with
    | some bs => BitVec.ofNat 96 (natOfBytes ((bs.drop (4 + 12 * (slotOf iss.pc.toNat + i))).take 12))
    | none => iss.cur

def State.pendOf (s : State) (iss : Issue) (w : Crew) (r : Raise) (npc : Nat) : Pend where
  cause := r.cause
  sub := r.sub
  faddr := r.faddr
  rpc := BitVec.ofNat 64 (if r.next then npc else iss.pc.toNat)
  pc := iss.pc
  instr := s.memberWord iss r.mem
  issue := iss.id
  stroke := w.stroke
  grp := decide (iss.nmem ≥ 2)
  mem := r.mem
  ganged := !w.parted
  waited := false
  cox := false

/-- The pairs of an active lane and its shadow (R85): active lanes in ascending order each take the free idle lane j with the
least i XOR j. A lane still busy with another issue counts as free here, and its shadowing costs nothing (DESIGN CHOICE, log entry 49). -/
def shadowPairs (mask : Nat) : List (Nat × Nat) :=
  let act := (List.range 8).filter (fun k => decide (bitsAt mask (4 * k) 4 ≠ 0))
  let r := act.foldl (fun (st : List Nat × List (Nat × Nat)) i =>
    match st.1 with
    | [] => st
    | j :: js =>
      let best := js.foldl (fun b x => if x ^^^ i < b ^^^ i then x else b) j
      (st.1.filter (· != best), st.2 ++ [(i, best)])) ((List.range 8).filter (fun k => !act.contains k), [])
  r.2
/-- Shadow lanes (R86): the sculls whose shadow disagrees. -/
def State.shadowFaults (s : State) (g : Group) (iss : Issue) : List Nat :=
  if !(s.ctx g.ctx).shadow || iss.beats == 0 then []
  else ((shadowPairs iss.mask).map (·.1)).filter (fun k => Config.shadowMismatch (8 * s.free + k))

/-- While a crew replays, the registers that the log holds for the current stroke (R288): an entry is (stroke, register
number, thread, value), crew registers having the numbers from 224 on. -/
def Crew.replayWrites (w : Crew) (good : List Nat) : List RegW :=
  match w.replay with
  | none => []
  | some r => (r.log.filter (fun e => e.1 == w.stroke && decide (e.2.1 < 248) && (decide (224 ≤ e.2.1) || good.contains e.2.2.1))).map (fun e =>
      ⟨e.2.2.1, if e.2.1 < 224 then 32 * e.2.1 + e.2.2.1 else crewKey (e.2.1 - 224), loWord e.2.2.2, e.2.2.2.extractLsb' 32 8⟩)
/-- The value that a replaying crew's log holds under a register number at the current stroke (R288). -/
def Crew.logged (w : Crew) (reg t : Nat) : Option DWord :=
  w.replay.bind (fun r => (r.log.find? (fun e => e.1 == w.stroke && e.2.1 == reg && e.2.2.1 == t)).map (·.2.2.2))
/-- Faults that depend on what an instruction read from outside are logged, cause and subcode under number 251 and address under 250
(log entry 16), so that a replay takes them from there. -/
def faultLog (rs : List Raise) : List (Nat × Nat × DWord) :=
  rs.flatMap (fun r => [(251, r.t, BitVec.ofNat 64 (r.sub * 2 ^ 32 + r.cause)), (250, r.t, BitVec.ofNat 64 r.faddr)])
def Crew.loggedFault (w : Crew) (t : Nat) : Option (Nat × Nat × Nat) :=
  (w.logged 251 t).map (fun x => (x.toNat % 256, x.toNat / 2 ^ 32, ((w.logged 250 t).getD 0).toNat))
/-- A replay that has reached its position halts (R288). -/
def Crew.replayStop (w : Crew) : Crew :=
  match w.replay with
  | some r => if decide (w.piece > r.toPiece) || (w.piece == r.toPiece && decide (w.stroke ≥ r.toStroke)) then { w with halt := .halted } else w
  | none => w

/-- A candidate that yielded with n = 0 is ready again once its seat has started a group of another candidate (R442). -/
def noYield (y : Option Nat) : Option Nat := if y = some 0 then none else y
/-- A crew of a seat that starts a group: sculls of a parted crew that issue it begin to age anew (R87), other candidates are awake. -/
def Crew.otherIssued (w : Crew) (own : Bool) (parts : List Nat) : Crew :=
  if own then
    { w with sculls := imap w.sculls (fun k x =>
        if !w.parted then x else if parts.contains k then { x with age := 0 } else { x with yielded := noYield x.yielded }) }
  else { w with yielded := noYield w.yielded, sculls := w.sculls.map (fun x => { x with yielded := noYield x.yielded }) }
/-- The leaf of R280 that a wait is counted under; 14 where the table has none. -/
def Wait.leaf : Wait → Nat
  | .none => 14
  | .flags _ => 4
  | .fetch _ => 3
  | .regs _ => 5
  | .ops l _ _ _ _ => l
  | .wit _ _ => 13
  | .read => 5
  | .queue _ _ => 6
  | .full _ => 5
  | .stall => 5
  | .tile _ => 7
  | .blade => 8
  | .bltake => 8
  | .bar _ _ _ _ _ _ => 9
  | .bara _ _ _ => 9
  | .claim _ => 9
  | .regang => 11
  | .mwait _ _ _ => 10
  | .sltake _ => 12
  | .join => 5
  | .catch _ => 14
  | .command => 14
  | .trap => 14
  | .over _ _ => 14
/-- Add one lane's cycle to a leaf of a seat's counters, and to the total. -/
def Seat.count (x : Seat) (leaf : Nat) : Seat :=
  let add (c : List Nat) (i : Nat) : List Nat := setNth c i ((c.getD i 0 + 1) % 2 ^ 64)
  { x with ctr := add (add x.ctr leaf) 15 }
/-- The seat after a cycle (R280). -/
def Seat.after (x : Seat) (k : SeatTick) (leaf : Nat) : Seat :=
  let y := k.busy.foldl Seat.count { x with lanes := k.lanes }
  (List.replicate k.free leaf).foldl Seat.count y
/-- The seat of a crew after its cycle; `wait` is what an issue that did not start waits for, `last` the slot issued. -/
def State.seatAfter (s : State) (u seat : Nat) (k : Option SeatTick) (leaf : Nat) (last : Option Nat) : State :=
  match k with
  | some y => s.modCore u (fun c =>
      let x := (c.seats.getD seat Seat.reset).after y (min y.leaf leaf)
      { c with seats := setNth c.seats seat (match last with | some n => { x with last := some n } | none => x) })
  | none => s
/-- The candidates of the seat that an issue wakes (R442). -/
def State.wakeYields (s : State) (u slot : Nat) (parts : List Nat) : State :=
  s.modCore u (fun c => { c with crews := c.crews.map (fun p => if p.1 / 12 = slot / 12 then (p.1, p.2.otherIssued (p.1 == slot) parts) else p) })
/-- A release for exactly one issue is under way. -/
def Crew.inStep (w : Crew) : Bool := match w.halt with | .step | .stepping _ _ => true | _ => false
/-- A release for exactly one issue ends with a new halt (R292). -/
def Crew.stepDone (w : Crew) : Crew := if w.inStep then { w with halt := .requested } else w
/-- The sculls of a crew in `passed`, by slot and scull, age by one: a choice passed over them (R87). -/
def Crew.agedBy (w : Crew) (slot : Nat) (passed : List (Nat × Nat)) : Crew :=
  { w with sculls := imap w.sculls (fun k x => if passed.contains (slot, k) then { x with age := min 255 (x.age + 1) } else x) }
/-- Log the path that a scull chose where it had a choice (R286): register 255, the scull, and the path's PC and mask. -/
def State.logChoice (s : State) (u slot : Nat) (w : Crew) (k : Nat) (p : Path) : State :=
  if w.parted || !(w.scull k).stack.isEmpty then s.logValue u slot (BitVec.ofNat 64 (p.mask * 2 ^ 60 + p.pc.toNat)) w.stroke 255 k else s
/-- Log the running path of a scull, where it had a choice. -/
def State.logRunning (s : State) (u slot : Nat) (w : Crew) (k : Nat) : State :=
  match (w.scull k).run with | some p => s.logChoice u slot w k p | none => s

/-- A load that waits for no witness: other loads of its thread may bind before it (R171). -/
def MOp.isPlainLoad : MOp → Bool
  | .load l => l.elems.all (fun e => witKind e.after == 0)
  | _ => false
/-- The group reads no register that holds what a later load brought, and so do the registers that it writes (R171). -/
def Early.computed (e : Early) (srcs keys : List Nat) : Early :=
  if e.taint.any (fun k => srcs.contains (regNumOf k)) then e else { e with taint := e.taint.filter (fun k => !keys.contains k) }
/-- What has been read early, after a group: nothing where it does more than compute and load, or raises a cause (R150, R171). -/
def Crew.earlyAfter (w : Crew) (iss : Issue) (keys : List Nat) : List Early :=
  if !iss.fx.ops.all MOp.isPlainLoad || !iss.fx.raises.isEmpty || !iss.fx.rets.isEmpty then []
  else match iss.srcs with | some ns => w.early.map (fun e => e.computed ns keys) | none => w.early
/-- The crew once the members of its group have run (R42): the register writes and conditions of the threads in `good`, and one
stroke more, unless all of them issue the group again (R283). -/
def Crew.afterGroup (w : Crew) (iss : Issue) (good shd : List Nat) : Crew :=
  let fx := iss.fx
  let act := bitsOf 32 iss.mask
  let w1 := (w.writes (fx.wr.filter (fun x => !fx.bad x.t))).writes (w.replayWrites good)
  let conds := fx.conds.filter (fun c => !fx.bad c.1) ++ shd.map (fun k => (4 * k, condSHD))
  let falls := fx.falls.filter (fun c => !fx.bad c.1)
  let again := good.all (fun t => fx.again.contains t) && !act.isEmpty
  { w1 with
    sculls := imap w1.sculls (fun k x => x.conditions k iss.pc.toNat conds falls)
    threads := imap w1.threads (fun t x => if act.contains t then { x with noMatch := false } else x)
    early := w1.earlyAfter iss (fx.wr.map (·.key))
    stroke := if again then w1.stroke else w1.stroke + 1
    sinceMark := if again then w1.sinceMark else w1.sinceMark + 1 }

/-- The threads that a control transfer of the group takes. -/
def Issue.moved (iss : Issue) : List Nat := iss.fx.jumps.map (·.1) ++ iss.fx.rets.map (·.1)
/-- The crew's threads and paths after its group (R73, R76): `pends` the causes to deliver, `goes` where each thread goes on, `hold` the
threads that stay with a cause, `parked` and `gone` those that are parked and that exit. -/
def Crew.moveOn (w : Crew) (iss : Issue) (pends : List (Nat × Pend)) (goes : List (Nat × Goal)) (hold parked gone : List Nat) : Crew :=
  let move (t : Nat) (x : Thread) : Thread :=
    let th := match List.find? (fun (q : Nat × Pend) => q.1 == t) pends with | some q => { x with pend := some q.2 } | none => x
    if gone.contains t then { th with live := false, pend := none, hlvl := 0 } else th
  let go (k : Nat) (x : Scull) : Scull :=
    if iss.parts.contains k then
      (match x.run with
       | some path => { (x.split k path iss.pc.toNat goes iss.moved hold).refill with pkmask := x.pkmask ||| scullMask k parked }
       | none => x)
    else x
  ({ w with
    threads := imap w.threads move
    slot0 := w.slot0 - (w.slot0 &&& maskOf gone)
    slot1 := w.slot1 - (w.slot1 &&& maskOf gone)
    sculls := imap w.sculls go } : Crew).checkPart.replayStop

/-- Where a thread goes on that raised no cause. -/
def Issue.goal (iss : Issue) (w : Crew) (t : Nat) : Goal :=
  let fx := iss.fx
  let dest : Nat := match fx.jumps.find? (fun j => j.1 == t) with | some j => j.2.toNat | none => iss.next.toNat
  match fx.rets.find? (fun r => r.1 == t) with
  | some r => ⟨dest, r.2, true⟩
  | none => ⟨if fx.again.contains t then iss.pc.toNat else dest, match (w.scull (t / 4)).run with | some p => p.fmtr | none => w.fmtr, false⟩

/-- One instruction raises its completion flag once (R44): of the entries that its quarters make, the last counts it. -/
def flagOnce : List MOp → List MOp
  | [] => []
  | .entry q e ts wit :: ops =>
    let later (op : MOp) : Bool := match op with | .entry _ f _ _ => f.src == e.src | _ => false
    .entry q (if ops.any later then { e with flag := none } else e) ts wit :: flagOnce ops
  | op :: ops => op :: flagOnce ops
/-- Issue what a committed group brings beside its crew's registers: the paths chosen, operations in slot order, and what is logged while
the crew records (R286). -/
def State.groupOps (s : State) (iss : Issue) (slot : Nat) (w : Crew) : State :=
  let fx := iss.fx
  let u := iss.unit
  let s := iss.parts.foldl (fun s k => s.logRunning u slot w k) s
  let ops := if w.replay.isSome then [] else flagOnce (fx.ops.filterMap (MOp.keep fx.bad))
  let base := s.opBase u
  let s := ops.foldl (fun s op => s.issueOp base u (.crew slot) w.gid op) s
  let s := (ops.flatMap MOp.witKeys).foldl (fun s k => s.logReg u slot w.stroke k) s
  fx.log.foldl (fun s e => s.logValue u slot e.2.2 w.stroke e.1 e.2.1) s

/-- A cause that a speculative run defers (R202). -/
def Crew.defers (w : Crew) (r : Raise) : Bool := w.enm && !w.cert && decide (0x10 ≤ r.cause ∧ r.cause ≤ 0x17)

/-- Commit the issue group of a crew thread by thread (R42): register writes, conditions, operations in slot order,
the paths after it (R73, R76), its stroke (R283), single steps (R291), and the causes raised (R243). -/
def State.commitCrew (s : State) (iss : Issue) (slot : Nat) (w : Crew) : State :=
  let fx := iss.fx
  let u := iss.unit
  let g := (s.core u).groups.get Group.blank w.gid
  let act := bitsOf 32 iss.mask
  let good := act.filter (fun t => !fx.bad t)
  let seat := slot / 12
  let s := (s.seatAfter u seat iss.go 14 (some slot)).wakeYields u slot iss.parts
  let w := w.stepDone.otherIssued true iss.parts
  let raised := act.filterMap (fun t => fx.causeOf t)
  let deferred := raised.filter w.defers
  let trapped := raised.filter (fun r => !w.defers r)
  let s := deferred.foldl (fun s r => s.deferFault u w (iss.pc.toNat + r.mem) r) s
  let shd := s.shadowFaults g iss
  let w2 := w.afterGroup iss good shd
  let s := (s.modCrew u slot (fun _ => w2)).groupOps iss slot w
  let s := s.charge 0 (4 * u + seat) (fx.suspects + 16 * shd.length)
  -- single steps of the committing threads
  let stays := good.filter (fun t => !fx.gone.contains t && !fx.parks.contains t)
  let stepped := if bitAt w.dbgctl.toNat 8 then stays.filter (fun t => (w.thread t).hlvl == 0 && !fx.again.contains t) else []
  let pends : List (Nat × Pend) := trapped.map (fun r => (r.t, s.pendOf iss w r iss.next.toNat)) ++
    stepped.map (fun t => (t, s.pendOf iss w ⟨t, 0x32, 0, 0, true, 0⟩ (iss.goal w t).pc))
  let goes := (stays.filter (fun t => !stepped.contains t)).map (fun t => (t, iss.goal w t))
  let parked := fx.parks.filter (fun t => good.contains t) ++ deferred.map (·.t)
  let gone := fx.gone.filter (fun t => good.contains t)
  let s := if w.enm then s.zeroLogs u w gone else s
  let s := s.modCrew u slot (fun w => w.moveOn iss pends goes (trapped.map (·.t) ++ stepped) parked gone)
  let s := { s with issue := none }
  let s := if w.halt = .requested then s.push (.haltComplete u slot) else s
  let s := if w2.stroke ≥ 2 ^ w2.plog then s.pushNext (.pieceBoundary u slot) else s
  let s := if pends.isEmpty then s else s.push (.trapDelivery u slot)
  if gone.isEmpty && parked.isEmpty then s else s.afterExit u slot

/-- Commit the instruction of a cox context (R82); a cause stops the context and goes to crew 0 (R83). -/
def State.commitCox (s : State) (iss : Issue) (gid : Nat) : State :=
  let fx := iss.fx
  let u := iss.unit
  match fx.raises with
  | r :: _ =>
    let p : Pend := { cause := r.cause, sub := r.sub, faddr := r.faddr, rpc := iss.pc, pc := iss.pc, instr := s.memberWord iss r.mem, issue := iss.id,
                      stroke := 0, grp := decide (iss.nmem ≥ 2), mem := r.mem, ganged := true, waited := false, cox := true }
    { (s.modGroup u gid (fun g => { g with cox := g.cox.map (fun x => { x with stopped := true, trap := some p }) })) with issue := none }
  | [] =>
    let s := s.applyWrites u (.cox gid) fx.wr
    let base := s.opBase u
    let s := fx.ops.foldl (fun s op => s.issueOp base u (.cox gid) gid op) s
    let npc := match fx.jumps with | j :: _ => j.2 | [] => iss.next
    let s := s.modGroup u gid (fun g => { g with cox := g.cox.bind (fun x =>
      if fx.gone.isEmpty then some { x with pc := npc, inLine := x.inLine && fx.jumps.isEmpty && decide (lineOf npc.toNat = lineOf x.pc.toNat ∧ npc.toNat > x.pc.toNat), wait := .none, begun := false } else none) })
    { s with issue := none }

/-- Commit the group in flight. -/
def State.commit (s : State) (iss : Issue) : State :=
  match iss.who with
  | .crew slot => match s.crew? iss.unit slot with | some w => s.commitCrew iss slot w | none => { s with issue := none }
  | .cox gid => s.commitCox iss gid

/-- A cause in every active thread of the issue, but for those in which a breakpoint has matched before it (R243). Causes that earlier
members raised give way to it (DESIGN CHOICE, log entry 49: R243 orders the causes of one instruction only). -/
def Issue.causeFx (iss : Issue) (cause sub faddr mem : Nat) : Fx :=
  let hits := iss.fx.raises.filter (fun r => r.cause == 0x30 && decide (r.sub < 8))
  { Fx.empty with
    raises := hits ++ ((bitsOf 32 iss.mask).filter (fun t => !hits.any (fun r => r.t == t))).map (fun t => ⟨t, cause, sub, faddr, false, mem⟩) }
/-- The group runs over its members again, with the threads in which a member raised a cause predicated off from the first one on. -/
def Issue.rerun (iss : Issue) : Issue :=
  { iss with
    words := iss.group
    cur := iss.group.headD 0
    idx := 0
    off := maskOf (iss.fx.raises.map (·.t))
    fx := { Fx.empty with raises := iss.fx.raises } }
/-- Threads raised a cause that still took part in earlier members (R42). -/
def Issue.mustRerun (iss : Issue) : Bool := decide (iss.nmem ≥ 2) && maskOf (iss.fx.raises.map (·.t)) != iss.off
/-- A member ends with its effects: after its last member the group commits (R40), or, where threads raised a cause in it, runs again
without them (R42). -/
def emit (s : State) (fx : Fx) : Host.Outcome State Fault Refusal :=
  match s.issue with
  | none => .fault .notIssuing
  | some iss =>
    let iss := { iss with fx := iss.fx.append fx }
    if !iss.words.isEmpty then .next { s with issue := some iss }
    else if iss.mustRerun then .next { s with issue := some iss.rerun }
    else .next (s.commit iss)

/-- Run a meaning on the issue in flight. -/
def withView (s : State) (f : View → Host.Outcome State Fault Refusal) : Host.Outcome State Fault Refusal :=
  match s.view with
  | none => .fault .notIssuing
  | some v => f v

/-- A member raises the same cause in every one of the threads. -/
def raiseAll (v : View) (ts : List Nat) (cause sub faddr : Nat) (next : Bool := false) : Fx :=
  { Fx.empty with raises := ts.map (fun t => ⟨t, cause, sub, faddr, next, v.iss.idx⟩) }
/-- Where the member in flight issues; until its operations are stamped, `ord` is the member's number. -/
def View.site (v : View) : Site := ⟨v.iss.pc, v.iss.cur, decide (v.iss.nmem ≥ 2), v.crew.stroke, 0, v.iss.idx⟩
/-- The cause of a located access of thread t. -/
def raiseAt (v : View) (t : Nat) (f : AFault) : Raise := ⟨t, f.1, f.2.1, f.2.2, false, v.iss.idx⟩

/-- The instruction has issued and waits; other waits hold it back before its issue. -/
def Wait.started : Wait → Bool
  | .none | .fetch _ | .regs _ | .full _ | .stall | .tile _ | .blade | .read | .trap => false
  | .flags _ | .ops _ _ _ _ _ | .wit _ _ | .queue _ _ | .bar _ _ _ _ _ _ | .bara _ _ _ | .regang | .claim _ | .mwait _ _ _ | .sltake _ | .join | .bltake | .catch _
  | .command | .over _ _ => true
/-- A wait that ends what loads of the thread may be read ahead of: a witness wait, a fence, and what stores (R171). -/
def Wait.orders : Wait → Bool
  | .wit _ _ | .ops _ _ _ _ _ | .sltake _ | .join => true
  | _ => false
/-- The crew whose group waits: a release for one issue stays with the group that has issued until it ends (R292, R296). -/
def Crew.stepWait (w : Crew) (iss : Issue) (wt : Wait) : Crew :=
  if w.inStep && wt.started then { w with halt := .stepping iss.parts iss.pc } else w
/-- The issue is held back: its paths wait at the group's PC and nothing of it takes effect. -/
def block (s : State) (w : Wait) : Host.Outcome State Fault Refusal :=
  match s.issue with
  | none => .fault .notIssuing
  | some iss =>
    match iss.who with
    | .crew slot =>
      let seat := slot / 12
      let s := if w.started then (s.seatAfter iss.unit seat iss.go 14 (some slot)).wakeYields iss.unit slot iss.parts else s.seatAfter iss.unit seat iss.stall w.leaf none
      .next { s.modCrew iss.unit slot (fun c =>
        (iss.parts.foldl (fun (c : Crew) k =>
          let x := c.scull k
          c.setScull k { x with run := x.run.map (fun p =>
            { p with wait := w, issued := if w.started then p.mask else p.issued, since := (s.core iss.unit).ccyc }) })
          { c with early := if w.orders then [] else c.early }).stepWait iss w) with issue := none }
    | .cox gid => .next { (s.modGroup iss.unit gid (fun g => { g with cox := g.cox.map (fun x => { x with wait := w, begun := x.begun || w.started }) })) with issue := none }

/-! Taking a precise cause: the shared operations of R239 to R243, R246 and R247. -/

/-- The frame of R240 for a delivery. `c` is the crew at delivery, `ts` its TMASK, `slotNo` the save slot used. -/
def frameBytes (u slot : Nat) (w : Crew) (p : Pend) (ts : List Nat) (fmtr : Word) (slotNo : Nat) (waited : Bool) : List Byte :=
  let k := ts.headD 0 / 4
  let x := w.scull k
  let who := maskOf ts * 2 ^ 32 + u * 2 ^ 20 + (if p.cox then 15 else k) * 2 ^ 16 + slot * 2 ^ 8 + w.cnum
  let flags := (if w.parted then 2 ^ 15 else 0) + (if p.grp then 2 ^ 14 else 0) + (if waited then 2 ^ 10 else 0) + slotNo * 2 ^ 9 +
    (if p.cox then 2 ^ 8 else 0) + x.fstat.toNat
  [p.sub * 2 ^ 32 + p.cause, who, p.pc.toNat, p.instr.toNat % 2 ^ 64, p.instr.toNat / 2 ^ 64, p.faddr, x.losspc.toNat, p.stroke, flags, p.rpc.toNat,
   fmtr.toNat, 0, 0, 0, 0, 0].flatMap (bytesOf 8)

/-- The threads of a crew at handler level h that hold the same cause from the same issue (R243). Threads whose subcode or FADDR differ count as holding
the same cause: their frame carries those of the thread whose delivery is due (DESIGN CHOICE, log entry 53). -/
def Crew.sameCause (w : Crew) (p : Pend) (h : Nat) : List Nat :=
  (List.range 32).filter (fun t => match (w.thread t).pend with | some q => q.cause == p.cause && q.issue == p.issue && q.cox == p.cox && (w.thread t).hlvl == h | none => false)
/-- The next delivery: lowest scull, then lowest cause code within it (R243), over threads whose save slot is free. -/
def Crew.nextDelivery (w : Crew) : Option Nat :=
  let ready (t : Nat) : Bool := (w.thread t).pend.isSome && (match (w.thread t).hlvl with | 0 => w.slot0 == 0 | 1 => w.slot1 == 0 | _ => true)
  let key (t : Nat) : Nat := t / 4 * 256 + (match (w.thread t).pend with | some p => p.cause | none => 0)
  match (List.range 32).filter ready with
  | [] => none
  | t :: ts => some (ts.foldl (fun b q => if key q < key b then q else b) t)

/-- The FMTR copy of the path that holds thread t. -/
def Crew.pathFmtr (w : Crew) (t : Nat) : Word :=
  let x := w.scull (t / 4)
  match x.run with
  | some p => if bitAt p.mask (t % 4) then p.fmtr else ((x.stack.find? 0).map (·.fmtr)).getD p.fmtr
  | none => w.fmtr
def pathOfThread (x : Scull) (j : Nat) : Option Path :=
  match x.run with
  | some p => if bitAt p.mask j then some p else (List.find? (fun e => bitAt e.2.mask j) x.stack).map (·.2)
  | none => (List.find? (fun e => bitAt e.2.mask j) x.stack).map (·.2)

/-- Take threads out of every path of a scull; emptied paths are discarded. -/
def Scull.remove (x : Scull) (mask : Nat) : Scull :=
  let cut (m : Nat) : Nat := m - (m &&& mask)
  { x with run := x.run.bind (fun p => if cut p.mask = 0 then none else some { p with mask := cut p.mask })
           stack := x.stack.filterMap (fun e => if cut e.2.mask = 0 then none else some (e.1, { e.2 with mask := cut e.2.mask })) }
/-- Add a path to a scull under R73: the one with the lower PC runs. -/
def Scull.join (x : Scull) (p : Path) : Scull :=
  match x.run with
  | none => { x with run := some p }
  | some r => if p.pc.toNat < r.pc.toNat then ({ x with run := some p } : Scull).pushPath r else x.pushPath p

/-- Bytes of the core written at once: at their homes, and in the core's L1 view where they lie in L1 space. Bytes of replicated pages and
of other modules take the steps of their event. -/
def State.putThrough (s : State) (u : Nat) (p : Piece) (bs : List Byte) : State :=
  let ws := imap bs (fun i b => (p.ha + i, b))
  match p.dest with
  | .l1 =>
    (ws.foldl (fun s q => s.putL1 u q.1 (fun old => ⟨q.2, [], fillOf s.free old⟩)) (s.writeHome ws)).modCore u (fun c =>
      { c with l1poison := c.l1poison.filter (fun w => !(wholeWords ws).contains w) })
  | .home => s.writeHome ws
  | _ => s
/-- Threads of a scull become the path `p` (R241): formed under R73 from the running path, else beside it. -/
def Scull.toHandler (x : Scull) (mask : Nat) (p : Path) : Scull :=
  let y := x.remove mask
  match x.run, y.run with
  | some r, some _ => if r.mask &&& mask = 0 then y.pushPath p else y.join p
  | _, none => { y with run := some p }
  | none, some _ => y.pushPath p

/-- A store of the core by a step of the machine (frames at cluster scope, R239; trace records at system scope, R284), as one event: bytes in L1 space enter the L1 view and go
through to their homes at once; where it has others its number is answered too, and it stays in the origin's buffer until they are home. -/
def State.coreStore (s : State) (u gid scope : Nat) (ps : List (Piece × List Byte)) : State × Option Nat :=
  let x := s.origin u
  let seq := x.next
  let rest : List SByte := (ps.filter (fun p => p.1.dest == .repl || p.1.dest == .remote)).flatMap (fun p =>
    imap p.2 (fun i b => ⟨p.1.ha + i, b, p.1.dest⟩))
  let s := (s.setOrigin u { x with cnt := seq, pend := if rest.isEmpty then x.pend else x.pend ++ [ownEvent seq scope rest] }).noteEvent u gid seq
  (ps.foldl (fun s p => s.putThrough u p.1 p.2) s, if rest.isEmpty then none else some seq)

/-- Locate `k` chunks of 8 bytes from a virtual address (frames, records). -/
def State.locChunks (s : State) (cl ctx va : Nat) (p : Perm) : Nat → Except AFault (List Piece)
  | 0 => .ok []
  | k + 1 =>
    match s.locGlobal cl ctx (va % 2 ^ 64) 8 p with
    | .error f => .error f
    | .ok ps => match s.locChunks cl ctx (va + 8) p k with | .error f => .error f | .ok qs => .ok (ps ++ qs)
/-- Split bytes over pieces in order. -/
def zipPieces : List Piece → List Byte → List (Piece × List Byte)
  | [], _ => []
  | p :: ps, bs => (p, bs.take p.n) :: zipPieces ps (bs.drop p.n)

/-- The run of a group fails (R181): its first failure stands. -/
def State.failRun (s : State) (graph run node status : Nat) : State :=
  let g := s.graph graph
  match g.run with
  | some r => if r.seq = run ∧ r.status = 0 then s.setGraph graph { g with run := some { r with status := status, failNode := node } } else s
  | none => s

/-- Kill a crew (R247): its frame goes to slot 0 if it can be written and to the kill report (R306); every thread exits,
sibling crews are marked abandoned, its run fails with status 5. -/
def State.kill (s : State) (u slot : Nat) (frame : List Byte) (array owner pa : Nat) : State :=
  match s.crew? u slot with
  | none => s
  | some w =>
    let g := (s.group? u w.gid).getD Group.blank
    let s := match s.locChunks (clusterOf u) g.ctx (frbase g.hdr w.pos) .store 16 with
      | .ok ps => (s.coreStore u w.gid 1 (zipPieces ps frame)).1
      | .error _ => s
    let report := frame ++ bytesOf 8 (g.node + g.graph * 2 ^ 16 + g.ctx * 2 ^ 24 + array * 2 ^ 32 + owner * 2 ^ 40) ++ bytesOf 8 pa ++ bytesOf 8 g.run ++ bytesOf 8 0
    let s := { s with iod := { s.iod with kills := s.iod.kills ++ [report] }, monitors := s.monitors.filter (fun m => !(m.unit == u && m.slot == slot)) }
    let s := if w.enm then s.zeroLog u w else s
    let s := s.modCrew u slot (fun w => { w with
      threads := w.threads.map (fun t => { t with live := false, pend := none, bara := [] })
      sculls := w.sculls.map (fun x => { x with run := none, stack := [], pkmask := 0 })
      killed := true
      enm := false })
    let s := s.modCore u (fun c => { c with
      crews := c.crews.map (fun p => if p.2.gid == w.gid && p.1 != slot then (p.1, { p.2 with abandoned := true }) else p)
      claims := c.claims.filter (· != slot)
      bladeWait := c.bladeWait.filter (· != slot) })
    (s.failRun g.graph g.run g.node 5).afterExit u slot

/-- The line of a home key has a copy in the cluster of a core, from which its reads are served (R151). -/
def State.hasCopy (s : State) (u ha : Nat) : Bool := (s.copies.find? (clusterOf u * 2 ^ 40 + ha / 128)).isSome
/-- The owner of an array (R306): the core, a vault, a slice after remapping, or a pseudo-channel. A read served by a copy of a replicated
line names the slice that holds the copy; of a word of another module the slice is a free value (log entry 7). -/
def State.owner (s : State) (u array ha : Nat) : Nat :=
  match array with
  | 6 => 48 * ((ha - 2 ^ 40) / 2 ^ 27) + ha % 2 ^ 27 / 0x200000
  | 7 => if ha ≥ 2 ^ 56 then Config.remoteOwner s.free % 768 else let n := if s.hasCopy u ha then clusterOf u else homeCluster ha; 64 * n + (s.cluster n).slices.getD (homeSlice ha) 0
  | 10 => (ha - 2 ^ 42) / 2 ^ 20
  | _ => u
/-- A crew's operations issued after `src` take no effect (R315): they have not begun (`poisonAhead`). -/
def State.dropLater (s : State) (u slot : Nat) (src : Site) : State :=
  let x := s.origin u
  let c := s.core u
  let mine (w : Option Who) : Bool := w == some (.crew slot)
  let entries := c.queues.flatMap (fun q => (q.filter (fun e => mine (some e.who) && !e.begun && decide (e.src.ord > src.ord))).map (·.id))
  let heldBy (seq : Nat) : Bool :=
    c.atoms.any (fun a => mine (some a.2.who) && a.2.seq == some seq && decide (a.2.src.ord > src.ord)) ||
    c.queues.any (fun q => q.any (fun e => entries.contains e.id && (match e.kind with | .tst _ _ ss => ss.contains seq | _ => false)))
  let late (e : StoreEv) : Bool := mine e.who && x.after src.cnt e.seq && (if e.held then heldBy e.seq else !e.entered && e.locks == 0)
  let s := { s with pushes := s.pushes.filter (fun p => !(p.2.unit == u && p.2.slot == some slot && decide (p.2.ord > src.ord))) }
  (s.setOrigin u { x with pend := x.pend.filter (fun e => !late e) }).modCore u (fun c => { c with
    atoms := c.atoms.filter (fun a => !(mine (some a.2.who) && decide (a.2.src.ord > src.ord)))
    queues := c.queues.map (fun q => q.filter (fun e => !entries.contains e.id)) })
/-- A kill of a crew at `src` waits: its frame is a store event of the core, whose counter runs too far ahead of what the kill leaves (R158). -/
def State.killWaits (s : State) (u slot : Nat) (src : Option Site) : Bool :=
  ((match src with | some x => s.dropLater u slot x | none => s).origin u).stalls
/-- The word of the slot at a PC in the core's instruction cache. -/
def State.wordAt (s : State) (u ctx pc : Nat) : Slot :=
  match (s.core u).icache.find? (lineKey ctx pc) with
  | some bs => BitVec.ofNat 96 (natOfBytes ((bs.drop (4 + 12 * slotOf pc)).take 12))
  | none => 0
/-- A crew consumes poison in the threads `ts` (R304): it is killed with cause POISON. The frame names the consuming instruction, where
`src` gives it, else the one at the threads' PC. -/
def State.poisonKill (s : State) (u slot : Nat) (src : Option Site) (ts : List Nat) (array faddr pa : Nat) : State :=
  match s.crew? u slot with
  | none => s
  | some w =>
    if w.killed || w.exited then s
    else
      let t := ts.headD 0
      let path := pathOfThread (w.scull (t / 4)) (t % 4)
      let pc := (path.map (·.pc)).getD 0
      let x : Site := src.getD ⟨pc, s.wordAt u ((s.group? u w.gid).getD Group.blank).ctx pc.toNat, false, w.stroke, 0, 0⟩
      let p : Pend :=
        { cause := 0x18, sub := array, faddr := faddr, rpc := 0, pc := x.pc, instr := x.instr, issue := 0, stroke := x.stroke, grp := x.grp,
          mem := 0, ganged := !w.parted, waited := false, cox := false }
      let s := match src with | some x => s.dropLater u slot x | none => s
      s.kill u slot (frameBytes u slot w p ts ((path.map (·.fmtr)).getD w.fmtr) 0 false) array (s.owner u array pa) (if pa < 2 ^ 40 then pa else 0)

/-- A line at a PC can be entered as a branch target (R47), with its fetch permission (R241). -/
def lineWord (bs : List Byte) : Nat := natOfBytes (bs.take 4)
/-- The first slot of the issue group that holds slot i, by the pairing template (R39). -/
def groupStart (tmpl : Nat) : Nat → Nat
  | 0 => 0
  | i + 1 => if bitAt tmpl i then groupStart tmpl i else i + 1
/-- The last slot of the issue group that holds slot i. -/
def groupEndFrom (tmpl : Nat) : Nat → Nat → Nat
  | 0, i => i
  | fuel + 1, i => if i < 4 ∧ bitAt tmpl i then groupEndFrom tmpl fuel (i + 1) else i
def groupLast (tmpl i : Nat) : Nat := groupEndFrom tmpl 5 i

/-- The line's parity fails (R36). -/
def parityBad (bs : List Byte) : Bool :=
  let lw := lineWord bs
  popCount 31 lw % 2 != 0 || ((if bitAt lw 31 then 1 else 0) + popCount 480 (natOfBytes (bs.drop 4))) % 2 != 0
/-- Where code is read from: never the L1 (R63). -/
def codeDest (d : Dest) : Dest := if d == .l1 then .home else d
/-- A line of code that cannot be read: a fault, or an uncorrectable line with its array and home word (R37, R304). -/
inductive LineStop where
  | fault (f : AFault)
  | dead (array home : Nat)
  deriving DecidableEq, Repr
/-- The line of code at an address: as held in the instruction cache, else as it lies at its home. -/
def State.codeLine (s : State) (u ctx line : Nat) : Except LineStop (List Byte) :=
  match (s.core u).icache.find? (lineKey ctx line) with
  | some bs => .ok bs
  | none =>
    match s.xlate (clusterOf u) ctx line .fetch with
    | .error (c, sub) => .error (.fault (c, sub, line))
    | .ok l =>
      let bs := s.readBytes u (codeDest l.dest) l.ha 64
      match s.marked u false (codeDest l.dest) l.ha 64 with
      | some m => .error (.dead m.1 m.2)
      | none => if parityBad bs then .error (.dead 4 l.ha) else .ok bs

/-- The target check of R47: a cause with its subcode. A line that cannot be read is met at the target instead. -/
def State.badTarget (s : State) (u ctx : Nat) (pc : Nat) : Option (Nat × Nat) :=
  if pc / 2 ^ 56 ≠ 0 then some (0x12, 0)
  else if bitsAt pc 3 3 ≠ 0 ∨ pc % 8 ≥ 5 then some (0x03, 2)
  else match s.codeLine u ctx (lineOf pc) with
    | .error _ => none
    | .ok bs =>
      let lw := lineWord bs
      if !bitAt lw (pc % 8) then some (0x03, 0)
      else if groupStart (bitsAt lw 5 4) (pc % 8) ≠ pc % 8 then some (0x03, 1)
      else none

/-- The oldest waiting stop report goes to DMB48 to DMB50 once DMB63 is zero, and raises the host debug interrupt (R295). -/
def State.postReport (s : State) : State :=
  match s.iod.reports with
  | [] => s
  | r :: rest =>
    if s.iod.dmb.getD 63 0 != 0 then s
    else { s with iod := { s.iod with
      reports := rest
      dmb := setNth (setNth (setNth (setNth s.iod.dmb 48 (loWord r.1)) 49 (hiWord r.1)) 50 r.2) 63 1
      dbgIrq := s.iod.dbgIrq + 1 } }

/-- The handler path of a delivery (R241): the threads `ts` go to TBASE with their level one higher, and wait there until the frame's event
`seq`, if it is not home yet, is performed (R239). -/
def Crew.toHandler (w : Crew) (ts : List Nat) (h : Nat) (seq : Option Nat) : Crew :=
  let path (x : Scull) (k : Nat) : Path :=
    { pc := w.tbase, mask := scullMask k ts
      fmtr := match pathOfThread x ((ts.filter (fun t => t / 4 == k)).headD 0 % 4) with | some r => r.fmtr | none => w.fmtr
      age := 0, inLine := false, wait := match seq with | some q => .ops 5 [] [2 * q + 1] [] [] | none => .none
      issued := 0, since := 0 }
  ({ w with
    threads := imap w.threads (fun t x => if ts.contains t then { x with hlvl := h + 1 } else x)
    early := []
    slot0 := if h = 0 then maskOf ts else w.slot0
    slot1 := if h = 1 then maskOf ts else w.slot1
    sculls := imap w.sculls (fun k x => if scullMask k ts = 0 then x else x.toHandler (scullMask k ts) (path x k)) } : Crew).checkPart
/-- The threads' cause is no longer pending. -/
def Crew.clearPend (w : Crew) (ts : List Nat) : Crew :=
  { w with threads := imap w.threads (fun t x => if ts.contains t then { x with pend := none } else x) }
/-- The sculls of the threads stop where they are (R246, R293). -/
def Crew.stopSculls (w : Crew) (ts : List Nat) : Crew :=
  { w with sculls := imap w.sculls (fun k x => if scullMask k ts = 0 then x else { x with stopped := true }) }
/-- A stop in the system context (R246): the save slot is busy, the threads go on at the frame's resume PC once they are let go, and their sculls
stop, or the whole crew where it was ganged. -/
def Crew.stopped (w : Crew) (p : Pend) (ts : List Nat) (h : Nat) : Crew :=
  let w := { w.clearPend ts with
    slot0 := if h = 0 then maskOf ts else w.slot0
    slot1 := if h = 1 then maskOf ts else w.slot1 }
  let w := { w with threads := imap w.threads (fun t x => if ts.contains t then { x with resume := some p.rpc } else x) }
  if p.ganged then { w with halt := .requested } else w.stopSculls ts
/-- The cause as one delivery to the threads reports it: with the word of the lowest-numbered member that raised it (R42, R240). -/
def Crew.causeFor (w : Crew) (p : Pend) (ts : List Nat) : Pend :=
  ts.foldl (fun p t => match (w.thread t).pend with | some q => if q.mem < p.mem then { p with mem := q.mem, instr := q.instr } else p | none => p) p
/-- Deliver one cause to the threads `ts` of a crew (R241): the frame into the save slot HLVL names, then the handler path at
TBASE, HLVL up by one. Fatal deliveries kill (R247), also in the system context, where else the scull, and a ganged crew with it, halts and the
stop is reported (R246, R295). A replaying crew writes no frame and no report (R288). -/
def State.deliver (s : State) (u slot : Nat) (p : Pend) (ts : List Nat) : State :=
  match s.crew? u slot with
  | none => s
  | some w =>
    let g := (s.group? u w.gid).getD Group.blank
    let t := ts.headD 0
    let h := (w.thread t).hlvl
    let p := w.causeFor p ts
    let fmtr := match pathOfThread (w.scull (t / 4)) (t % 4) with | some q => q.fmtr | none => w.fmtr
    let frame (n : Nat) : List Byte := frameBytes u slot w p ts fmtr n p.waited
    let addr := frbase g.hdr w.pos + 128 * h
    let stored := s.locChunks (clusterOf u) g.ctx addr .store 16
    let live := w.replay.isNone
    if h ≥ 2 then s.kill u slot (frame 0) 0 u 0
    else match stored with
      | .error _ => s.kill u slot (frame 0) 0 u 0
      | .ok ps =>
        let r := if live then s.coreStore u w.gid 1 (zipPieces ps (frame h)) else (s, none)
        if g.ctx = 0 then
          let rep : DWord × Word := (BitVec.ofNat 64 addr, BitVec.ofNat 32 (u * 2 ^ 20 + (if p.cox then 15 else t / 4) * 2 ^ 16 + slot * 2 ^ 8))
          let s := if live then ({ r.1 with iod := { r.1.iod with reports := r.1.iod.reports ++ [rep] } } : State).postReport else r.1
          let s := s.modCrew u slot (fun w => w.stopped p ts h)
          if p.ganged then s.push (.haltComplete u slot) else s
        else
          let target := w.tbase.toNat
          match r.1.codeLine u g.ctx (lineOf target) with
          | .error (.dead array pa) =>
            if target = 0 ∨ pcBad target = true then r.1.kill u slot (frame 0) 0 u 0 else r.1.poisonKill u slot none ts array (lineOf target) pa
          | .error (.fault _) => r.1.kill u slot (frame 0) 0 u 0
          | .ok _ =>
            if target = 0 ∨ (r.1.badTarget u g.ctx target).isSome then r.1.kill u slot (frame 0) 0 u 0
            else r.1.modCrew u slot (fun w => (w.clearPend ts).toHandler ts h r.2)

/-- Threads that leave a handler free their save slot when no thread of its TMASK is left in it (R242). -/
def Crew.leaveSlot (w : Crew) (ts : List Nat) (h : Nat) : Crew :=
  let cut (m : Nat) : Nat := m - (m &&& maskOf ts)
  if h = 0 then w else if h = 1 then { w with slot0 := cut w.slot0 } else { w with slot1 := cut w.slot1 }

/-- The return of one thread from its handler (R242): its scull's FSTAT is STICKY and HLVL falls; its path is formed when the
ERET commits. `sticky` is the frame's as it stands in memory. -/
def Crew.returnThread (w : Crew) (t : Nat) (sticky : BitVec 7) (noMatch : Bool) : Crew :=
  let th := w.thread t
  let x := w.scull (t / 4)
  let x := { x with fstat := sticky, losspc := if bitAt sticky.toNat 5 then x.losspc else 0 }
  ((w.setScull (t / 4) x).setThread t { th with hlvl := th.hlvl - 1, noMatch := noMatch }).leaveSlot [t] th.hlvl


end Sys2Proof.Machine
end

