-- ==== Sys2Proof/Machine/Int.lean ====
section
/-! DEFINITION. Integer, logic, shift, bit-field, select and move instructions (R334, R341, R346, R384, R385, R401, R406, R410,
R412, R415, R423, R426, R441). -/
namespace Sys2Proof.Machine

/-- One 32-bit result with the integer tag for each thread the instruction runs for (R56, R99). -/
def setEach (v : View) (g : Guard) (d : Reg) (f : Nat → Word) : Fx :=
  { Fx.empty with wr := (v.lanes g d).flatMap (fun t => v.w1 t d (f t) intTag) }
/-- One 64-bit result, both registers with the integer tag. -/
def setEachPair (v : View) (g : Guard) (d : Reg) (f : Nat → DWord) : Fx :=
  { Fx.empty with wr := (v.lanes g d).flatMap (fun t => v.w2 t d (f t) intTag intTag) }

def run1 (s : State) (o : R1) (f : Word → Word) : Host.Outcome State Fault Refusal :=
  withView s (fun v => emit s (setEach v o.g o.d (fun t => f (v.val t o.a))))
def run2 (s : State) (o : R2) (f : Word → Word → Word) : Host.Outcome State Fault Refusal :=
  withView s (fun v => emit s (setEach v o.g o.d (fun t => f (v.val t o.a) (v.src t o.b).1)))
def run3 (s : State) (o : R3) (f : Word → Word → Word → Word) : Host.Outcome State Fault Refusal :=
  withView s (fun v => emit s (setEach v o.g o.d (fun t => f (v.val t o.a) (v.src t o.b).1 (v.val t o.c))))

/-- A word widened to 64 bits by its type: signed under TY 0, unsigned under TY 1 (R385). -/
def widen (ty : Ty) (x : Word) : DWord := if ty = .i32 then x.signExtend 64 else x.zeroExtend 64
/-- The order of a type: signed under TY 0 and 2 (R385, R420). -/
def ltBy (ty : Ty) (x y : Word) : Bool := if ty = .i32 then x.slt y else x.ult y
def minBy (ty : Ty) (x y : Word) : Word := if ltBy ty y x then y else x
def maxBy (ty : Ty) (x y : Word) : Word := if ltBy ty x y then y else x
/-- An integer predicate (R385). -/
def icmpHolds (cc : ICmp) (ty : Ty) (x y : Word) : Bool :=
  match cc with
  | .eq => x == y | .ne => x != y | .lt => ltBy ty x y | .le => !ltBy ty y x | .gt => ltBy ty y x | .ge => !ltBy ty x y
def boolWord (b : Bool) : Word := if b then 1 else 0
/-- A 64-bit second source of IADD64 and SEL.i64: a pair, or IMM32 extended by the type. -/
def View.src64 (v : View) (t : Nat) (b : Src) (signed : Bool) : DWord :=
  match b with | .reg r => v.pair t r | .imm w => if signed then w.signExtend 64 else w.zeroExtend 64

/-- A shift count: bits [5:0] of Src(B) (R423). -/
def shiftCount (b : Word) : Nat := b.toNat % 64
def shlWord (a b : Word) : Word := a <<< shiftCount b
def shrWord (a b : Word) : Word := a >>> shiftCount b
def sarWord (a b : Word) : Word := a.sshiftRight (shiftCount b)
/-- The top of the field that Src(B) describes: h = min(pos + len, 32) (R341). -/
def fieldTop (b : Word) : Nat := min (bitsAt b.toNat 0 5 + bitsAt b.toNat 8 6) 32
def fieldPos (b : Word) : Nat := bitsAt b.toNat 0 5
/-- BFX (R341). -/
def bfxWord (sx : Bool) (a b : Word) : Word :=
  let pos := fieldPos b
  let n := fieldTop b - pos
  if n = 0 then 0
  else if sx then BitVec.ofInt 32 (toSigned n (bitsAt a.toNat pos n)) else BitVec.ofNat 32 (bitsAt a.toNat pos n)
/-- BFI (R341). -/
def bfiWord (a b c : Word) : Word :=
  let pos := fieldPos b
  let n := fieldTop b - pos
  BitVec.ofNat 32 (c.toNat - bitsAt c.toNat pos n * 2 ^ pos + bitsAt a.toNat 0 n * 2 ^ pos)
/-- The number of zero bits above the highest one of the low `n` bits. -/
def leadZeros : Nat → Nat → Nat
  | 0, _ => 0
  | n + 1, x => if bitAt x n then 0 else 1 + leadZeros n x
/-- The low `n` bits in reverse order. -/
def revBits : Nat → Nat → Nat
  | 0, _ => 0
  | n + 1, x => x % 2 * 2 ^ n + revBits n (x / 2)

def execIadd (_ty : Ty) (o : R2) (s : State) : Host.Outcome State Fault Refusal := run2 s o (fun a b => a + b)
def execIadd64 (ty : Ty) (o : R2) (s : State) : Host.Outcome State Fault Refusal :=
  withView s (fun v => emit s (setEachPair v o.g o.d (fun t => v.pair t o.a + v.src64 t o.b (ty == .i64))))
def execIsub (_ty : Ty) (o : R2) (s : State) : Host.Outcome State Fault Refusal := run2 s o (fun a b => a - b)
def execImul (_ty : Ty) (o : R2) (s : State) : Host.Outcome State Fault Refusal := run2 s o (fun a b => a * b)
def execImulhi (ty : Ty) (o : R2) (s : State) : Host.Outcome State Fault Refusal := run2 s o (fun a b => hiWord (widen ty a * widen ty b))
def execImad (_ty : Ty) (o : R3) (s : State) : Host.Outcome State Fault Refusal := run3 s o (fun a b c => a * b + c)
def execImad64 (ty : Ty) (o : R3) (s : State) : Host.Outcome State Fault Refusal :=
  withView s (fun v => emit s (setEachPair v o.g o.d (fun t => widen ty (v.val t o.a) * widen ty (v.src t o.b).1 + v.pair t o.c)))
def execImin (ty : Ty) (o : R2) (s : State) : Host.Outcome State Fault Refusal := run2 s o (minBy ty)
def execImax (ty : Ty) (o : R2) (s : State) : Host.Outcome State Fault Refusal := run2 s o (maxBy ty)
def execIabs (o : R1) (s : State) : Host.Outcome State Fault Refusal := run1 s o (fun a => if a.msb then -a else a)
def execIneg (_ty : Ty) (o : R1) (s : State) : Host.Outcome State Fault Refusal := run1 s o (fun a => 0 - a)
def execIcmp (cc : ICmp) (ty : Ty) (o : R2) (s : State) : Host.Outcome State Fault Refusal := run2 s o (fun a b => boolWord (icmpHolds cc ty a b))
def execAnd (o : R2) (s : State) : Host.Outcome State Fault Refusal := run2 s o (fun a b => a &&& b)
def execOr (o : R2) (s : State) : Host.Outcome State Fault Refusal := run2 s o (fun a b => a ||| b)
def execXor (o : R2) (s : State) : Host.Outcome State Fault Refusal := run2 s o (fun a b => a ^^^ b)
def execNot (o : R1) (s : State) : Host.Outcome State Fault Refusal := run1 s o (fun a => ~~~a)
def execShl (o : R2) (s : State) : Host.Outcome State Fault Refusal := run2 s o shlWord
def execShr (o : R2) (s : State) : Host.Outcome State Fault Refusal := run2 s o shrWord
def execSar (o : R2) (s : State) : Host.Outcome State Fault Refusal := run2 s o sarWord
def execBfx (sx : Bool) (o : R2) (s : State) : Host.Outcome State Fault Refusal := run2 s o (bfxWord sx)
def execBfi (o : R3) (s : State) : Host.Outcome State Fault Refusal := run3 s o bfiWord
def execPopc (o : R1) (s : State) : Host.Outcome State Fault Refusal := run1 s o (fun a => BitVec.ofNat 32 (popCount 32 a.toNat))
def execClz (o : R1) (s : State) : Host.Outcome State Fault Refusal := run1 s o (fun a => BitVec.ofNat 32 (leadZeros 32 a.toNat))
def execBrev (o : R1) (s : State) : Host.Outcome State Fault Refusal := run1 s o (fun a => BitVec.ofNat 32 (revBits 32 a.toNat))

/-- A result of the type's width with the tag of each register (SEL, MOV, SHFL). -/
def View.wTy (v : View) (t : Nat) (wide : Bool) (d : Reg) (lo hi : Word × Tag) : List RegW :=
  if wide then v.w2 t d (joinPair lo.1 hi.1) lo.2 hi.2 else v.w1 t d lo.1 lo.2
/-- The two registers a value of a type occupies, with their tags; the second is not used by a narrow type. -/
def View.rTy (v : View) (t : Nat) (r : Reg) : (Word × Tag) × (Word × Tag) := (v.reg t r, v.reg t (regPlus r 1))

/-- SEL (R426). -/
def execSel (ty : Ty) (o : R3) (s : State) : Host.Outcome State Fault Refusal :=
  withView s (fun v => emit s { Fx.empty with wr := (v.lanes o.g o.d).flatMap (fun t =>
    let x := if bitAt (v.val t o.c).toNat 0 then v.rTy t o.a
      else match o.b with
        | .reg r => v.rTy t r
        | .imm w => ((w, intTag), (hiWord (w.signExtend 64), intTag))
    v.wTy t ty.wide o.d x.1 x.2) })
/-- MOV (R401): a value with its tags. -/
def execMov (ty : Ty) (o : R1) (s : State) : Host.Outcome State Fault Refusal :=
  withView s (fun v => emit s { Fx.empty with wr := (v.lanes o.g o.d).flatMap (fun t =>
    v.wTy t ty.wide o.d (v.rTy t o.a).1 (v.rTy t o.a).2) })
/-- MOVI (R406): TY 4 writes tag 0x60. -/
def execMovi (ty : Ty) (g : Guard) (d : Reg) (imm : Word) (s : State) : Host.Outcome State Fault Refusal :=
  withView s (fun v => emit s { Fx.empty with wr := (v.lanes g d).flatMap (fun t => v.w1 t d imm (if ty = .f32 then 0x60 else intTag)) })

end Sys2Proof.Machine
end

