-- ==== Sys2Proof/Machine/Float.lean ====
section
/-! DEFINITION. FP32, FP64 and packed-half arithmetic, conversion, and the significance instructions (R359 to R366, R372 to
R374, R383, R107). -/
namespace Sys2Proof.Machine

/-- The sum of the effects of a list of threads. -/
def fxAll (ts : List Nat) (f : Nat → Fx) : Fx := ts.foldl (fun a t => a.append (f t)) Fx.empty

/-- A floating member's effect for one thread: writes, conditions, and whether it falls below the floor (R104). -/
def floatFx (v : View) (t : Nat) (wr : List RegW) (conds : Conds) (fell : Bool) : Fx :=
  { Fx.empty with wr := wr, conds := if conds = 0 then [] else [(t, conds)], falls := if fell then [(t, v.iss.idx)] else [] }

/-! Operands. -/

def View.opd32 (_v : View) (x : Word × Tag) : Opd := ⟨fp32.value x.1.toNat, readTag 24 x.2⟩
/-- An FP64 operand from a pair: its tag is the even register's (R89). -/
def View.opd64 (v : View) (t : Nat) (r : Reg) : Opd := ⟨fp64.value (v.pair t r).toNat, readTag 53 (v.tag t r)⟩
/-- A second FP64 source: an immediate is the high word (R364). -/
def View.src64f (v : View) (t : Nat) (b : Src) : Opd :=
  match b with | .reg r => v.opd64 t r | .imm w => ⟨fp64.value (w.toNat * 2 ^ 32), ⟨53, 0⟩⟩
/-- One half of packed bits: under NBV = 1 a BF16 subnormal reads as zero (R128). -/
def halfBits (nbv : Nat) (f : Fmt) (hi : Bool) (x : Word) : Nat :=
  let h := if hi then x.toNat / 2 ^ 16 else x.toNat % 2 ^ 16
  if nbv = 1 ∧ f = bf16 then f.flush h else h
def halfOpd (nbv : Nat) (f : Fmt) (hi : Bool) (x : Word × Tag) : Opd := ⟨f.value (halfBits nbv f hi x.1), readHalf f.p hi x.2⟩

/-! Results. -/

def out32 (v : View) (t : Nat) (d : Reg) (o : FOut) : Fx :=
  floatFx v t (v.w1 t d (BitVec.ofNat 32 o.bits) o.tr.tag) o.conds (fallsBelow v.crew.sigfloor .f32 o.tr)
def out64 (v : View) (t : Nat) (d : Reg) (o : FOut) : Fx :=
  floatFx v t (v.w2 t d (BitVec.ofNat 64 o.bits) o.tr.tag oddTag) o.conds (fallsBelow v.crew.sigfloor .f64 o.tr)
/-- A packed result of two halves; `capped` says that an inexact half loses a bit (R96). -/
def outHalves (v : View) (t : Nat) (d : Reg) (lo hi : FOut) : Fx :=
  floatFx v t (v.w1 t d (BitVec.ofNat 32 (hi.bits * 2 ^ 16 + lo.bits)) (halfTag hi.tr lo.tr)) (lo.conds ||| hi.conds)
    (fallsBelow v.crew.sigfloor .half lo.tr || fallsBelow v.crew.sigfloor .half hi.tr)
/-- The tag of one half: no debt, capped at p − 1 when inexact (R96). -/
def FOut.capped (f : Fmt) (o : FOut) : FOut := { o with tr := capHalf f.p o.tr (bitAt o.conds.toNat 4) }

def f32un (s : State) (rm : Rnd) (o : R1) (f : Mode → Word × Tag → FOut) : Host.Outcome State Fault Refusal :=
  withView s (fun v => emit s (fxAll (v.lanes o.g o.d) (fun t => out32 v t o.d (f (modeOf rm (v.fmtr t)) (v.reg t o.a)))))
def f32bin (s : State) (rm : Rnd) (o : R2) (f : Mode → Opd → Opd → FOut) : Host.Outcome State Fault Refusal :=
  withView s (fun v => emit s (fxAll (v.lanes o.g o.d) (fun t =>
    out32 v t o.d (f (modeOf rm (v.fmtr t)) (v.opd32 (v.reg t o.a)) (v.opd32 (v.src t o.b))))))
/-- A unary FP32 member from a kernel. -/
def f32kernel (k : Mode → FVal → FRes) (mode : Mode) (x : Word × Tag) : FOut :=
  let a : Opd := ⟨fp32.value x.1.toNat, readTag 24 x.2⟩
  outUn fp32 (k mode a.v) a

def execFadd (rm : Rnd) (o : R2) (s : State) : Host.Outcome State Fault Refusal := f32bin s rm o (outAdd fp32)
def execFsub (rm : Rnd) (o : R2) (s : State) : Host.Outcome State Fault Refusal := f32bin s rm o (outSub fp32)
def execFmul (rm : Rnd) (o : R2) (s : State) : Host.Outcome State Fault Refusal := f32bin s rm o (outMul fp32)
def execFdiv (rm : Rnd) (o : R2) (s : State) : Host.Outcome State Fault Refusal := f32bin s rm o (outDiv fp32)
def execFfma (rm : Rnd) (o : R3) (s : State) : Host.Outcome State Fault Refusal :=
  withView s (fun v => emit s (fxAll (v.lanes o.g o.d) (fun t =>
    out32 v t o.d (outFma fp32 (modeOf rm (v.fmtr t)) (v.opd32 (v.reg t o.a)) (v.opd32 (v.src t o.b)) (v.opd32 (v.reg t o.c))))))
/-- FMIN and FMAX (R373). -/
def f32pick (s : State) (isMax : Bool) (o : R2) : Host.Outcome State Fault Refusal :=
  withView s (fun v => emit s (fxAll (v.lanes o.g o.d) (fun t =>
    let x := v.reg t o.a
    let y := v.src t o.b
    out32 v t o.d (outPick fp32 isMax x.1.toNat y.1.toNat (v.opd32 x) (v.opd32 y)))))
def execFmin (o : R2) (s : State) : Host.Outcome State Fault Refusal := f32pick s false o
def execFmax (o : R2) (s : State) : Host.Outcome State Fault Refusal := f32pick s true o
/-- What a compare raises (R366). -/
def cmpConds (a b : FVal) : Conds := if a.isSnan || b.isSnan then condNV else 0
def execFcmp (cc : FCmp) (o : R2) (s : State) : Host.Outcome State Fault Refusal :=
  withView s (fun v => emit s (fxAll (v.lanes o.g o.d) (fun t =>
    let a := fp32.value (v.val t o.a).toNat
    let b := fp32.value (v.src t o.b).1.toNat
    floatFx v t (v.w1 t o.d (boolWord (fcmpHolds cc a b)) intTag) (cmpConds a b) false)))
def execFsqrt (rm : Rnd) (o : R1) (s : State) : Host.Outcome State Fault Refusal := f32un s rm o (f32kernel fp32.sqrt)
def execFrcp (rm : Rnd) (o : R1) (s : State) : Host.Outcome State Fault Refusal := f32un s rm o (f32kernel fp32.rcp)
def execFrsq (rm : Rnd) (o : R1) (s : State) : Host.Outcome State Fault Refusal := f32un s rm o (f32kernel fp32.rsqrt)
def execFexp2 (rm : Rnd) (o : R1) (s : State) : Host.Outcome State Fault Refusal := f32un s rm o (f32kernel fp32.exp2)
def execFlog2 (rm : Rnd) (o : R1) (s : State) : Host.Outcome State Fault Refusal := f32un s rm o (f32kernel fp32.log2)
/-- FRND (R374): the Rounding class of R95. -/
def execFrnd (rm : Rnd) (o : R1) (s : State) : Host.Outcome State Fault Refusal :=
  f32un s rm o (fun mode x =>
    let a : Opd := ⟨fp32.value x.1.toNat, readTag 24 x.2⟩
    FOut.of fp32 (fp32.rint mode x.1.toNat) (rndTag 24 a))

def f64bin (s : State) (rm : Rnd) (o : R2) (f : Mode → Opd → Opd → FOut) : Host.Outcome State Fault Refusal :=
  withView s (fun v => emit s (fxAll (v.lanes o.g o.d) (fun t =>
    out64 v t o.d (f (modeOf rm (v.fmtr t)) (v.opd64 t o.a) (v.src64f t o.b)))))
def execDadd (rm : Rnd) (o : R2) (s : State) : Host.Outcome State Fault Refusal := f64bin s rm o (outAdd fp64)
def execDsub (rm : Rnd) (o : R2) (s : State) : Host.Outcome State Fault Refusal := f64bin s rm o (outSub fp64)
def execDmul (rm : Rnd) (o : R2) (s : State) : Host.Outcome State Fault Refusal := f64bin s rm o (outMul fp64)
def execDdiv (rm : Rnd) (o : R2) (s : State) : Host.Outcome State Fault Refusal := f64bin s rm o (outDiv fp64)
def execDfma (rm : Rnd) (o : R3) (s : State) : Host.Outcome State Fault Refusal :=
  withView s (fun v => emit s (fxAll (v.lanes o.g o.d) (fun t =>
    out64 v t o.d (outFma fp64 (modeOf rm (v.fmtr t)) (v.opd64 t o.a) (v.src64f t o.b) (v.opd64 t o.c)))))
def execDsqrt (rm : Rnd) (o : R1) (s : State) : Host.Outcome State Fault Refusal :=
  withView s (fun v => emit s (fxAll (v.lanes o.g o.d) (fun t =>
    let a := v.opd64 t o.a
    out64 v t o.d (outUn fp64 (fp64.sqrt (modeOf rm (v.fmtr t)) a.v) a))))
def execDcmp (cc : FCmp) (o : R2) (s : State) : Host.Outcome State Fault Refusal :=
  withView s (fun v => emit s (fxAll (v.lanes o.g o.d) (fun t =>
    let a := (v.opd64 t o.a).v
    let b := (v.src64f t o.b).v
    floatFx v t (v.w1 t o.d (boolWord (fcmpHolds cc a b)) intTag) (cmpConds a b) false)))

/-- A packed-half member with two sources (R383). -/
def halfBin (s : State) (rm : Rnd) (o : R2) (f : Fmt → Mode → Opd → Opd → FOut) : Host.Outcome State Fault Refusal :=
  withView s (fun v => emit s (fxAll (v.lanes o.g o.d) (fun t =>
    let m := v.fmtr t
    let k := halfFmt m
    let one (hi : Bool) : FOut := (f k (modeOf rm m) (halfOpd v.nbv k hi (v.reg t o.a)) (halfOpd v.nbv k hi (v.src t o.b))).capped k
    outHalves v t o.d (one false) (one true))))
def execHadd2 (rm : Rnd) (o : R2) (s : State) : Host.Outcome State Fault Refusal := halfBin s rm o outAdd
def execHmul2 (rm : Rnd) (o : R2) (s : State) : Host.Outcome State Fault Refusal := halfBin s rm o outMul
def execHfma2 (rm : Rnd) (o : R3) (s : State) : Host.Outcome State Fault Refusal :=
  withView s (fun v => emit s (fxAll (v.lanes o.g o.d) (fun t =>
    let m := v.fmtr t
    let k := halfFmt m
    let one (hi : Bool) : FOut := (outFma k (modeOf rm m) (halfOpd v.nbv k hi (v.reg t o.a)) (halfOpd v.nbv k hi (v.src t o.b))
      (halfOpd v.nbv k hi (v.reg t o.c))).capped k
    outHalves v t o.d (one false) (one true))))
/-- HMAX2 (R373, R383): the selected half itself, as read. -/
def execHmax2 (o : R2) (s : State) : Host.Outcome State Fault Refusal :=
  withView s (fun v => emit s (fxAll (v.lanes o.g o.d) (fun t =>
    let k := halfFmt (v.fmtr t)
    let x := v.reg t o.a
    let y := v.src t o.b
    let one (hi : Bool) : FOut := outPick k true (halfBits v.nbv k hi x.1) (halfBits v.nbv k hi y.1) (halfOpd v.nbv k hi x) (halfOpd v.nbv k hi y)
    outHalves v t o.d (one false) (one true))))
def execHcmp2 (cc : FCmp) (o : R2) (s : State) : Host.Outcome State Fault Refusal :=
  withView s (fun v => emit s (fxAll (v.lanes o.g o.d) (fun t =>
    let k := halfFmt (v.fmtr t)
    let a (hi : Bool) : FVal := (halfOpd v.nbv k hi (v.reg t o.a)).v
    let b (hi : Bool) : FVal := (halfOpd v.nbv k hi (v.src t o.b)).v
    let bit (hi : Bool) : Nat := if fcmpHolds cc (a hi) (b hi) then 1 else 0
    floatFx v t (v.w1 t o.d (BitVec.ofNat 32 (bit false + bit true * 2 ^ 16)) intTag)
      (cmpConds (a false) (b false) ||| cmpConds (a true) (b true)) false)))

/-! CVT. -/

/-- Width and signedness of an integer type. -/
def tyShape : Ty → Option (Nat × Bool)
  | .i32 => some (32, true) | .u32 => some (32, false) | .i64 => some (64, true) | .u64 => some (64, false) | .i8 => some (8, true) | _ => none
/-- The float format of a type; a packed type stands for one of its halves. -/
def tyFmt : Ty → Option Fmt
  | .f32 => some fp32 | .f64 => some fp64 | .bf16x2 => some bf16 | .bf16 => some bf16 | .f16x2 => some fp16 | .f16 => some fp16
  | .e4m3 => some e4m3 | .e5m2 => some e5m2 | .e2m1 => some e2m1 | _ => none
def tyNarrow : Ty → Bool | .e4m3 => true | .e5m2 => true | .e2m1 => true | _ => false

/-- A converted source: an integer, or a float with its trust and the p its tag is read with. -/
inductive CvtIn where
  | int (x : Int)
  | float (v : FVal) (tr : Trust) (p : Nat)
  deriving DecidableEq, Repr

/-- Read a source of CVT from 64 bits and its tag (R360). `hp` is the p of FMTR.HF (R91). -/
def cvtRead (ty : Ty) (hi : Bool) (nbv hp : Nat) (x : DWord) (g : Tag) : CvtIn :=
  match tyShape ty with
  | some (w, signed) => .int (if signed then toSigned w x.toNat else ((x.toNat % 2 ^ w : Nat) : Int))
  | none =>
    match ty with
    | .f32 => .float (fp32.value (x.toNat % 2 ^ 32)) (readTag 24 g) 24
    | .f64 => .float (fp64.value x.toNat) (readTag 53 g) 53
    | .bf16x2 => .float (bf16.value (halfBits nbv bf16 hi (loWord x))) (readHalf hp hi g) hp
    | .f16x2 => .float (fp16.value (halfBits nbv fp16 hi (loWord x))) (readHalf hp hi g) hp
    | ty =>
      let f := (tyFmt ty).getD e2m1
      .float (f.value (x.toNat % 2 ^ f.bits)) ⟨f.p, 0⟩ f.p

/-- The tag of a conversion into a float (R98). `half` says that the target is a half. -/
def cvtTag (src : CvtIn) (narrow halfSrc : Bool) (f : Fmt) (half : Bool) (r : FVal) (inexact : Bool) : Trust :=
  if FVal.special r then ⟨0, 0⟩
  else
    let trusted := match src with | .int _ => true | .float _ tr p => tr.t == p
    if r.isZero then ⟨if !inexact && trusted then f.p else 0, 0⟩
    else match src with
      | .int _ => if half then ⟨if inexact then f.p - 1 else f.p, 0⟩ else ⟨f.p, if inexact then 1 else 0⟩
      | .float _ tr p =>
        if narrow then ⟨p, 0⟩
        else if half then capHalf f.p ⟨min tr.t f.p, 0⟩ inexact
        else if halfSrc then ⟨tr.t, 0⟩
        else if f.p < p then Trust.roll ⟨min tr.t f.p, tr.debt + if inexact then 1 else 0⟩
        else tr

/-- One converted value: its bits, conditions, and its trust when the target is a float with tags. -/
def cvtOne (dst src : Ty) (mode : Mode) (sat : Bool) (x : CvtIn) : Nat × Conds × Trust :=
  match tyShape dst with
  | some (w, signed) =>
    (match x with
     | .int n => (wrapNat w n, 0, ⟨0, 0⟩)
     | .float v _ _ => let r := toInt mode signed w v; (wrapNat w r.1, r.2 ||| (if v.isSnan then condNV else 0), ⟨0, 0⟩))
  | none =>
    let f := (tyFmt dst).getD e2m1
    let r := match x with | .int n => f.ofInt mode sat n | .float v _ _ => f.convert mode sat v
    (r.bits, r.conds, cvtTag x (tyNarrow src) src.packed f dst.packed (f.value r.bits) r.inexact)

/-- A source register of CVT with its tag, widened to 64 bits. -/
def View.cvtSrc (v : View) (t : Nat) (ty : Ty) (b : Src) : DWord × Tag :=
  match b with
  | .reg r => (if ty.wide then v.pair t r else (v.val t r).zeroExtend 64, v.tag t r)
  | .imm w => (w.zeroExtend 64, intTag)

def execCvt (dst src : Ty) (hi : Bool) (rm : Rnd) (o : R2) (s : State) : Host.Outcome State Fault Refusal :=
  withView s (fun v => emit s (fxAll (v.lanes o.g o.d) (fun t =>
    let m := v.fmtr t
    let one (b : Src) : Nat × Conds × Trust :=
      let x := v.cvtSrc t src b
      cvtOne dst src (modeOf rm m) (satOf m) (cvtRead src hi v.nbv (halfFmt m).p x.1 x.2)
    let lo := one (.reg o.a)
    if dst.packed then
      let up := one o.b
      outHalves v t o.d ⟨lo.1, lo.2.2, lo.2.1⟩ ⟨up.1, up.2.2, up.2.1⟩
    else match dst with
      | .f32 => out32 v t o.d ⟨lo.1, lo.2.2, lo.2.1⟩
      | .f64 => out64 v t o.d ⟨lo.1, lo.2.2, lo.2.1⟩
      | .i64 | .u64 => floatFx v t (v.w2 t o.d (BitVec.ofNat 64 lo.1) intTag intTag) lo.2.1 false
      | .i8 => floatFx v t (v.w1 t o.d (BitVec.ofInt 32 (toSigned 8 lo.1)) intTag) lo.2.1 false
      | _ => floatFx v t (v.w1 t o.d (BitVec.ofNat 32 lo.1) intTag) lo.2.1 false)))

/-! Significance (R107, R108). -/

def execSigget (o : R1) (s : State) : Host.Outcome State Fault Refusal :=
  withView s (fun v => emit s (setEach v o.g o.d (fun t => (v.tag t o.a).zeroExtend 32)))
def execSigset (ty : Ty) (o : R2) (s : State) : Host.Outcome State Fault Refusal :=
  withView s (fun v => emit s { Fx.empty with wr := (v.lanes o.g o.d).flatMap (fun t =>
    let g : Tag := (v.src t o.b).1.extractLsb' 0 8
    v.wTy t ty.wide o.d (v.val t o.a, g) (v.val t (regPlus o.a 1), oddTag)) })
/-- The tag SIGMIN writes. -/
def sigminTag (ty : Ty) (hp : Nat) (a b : Tag) (imm : Option Nat) : Tag :=
  if ty.packed then
    let half (hi : Bool) : Trust := ⟨min (readHalf hp hi a).t (match imm with | some n => n | none => (readHalf hp hi b).t), 0⟩
    halfTag (half true) (half false)
  else
    let p := ty.prec
    let x := readTag p a
    let y : Trust := match imm with | some n => ⟨n, 0⟩ | none => readTag p b
    Trust.tag ⟨min x.t y.t, max x.debt y.debt⟩
def execSigmin (ty : Ty) (o : R2) (s : State) : Host.Outcome State Fault Refusal :=
  withView s (fun v => emit s { Fx.empty with wr := (v.lanes o.g o.d).flatMap (fun t =>
    let imm : Option Nat := match o.b with | .imm w => some w.toNat | .reg _ => none
    let g := sigminTag ty (halfFmt (v.fmtr t)).p (v.tag t o.a) (v.src t o.b).2 imm
    v.wTy t ty.wide o.d (v.val t o.a, g) (v.val t (regPlus o.a 1), oddTag)) })

/-- Whether BSIG takes thread t (R108). -/
def bsigTaken (v : View) (kind : SigKind) (n : Nat) (a : Reg) (t : Nat) : Bool :=
  let g := v.tag t a
  match kind with
  | .f32 => decide ((readTag 24 g).t < n)
  | .f64 => decide ((readTag 53 g).t < n)
  | .h2 => let p := (halfFmt (v.fmtr t)).p; decide ((readHalf p false g).t < n) || decide ((readHalf p true g).t < n)

end Sys2Proof.Machine
end

