-- ==== Sys2Proof/Machine/Image.lean ====
section
/-! DEFINITION. The image of a crew (R72, R248, R287) and piece boundaries (R283, R286). -/
namespace Sys2Proof.Machine

/-- The phase of a thread's outstanding BARA arrival at a boundary. -/
def Thread.outstanding (t : Thread) (bnd : Nat) : Option Nat := (t.bara.find? (fun p => p.1 == bnd)).map (·.2)
/-- A stack entry in the layout of R72. -/
def pathImage (p : Option Path) : List Byte :=
  match p with
  | none => List.replicate 16 0
  | some p => bytesOf 16 (p.pc.toNat + p.mask * 2 ^ 84 + p.age * 2 ^ 88 + p.fmtr.toNat * 2 ^ 96)
def zeros (n : Nat) : List Byte := List.replicate n 0
/-- The 512-byte block of a scull. -/
def Crew.scullImage (w : Crew) (k : Nat) : List Byte :=
  let x := w.scull k
  let r := x.run.getD ⟨0, 0, 0, 0, false, .none, 0, 0⟩
  let thread (j : Nat) : List Byte :=
    let t := w.thread (4 * k + j)
    let p := t.pend
    bytesOf 16 ((match p with | some q => q.cause + q.sub * 2 ^ 32 + q.faddr * 2 ^ 64 | none => 0) + t.hlvl * 2 ^ 8 +
      (if t.live && !bitAt x.pkmask j then 2 ^ 10 else 0))
  (List.range 16).flatMap (fun i => pathImage (x.stack.find? i)) ++ bytesOf 8 r.pc.toNat ++
  bytesOf 8 (r.fmtr.toNat + r.mask * 2 ^ 32 + x.pkmask * 2 ^ 36 + x.age * 2 ^ 40 + x.fstat.toNat * 2 ^ 48) ++ bytesOf 8 x.losspc.toNat ++
  (List.range 12).map (fun f => BitVec.ofNat 8 (x.cf.getD f 0)) ++ zeros 28 ++ (List.range 4).flatMap thread ++ zeros 128
/-- The outstanding BARA arrivals of a crew by level. -/
def Crew.baraImage (w : Crew) (h : List DWord) : List Byte :=
  (List.range 7).map (fun j =>
    match w.threads.findSome? (fun t => t.outstanding (hdrBound h j)) with
    | some ph => BitVec.ofNat 8 (1 + 2 * (ph % 128))
    | none => 0) ++ [0]
/-- The crew image of R287. -/
def Crew.image (w : Crew) (h : List DWord) : List Byte :=
  let k (n : Nat) : Word × Tag := w.get (crewKey n)
  let size := 0x1100 + 160 * w.count
  bytesOf 8 (size + w.count * 2 ^ 32) ++ bytesOf 8 w.piece ++ bytesOf 8 (w.fmtr.toNat + w.sigfloor.toNat * 2 ^ 32) ++
  bytesOf 8 (w.logctl.toNat + (if w.enm then 2 ^ 32 else 0) + (if w.cert then 2 ^ 33 else 0) + (if w.slot0 = 0 then 0 else 2 ^ 34) + (if w.slot1 = 0 then 0 else 2 ^ 35)) ++
  bytesOf 8 w.tbase.toNat ++ bytesOf 8 w.tcmp.toNat ++ bytesOf 8 w.ctime.toNat ++ bytesOf 8 (w.dbgctl.toNat + w.dbgsel.toNat * 2 ^ 32) ++
  bytesOf 8 w.recbase.toNat ++ bytesOf 8 w.dbgdata.toNat ++ (List.range 24).flatMap (fun n => bytesOf 4 (k n).1.toNat) ++
  (List.range 24).map (fun n => (k n).2) ++ w.baraImage h ++ zeros 48 ++ (List.range 8).flatMap w.scullImage ++
  (List.range w.count).flatMap (fun n => (List.range 32).flatMap (fun t => bytesOf 4 (w.get (32 * n + t)).1.toNat)) ++
  (List.range w.count).flatMap (fun n => (List.range 32).map (fun t => (w.get (32 * n + t)).2))
/-- A crew that records writes its stores to memory: none of them while its origin may issue none (R158). 64 are more than an issue brings. -/
def State.recStalls (s : State) (u : Nat) (w : Crew) : Bool := recOn w && w.replay.isNone && (s.origin u).stallsBy 64
/-- An agent is such a crew. -/
def State.recHolds (s : State) (u : Nat) (who : Who) : Bool :=
  match who with | .crew k => (match s.crew? u k with | some w => s.recStalls u w | none => false) | .cox _ => false
/-- A piece boundary: the stroke count returns to 0, the piece number rises, and a recording crew writes its image. -/
def State.boundary (s : State) (u slot : Nat) : State :=
  match s.crew? u slot with
  | none => s
  | some w =>
    if w.stroke < 2 ^ w.plog || s.recStalls u w then s
    else
      let w := { w with stroke := w.stroke - 2 ^ w.plog, piece := (w.piece + 1) % 2 ^ 32, plog := bitsAt w.dbgctl.toNat 11 5 }
      if recOn w && w.replay.isNone then
        let w := { w with recPos := 0, recOk := true }
        (s.modCrew u slot (fun _ => w)).record u slot (w.image ((s.group? u w.gid).getD Group.blank).hdr)
      else s.modCrew u slot (fun _ => w)

end Sys2Proof.Machine
end

