-- ==== Sys2Proof/Machine/Wait.lean ====
section
/-! DEFINITION. Ending the wait of an instruction that a later step of the machine completes (BAR, BARW, REGANG, CLAIM, MWAIT,
SLTAKE, JOIN, BLTAKE, CATCH): its paths go on after it, and it counts as one committed issue (R283, R291). -/
namespace Sys2Proof.Machine

/-- Every path of a scull, the running one first. -/
def Scull.paths (x : Scull) : List Path := x.run.toList ++ x.stack.map (·.2)
def Scull.mapPaths (x : Scull) (f : Path → Path) : Scull := { x with run := x.run.map f, stack := x.stack.map (fun e => (e.1, f e.2)) }
/-- The threads of a path of scull k. -/
def Path.threads (p : Path) (k : Nat) : List Nat := (bitsOf 4 p.mask).map (4 * k + ·)
/-- A path past the unpaired instruction at its PC. -/
def Path.past (p : Path) : Path :=
  let n := pcAfter p.pc.toNat (slotOf p.pc.toNat)
  { p with pc := BitVec.ofNat 64 n, wait := .none, issued := 0, inLine := p.inLine && lineOf n == lineOf p.pc.toNat }

/-- STEP as a held cause after a completed instruction (R291). -/
def stepPend (s : State) (u : Nat) (w : Crew) (p : Path) : Pend where
  cause := 0x32
  sub := 0
  faddr := 0
  rpc := p.past.pc
  pc := p.pc
  instr := s.wordAt u ((s.group? u w.gid).getD Group.blank).ctx p.pc.toNat
  issue := s.free
  stroke := w.stroke
  grp := false
  mem := 0
  ganged := !w.parted
  waited := false
  cox := false

/-- The registers whose values a waited-for instruction brought from outside (R286). -/
def Wait.outside (ts : List Nat) : Wait → List Nat
  | .sltake (.v n) => ts.map (fun t => 32 * n.val + t)
  | .sltake (.k n) => [crewKey n.val]
  | .over w _ => w.outside ts
  | _ => []
/-- One issue of waiting paths ends: `done` are the paths with their sculls, which count as one committed issue (R283), `pends` the steps
they take, `past` whether a path goes on. The issue is over for a thread's first issue after ERET too (R290), and a piece that it fills ends with
it. -/
def State.endIssue (s : State) (u slot : Nat) (done : List (Nat × Path)) (wr : List RegW) : State :=
  match s.crew? u slot with
  | none => s
  | some w =>
    let steps (k : Nat) (p : Path) : List Nat := if bitAt w.dbgctl.toNat 8 then (p.threads k).filter (fun t => (w.thread t).hlvl == 0) else []
    let pends : List (Nat × Pend) := done.flatMap (fun d => (steps d.1 d.2).map (fun t => (t, stepPend s u w d.2)))
    let mine := done.flatMap (fun d => d.2.threads d.1)
    let w1 := w.stepDone.writes wr
    let w2 : Crew := { w1 with
      stroke := w1.stroke + 1
      sinceMark := w1.sinceMark + 1
      sculls := imap w1.sculls (fun k x => x.mapPaths (fun p =>
        if done.contains (k, p) then (if (steps k p).isEmpty then p.past else { p with wait := .trap, issued := 0 }) else p))
      threads := imap w1.threads (fun t x =>
        let x := if mine.contains t then { x with noMatch := false } else x
        match List.find? (fun (q : Nat × Pend) => q.1 == t) pends with | some q => { x with pend := some q.2 } | none => x) }
    let s := s.modCrew u slot (fun _ => w2.checkPart)
    let s := done.foldl (fun s d => s.logChoice u slot w d.1 d.2) s
    let s := ((done.flatMap (fun d => d.2.wait.outside (d.2.threads d.1))).eraseDups).foldl (fun s k => s.logReg u slot w.stroke k) s
    let s := (s.boundary u slot).modCrew u slot Crew.replayStop
    let s := if w2.halt = .requested then s.push (.haltComplete u slot) else s
    if pends.isEmpty then s else s.push (.trapDelivery u slot)
/-- A wait of a path that has come to its end may end the instruction now: not while the crew is halted, or is released for one issue which is not
this one (R244, R292), and not while a recording crew's origin may issue no store (R158). -/
def State.mayEnd (s : State) (u : Nat) (w : Crew) (k : Nat) (p : Path) : Bool :=
  !s.recStalls u w &&
  match w.halt with
  | .none | .requested => true
  | .halted | .step => false
  | .stepping ks pc => ks.contains k && p.pc == pc && p.issued != 0
/-- A wait that is over holds its path until the crew may go on. -/
def Crew.holdOver (w : Crew) (late : List (Nat × Path)) (wr : Nat → Path → List RegW) : Crew :=
  { w with sculls := imap w.sculls (fun k x => x.mapPaths (fun p =>
      match p.wait with
      | .over _ _ => p
      | _ => if late.contains (k, p) then { p with wait := .over p.wait (wr k p) } else p)) }
/-- One scull after the other ends its issue, until a replay reaches its position (R288). -/
def State.endEach (s : State) (u slot : Nat) (wr : Nat → Path → List RegW) : List (Nat × Path) → State
  | [] => s
  | d :: ds =>
    match s.crew? u slot with
    | none => s
    | some w =>
      if w.halt == .halted then s.modCrew u slot (fun w => w.holdOver (d :: ds) wr)
      else (s.endIssue u slot [d] (wr d.1 d.2)).endEach u slot wr ds
/-- The waiting paths that `sel` picks go on, with the register writes `wr` gives for each: together where the crew issues as one, else
one issue after the other by scull. -/
def State.endWait (s : State) (u slot : Nat) (sel : Nat → Path → Bool) (wr : Nat → Path → List RegW) : State :=
  match s.crew? u slot with
  | none => s
  | some w =>
    let all : List (Nat × Path) := (List.range 8).flatMap (fun k => ((w.scull k).paths.filter (sel k)).map (fun p => (k, p)))
    let done := all.filter (fun d => s.mayEnd u w d.1 d.2)
    let late := all.filter (fun d => !s.mayEnd u w d.1 d.2)
    let s := if late.isEmpty then s else s.modCrew u slot (fun w => w.holdOver late wr)
    if done.isEmpty then s
    else if !w.parted then s.endIssue u slot done (done.flatMap (fun d => wr d.1 d.2))
    else s.endEach u slot wr done
/-- The register writes that the end of a path's wait brings. -/
def Path.held (p : Path) : List RegW := match p.wait with | .over _ ws => ws | _ => []
def Path.isOver (p : Path) : Bool := match p.wait with | .over _ _ => true | _ => false
def Path.atRegang (p : Path) : Bool := match p.wait with | .regang | .over .regang _ => true | _ => false
/-- The crew gangs where every scull that still counts has passed its REGANG and stands at one PC with no path stacked (R78): PM tells of FMTR
copies that differ. -/
def Crew.gang (w : Crew) : Crew :=
  let live := (List.range 8).filter (fun k => !(w.scull k).gone)
  let runs := live.filterMap (fun k => (w.scull k).run)
  match runs with
  | [] => w
  | first :: rest =>
    let here := live.all (fun k => (w.scull k).stack.isEmpty && (match (w.scull k).run with | some p => p.pc == first.pc && !p.atRegang | none => false))
    if !here then w
    else
      let body (x : Word) : Word := x &&& 0x7FFFFFFF#32
      let pm : Word := if rest.all (fun p => body p.fmtr == body first.fmtr) then first.fmtr else first.fmtr ||| 0x80000000#32
      { w with parted := false, fmtr := pm, sculls := w.sculls.map (fun x => x.mapPaths (fun p => { p with fmtr := pm })) }
/-- Waits of the sculls `ks` that came to their end while the crew could not go on end now (R244, R292). A crew that was at REGANG gangs when the
last scull has passed it. -/
def State.endHeld (s : State) (u slot : Nat) (ks : List Nat) : State :=
  match s.crew? u slot with
  | none => s
  | some w =>
    let done : List (Nat × Path) := ks.flatMap (fun k => ((w.scull k).paths.filter Path.isOver).map (fun p => (k, p)))
    if done.isEmpty then s
    else
      let s := if !w.parted then s.endIssue u slot done (done.flatMap (fun d => d.2.held)) else s.endEach u slot (fun _ p => p.held) done
      if done.any (fun d => d.2.atRegang) then s.modCrew u slot Crew.gang else s

/-- The threads of an instruction that has not issued for them yet (R74: paths that wait at it may have merged). -/
def View.fresh (v : View) (ts : List Nat) : List Nat :=
  ts.filter (fun t => match v.path t with | some p => !bitAt p.issued (t % 4) | none => true)

/-! Merging paths (R74). -/

/-- A path that waits at an instruction merges with one that comes to it, and the instruction issues again for both; threads that hold a
cause, or whose wait is over, stay in a path of their own (R243). -/
def Wait.merges : Wait → Bool
  | .trap | .over _ _ => false
  | _ => true
/-- The handler level of a path's threads. -/
def Crew.level (w : Crew) (k : Nat) (p : Path) : Nat := (w.thread ((p.threads k).headD 0)).hlvl
/-- Merge the stack entries at the running path's PC and handler level (R74, step 1). -/
def Crew.merged (w : Crew) (k : Nat) : Scull :=
  let x := w.scull k
  match x.run with
  | none => x
  | some r =>
    let same (e : Nat × Path) : Bool := e.2.pc == r.pc && w.level k e.2 == w.level k r && e.2.wait.merges && r.wait.merges
    match x.stack.filter same with
    | [] => x
    | e :: es =>
      let r1 : Path := { r with
        mask := es.foldl (fun m q => m ||| q.2.mask) (r.mask ||| e.2.mask)
        fmtr := e.2.fmtr
        inLine := r.inLine && (e :: es).all (fun q => q.2.inLine)
        wait := if (e :: es).all (fun q => q.2.wait == r.wait) then r.wait else .none
        issued := es.foldl (fun m q => m ||| q.2.issued) (r.issued ||| e.2.issued) }
      { x with run := some r1, stack := x.stack.filter (fun q => !same q) }

/-- Clear a wait of a crew's paths, so that the instruction at their PC issues again. -/
def State.retryWait (s : State) (u slot : Nat) (sel : Path → Bool) : State :=
  s.modCrew u slot (fun w => { w with sculls := w.sculls.map (fun x => x.mapPaths (fun p => if sel p then { p with wait := .none } else p)) })

/-- A 32-bit result with the integer tag in thread t (per-thread or crew register). -/
def regWrite (t : Nat) (d : Reg) (x : Word) : List RegW :=
  match d with
  | .v n => [⟨t, 32 * n.val + t, x, intTag⟩]
  | .k n => [⟨t, crewKey n.val, x, intTag⟩]
  | _ => []

/-- Replace the group's crew control of a group. -/
def State.groupOf (s : State) (u slot : Nat) : Group :=
  match s.crew? u slot with | some w => (s.group? u w.gid).getD Group.blank | none => Group.blank

end Sys2Proof.Machine
end

