-- ==== Sys2Proof/Machine/Mem.lean ====
section
/-! DEFINITION. Memory instructions (R129 to R133, R143, R150, R156, R161 to R168, R192, R335 to R337, R376, R388 to R394, R399,
R400, R408, R416, R428 to R433). A load, store or atomic issues here; the steps of the shell bind, enter and perform it. -/
namespace Sys2Proof.Machine

/-- Operations of one issue, thread by thread: the faults and the accesses that passed their checks. -/
structure Gathered (α : Type) where
  bad : List (Nat × AFault)
  ok : List α
  deriving DecidableEq, Repr
def gather {α : Type} (ts : List Nat) (f : Nat → Except AFault α) : Gathered α :=
  ts.foldr (fun t r => match f t with | .error e => { r with bad := (t, e) :: r.bad } | .ok x => { r with ok := x :: r.ok }) ⟨[], []⟩
/-- Faults as causes. An access made once for every acting thread (a crew register in D, R42) faults in each of them. -/
def View.faults (v : View) (uniform : Bool) (acting : List Nat) (bad : List (Nat × AFault)) : List Raise :=
  bad.flatMap (fun p => (if uniform then acting else [p.1]).map (fun t => raiseAt v t p.2))

/-- The completion flag that FSEL selects (R44): 12 and above name none. -/
def View.flag (v : View) (fsel : Bool) : Option Nat :=
  let f := if fsel then v.iss.setB else v.iss.setA
  if f < 12 then some f else none
/-- Member sculls with an active thread (R44). -/
def View.sculls (v : View) : List Nat := v.iss.parts.filter (fun k => decide (bitsAt v.iss.mask (4 * k) 4 ≠ 0))
/-- The flag and the sculls in which an operation raises it, with the member that issues it. -/
def MOp.flagOf : MOp → Option (Nat × List Nat × Nat)
  | .load l => l.flag.map (fun f => (f, l.sculls, l.src.ord))
  | .atom a _ => a.flag.map (fun f => (f, a.sculls, a.src.ord))
  | .entry _ e _ _ => e.flag.map (fun f => (f, e.sculls, e.src.ord))
  | _ => none
/-- Earlier members of the group that will raise a flag in a scull; a member raises it once. -/
def View.willRaise (v : View) (f k : Nat) : Nat :=
  (((v.iss.fx.ops.filterMap MOp.flagOf).filter (fun x => x.1 == f && x.2.1.contains k)).map (·.2.2)).eraseDups.length
/-- One more operation would raise the flag past 63 in a member scull (R44). -/
def View.flagFull (v : View) (fsel : Bool) : Bool :=
  match v.flag fsel with
  | some f => v.sculls.any (fun k => decide ((v.crew.scull k).cf.getD f 0 + v.willRaise f k ≥ 63))
  | none => false
/-- The origin may not issue another event now (R158). -/
def View.stalled (v : View) (s : State) : Bool := (s.origin v.iss.unit).stalls
/-- Run a meaning that issues a long-latency operation, or wait for its flag (R44). -/
def withFlag (v : View) (s : State) (fsel : Bool) (acting : List Nat) (k : Host.Outcome State Fault Refusal) : Host.Outcome State Fault Refusal :=
  if !acting.isEmpty && v.flagFull fsel && v.crew.replay.isNone then block s (.full (if fsel then v.iss.setB else v.iss.setA)) else k
/-- Run a meaning that issues a store event, or wait for its origin (R158). -/
def withEvent (v : View) (s : State) (acting : List Nat) (k : Host.Outcome State Fault Refusal) : Host.Outcome State Fault Refusal :=
  if !acting.isEmpty && v.stalled s && v.crew.replay.isNone then block s .stall else k
/-- Instructions that a speculative run may not issue (R201). -/
def notWhileEnm (v : View) (s : State) (acting : List Nat) (k : Host.Outcome State Fault Refusal) : Host.Outcome State Fault Refusal :=
  if v.crew.enm && !acting.isEmpty then emit s (raiseAll v acting 0x02 97 0) else k

/-- The check of a witness operand of thread t (R161), before the address checks. -/
def View.witFault (v : View) (s : State) (t : Nat) (r : Reg) (sc : Nat) : Option AFault :=
  if r = .vz then none
  else match s.witBad v.iss.unit (v.pair t r) sc with
    | some c => some (c.1, c.2, (v.pair t r).toNat % 2 ^ 32)
    | none => none
/-- The after-witness of thread t. -/
def View.afterOf (v : View) (t : Nat) (r : Reg) : DWord := if r = .vz then 0 else v.pair t r

/-- The slot that consumes poison for an agent: a cox consumes it for crew 0 of its group (R83, R304). -/
def State.consumer (s : State) (u : Nat) (who : Who) : Nat :=
  match who with
  | .crew slot => slot
  | .cox gid => s.coxSlot u gid
/-- The issue in flight consumes poison: its crew is killed, and the seat's cycle counts as one in which the group started (R280, R304). -/
def View.poisonIssue (v : View) (s : State) (ts : List Nat) (array va home : Nat) : State :=
  let u := v.iss.unit
  let s := match v.iss.who with | .crew k => s.seatAfter u (k / 12) v.iss.go 14 (some k) | .cox _ => s
  { s.poisonKill u (s.consumer u v.iss.who) (some (v.site.stamp (s.origin u) (s.core u))) ts array va home with issue := none }
/-- The same as the end of the instruction; the kill's frame waits for the origin (R158). -/
def View.poisoned (v : View) (s t : State) (ts : List Nat) (array va home : Nat) : Host.Outcome State Fault Refusal :=
  if (s.origin v.iss.unit).stalls then block s .stall else .next (v.poisonIssue t ts array va home)
/-- A read inside an instruction stopped it: its fault in the threads, another try, or the kill of the crew. A replaying crew neither waits
for a read nor consumes poison (R288). -/
def readFail (v : View) (s : State) (ts : List Nat) (x : ReadStop) : Host.Outcome State Fault Refusal :=
  match x with
  | .fault f => emit s { Fx.empty with raises := ts.map (fun t => raiseAt v t f) }
  | .busy => if v.crew.replay.isSome then emit s Fx.empty else block s .read
  | .poison array va home => if v.crew.replay.isSome then emit s Fx.empty else v.poisoned s s ts array va home

/-! Reads that each thread makes inside its instruction (HPROBE, ERET). -/

/-- What the threads read: the first that must wait, or the poison that threads consume, the latter with the threads. -/
inductive Reads (α : Type) where
  | busy
  | poison (ts : List Nat) (array va home : Nat)
  | done (bad : List (Nat × AFault)) (ok : List (Nat × α))
  deriving DecidableEq, Repr
def readsOf {α : Type} (rs : List (Nat × Except ReadStop α)) : Reads α :=
  if rs.any (fun p => match p.2 with | .error .busy => true | _ => false) then .busy
  else
    let dead := rs.filterMap (fun p => match p.2 with | .error (.poison a va h) => some (p.1, a, va, h) | _ => none)
    match dead with
    | d :: _ => .poison (dead.map (·.1)) d.2.1 d.2.2.1 d.2.2.2
    | [] => .done (rs.filterMap (fun p => match p.2 with | .error (.fault f) => some (p.1, f) | _ => none))
              (rs.filterMap (fun p => match p.2 with | .ok x => some (p.1, x) | _ => none))

/-! LD and FILL. -/

/-- The tag of the register `i` of a load (R100): `n` is the significance byte. -/
def loadTag (ty : Ty) (sig : BitVec 8) (i : Nat) : Tag :=
  let n := if sig = 0 then ty.prec else sig.toNat - 1
  match ty with
  | .f32 => Trust.tag ⟨n, 0⟩
  | .f64 => if i % 2 = 0 then Trust.tag ⟨n, 0⟩ else oddTag
  | .bf16x2 | .f16x2 => halfTag ⟨n, 0⟩ ⟨n, 0⟩
  | _ => intTag
/-- The parts of a load from one piece: registers of at most four bytes. -/
def View.loadParts (v : View) (t : Nat) (ty : Ty) (sig : BitVec 8) (d : Reg) (p : Piece) : List LPart :=
  let part (i ha n : Nat) : LPart := ⟨ha, n, p.dest, v.key t (regPlus d i), ty == .i32, loadTag ty sig i, none, false, none⟩
  if p.n ≤ 4 then [part (p.off / 4) p.ha p.n] else (List.range (p.n / 4)).map (fun j => part (p.off / 4 + j) (p.ha + 4 * j) 4)
/-- FENCE class of loads (R172): r, or i in the host window. -/
def loadClass (ps : List Piece) : Nat := if ps.any (·.host) then 4 else 1
/-- FENCE class of stores (R172): w, or o in the host window. -/
def storeClass (ps : List Piece) : Nat := if ps.any (·.host) then 8 else 2

/-- The access of thread t of an LD. -/
def View.loadElem (v : View) (s : State) (ty : Ty) (m : MAddr) (sig : BitVec 8) (d after : Reg) (t : Nat) : Except AFault LElem :=
  match v.witFault s t after m.scope.code with
  | some f => .error f
  | none =>
    match v.access s t 2 m.space (v.ea t m) m.width.bytes .load with
    | .error f => .error f
    | .ok ps => .ok ⟨t, v.ea t m, ps.flatMap (v.loadParts t ty sig d), loadClass ps, v.afterOf t after⟩
/-- The effects of a load instruction whose accesses were gathered. -/
def View.loadFx (v : View) (g : Guard) (d : Reg) (scope : Nat) (forced fsel : Bool) (r : Gathered LElem) : Fx :=
  { Fx.empty with
    raises := v.faults d.isCrew (v.acting g) r.bad
    ops := if r.ok.isEmpty then [] else [.load ⟨v.iss.who, scope, forced, v.flag fsel, v.sculls, r.ok, [], v.site⟩] }
def execLd (ty : Ty) (m : MAddr) (fsel : Bool) (sig : BitVec 8) (d after : Reg) (s : State) : Host.Outcome State Fault Refusal :=
  withView s (fun v => withFlag v s fsel (v.acting m.g)
    (emit s (v.loadFx m.g d m.scope.code (after != .vz && decide (m.scope.code ≥ 1)) fsel
      (gather (v.lanes m.g d) (v.loadElem s ty m sig d after)))))

/-- The tag bytes of `n` words of the private array from offset e on (R101). -/
def View.planePieces (v : View) (s : State) (t e : Nat) (p : Perm) : Nat → Nat → Except AFault (List Piece)
  | 0, _ => .ok []
  | n + 1, j =>
    let h := v.grp.hdr
    match s.locGlobal v.cluster v.grp.ctx ((pbase h v.crew.pos + 128 * hdrWords h + 32 * (e / 4 + j) + t) % 2 ^ 64) 1 p with
    | .error f => .error f
    | .ok ps =>
      match v.planePieces s t e p n (j + 1) with
      | .error f => .error f
      | .ok qs => .ok (ps.map (fun q => { q with off := j }) ++ qs)
/-- The word pieces and the tag pieces of a SPILL or FILL (R376, R432), watched together (R290). -/
def View.privPieces (v : View) (s : State) (t kind : Nat) (m : MAddr) (p : Perm) : Except AFault (List Piece × List Piece) :=
  let e := v.ea t m
  match v.locate s t .priv e m.width.bytes p with
  | .error f => .error f
  | .ok ps =>
    match v.planePieces s t e p m.width.regs 0 with
    | .error f => .error f
    | .ok qs => match v.watched s t kind .priv (ps ++ qs) with | some f => .error f | none => .ok (ps, qs)
def View.fillElem (v : View) (s : State) (m : MAddr) (d : Reg) (t : Nat) : Except AFault LElem :=
  match v.privPieces s t 2 m .load with
  | .error f => .error f
  | .ok (ps, qs) =>
    .ok ⟨t, v.ea t m, (ps.zip qs).map (fun x => ⟨x.1.ha, 4, x.1.dest, v.key t (regPlus d x.2.off), false, intTag, some (x.2.ha, x.2.dest), false, none⟩),
      loadClass ps, 0⟩
def execFill (m : MAddr) (fsel : Bool) (d : Reg) (s : State) : Host.Outcome State Fault Refusal :=
  withView s (fun v => withFlag v s fsel (v.acting m.g)
    (emit s (v.loadFx m.g d 0 false fsel (gather (v.acting m.g) (v.fillElem s m d)))))

/-! ST and SPILL. -/

/-- The bytes of the registers from `d` on, `n` of them. -/
def View.dataBytes (v : View) (t : Nat) (d : Reg) (n : Nat) : List Byte :=
  ((List.range ((n + 3) / 4)).flatMap (fun i => bytesOf 4 (v.val t (regPlus d i)).toNat)).take n
/-- The stored bytes of a piece. -/
def storeBytes (bs : List Byte) (p : Piece) : List SByte := imap ((bs.drop p.off).take p.n) (fun i b => ⟨p.ha + i, b, p.dest⟩)

/-- One thread's part of a store: its bytes, its after-witness and its FENCE class. -/
structure SElem where
  t : Nat
  after : DWord
  bytes : List SByte
  cls : Nat
  deriving DecidableEq, Repr
/-- The effects of a store instruction whose accesses were gathered. -/
def View.storeFx (v : View) (g : Guard) (uniform : Bool) (scope : Nat) (wit : Reg) (r : Gathered SElem) : Fx :=
  { Fx.empty with
    raises := v.faults uniform (v.acting g) r.bad
    ops := if r.ok.isEmpty then [] else
      [.store ⟨scope, if wit = .vz then none else some wit, r.ok.foldl (fun m e => m ||| e.cls) 0, r.ok.map (fun e => (e.t, e.after, e.bytes))⟩] }
def View.stElem (v : View) (s : State) (m : MAddr) (after d : Reg) (t : Nat) : Except AFault SElem :=
  match v.witFault s t after m.scope.code with
  | some f => .error f
  | none =>
    match v.access s t 1 m.space (v.ea t m) m.width.bytes .store with
    | .error f => .error f
    | .ok ps => .ok ⟨t, v.afterOf t after, ps.flatMap (storeBytes (v.dataBytes t d m.width.bytes)), storeClass ps⟩
def execSt (_ty : Ty) (m : MAddr) (after d wit : Reg) (s : State) : Host.Outcome State Fault Refusal :=
  withView s (fun v =>
    if v.crew.enm && m.space == .global && !(v.acting m.g).isEmpty then emit s (raiseAll v (v.acting m.g) 0x02 97 0)
    else withEvent v s (v.acting m.g)
      (emit s (v.storeFx m.g d.isCrew m.scope.code wit (gather (v.lanes m.g d) (v.stElem s m after d)))))

def View.spillElem (v : View) (s : State) (m : MAddr) (d : Reg) (t : Nat) : Except AFault SElem :=
  match v.privPieces s t 1 m .store with
  | .error f => .error f
  | .ok (ps, qs) =>
    .ok ⟨t, 0, ps.flatMap (storeBytes (v.dataBytes t d m.width.bytes)) ++ qs.map (fun q => ⟨q.ha, v.tag t (regPlus d q.off), q.dest⟩), storeClass ps⟩
def execSpill (m : MAddr) (d wit : Reg) (s : State) : Host.Outcome State Fault Refusal :=
  withView s (fun v => withEvent v s (v.acting m.g)
    (emit s (v.storeFx m.g false m.scope.code wit (gather (v.acting m.g) (v.spillElem s m d)))))

/-! The L1 instructions. -/

/-- PREF (R416): level 0 fetches the line of e, level 1 changes nothing a program sees. -/
def execPref (l2 : Bool) (m : MAddr) (s : State) : Host.Outcome State Fault Refusal :=
  withView s (fun v =>
    let keys (t : Nat) : List Nat :=
      match v.locate s t m.space (v.ea t m) 1 .load with
      | .ok [p] => if p.dest == .l1 then [p.ha / 128 * 128] else []
      | _ => []
    let ks := if l2 || v.crew.replay.isSome then [] else (v.acting m.g).flatMap keys
    emit s { Fx.empty with ops := if ks.isEmpty then [] else [.fetch ks.eraseDups] })

/-- Write back and drop the line of a home byte, as ATOM does before it performs (R168). -/
def State.flushLine (s : State) (u a : Nat) : State := s.evict u (a / 128)
/-- Sweep everything the core has stored so far. -/
def State.sweepAll (s : State) (u : Nat) : State := s.sweep u (s.origin u).cnt

/-- The L1 lines of a virtual range as home intervals [lo, hi), page by page; the lowest failing address faults (R389). -/
def State.rangeLines (s : State) (cl ctx : Nat) : Nat → Nat → Nat → Except AFault (List (Nat × Nat))
  | 0, _, _ => .ok []
  | n + 1, a, last =>
    let stop := min last (a / 65536 * 65536 + 65535)
    if a / 2 ^ 56 ≠ 0 then .error (0x12, 0, a)
    else match s.xlate cl ctx a .present with
      | .error (c, sub) => .error (c, sub, a)
      | .ok l =>
        match s.rangeLines cl ctx n (stop + 1) last with
        | .error f => .error f
        | .ok r => .ok (if l.dest == .l1 then (l.ha / 128 * 128, (l.ha + (stop - a)) / 128 * 128 + 128) :: r else r)
def View.l1Range (v : View) (s : State) (m : MAddr) (d : Reg) (t : Nat) : Except AFault (List (Nat × Nat)) :=
  let len := (v.val t d).toNat
  let e := v.ea t m
  if len = 0 then .ok [] else s.rangeLines v.cluster v.grp.ctx ((e % 65536 + len + 65535) / 65536) e (e + len - 1)
def inRanges (rs : List (Nat × Nat)) (a : Nat) : Bool := rs.any (fun r => decide (r.1 ≤ a ∧ a < r.2))
def l1Op (s : State) (m : MAddr) (d : Reg) (f : State → Nat → (Nat → Bool) → State) : Host.Outcome State Fault Refusal :=
  withView s (fun v =>
    let r := gather (v.lanes m.g d) (v.l1Range s m d)
    let s1 := if v.crew.replay.isSome then s else f s v.iss.unit (inRanges r.ok.flatten)
    emit s1 { Fx.empty with raises := v.faults d.isCrew (v.acting m.g) r.bad })
/-- L1WB (R389): the dirty bytes are at their homes when the path goes on. -/
def execL1wb (m : MAddr) (d : Reg) (s : State) : Host.Outcome State Fault Refusal :=
  l1Op s m d (fun s u sel => s.writeBack u (fun a _ => sel a))
def execL1inv (m : MAddr) (d : Reg) (s : State) : Host.Outcome State Fault Refusal :=
  l1Op s m d (fun s u sel => s.dropClean u sel)

/-! MONITOR and MWAIT. -/

/-- Where a line's monitors are held: its slice after remapping, or its vault; 2^21 for near scratch, which drops none. -/
def State.monPlace (s : State) (cl : Nat) (p : Piece) : Nat :=
  if p.ha < 2 ^ 40 then
    let c := if p.dest == .repl then cl else homeCluster p.ha
    64 * c + (s.cluster c).slices.getD (homeSlice p.ha) 0
  else if p.ha < 2 ^ 41 then 2 ^ 20 + 48 * ((p.ha - 2 ^ 40) / 2 ^ 27) + p.ha % 2 ^ 27 / 0x200000
  else 2 ^ 21
/-- Mark monitors hit; each then triggers in a step of its own. -/
def State.hitWhere (s : State) (sel : Monitor → Bool) : State :=
  { s with
    monitors := s.monitors.map (fun m => if sel m && !m.hit then { m with hit := true } else m)
    agenda := s.agenda ++ (s.monitors.filter (fun m => sel m && !m.hit)).map (fun m => .monitorTrigger m.id) }
/-- Arm thread t's monitor on a located line (R399, R400): the 65th monitor of a place drops its oldest. -/
def State.arm (s : State) (u slot t : Nat) (p : Piece) : State :=
  let place : Nat := s.monPlace (clusterOf u) p
  let m : Monitor := ⟨32 * s.free + t, u, slot, t, p.ha / 128, place, false, false⟩
  let rest := s.monitors.filter (fun x => !(x.unit == u && x.slot == slot && x.thread == t))
  let s : State := { s with monitors := rest ++ [m] }
  let here : List Monitor := s.monitors.filter (fun x => x.place == place && !x.hit)
  let s := if place < 2 ^ 21 ∧ here.length > 64 then
      (match here with | o :: _ => s.hitWhere (fun x => x.id == o.id) | [] => s)
    else s
  if p.dest == .remote || p.host then s.hitWhere (fun x => x.id == m.id) else s
def execMonitor (m : MAddr) (s : State) : Host.Outcome State Fault Refusal :=
  withView s (fun v =>
    let r := gather (v.acting m.g) (fun t =>
      match v.locate s t m.space (v.ea t m) 1 .load with | .error f => .error f | .ok ps => .ok (t, ps))
    let u := v.iss.unit
    let one (s : State) (e : Nat × List Piece) : State :=
      e.2.foldl (fun s p =>
        let s := s.arm u v.slot e.1 p
        if p.dest == .l1 then s.dropClean u (fun k => k / 128 == p.ha / 128) else s) s
    emit (if v.crew.replay.isSome then s else r.ok.foldl one s) { Fx.empty with raises := v.faults false [] r.bad })

/-- Thread t's monitor is triggered or absent (R408). -/
def State.monitorDone (s : State) (u slot t : Nat) : Bool :=
  s.monitors.all (fun m => !(m.unit == u && m.slot == slot && m.thread == t) || m.triggered)
/-- The threads of a mask lose their monitors. -/
def State.disarm (s : State) (u slot mask : Nat) : State :=
  { s with monitors := s.monitors.filter (fun m => !(m.unit == u && m.slot == slot && bitAt mask m.thread)) }
def execMwait (g : Guard) (timeout : Word) (d : Reg) (s : State) : Host.Outcome State Fault Refusal :=
  withView s (fun v =>
    let ts := v.acting g
    let u := v.iss.unit
    if ts.isEmpty then emit s Fx.empty
    else if v.crew.replay.isSome then emit s { Fx.empty with wr := ts.flatMap (fun t => v.w1 t d (Config.replayValue s.free) intTag) }
    else if ts.any (s.monitorDone u v.slot) then
      emit (s.disarm u v.slot (maskOf ts))
        { Fx.empty with wr := ts.flatMap (fun t => v.w1 t d (if s.monitorDone u v.slot t then 1 else 0) intTag) }
    else block s (.mwait (if timeout = 0 then none else some (v.crew.ctime.toNat + timeout.toNat)) d (maskOf ts)))

/-- Waiting MWAITs of a crew that may end: a monitor of theirs is triggered, or their time is over. A halted crew's waits
stand until its release. -/
def State.endMwait (s : State) (u slot : Nat) : State :=
  match s.crew? u slot with
  | none => s
  | some w =>
    let ready (mask : Nat) (dl : Option Nat) : Bool := (bitsOf 32 mask).any (s.monitorDone u slot) || (match dl with | some n => decide (n ≤ w.ctime.toNat) | none => false)
    let at_ (p : Path) : Bool := match p.wait with | .mwait dl _ mask => w.halt != .halted && ready mask dl | _ => false
    let masks := w.sculls.foldl (fun m x => x.paths.foldl (fun m p => match p.wait with | .mwait _ _ k => if at_ p then m ||| k else m | _ => m) m) 0
    let wr (k : Nat) (p : Path) : List RegW :=
      match p.wait with
      | .mwait _ d m => ((p.threads k).filter (fun t => bitAt m t)).flatMap (fun t => regWrite t d (if s.monitorDone u slot t then 1 else 0))
      | _ => []
    (s.endWait u slot (fun _ p => at_ p) wr).disarm u slot masks
/-- MWAIT_TIMEOUT (R408). -/
def execMwaitTimeout (u slot : Nat) (s : State) : Host.Outcome State Fault Refusal := .next (s.endMwait u slot)
/-- MONITOR_TRIGGER (R400): a hit monitor is triggered and its thread's MWAIT may end. -/
def execMonitorTrigger (id : Nat) (s : State) : Host.Outcome State Fault Refusal :=
  match s.monitors.find? (fun m => m.id == id && m.hit && !m.triggered) with
  | none => .next s
  | some m =>
    let s : State := { s with monitors := s.monitors.map (fun (x : Monitor) => if x.id == id then { x with triggered := true } else x) }
    .next (s.endMwait m.unit m.slot)

/-! ATOM, SLTAKE and SLPUT. -/

/-- The access of one thread of an operation at a home. -/
def View.atomElem (v : View) (s : State) (m : MAddr) (n : Nat) (operand swap : Nat → DWord) (t : Nat) : Except AFault AElem :=
  match v.access s t 3 m.space (v.ea t m) n .atomic with
  | .error f => .error f
  | .ok ps =>
    match ps with
    | p :: _ => .ok ⟨t, v.ea t m, p.ha, p.dest == .remote, operand t, swap t⟩
    | [] => .error (0x10, 0, v.ea t m)
/-- A value of a type from the register or pair `r`. -/
def View.wideVal (v : View) (ty : Ty) (t : Nat) (r : Reg) : DWord := if ty.wide then v.pair t r else (v.val t r).zeroExtend 64
/-- The operation an ATOM issues, as the op number of R335. -/
def atomRun (op : Nat) (ty : Ty) (m : MAddr) (fsel : Bool) (e d wit : Reg) (s : State) : Host.Outcome State Fault Refusal :=
  withView s (fun v =>
    let ts := v.acting m.g
    notWhileEnm v s ts (withFlag v s fsel ts (withEvent v s ts (
      let r := gather (v.lanes m.g d) (v.atomElem s m m.width.bytes (fun t => v.wideVal ty t d) (fun t => v.wideVal ty t (regPlus d ty.regs)))
      let a : Atom := ⟨v.iss.who, op, ty, none, m.scope.code, wit != .vz, [], [], if e = .vz then none else some e, v.flag fsel, v.sculls, r.ok, 0, v.site, v.grp.tag, [], none, false⟩
      emit s { Fx.empty with
        raises := v.faults d.isCrew ts r.bad
        ops := if r.ok.isEmpty then [] else [.atom a (if wit = .vz then none else some wit)] }))))
def execAtomAdd (ty : Ty) (m : MAddr) (fsel : Bool) (e d wit : Reg) (s : State) : Host.Outcome State Fault Refusal := atomRun 0 ty m fsel e d wit s
def execAtomMin (ty : Ty) (m : MAddr) (fsel : Bool) (e d wit : Reg) (s : State) : Host.Outcome State Fault Refusal := atomRun 1 ty m fsel e d wit s
def execAtomMax (ty : Ty) (m : MAddr) (fsel : Bool) (e d wit : Reg) (s : State) : Host.Outcome State Fault Refusal := atomRun 2 ty m fsel e d wit s
def execAtomAnd (ty : Ty) (m : MAddr) (fsel : Bool) (e d wit : Reg) (s : State) : Host.Outcome State Fault Refusal := atomRun 3 ty m fsel e d wit s
def execAtomOr (ty : Ty) (m : MAddr) (fsel : Bool) (e d wit : Reg) (s : State) : Host.Outcome State Fault Refusal := atomRun 4 ty m fsel e d wit s
def execAtomXor (ty : Ty) (m : MAddr) (fsel : Bool) (e d wit : Reg) (s : State) : Host.Outcome State Fault Refusal := atomRun 5 ty m fsel e d wit s
def execAtomXchg (ty : Ty) (m : MAddr) (fsel : Bool) (e d wit : Reg) (s : State) : Host.Outcome State Fault Refusal := atomRun 6 ty m fsel e d wit s
def execAtomCas (ty : Ty) (m : MAddr) (fsel : Bool) (e d wit : Reg) (s : State) : Host.Outcome State Fault Refusal := atomRun 7 ty m fsel e d wit s

/-- A counter is checked with RD and W (R428). -/
def View.counterElem (v : View) (s : State) (m : MAddr) (operand : Nat → DWord) (t : Nat) : Except AFault AElem :=
  match v.locate s t m.space (v.ea t m) 8 .load with
  | .error f => .error f
  | .ok _ => v.atomElem s m 8 operand (fun _ => 0) t
/-- SLTAKE (R429): the path waits until every participating thread has its index. Where threads fault, the others issue it again. -/
def execSltake (m : MAddr) (d : Reg) (s : State) : Host.Outcome State Fault Refusal :=
  withView s (fun v =>
    let ts := v.acting m.g
    notWhileEnm v s ts (
      let r := gather (v.fresh (v.lanes m.g d)) (v.counterElem s m (fun _ => 0))
      if ts.isEmpty || v.crew.replay.isSome then emit s Fx.empty
      else if !r.bad.isEmpty then
        emit s { Fx.empty with raises := v.faults d.isCrew ts r.bad, again := if d.isCrew then [] else ts.filter (fun t => !r.bad.any (·.1 == t)) }
      else if r.ok.isEmpty then block s (.sltake d)
      else
        let u := v.iss.unit
        let c := s.core u
        let a : Atom := ⟨v.iss.who, 9, .u64, none, m.scope.code, false, [], [], some d, none, v.sculls, r.ok, s.free, v.site.stamp (s.origin u) c, v.grp.tag, [], none, false⟩
        let s := s.setCore u { c with atoms := c.atoms.put c.nextGid a, nextGid := c.nextGid + 1 }
        match block s (.sltake d) with
        | .next t => .next (t.push (.sltakeGrant u c.nextGid []))
        | o => o))
/-- SLPUT (R430). -/
def execSlput (m : MAddr) (after d wit : Reg) (s : State) : Host.Outcome State Fault Refusal :=
  withView s (fun v =>
    let ts := v.acting m.g
    notWhileEnm v s ts (withEvent v s ts (
      let r := gather (v.lanes m.g d) (fun t =>
        match v.witFault s t after m.scope.code with
        | some f => .error f
        | none => v.counterElem s m (fun t => (v.val t d).zeroExtend 64) t)
      let afters := (r.ok.map (fun e => v.afterOf e.t after)).filter (fun w => witKind w != 0)
      let a : Atom := ⟨v.iss.who, 10, .u64, none, m.scope.code, wit != .vz, afters, [], none, none, v.sculls, r.ok, 0, v.site, v.grp.tag, [], none, false⟩
      emit s { Fx.empty with
        raises := v.faults d.isCrew ts r.bad
        ops := if r.ok.isEmpty then [] else [.atom a (if wit = .vz then none else some wit)] })))

end Sys2Proof.Machine
end

