-- ==== Sys2Proof/Machine/Control.lean ====
section
/-! DEFINITION. Control transfers, waiting, barriers and register transfer between crews (R67, R78 to R81, R108, R196, R284,
R285, R338 to R340, R344, R345, R348 to R350, R371, R380, R395, R409, R418, R421, R422, R442). -/
namespace Sys2Proof.Machine

/-- The target of a direct transfer (R48). -/
def directTarget (pc : Nat) (imm : Word) : Nat :=
  wrapNat 64 ((lineOf pc : Int) + 64 * (imm.extractLsb' 3 29).toInt) + imm.toNat % 8

/-- Threads go to their targets, each target checked under R47; a thread whose target fails takes the cause. -/
def branchFx (v : View) (s : State) (ts : List Nat) (tgt : Nat → Nat) : Fx :=
  let bad (t : Nat) : Option (Nat × Nat) := s.badTarget v.iss.unit v.grp.ctx (tgt t)
  { Fx.empty with
    raises := ts.filterMap (fun t => (bad t).map (fun c => raiseAt v t (c.1, c.2, tgt t)))
    jumps := (ts.filter (fun t => (bad t).isNone)).map (fun t => (t, BitVec.ofNat 64 (tgt t))) }

def execBra (g : Guard) (target : Word) (s : State) : Host.Outcome State Fault Refusal :=
  withView s (fun v => emit s (branchFx v s (v.acting g) (fun _ => directTarget v.iss.pc.toNat target)))
/-- BRD (R345): a crew-register counter is decremented once, and its outcome is the whole crew's. -/
def execBrd (g : Guard) (a : Reg) (target : Word) (s : State) : Host.Outcome State Fault Refusal :=
  withView s (fun v =>
    let go := (v.acting g).filter (fun t => v.val t a - 1 != 0)
    emit s { branchFx v s go (fun _ => directTarget v.iss.pc.toNat target) with
      wr := (v.lanes g a).flatMap (fun t => v.w1 t a (v.val t a - 1) intTag) })
def execBrx (g : Guard) (a : Reg) (s : State) : Host.Outcome State Fault Refusal :=
  withView s (fun v => emit s (branchFx v s (v.acting g) (fun t => (v.pair t a).toNat)))
/-- CALL (R348): the return address of R47, then the transfer. -/
def execCall (g : Guard) (d : Reg) (tg : CallTgt) (s : State) : Host.Outcome State Fault Refusal :=
  withView s (fun v => emit s { branchFx v s (v.acting g) (fun t =>
      match tg with | .direct imm => directTarget v.iss.pc.toNat imm | .indirect a => (v.pair t a).toNat) with
    wr := (v.lanes g d).flatMap (fun t => v.w2 t d v.iss.next intTag intTag) })
/-- RET (R422): no target check but the form of R46. -/
def execRet (g : Guard) (a : Reg) (s : State) : Host.Outcome State Fault Refusal :=
  withView s (fun v =>
    let tgt (t : Nat) : Nat := (v.pair t a).toNat
    emit s { Fx.empty with
      raises := ((v.acting g).filter (fun t => pcBad (tgt t))).map (fun t =>
        raiseAt v t (if tgt t / 2 ^ 56 ≠ 0 then (0x12, 0, tgt t) else (0x03, 2, tgt t)))
      jumps := ((v.acting g).filter (fun t => !pcBad (tgt t))).map (fun t => (t, v.pair t a)) })
/-- BSIG (R108). -/
def execBsig (kind : SigKind) (n : Fin 64) (g : Guard) (a : Reg) (target : Word) (s : State) : Host.Outcome State Fault Refusal :=
  withView s (fun v => emit s (branchFx v s ((v.acting g).filter (bsigTaken v kind n.val a)) (fun _ => directTarget v.iss.pc.toNat target)))

/-- A completion flag named in the mask is not clear in one of the sculls (R45, R418). -/
def flagsHeld (w : Crew) (parts : List Nat) (mask : Nat) : Bool :=
  parts.any (fun k => (bitsOf 12 mask).any (fun f => (w.scull k).cf.getD f 0 != 0))
def execRecv (mask : BitVec 12) (s : State) : Host.Outcome State Fault Refusal :=
  withView s (fun v => if flagsHeld v.crew v.iss.parts mask.toNat && v.crew.replay.isNone then block s (.flags mask.toNat) else emit s Fx.empty)
/-- REGANG (R78): a converged crew goes on; any other path waits for the ganging. -/
def execRegang (s : State) : Host.Outcome State Fault Refusal :=
  withView s (fun v =>
    if v.crew.converged then emit s Fx.empty
    else match block s .regang with
      | .next t => .next (t.push (.regangGang v.iss.unit v.slot))
      | r => r)
/-- EXIT (R371). -/
def execExit (g : Guard) (s : State) : Host.Outcome State Fault Refusal :=
  withView s (fun v => emit s { Fx.empty with gone := v.acting g })
def execNop (_g : Guard) (s : State) : Host.Outcome State Fault Refusal := emit s Fx.empty

/-- YIELD (R442): the candidate is not ready for the next n cycles of its core, or until another candidate has issued (0). -/
def execYield (n : BitVec 16) (s : State) : Host.Outcome State Fault Refusal :=
  withView s (fun v =>
    let y : Nat := if n = 0 then 0 else v.core.ccyc + n.toNat + 1
    let mark (w : Crew) : Crew :=
      if w.parted then v.iss.parts.foldl (fun w k => w.setScull k { w.scull k with yielded := some y }) w else { w with yielded := some y }
    emit (s.modCrew v.iss.unit v.slot mark) Fx.empty)

/-- CATCH (R196, R349): during a job cut the crew stops and reports its step. -/
def execCatch (g : Guard) (n : Word) (s : State) : Host.Outcome State Fault Refusal :=
  withView s (fun v =>
    match (s.ctx v.grp.ctx).cut with
    | some cut =>
      if (v.acting g).isEmpty || cut.failed || cut.completed || v.crew.replay.isSome then emit s Fx.empty
      else
        let top := match cut.step with | some m => max m n.toNat | none => n.toNat
        let x := s.ctx v.grp.ctx
        (match block s (.catch n.toNat) with
         | .next t => .next ((t.setCtx v.grp.ctx { x with cut := some { cut with step := some top } }).push (.jobCutRelease v.grp.ctx))
         | r => r)
    | none => emit s Fx.empty)

/-! MARK and the trace ring (R284, R285). -/

def ringLen (c : Core) : Nat := 65536 * bitsAt c.trbase.toNat 0 16
/-- Append a trace record of 8 bytes, or count a drop; whether it was written. The ring's addresses are the system context's (log entry 15). -/
def State.trace (s : State) (u gid : Nat) (rec : Nat) : State × Bool :=
  let c := s.core u
  let len := ringLen c
  if len = 0 then (s, false)
  else
    let next := bitsAt c.trhead.toNat 0 32
    let drops := bitsAt c.trhead.toNat 48 16
    if (next + 8) % len = bitsAt c.trtail.toNat 0 32 then
      (s.setCore u { c with trhead := BitVec.ofNat 64 (min (drops + 1) 0xFFFF * 2 ^ 48 + next) }, false)
    else
      let s := match s.locGlobal (clusterOf u) 0 ((bitsAt c.trbase.toNat 16 40 * 2 ^ 16 + next) % 2 ^ 64) 8 .store with
        | .ok ps => (s.coreStore u gid 4 (zipPieces ps (bytesOf 8 rec))).1
        | .error _ => s
      (s.modCore u (fun c => { c with trhead := BitVec.ofNat 64 (drops * 2 ^ 48 + (next + 8) % len) }), true)
def execMark (g : Guard) (id : BitVec 24) (s : State) : Host.Outcome State Fault Refusal :=
  withView s (fun v =>
    if (v.acting g).isEmpty || !bitAt v.crew.dbgctl.toNat 9 || v.crew.replay.isSome then emit s Fx.empty
    else withEvent v s (v.acting g) (
      let rec_ := id.toNat * 2 ^ 40 + v.slot * 2 ^ 34 + min v.crew.sinceMark (2 ^ 34 - 1)
      let r := s.trace v.iss.unit v.crew.gid rec_
      emit (if r.2 then r.1.modCrew v.iss.unit v.slot (fun w => { w with sinceMark := 0 }) else r.1) Fx.empty))

/-! GIVE and CLAIM (R80, R81, R350, R380). -/

/-- GIVE and CLAIM move whole eights, and at least one. -/
def eightsBad (n : Nat) : Bool := n % 8 != 0 || n == 0
/-- Drop the registers at and above a count. -/
def Crew.trim (w : Crew) (count : Nat) : Crew :=
  { w with count := count, regs := w.regs.filter (fun e => decide (e.1 < 32 * count ∨ 7168 ≤ e.1)) }
def execGive (g : Guard) (n : Word) (s : State) : Host.Outcome State Fault Refusal :=
  withView s (fun v =>
    let ts := v.acting g
    if ts.isEmpty then emit s Fx.empty
    else if eightsBad n.toNat || decide (n.toNat + 8 > v.crew.count) then emit s (raiseAll v ts 0x02 64 0)
    else
      let left := v.crew.count - n.toNat
      let pend := (v.core.pendingKeys v.iss.who).filter (fun k => decide (32 * left ≤ k ∧ k < 7168))
      if v.crew.replay.isSome then emit (s.modCrew v.iss.unit v.slot (fun w => w.trim left)) Fx.empty
      else if pend.isEmpty then
        emit ((s.modCrew v.iss.unit v.slot (fun w => w.trim left)).returnRegs v.iss.unit v.crew.gid (32 * n.toNat)) Fx.empty
      else block s (.regs pend))
def execClaim (g : Guard) (n : Word) (s : State) : Host.Outcome State Fault Refusal :=
  withView s (fun v =>
    let ts := v.acting g
    if ts.isEmpty then emit s Fx.empty
    else if eightsBad n.toNat || decide (v.crew.count + n.toNat > 224) then emit s (raiseAll v ts 0x02 64 0)
    else if v.crew.replay.isSome then emit (s.modCrew v.iss.unit v.slot (fun w => { w with count := w.count + n.toNat })) Fx.empty
    else match block s (.claim n.toNat) with
      | .next t => .next ((t.modCore v.iss.unit (fun c => { c with claims := c.claims ++ [v.slot] })).push (.claimGrant v.iss.unit))
      | r => r)

/-! Barriers (R67, R338 to R340). -/

def Group.barrier (g : Group) (bnd key : Nat) : Barrier := (g.bars.find? (fun b => b.bnd == bnd && b.key == key)).getD ⟨bnd, key, 0, []⟩
def Group.setBarrier (g : Group) (b : Barrier) : Group :=
  { g with bars := g.bars.filter (fun x => !(x.bnd == b.bnd && x.key == b.key)) ++ [b] }
def Thread.clearBara (t : Thread) (bnd : Nat) : Thread := { t with bara := t.bara.filter (fun p => p.1 != bnd) }
/-- Threads of a crew change their outstanding arrivals. -/
def Crew.modThreads (w : Crew) (ts : List Nat) (f : Thread → Thread) : Crew := { w with threads := imap w.threads (fun t x => if ts.contains t then f x else x) }
/-- A level of R67. -/
def levelBad (h : List DWord) (j : Nat) : Bool := decide (hdrBound h j < 5 ∨ hdrBound h j > hdrBG h)
/-- Arrivals of threads of a crew slot at a barrier's current phase. -/
def Group.arrive (g : Group) (b : Barrier) (slot : Nat) (ts : List Nat) : Group :=
  g.setBarrier { b with arrived := b.arrived ++ (ts.map (fun t => 32 * slot + t)).filter (fun x => !b.arrived.contains x) }

/-- The barrier of a level for the crew of a view. -/
def View.barrier (v : View) (j : Nat) : Barrier :=
  let b := hdrBound v.grp.hdr j
  v.grp.barrier b (v.grp.firstWid v.crew / 2 ^ b)

/-- Wait at a barrier, after arrivals and thread changes are in place. -/
def waitBarrier (v : View) (s : State) (b : Barrier) (phase : Nat) (d : Reg) (ts : List Nat) (status : Nat) : Host.Outcome State Fault Refusal :=
  match block s (.bar b.bnd b.key phase d (maskOf ts) status) with
  | .next t => .next (t.push (.barrierPhaseComplete v.iss.unit v.crew.gid b.bnd b.key))
  | r => r

/-- The status of a barrier while the crew replays: no log holds it (log entry 16). -/
def replayStatus (v : View) (s : State) (ts : List Nat) (d : Reg) : Fx :=
  { Fx.empty with wr := ts.flatMap (fun t => v.w1 t d (Config.replayValue s.free) intTag) }
/-- The status of a barrier instruction that issues now: 1 for the first after a kill of a sibling crew (R305, R340). -/
def View.barStatus (v : View) : Nat := if v.crew.abandoned then 1 else 0
/-- Threads that issue a barrier instruction for the first time take its status, which they keep while they wait or issue it again, and the mark
of a kill is used up. -/
def Crew.takeStatus (w : Crew) (new : List Nat) (st : Nat) : Crew :=
  { w.modThreads new (fun x => { x with barst := some st }) with abandoned := w.abandoned && new.isEmpty }
/-- BAR, and BARW of threads without an arrival: `out` are the threads whose outstanding arrival BARW awaits (R339). A thread that has
issued the instruction and is not among the arrived has seen its phase complete; where threads of one path wait for different phases,
those whose phase is complete go on and the others issue again (log entry 49). -/
def barWait (s : State) (v : View) (j : Nat) (d : Reg) (ts out : List Nat) : Host.Outcome State Fault Refusal :=
  if ts.isEmpty then emit s Fx.empty
  else if levelBad v.grp.hdr j then emit s (raiseAll v ts 0x02 34 0)
  else if v.crew.replay.isSome then
    emit (s.modCrew v.iss.unit v.slot (fun w => w.modThreads out (fun t => t.clearBara (hdrBound v.grp.hdr j)))) (replayStatus v s ts d)
  else
    let b := v.barrier j
    let new := v.fresh ts
    let first := v.barStatus
    let status (t : Nat) : Nat := if new.contains t then first else (v.crew.thread t).barst.getD 0
    let waits (t : Nat) : Bool :=
      if out.contains t then (v.crew.thread t).outstanding b.bnd == some b.phase
      else new.contains t || b.arrived.contains (32 * v.slot + t)
    let past := ts.filter (fun t => !waits t)
    let stay := ts.filter waits
    let s := s.modCrew v.iss.unit v.slot (fun w =>
      (w.modThreads (if past.isEmpty then out else out.filter past.contains) (fun t => t.clearBara b.bnd)).takeStatus new first)
    if past.isEmpty then
      let s := s.modGroup v.iss.unit v.crew.gid (fun g => g.arrive b v.slot (ts.filter (fun t => !out.contains t)))
      waitBarrier v s b b.phase d ts first
    else emit s { Fx.empty with wr := past.flatMap (fun t => v.w1 t d (BitVec.ofNat 32 (status t)) intTag), again := stay }
def execBar (g : Guard) (lvl : Fin 7) (d : Reg) (s : State) : Host.Outcome State Fault Refusal :=
  withView s (fun v => barWait s v lvl.val d (v.acting g) [])
def execBarw (g : Guard) (lvl : Fin 7) (d : Reg) (s : State) : Host.Outcome State Fault Refusal :=
  withView s (fun v => barWait s v lvl.val d (v.acting g)
    ((v.acting g).filter (fun t => ((v.crew.thread t).outstanding (hdrBound v.grp.hdr lvl.val)).isSome)))
/-- BARA (R339): arrive and go on. Threads whose arrival at the current phase is outstanding wait for it, and the BARA issues again for
them; the others arrive at once. -/
def execBara (g : Guard) (lvl : Fin 7) (d : Reg) (s : State) : Host.Outcome State Fault Refusal :=
  withView s (fun v =>
    let ts := v.acting g
    if ts.isEmpty then emit s Fx.empty
    else if levelBad v.grp.hdr lvl.val then emit s (raiseAll v ts 0x02 34 0)
    else
      let b := v.barrier lvl.val
      let arrive (x : Thread) : Thread := { x.clearBara b.bnd with bara := (x.clearBara b.bnd).bara ++ [(b.bnd, b.phase)] }
      if v.crew.replay.isSome then emit (s.modCrew v.iss.unit v.slot (fun w => w.modThreads ts arrive)) (replayStatus v s ts d)
      else
        let out := ts.filter (fun t => (v.crew.thread t).outstanding b.bnd == some b.phase)
        let new := ts.filter (fun t => !out.contains t)
        let first := v.fresh ts
        let status (t : Nat) : Nat := if first.contains t then v.barStatus else (v.crew.thread t).barst.getD 0
        let s := s.modCrew v.iss.unit v.slot (fun w => (w.modThreads new arrive).takeStatus first v.barStatus)
        if new.isEmpty then
          match block s (.bara b.bnd b.key b.phase) with
          | .next t => .next (t.push (.barrierPhaseComplete v.iss.unit v.crew.gid b.bnd b.key))
          | r => r
        else
          let s := s.modGroup v.iss.unit v.crew.gid (fun g => g.arrive b v.slot new)
          emit (s.push (.barrierPhaseComplete v.iss.unit v.crew.gid b.bnd b.key))
            { Fx.empty with wr := new.flatMap (fun t => v.w1 t d (BitVec.ofNat 32 (status t)) intTag), again := out })

/-- Every thread of a barrier's set has arrived, or counts as arrived (R339). -/
def State.barrierFull (s : State) (u gid : Nat) (b : Barrier) : Bool :=
  let g := (s.group? u gid).getD Group.blank
  g.slots.all (fun slot =>
    match s.crew? u slot with
    | none => true
    | some w =>
      g.firstWid w / 2 ^ b.bnd != b.key ||
      (List.range 32).all (fun t => !(w.thread t).live || bitAt (w.scull (t / 4)).pkmask (t % 4) || b.arrived.contains (32 * slot + t)))
/-- BARRIER_PHASE_COMPLETE: the phase ends, its waiting paths take their status and go on. -/
def execBarrierPhaseComplete (u gid bnd key : Nat) (s : State) : Host.Outcome State Fault Refusal :=
  let g := (s.group? u gid).getD Group.blank
  let b := g.barrier bnd key
  if b.arrived.isEmpty || !s.barrierFull u gid b then .next s
  else
    let s := s.modGroup u gid (fun g => g.setBarrier { b with phase := b.phase + 1, arrived := [] })
    let at_ (p : Path) : Bool := match p.wait with | .bar c k ph _ _ _ => c == bnd && k == key && decide (ph ≤ b.phase) | _ => false
    let again (p : Path) : Bool := match p.wait with | .bara c k ph => c == bnd && k == key && decide (ph ≤ b.phase) | _ => false
    let wr (slot k : Nat) (p : Path) : List RegW :=
      match p.wait with
      | .bar _ _ _ d m st => ((p.threads k).filter (fun t => bitAt m t)).flatMap (fun t =>
          regWrite t d (BitVec.ofNat 32 ((((s.crew? u slot).getD Crew.blank).thread t).barst.getD st)))
      | _ => []
    .next (g.slots.foldl (fun s slot => (s.endWait u slot (fun _ p => at_ p) (wr slot)).retryWait u slot again) s)

/-- CLAIM_GRANT: the first waiting CLAIM gets its registers, from its group's extension units first (R81, R138, R249). -/
def execClaimGrant (u : Nat) (s : State) : Host.Outcome State Fault Refusal :=
  let c := s.core u
  match c.claims with
  | [] => .next s
  | slot :: rest =>
    match c.crews.find? slot with
    | none => .next (s.setCore u { c with claims := rest })
    | some w =>
      let want := w.sculls.foldl (fun n x => x.paths.foldl (fun n p => match p.wait with | .claim k => k | _ => n) n) 0
      let g := c.groups.get Group.blank w.gid
      if want = 0 then .next (s.setCore u { c with claims := rest })
      else if 32 * want > g.regxFree + c.pool then .next s
      else
        let ext := min g.regxFree (32 * want)
        let s := s.setCore u { c with claims := rest, pool := c.pool - (32 * want - ext), groups := c.groups.modify w.gid (fun g => { g with regxFree := g.regxFree - ext }) }
        let s := s.modCrew u slot (fun w => { w with count := w.count + want })
        let s := s.endWait u slot (fun _ p => match p.wait with | .claim _ => true | _ => false) (fun _ _ => [])
        .next (if rest.isEmpty then s else s.push (.claimGrant u))

/-- REGANG_GANG (R78): when every scull that still counts has arrived, the crew gangs, or each goes on where their PCs differ. -/
def execRegangGang (u slot : Nat) (s : State) : Host.Outcome State Fault Refusal :=
  match s.crew? u slot with
  | none => .next s
  | some w =>
    let live := (List.range 8).filter (fun k => !(w.scull k).gone)
    let w := live.foldl (fun w k => w.setScull k (w.merged k)) w
    let s := s.modCrew u slot (fun _ => w)
    let at_ (p : Path) : Bool := p.wait == .regang
    let here := live.all (fun k => (w.scull k).stack.isEmpty && (match (w.scull k).run with | some p => at_ p | none => false))
    if live.isEmpty || !here then .next s
    else .next ((s.endWait u slot (fun _ p => at_ p) (fun _ _ => [])).modCrew u slot Crew.gang)

/-- YIELD_EXPIRY: candidates whose yield has run its cycles are ready again. -/
def execYieldExpiry (u slot : Nat) (s : State) : Host.Outcome State Fault Refusal :=
  let now := (s.core u).ccyc
  let elapsed (y : Option Nat) : Option Nat := match y with | some n => if n != 0 && decide (n ≤ now) then none else some n | none => none
  .next (s.modCrew u slot (fun w => { w with yielded := elapsed w.yielded, sculls := w.sculls.map (fun x => { x with yielded := elapsed x.yielded }) }))

end Sys2Proof.Machine
end

