-- ==== Sys2Proof/Machine/Cross.lean ====
section
/-! DEFINITION. Instructions that move or combine values between threads, checksums and noise (R122, R123, R262 to R264, R347,
R356 to R358, R407, R419, R420, R427, R439). -/
namespace Sys2Proof.Machine

/-- A value in a reduction with its trust and the conditions its combines raised. -/
structure Elem where
  x : Nat
  tr : Trust
  conds : Conds
  deriving DecidableEq, Repr

/-- Combine two positions of which either may be absent (R122, R123). -/
def combine {α : Type} (op : α → α → α) : Option α → Option α → Option α
  | some a, some b => some (op a b)
  | some a, none => some a
  | none, b => b
/-- One level of the tree of R122. -/
def pairUp {α : Type} (op : α → α → α) : List (Option α) → List (Option α)
  | [] => []
  | [x] => [x]
  | x :: y :: r => combine op x y :: pairUp op r
/-- The tree of R122 over `n` levels: the value of position 0. -/
def treeFold {α : Type} (op : α → α → α) : Nat → List (Option α) → Option α
  | 0, xs => xs.headD none
  | n + 1, xs => treeFold op n (pairUp op xs)
/-- One step of the scan of R123 at distance d. -/
def scanStep {α : Type} (op : α → α → α) (d : Nat) (xs : List (Option α)) : List (Option α) :=
  (List.zip (List.replicate d none ++ xs) xs).map (fun p => combine op p.1 p.2)
/-- The inclusive scan of R123. -/
def scanAll {α : Type} (op : α → α → α) (xs : List (Option α)) : List (Option α) := [1, 2, 4, 8, 16].foldl (fun xs d => scanStep op d xs) xs

def tyBits (ty : Ty) : Nat := if ty.wide then 64 else 32
def tySigned (ty : Ty) : Bool := ty == .i32 || ty == .i64
def tyFloat (ty : Ty) : Fmt := if ty = .f64 then fp64 else fp32

/-- A minimum or maximum of integers of a type. -/
def pickInt (ty : Ty) (isMax : Bool) (a b : Nat) : Nat :=
  let lt (x y : Nat) : Bool := if tySigned ty then decide (toSigned (tyBits ty) x < toSigned (tyBits ty) y) else decide (x < y)
  if isMax then (if lt a b then b else a) else (if lt b a then b else a)

/-- The combine of REDX and SCANX (R420). -/
def redCombine (op : RedOp) (ty : Ty) (mode : Mode) (a b : Elem) : Elem :=
  if ty.isFloat then
    let f := tyFloat ty
    let x : Opd := ⟨f.value a.x, a.tr⟩
    let y : Opd := ⟨f.value b.x, b.tr⟩
    let r := match op with | .add => outAdd f mode x y | .min => outPick f false a.x b.x x y | _ => outPick f true a.x b.x x y
    ⟨r.bits, r.tr, a.conds ||| b.conds ||| r.conds⟩
  else
    ⟨match op with
      | .add => (a.x + b.x) % 2 ^ tyBits ty
      | .min => pickInt ty false a.x b.x
      | .max => pickInt ty true a.x b.x
      | .and => a.x &&& b.x
      | .or => a.x ||| b.x
      | .xor => a.x ^^^ b.x, ⟨0, 0⟩, 0⟩

/-- The identity of an operation (R420). -/
def redIdentity (op : RedOp) (ty : Ty) : Elem :=
  if ty.isFloat then
    let f := tyFloat ty
    ⟨match op with | .add => f.signBit true | .min => f.infBits false | _ => f.infBits true, ⟨f.p, 0⟩, 0⟩
  else
    let w := tyBits ty
    ⟨match op with
      | .add => 0
      | .min => if tySigned ty then 2 ^ (w - 1) - 1 else 2 ^ w - 1
      | .max => if tySigned ty then 2 ^ (w - 1) else 0
      | .and => 2 ^ w - 1
      | .or => 0
      | .xor => 0, ⟨0, 0⟩, 0⟩

/-- The value of a thread as an element of a reduction. -/
def View.elem (v : View) (t : Nat) (ty : Ty) (a : Reg) : Elem :=
  let x := if ty.wide then (v.pair t a).toNat else (v.val t a).toNat
  ⟨x, if ty.isFloat then readTag (tyFloat ty).p (v.tag t a) else ⟨0, 0⟩, 0⟩
/-- The 32 positions: the participating threads' values (R420). -/
def View.positions (v : View) (g : Guard) (ty : Ty) (a : Reg) : List (Option Elem) :=
  (List.range 32).map (fun t => if (v.acting g).contains t then some (v.elem t ty a) else none)
/-- Write an element as the type's value, with its floor comparison (R104). -/
def outElem (v : View) (t : Nat) (ty : Ty) (d : Reg) (e : Elem) : Fx :=
  match ty with
  | .f32 => out32 v t d ⟨e.x, e.tr, 0⟩
  | .f64 => out64 v t d ⟨e.x, e.tr, 0⟩
  | ty => floatFx v t (v.wTy t ty.wide d (BitVec.ofNat 32 e.x, intTag) (BitVec.ofNat 32 (e.x / 2 ^ 32), intTag)) 0 false
/-- Conditions set in every scull that holds a participating thread (R420). -/
def condsAll (ts : List Nat) (c : Conds) : Fx := if c = 0 then Fx.empty else { Fx.empty with conds := ts.map (fun t => (t, c)) }
/-- The rounding mode of a cross-thread instruction: that of its lowest participating thread's path. -/
def View.modeFor (v : View) (g : Guard) (rm : Rnd) : Mode := modeOf rm (v.fmtr ((v.acting g).headD 0))

def execRedx (op : RedOp) (rm : Rnd) (ty : Ty) (o : R1) (s : State) : Host.Outcome State Fault Refusal :=
  withView s (fun v => emit s
    (match treeFold (redCombine op ty (v.modeFor o.g rm)) 5 (v.positions o.g ty o.a) with
     | none => Fx.empty
     | some e => (fxAll (v.lanes o.g o.d) (fun t => outElem v t ty o.d e)).append (condsAll (v.acting o.g) e.conds)))

def execScanx (op : RedOp) (ex : Bool) (rm : Rnd) (ty : Ty) (o : R1) (s : State) : Host.Outcome State Fault Refusal :=
  withView s (fun v =>
    let xs := scanAll (redCombine op ty (v.modeFor o.g rm)) (v.positions o.g ty o.a)
    let c := xs.foldl (fun (c : Conds) x => match x with | some e => c ||| e.conds | none => c) 0
    let at_ (t : Nat) : Elem := if ex then (match t with | 0 => redIdentity op ty | k + 1 => (xs.getD k none).getD (redIdentity op ty))
      else (xs.getD t none).getD (redIdentity op ty)
    emit s ((fxAll (v.acting o.g) (fun t => outElem v t ty o.d (at_ t))).append (condsAll (v.acting o.g) c)))

/-- The source thread of SHFL, if it is valid (R427). -/
def shflSource (mode : ShflMode) (w t k : Nat) : Option Nat :=
  let b := t - t % w
  match mode with
  | .idx => some (b + k % w)
  | .up => if k ≤ t ∧ b ≤ t - k then some (t - k) else none
  | .down => if t + k < b + w then some (t + k) else none
  | .xor => some (t ^^^ (k % w))
def execShfl (ty : Ty) (seg : Fin 8) (mode : ShflMode) (o : R2) (s : State) : Host.Outcome State Fault Refusal :=
  withView s (fun v => emit s { Fx.empty with wr := (v.acting o.g).flatMap (fun t =>
    let from_ := match shflSource mode (2 ^ seg.val) t ((v.src t o.b).1.toNat % 32) with
      | some q => if (v.acting o.g).contains q then q else t
      | none => t
    v.wTy t ty.wide o.d (v.rTy from_ o.a).1 (v.rTy from_ o.a).2) })

/-- The value of VOTE over the participating threads (R439). -/
def voteValue (mode : VoteMode) (xs : List (Nat × Word)) : Word :=
  let on (x : Nat × Word) : Bool := bitAt x.2.toNat 0
  match mode with
  | .all => boolWord (xs.all on)
  | .any => boolWord (xs.any on)
  | .eq => boolWord (match xs with | [] => true | x :: r => r.all (fun y => y.2 == x.2))
  | .ballot => BitVec.ofNat 32 (maskOf ((xs.filter on).map (·.1)))
def execVote (mode : VoteMode) (o : R1) (s : State) : Host.Outcome State Fault Refusal :=
  withView s (fun v => emit s (setEach v o.g o.d (fun _ => voteValue mode ((v.acting o.g).map (fun t => (t, v.val t o.a))))))

/-- The order of R262: pair x comes before pair y. -/
def beforeF32 (x y : Word × Word) : Bool :=
  let a := fp32.value x.1.toNat
  let b := fp32.value y.1.toNat
  if a.isNan then b.isNan && decide (x.2.toNat < y.2.toNat)
  else if b.isNan then true
  else if ltTotal b a then true
  else if ltTotal a b then false
  else decide (x.2.toNat < y.2.toNat)
/-- The order of BXCH and MRGK under TY 1 (R347). -/
def beforeU32 (x y : Word × Word) : Bool := decide (y.1.toNat < x.1.toNat) || (x.1 == y.1 && decide (x.2.toNat < y.2.toNat))
def pairBefore (ty : Ty) (x y : Word × Word) : Bool := if ty = .f32 then beforeF32 x y else beforeU32 x y
def View.keyPair (v : View) (t : Nat) (a : Reg) : Word × Word := (v.val t a, v.val t (regPlus a 1))

/-- The thread whose pair thread i keeps (R347); of equal pairs the lower thread's comes first. -/
def bxchKept (v : View) (ty : Ty) (dist k : Nat) (g : Guard) (a : Reg) (i : Nat) : Nat :=
  let j := i ^^^ dist
  if (v.acting g).contains j then
    let lo := min i j
    let hi := max i j
    let swapped := pairBefore ty (v.keyPair hi a) (v.keyPair lo a)
    let first := if swapped then hi else lo
    let other := if swapped then lo else hi
    if decide (i < j) == decide (i &&& k = 0) then first else other
  else i
def execBxch (ty : Ty) (lk l : Fin 8) (o : R1) (s : State) : Host.Outcome State Fault Refusal :=
  withView s (fun v => emit s { Fx.empty with wr := (v.lanes o.g o.d).flatMap (fun t =>
    let q := bxchKept v ty (2 ^ l.val) (2 ^ lk.val) o.g o.a t
    v.wTy t true o.d (v.rTy q o.a).1 (v.rTy q o.a).2) })
def execMrgk (ty : Ty) (o : R1) (s : State) : Host.Outcome State Fault Refusal :=
  withView s (fun v =>
    let w := match v.acting o.g with
      | [] => 0
      | t :: ts => ts.foldl (fun b q => if pairBefore ty (v.keyPair q o.a) (v.keyPair b o.a) then q else b) t
    emit s (setEach v o.g o.d (fun _ => BitVec.ofNat 32 w)))

/-- The ten rounds of R264. -/
def noiseRounds : Nat → Word → Word → Word → Word → Word → Word → Word
  | 0, a, _, _, _, _, _ => a
  | n + 1, a, b, c, d, k0, k1 =>
    let p : DWord := a.zeroExtend 64 * 0xB5AD4ECF#64
    let q : DWord := c.zeroExtend 64 * 0xE6E96ED3#64
    noiseRounds n (hiWord q ^^^ b ^^^ k0) (loWord q) (hiWord p ^^^ d ^^^ k1) (loWord p) (k0 + 0x9E3779B9#32) (k1 + 0xBB67AE85#32)
/-- The value NOISE writes with its tag (R264). -/
def noiseValue (ty : Ty) (a b c k0 k1 : Word) : Word × Tag :=
  let r := noiseRounds 10 a b c 0x9E3779B9#32 k0 k1
  if ty = .u32 then (r, intTag)
  else (BitVec.ofNat 32 (fp32.round .near false false (2 * bitsAt r.toNat 9 23 + 1) (-24)).bits, Trust.tag ⟨24, 0⟩)
def execNoise (ty : Ty) (o : R3) (s : State) : Host.Outcome State Fault Refusal :=
  withView s (fun v => emit s { Fx.empty with wr := (v.lanes o.g o.d).flatMap (fun t =>
    let x := noiseValue ty (v.val t o.c) (v.val t (regPlus o.c 1)) (v.src t o.b).1 (v.val t o.a) (v.val t (regPlus o.a 1))
    v.w1 t o.d x.1 x.2) })

/-- One FP64 addition of CSACC: nearest-even, no condition (R357). -/
def csAdd (acc : Nat) (x : FVal) : Nat := (fp64.add .near (fp64.value acc) x).bits
/-- The new accumulator of CSACC (R357). -/
def csaccValue (ty : Ty) (acc : DWord) (a : DWord) : DWord :=
  match ty with
  | .u32 | .u64 => acc + a
  | .f64 => BitVec.ofNat 64 (csAdd acc.toNat (fp64.value a.toNat))
  | .bf16x2 => BitVec.ofNat 64 (csAdd (csAdd acc.toNat (bf16.value (a.toNat % 2 ^ 16))) (bf16.value (bitsAt a.toNat 16 16)))
  | .f16x2 => BitVec.ofNat 64 (csAdd (csAdd acc.toNat (fp16.value (a.toNat % 2 ^ 16))) (fp16.value (bitsAt a.toNat 16 16)))
  | _ => BitVec.ofNat 64 (csAdd acc.toNat (fp32.value (a.toNat % 2 ^ 32)))
def execCsacc (ty : Ty) (o : R1) (s : State) : Host.Outcome State Fault Refusal :=
  withView s (fun v => emit s (setEachPair v o.g o.d (fun t =>
    csaccValue ty (v.pair t o.d) (if ty.wide then v.pair t o.a else (v.val t o.a).zeroExtend 64))))

/-- A finite value's magnitude in units of 2^e0. -/
def magAt (x : FVal) (e0 : Int) : Nat := match x with | .fin _ m e => m <<< (e - e0).toNat | _ => 0
def expOf : FVal → Int | .fin _ _ e => e | _ => 0
/-- What CSCHK finds wrong, as its subcode (R358). -/
def cschkFails (ty : Ty) (k : Nat) (x y : DWord) : Option Nat :=
  if ty ≠ .f64 then (if x ≠ y then some 0 else none)
  else
    let a := fp64.value x.toNat
    let b := fp64.value y.toNat
    if a.isNan || b.isNan then some 2
    else if cmpVal a b == 0 then none
    else if a.isInf || b.isInf then none
    else
      let e0 := min (expOf a) (expOf b)
      let diff := (scaled a.neg (magAt a e0) 0 0 - scaled b.neg (magAt b e0) 0 0).natAbs
      if diff * 2 ^ k > max (magAt a e0) (magAt b e0) then some 1 else none
def execCschk (ty : Ty) (k : Fin 64) (g : Guard) (a b : Reg) (s : State) : Host.Outcome State Fault Refusal :=
  withView s (fun v =>
    let rs := (v.acting g).filterMap (fun t => (cschkFails ty k.val (v.pair t a) (v.pair t b)).map
      (fun sub => ({ t := t, cause := 0x28, sub := sub, faddr := 0, next := true, mem := v.iss.idx } : Raise)))
    emit s { Fx.empty with raises := rs, suspects := if rs.isEmpty then 0 else 8 })

end Sys2Proof.Machine
end

