-- ==== Sys2Proof/Machine/Witness.lean ====
section
/-! DEFINITION. Witness instructions and fences (R161, R166, R167, R172 to R175, R375, R417, R440). -/
namespace Sys2Proof.Machine

/-- A witness that takes part in WMERGE: neither null nor expired. -/
def State.counts (s : State) (w : DWord) : Bool := witKind w != 0 && !s.expired w
/-- The scope s' of a merge (R166). -/
def State.mergeScope (s : State) (a b : DWord) (sc : Nat) : Nat :=
  let f (m : Nat) (w : DWord) : Nat := if s.counts w then min m (witScope w) else m
  f (f sc a) b
/-- `a` is later than `b` (R166). -/
def seqLater (a b : Nat) : Bool := decide (1 ≤ (a + 2 ^ 30 - b) % 2 ^ 30 ∧ (a + 2 ^ 30 - b) % 2 ^ 30 ≤ 2 ^ 29 - 1)
/-- Two single or two host witnesses of one origin and incarnation. -/
def sameOrigin (a b : DWord) : Bool :=
  ((witKind a == 1 && witKind b == 1) || (witKind a == 3 && witKind b == 3)) &&
  witOrigin a == witOrigin b && witMod a == witMod b && witInc a == witInc b
/-- The result of a merge, and the witnesses it first waits for (R166). -/
def State.merge (s : State) (unit : Nat) (a b : DWord) (sc : Nat) : DWord × List (DWord × Nat) :=
  let sc' := s.mergeScope a b sc
  let settled := mkWit sc' 2 s.modnum unit 0 0
  if !s.counts a then (b, [])
  else if !s.counts b then (a, [])
  else if sameOrigin a b then
    (mkWit (min (witScope a) (witScope b)) (witKind a) (witMod a) (witOrigin a) (witInc a) (if seqLater (witSeq b) (witSeq a) then witSeq b else witSeq a), [])
  else if witKind a = 2 ∧ witKind b = 2 then (settled, [])
  else (settled, [(a, sc'), (b, sc')])
/-- The witnesses of a list that are not yet satisfied. -/
def State.unsatisfied (s : State) (ws : List (DWord × Nat)) : List (DWord × Nat) := ws.filter (fun p => !s.satisfied p.1 p.2)

/-- The check of a witness at a consumer, as a fault with the witness's low half (R161). -/
def View.witCheck (v : View) (s : State) (w : DWord) (sc : Nat) : Option AFault :=
  match s.witBad v.iss.unit w sc with | some c => some (c.1, c.2, w.toNat % 2 ^ 32) | none => none

/-- The threads have waited for a witness: their later loads bind after their earlier ones (R171). -/
def View.markWait (v : View) (s : State) (ts : List Nat) : State :=
  if ts.isEmpty then s
  else s.modCrew v.iss.unit v.slot (fun w => { w with threads := imap w.threads (fun t x => if ts.contains t then { x with mark := v.core.nextGid } else x) })
/-- End or hold a witness instruction: faulting threads take their cause, and while a witness is awaited the other threads
issue it again. -/
def witRun (v : View) (s : State) (merge uniform : Bool) (acting : List Nat) (bad : List (Nat × AFault)) (good : List Nat) (wait : List (DWord × Nat))
    (wr : List RegW) : Host.Outcome State Fault Refusal :=
  if wait.isEmpty || v.crew.replay.isSome then emit s { Fx.empty with raises := v.faults uniform acting bad, wr := wr, log := [] }
  else if bad.isEmpty then block s (.wit wait merge)
  else emit s { Fx.empty with raises := v.faults uniform acting bad, again := good }

def execWmerge (sc : Scope) (g : Guard) (d a b : Reg) (s : State) : Host.Outcome State Fault Refusal :=
  withView s (fun v =>
    let r := gather (v.lanes g d) (fun t =>
      let x := v.pair t a
      let y := v.pair t b
      let sc' := s.mergeScope x y sc.code
      match v.witCheck s x sc' with
      | some f => .error f
      | none => match v.witCheck s y sc' with | some f => .error f | none => .ok (t, s.merge v.iss.unit x y sc.code))
    let s := v.markWait s ((r.ok.filter (fun p => !p.2.2.isEmpty)).map (·.1))
    witRun v s true d.isCrew (v.acting g) r.bad (r.ok.map (·.1)) (s.unsatisfied (r.ok.flatMap (·.2.2)))
      (r.ok.flatMap (fun p => v.w2 p.1 d p.2.1 intTag intTag)))
/-- A fence or a witness wait stands between the issuing crew's loads before it and those after it: what later ones have read early is
dropped (R171). -/
def View.dropEarly (v : View) (s : State) : State :=
  match v.iss.who with | .crew slot => s.modCrew v.iss.unit slot (fun w => { w with early := [] }) | .cox _ => s
/-- The witnesses of the threads of a WWAIT or WTEST after their checks. -/
def View.checked (v : View) (s : State) (ts : List Nat) (a : Reg) (sc : Nat) : Gathered (Nat × DWord) :=
  gather ts (fun t => match v.witCheck s (v.pair t a) sc with | some f => .error f | none => .ok (t, v.pair t a))
def execWwait (sc : Scope) (g : Guard) (a : Reg) (s : State) : Host.Outcome State Fault Refusal :=
  withView s (fun v =>
    let r := v.checked s (v.lanes g a) a sc.code
    let s := v.markWait (v.dropEarly s) (r.ok.map (·.1))
    witRun v s false a.isCrew (v.acting g) r.bad (r.ok.map (·.1)) (s.unsatisfied (r.ok.map (fun p => (p.2, sc.code)))) [])
/-- WTEST (R167). Its answer is a value from outside, so a replaying crew reads one that no log holds. -/
def execWtest (sc : Scope) (o : R1) (s : State) : Host.Outcome State Fault Refusal :=
  withView s (fun v =>
    let r := v.checked s (v.lanes o.g o.d) o.a sc.code
    emit s { Fx.empty with
      raises := v.faults o.d.isCrew (v.acting o.g) r.bad
      wr := r.ok.flatMap (fun p => v.w1 p.1 o.d (if v.crew.replay.isSome then Config.replayValue s.free else if s.satisfied p.2 sc.code then 1 else 0) intTag) })

/-! FENCE. -/

/-- The FENCE classes of an engine entry (R172): the quarter's for the matrix queue, the crew's for the others. -/
def Entry.classes (e : Entry) : Nat :=
  match e.kind with
  | .tld .. | .scld .. => 64
  | .tst .. => 128
  | .cpy .. | .gath .. | .coll .. | .deliver .. => 48
  | _ => 0
/-- Entries that a FENCE with the predecessor mask awaits. -/
def View.fencedEntries (v : View) (pred : Nat) (ts : List Nat) : List Nat :=
  v.core.queues.flatMap (fun q => (q.filter (fun e =>
    e.who == v.iss.who && e.classes &&& pred != 0 && (e.classes == 48 || ts.any (fun t => t / 8 == e.quarter)))).map (·.id))
/-- Loads that a FENCE awaits. -/
def View.fencedLoads (v : View) (pred : Nat) (ts : List Nat) : List Nat :=
  (v.core.loads.filter (fun p => p.2.who == v.iss.who && p.2.elems.any (fun e => e.cls &&& pred != 0 && ts.contains e.t))).map (·.1)
/-- Store events that a FENCE awaits at a scope: 2·seq while the event has yet to enter, 2·seq + 1 until it is at its homes. -/
def View.fencedEvents (v : View) (s : State) (pred sc : Nat) (ts : List Nat) : List Nat :=
  ((s.origin v.iss.unit).pend.filter (fun e =>
    e.who == some v.iss.who && e.cls &&& pred != 0 && e.threads &&& maskOf ts != 0 && !(sc == 0 && e.inView))).map
    (fun e => 2 * e.seq + if sc = 0 then 0 else 1)
/-- FENCE (R173): the path waits for the predecessor operations of its participating threads. -/
def execFence (sc : Scope) (g : Guard) (pred succ : BitVec 8) (s : State) : Host.Outcome State Fault Refusal :=
  withView s (fun v =>
    let ts := v.acting g
    let p := pred.toNat
    if ts.isEmpty || pred == 0 || succ == 0 || v.crew.replay.isSome then emit s Fx.empty
    else
      let s := v.dropEarly s
      let s := if p &&& 2 != 0 && decide (sc.code ≥ 1) then s.sweepAll v.iss.unit else s
      let loads := v.fencedLoads p ts
      let seqs := v.fencedEvents s p sc.code ts
      let entries := v.fencedEntries p ts
      if loads.isEmpty && seqs.isEmpty && entries.isEmpty then emit s Fx.empty
      else block s (.ops 5 loads seqs entries []))

/-! Engine queue entries. -/

/-- A new entry of the issuing agent: quarter, scope, after-witness, flag, what it does, its tag, and the unit that writes. -/
def View.entry (v : View) (quarter scope : Nat) (after : DWord) (flag : Option Nat) (kind : EKind) (tag : DWord) (origin : Nat) : Entry where
  id := 0
  who := v.iss.who
  gid := v.gid
  grp := { Group.blank with ctx := v.grp.ctx, hdr := v.grp.hdr, nscr := v.grp.nscr }
  quarter := quarter
  scope := scope
  after := after
  flag := flag
  sculls := v.sculls
  kind := kind
  tag := tag
  begun := false
  pos := 0
  finished := false
  status := 0
  wit := 0
  origin := origin
  conds := 0
  drop := false
  need := []
  src := v.site
/-- QFENCE (R175): one join entry in each queue named, once per issue. -/
def execQfence (g : Guard) (mask : BitVec 3) (s : State) : Host.Outcome State Fault Refusal :=
  withView s (fun v =>
    let ts := v.acting g
    if ts.isEmpty then emit s Fx.empty
    else emit s { Fx.empty with
      ops := (bitsOf 3 mask.toNat).map (fun q => .entry q (v.entry 0 0 0 none (.fence s.free mask.toNat) 0 v.iss.unit) ts none) })

end Sys2Proof.Machine
end

