-- ==== Sys2Proof/Machine/Matrix.lean ====
section
/-! DEFINITION. Tiles and the issue of matrix queue entries (R102, R112, R113, R219 to R228, R231 to R233, R343, R396 to R398,
R424, R425, R434, R437, R438). The engine's own steps are in Engine.lean. -/
namespace Sys2Proof.Machine

/-- The participating quarters with their participating threads, ascending (R222). -/
def View.quarters (v : View) (g : Guard) : List (Nat × List Nat) :=
  ((List.range 4).map (fun q => (q, (v.acting g).filter (fun t => t / 8 == q)))).filter (fun p => !p.2.isEmpty)
/-- The effective tile of a quarter (R222). -/
def effTile (n : Fin 16) (off : Bool) (q : Nat) : Nat := n.val + if off then q else 0
/-- The physical tile and its contents; none at or above TILES (R219). -/
def View.tile? (v : View) (eff : Nat) : Option (Nat × Tile) :=
  if eff ≥ hdrTiles v.grp.hdr then none
  else (v.grp.tiles[eff]?).map (fun n => (n, v.core.tiles.get Tile.reset n))
/-- A tile that a use other than TCFG needs: 131 for an absent one, 130 for an unconfigured one (R219, R221). -/
def View.useTile (v : View) (eff : Nat) : Except Nat (Nat × Tile) :=
  match v.tile? eff with
  | none => .error 131
  | some x => if tfFmt x.2.tf = 15 then .error 130 else .ok x

/-- Causes of quarters: each failing quarter raises its cause in its participating threads (R42, R398). -/
def View.quarterRaises {α : Type} (v : View) (rs : List ((Nat × List Nat) × Except AFault α)) : List Raise :=
  rs.flatMap (fun r => match r.2 with | .error f => r.1.2.map (fun t => raiseAt v t f) | .ok _ => [])
/-- Run a quarter instruction: the causes of the failing quarters, and the operations of the others. -/
def quarterFx (v : View) (g : Guard) (f : Nat × List Nat → Except AFault Fx) : Fx :=
  let rs := (v.quarters g).map (fun q => (q, f q))
  rs.foldl (fun a r => match r.2 with | .ok x => a.append x | .error _ => a) { Fx.empty with raises := v.quarterRaises rs }
/-- ILLEGAL_FIELD with a subcode as an access fault. -/
def badField (sub : Nat) : AFault := (0x02, sub, 0)

/-! The tile interlock (R223). -/

def EKind.writes : EKind → List Nat
  | .tld t .. => [t]
  | .scld t _ => [t]
  | .mma d .. => [d]
  | _ => []
def EKind.reads : EKind → List Nat
  | .tst t .. => [t]
  | .mma _ a b c nc .. => if nc then [a, b] else [a, b, c]
  | _ => []
/-- Entries of the matrix queue that hold back a seat instruction on the tiles. -/
def Core.tileHolds (c : Core) (tiles : List Nat) (writer : Bool) : List Nat :=
  ((c.queues.getD 0 []).filter (fun e => tiles.any (fun t => e.kind.writes.contains t || (writer && e.kind.reads.contains t)))).map (·.id)
/-- Run a seat instruction on tiles, or wait for the interlock. -/
def withTiles (v : View) (s : State) (effs : List Nat) (writer : Bool) (k : Host.Outcome State Fault Refusal) : Host.Outcome State Fault Refusal :=
  let hold := v.core.tileHolds (effs.filterMap (fun e => (v.tile? e).map (·.1))) writer
  if hold.isEmpty || v.crew.replay.isSome then k else block s (.tile hold)

/-- The lowest participating thread of a quarter. -/
def quarterLow (q : Nat × List Nat) : Nat := q.2.headD 0

def execTcfg (g : Guard) (qd : Bool) (d : Fin 16) (a : Reg) (s : State) : Host.Outcome State Fault Refusal :=
  withView s (fun v => withTiles v s ((v.quarters g).map (fun q => effTile d qd q.1)) true
    (emit s (quarterFx v g (fun q =>
      let x := v.val (quarterLow q) a
      match v.tile? (effTile d qd q.1) with
      | none => .error (badField 131)
      | some p => if tfBad x then .error (badField 18) else .ok { Fx.empty with ops := [.tile p.1 (.cfg x) q.2] }))))
/-- MOVC to TFn (R220): the effect of TCFG on tile n, once, with the crew register's value. -/
def execTfWrite (g : Guard) (n : Fin 16) (a : Reg) (s : State) : Host.Outcome State Fault Refusal :=
  withView s (fun v => withTiles v s [n.val] true (
    match v.acting g with
    | [] => emit s Fx.empty
    | t :: ts =>
      let x := v.val t a
      match v.tile? n.val with
      | none => emit s (raiseAll v (t :: ts) 0x02 131 0)
      | some p => if tfBad x then emit s (raiseAll v (t :: ts) 0x02 18 0) else emit s { Fx.empty with ops := [.tile p.1 (.cfg x) (t :: ts)] }))
def execTzero (g : Guard) (qd : Bool) (d : Fin 16) (s : State) : Host.Outcome State Fault Refusal :=
  withView s (fun v => withTiles v s ((v.quarters g).map (fun q => effTile d qd q.1)) true
    (emit s (quarterFx v g (fun q =>
      match v.useTile (effTile d qd q.1) with
      | .error sub => .error (badField sub)
      | .ok p => .ok { Fx.empty with ops := [.tile p.1 .zero q.2] }))))

/-! TLD, TST and SCLD. -/

/-- The checked lines of a tile in memory (R224, R225). -/
def View.tileLines (v : View) (s : State) (sp : Space) (p : Perm) (addr stride len : Nat) : Nat → Nat → Except AFault (List (List Seg))
  | 0, _ => .ok []
  | n + 1, i =>
    match s.span v.iss.unit v.grp sp p (len / 128 + 2) ((addr + i * stride) % 2 ^ 64) len with
    | .error f => .error f
    | .ok l => match v.tileLines s sp p addr stride len n (i + 1) with | .error f => .error f | .ok r => .ok (l :: r)
/-- The checks of the address and the stride before the pages (R130, R224). -/
def tileAddrBad (sp : Space) (addr stride len : Nat) : Option AFault :=
  if stride < len then some (badField 130)
  else if sp ≠ .vault ∧ addr / 2 ^ 56 ≠ 0 then some (0x12, 0, addr)
  else if addr % 16 ≠ 0 ∨ stride % 16 ≠ 0 then some (0x13, 0, addr)
  else none
/-- The stride of a quarter: the register's value, or the line's length rounded up to a multiple of 16 (R424). -/
def View.stride (v : View) (t : Nat) (b : Reg) (len : Nat) : Nat := if b = .vz then (len + 15) / 16 * 16 else (v.val t b).toNat
/-- The checked lines of a tile transfer. -/
def View.tileXfer (v : View) (s : State) (sp : Space) (p : Perm) (t : Nat) (a b : Reg) (tf : Word) : Except AFault (List (List Seg)) :=
  let len := tfLineBytes tf
  let addr := (v.pair t a).toNat
  let stride := v.stride t b len
  match tileAddrBad sp addr stride len with
  | some f => .error f
  | none => v.tileLines s sp p addr stride len (tfLines tf) 0
/-- The checked bytes of a scale transfer. -/
def View.scaleXfer (v : View) (s : State) (sp : Space) (addr : Nat) (tf : Word) : Except AFault (List Seg) :=
  match tileAddrBad sp addr 0 0 with
  | some f => .error f
  | none => s.span v.iss.unit v.grp sp .load (tfBlocks tf / 128 + 2) addr (tfBlocks tf)
/-- A significance byte that a tile's format does not take (R425). -/
def sigBad (tf : Word) (sig : BitVec 8) : Bool := sig != 0 && ([0, 13].contains (tfFmt tf) || decide (sig.toNat - 1 > tfPrec tf))

def execTld (g : Guard) (fsel sc qd : Bool) (sp : Space) (scope : Scope) (sig : BitVec 8) (d : Fin 16) (a b after : Reg) (s : State) : Host.Outcome State Fault Refusal :=
  withView s (fun v => withFlag v s fsel (v.acting g)
    (emit s (quarterFx v g (fun q =>
      let t := quarterLow q
      match v.useTile (effTile d qd q.1) with
      | .error sub => .error (badField sub)
      | .ok p =>
        if sigBad p.2.tf sig then .error (badField 72)
        else match v.witFault s t after scope.code with
          | some f => .error f
          | none =>
            match v.tileXfer s sp .load t a b p.2.tf with
            | .error f => .error f
            | .ok lines =>
              let scale : Except AFault (List Seg) := if sc then v.scaleXfer s sp (v.pair t (regPlus a 2)).toNat p.2.tf else .ok []
              match scale with
              | .error f => .error f
              | .ok sl =>
                let tag := if sig = 0 then tfPrec p.2.tf else sig.toNat - 1
                .ok { Fx.empty with ops := [.entry 0 (v.entry q.1 scope.code (v.afterOf t after) (v.flag fsel) (.tld p.1 lines sl tag) 0 v.iss.unit) q.2 none] }))))
/-- The events that an operation numbers as a TST (R425). -/
def MOp.tstLines : MOp → Nat
  | .entry _ e _ _ => (match e.kind with | .tst _ lines _ => lines.length | _ => 0)
  | _ => 0
/-- TST (R425): every line takes a number at issue, and none may stall (R158). -/
def execTst (g : Guard) (fsel qd : Bool) (sp : Space) (scope : Scope) (d : Fin 16) (a b after wit : Reg) (s : State) : Host.Outcome State Fault Refusal :=
  withView s (fun v => notWhileEnm v s (v.acting g) (withFlag v s fsel (v.acting g) (
    let fx := quarterFx v g (fun q =>
      let t := quarterLow q
      match v.useTile (effTile d qd q.1) with
      | .error sub => .error (badField sub)
      | .ok p =>
        match v.witFault s t after scope.code with
        | some f => .error f
        | none =>
          match v.tileXfer s sp .store t a b p.2.tf with
          | .error f => .error f
          | .ok lines =>
            let w := if wit = .vz then none else some wit
            .ok { Fx.empty with ops := [.entry 0 (v.entry q.1 scope.code (v.afterOf t after) (v.flag fsel) (.tst p.1 lines []) 0 v.iss.unit) q.2 w] })
    let n := (fx.ops.map MOp.tstLines).sum
    if n != 0 && (s.origin v.iss.unit).stallsBy n && v.crew.replay.isNone then block s .stall else emit s fx)))
def execScld (g : Guard) (fsel qd : Bool) (sp : Space) (scope : Scope) (d : Fin 16) (a after : Reg) (s : State) : Host.Outcome State Fault Refusal :=
  withView s (fun v => withFlag v s fsel (v.acting g)
    (emit s (quarterFx v g (fun q =>
      let t := quarterLow q
      match v.useTile (effTile d qd q.1) with
      | .error sub => .error (badField sub)
      | .ok p =>
        match v.witFault s t after scope.code with
        | some f => .error f
        | none =>
          match v.scaleXfer s sp (v.pair t a).toNat p.2.tf with
          | .error f => .error f
          | .ok sl => .ok { Fx.empty with ops := [.entry 0 (v.entry q.1 scope.code (v.afterOf t after) (v.flag fsel) (.scld p.1 sl) 0 v.iss.unit) q.2 none] }))))

/-! MMA and MMAS. -/

/-- Formats that MMA combines (R227): the accumulator's code, and the codes of D and C. -/
def mmaFormats (fa fb : Nat) : Option (Nat × List Nat) :=
  if fa = 5 ∧ fb = 5 then some (5, [5])
  else if fa = fb ∧ (fa = 8 ∨ fa = 9) then some (4, [4, fa])
  else if (fa = 10 ∨ fa = 11) ∧ (fb = 10 ∨ fb = 11) then some (4, [4, 8])
  else if fa = 12 ∧ fb = 12 then some (4, [4, 8])
  else if fa = 13 ∧ fb = 13 then some (0, [0])
  else if fa = 14 ∧ fb = 14 then some (4, [4, 8])
  else none
/-- Shapes and formats agree (R227, R228). `c` is absent with .nc. -/
def mmaFits (scaled : Bool) (d a b : Word) (c : Option Word) : Bool :=
  match mmaFormats (tfFmt a) (tfFmt b) with
  | none => false
  | some (_, out) =>
    let cd (x : Word) : Bool := out.contains (tfFmt x) && tfRows x == tfRows a && tfCols x == tfCols b
    !tfKdir a && tfKdir b && tfCols a == tfRows b && cd d && (match c with | some x => cd x | none => true) &&
    (!scaled || ([10, 11, 12].contains (tfFmt a) && [10, 11, 12].contains (tfFmt b)))
/-- The tiles of an entry, or the lowest subcode of what is wrong with them (R398). -/
def View.mmaTiles (v : View) (scaled nc : Bool) (d a b c : Nat) : Except Nat (Nat × Nat × Nat × Nat) :=
  let get (n : Nat) : Except Nat (Nat × Tile) := v.useTile n
  if d = a ∨ d = b then .error 10
  else match get d, get a, get b, (if nc then get d else get c) with
    | .ok x, .ok y, .ok z, .ok w =>
      if mmaFits scaled x.2.tf y.2.tf z.2.tf (if nc then none else some w.2.tf) then .ok (x.1, y.1, z.1, w.1) else .error 130
    | r1, r2, r3, r4 => .error (([r1, r2, r3, r4].filterMap (fun r => match r with | .error e => some e | .ok _ => none)).foldl min 131)
/-- Another group holds the blade token (R232). -/
def View.bladeHeld (v : View) : Bool := match v.core.blade with | some g => g != v.crew.gid | none => false
/-- The entries of an MMA or MMAS. They round under the FMTR copy of their quarter's lowest participating thread (DESIGN CHOICE, log
entry 29: R115 does not say whose copy, where the quarter's two sculls hold different ones). -/
def mmaRun (scaled : Bool) (g : Guard) (fsel : Bool) (m : QMods) (nc : Bool) (d a b c : Fin 16) (sa sb : Nat → View → Word) (s : State) :
    Host.Outcome State Fault Refusal :=
  withView s (fun v =>
    if v.bladeHeld && !(v.acting g).isEmpty && v.crew.replay.isNone then block s .blade
    else withFlag v s fsel (v.acting g) (emit s (quarterFx v g (fun q =>
      let t := quarterLow q
      match v.mmaTiles scaled nc (effTile d m.qd q.1) (effTile a m.qa q.1) (effTile b m.qb q.1) (effTile c m.qc q.1) with
      | .error sub => .error (badField sub)
      | .ok (x, y, z, w) =>
        .ok { Fx.empty with ops :=
          [.entry 0 (v.entry q.1 0 0 (v.flag fsel) (.mma x y z w nc scaled (sa t v) (sb t v) ((v.fmtr t).toNat % 4) v.nbv) 0 v.iss.unit) q.2 none] }))))
def execMma (g : Guard) (fsel : Bool) (q : QMods) (nc : Bool) (d a b c : Fin 16) (s : State) : Host.Outcome State Fault Refusal :=
  mmaRun false g fsel q nc d a b c (fun _ _ => 0) (fun _ _ => 0) s
def execMmas (g : Guard) (fsel : Bool) (q : QMods) (nc : Bool) (d a b c : Fin 16) (ka kb : Fin 24) (s : State) : Host.Outcome State Fault Refusal :=
  mmaRun true g fsel q nc d a b c (fun t v => v.val t (.k ka)) (fun t v => v.val t (.k kb)) s

/-! TTOV and VTOT. -/

/-- Registers that one element takes twice or half: elements of the window of n registers (R437). -/
def windowCols (tf : Word) (n : Nat) : Nat := if tfBits tf = 64 then n / 2 else if tfBits tf = 16 then 2 * n else n
/-- The byte offset of element (r, c) in a tile of byte-wide elements or wider (R224). -/
def elemOff (tf : Word) (r c : Nat) : Nat :=
  let line := if tfKdir tf then c else r
  let idx := if tfKdir tf then r else c
  line * tfLineBytes tf + idx * (tfBits tf / 8)
/-- What is wrong with a window for a quarter (R437): the lowest subcode. -/
def windowBad (tf : Word) (count n row0 col0 reg regField : Nat) (ts : List Nat) : Option Nat :=
  let subs : List Nat :=
    (if reg + n > count ∨ (tfFmt tf = 5 ∧ reg % 2 = 1) then [regField] else []) ++
    (if tfFmt tf = 5 ∧ n % 2 = 1 then [52] else []) ++
    (if !([0, 4, 5, 8, 9].contains (tfFmt tf)) || ts.any (fun t => decide (row0 + t % 8 ≥ tfRows tf)) || decide (col0 + windowCols tf n > tfCols tf) then [130] else [])
  match subs with | [] => none | x :: xs => some (xs.foldl min x)
def vNum : Reg → Nat | .v n => n.val | _ => 0
/-- The tile offsets of the bytes of register `j` of a window row. -/
def windowBytes (tf : Word) (row col0 j : Nat) : List Nat :=
  let bytes (c n lo : Nat) : List Nat := (List.range n).map (fun i => elemOff tf row c + lo + i)
  if tfBits tf = 64 then bytes (col0 + j / 2) 4 (4 * (j % 2))
  else if tfBits tf = 16 then bytes (col0 + 2 * j) 2 0 ++ bytes (col0 + 2 * j + 1) 2 0
  else bytes (col0 + j) 4 0
/-- The tag of register `j` of a TTOV (R102). -/
def ttovTag (x : Tile) (j : Nat) : Tag :=
  let tr : Trust := ⟨min x.tag (tfPrec x.tf), 0⟩
  match tfFmt x.tf with
  | 0 => intTag
  | 5 => if j % 2 = 0 then tr.tag else oddTag
  | 4 => tr.tag
  | _ => halfTag tr tr
/-- A TTOV result falls below the floor of its layout (R104). -/
def ttovFell (floor : Word) (x : Tile) : Bool :=
  let tr : Trust := ⟨min x.tag (tfPrec x.tf), 0⟩
  match tfFmt x.tf with | 0 => false | 5 => fallsBelow floor .f64 tr | 4 => fallsBelow floor .f32 tr | _ => fallsBelow floor .half tr
def execTtov (g : Guard) (n : Fin 8) (row0 col0 : BitVec 8) (d : Reg) (a : Fin 16) (s : State) : Host.Outcome State Fault Refusal :=
  withView s (fun v => withTiles v s [a.val] false (
    let k := n.val + 1
    let fx := quarterFx v g (fun q =>
      match v.useTile a.val with
      | .error sub => .error (badField sub)
      | .ok p =>
        match windowBad p.2.tf v.crew.count k row0.toNat col0.toNat (vNum d) 10 q.2 with
        | some sub => .error (badField sub)
        | none =>
          let ws := q.2.flatMap (fun t => (List.range k).flatMap (fun j =>
            let x := natOfBytes ((windowBytes p.2.tf (row0.toNat + t % 8) col0.toNat j).map (fun i => p.2.data.get 0 i))
            v.w1 t (regPlus d j) (BitVec.ofNat 32 x) (ttovTag p.2 j)))
          .ok { Fx.empty with wr := ws, log := logOf ws, falls := if ttovFell v.crew.sigfloor p.2 then q.2.map (fun t => (t, v.iss.idx)) else [] })
    let dirty := match v.useTile a.val with | .ok p => p.2.poisoned && !fx.wr.isEmpty && v.crew.replay.isNone | .error _ => false
    if dirty then v.poisoned s s (fx.wr.map (·.t)).eraseDups 2 0 0
    else emit s fx))
/-- The trust of register `j` of a VTOT, read in the layout of the tile's format (R91, R102). -/
def vtotTrust (tf : Word) (fmtr : Word) (tag : Tag) (j : Nat) : List Nat :=
  let p := tfPrec tf
  let hp := (halfFmt fmtr).p
  match tfFmt tf with
  | 0 => []
  | 5 => if j % 2 = 0 then [(readTag p tag).t] else []
  | 4 => [(readTag p tag).t]
  | _ => [min p (readHalf hp false tag).t, min p (readHalf hp true tag).t]
def execVtot (g : Guard) (n : Fin 8) (row0 col0 : BitVec 8) (d : Fin 16) (a : Reg) (s : State) : Host.Outcome State Fault Refusal :=
  withView s (fun v => withTiles v s [d.val] true (
    let k := n.val + 1
    let regs := List.range k
    let cells (tf : Word) (t : Nat) : List (Nat × Byte) := regs.flatMap (fun j =>
      (windowBytes tf (row0.toNat + t % 8) col0.toNat j).zip (bytesOf 4 (v.val t (regPlus a j)).toNat))
    let trusts (tf : Word) (t : Nat) : List (Nat × Nat) :=
      (regs.flatMap (fun j => vtotTrust tf (v.fmtr t) (v.tag t (regPlus a j)) j)).map (fun x => (t, x))
    let check (q : Nat × List Nat) : Except AFault (Nat × Tile) :=
      match v.useTile d.val with
      | .error sub => .error (badField sub)
      | .ok p => match windowBad p.2.tf v.crew.count k row0.toNat col0.toNat (vNum a) 18 q.2 with | some sub => .error (badField sub) | none => .ok p
    let rs := (v.quarters g).map (fun q => (q, check q))
    let good := rs.flatMap (fun r => match r.2 with | .ok _ => r.1.2 | .error _ => [])
    let ops : List MOp :=
      match v.useTile d.val with
      | .ok p => if good.isEmpty then [] else
        [.tile p.1 (.move (good.map (fun t => (t, cells p.2.tf t))) (good.flatMap (trusts p.2.tf))) good]
      | .error _ => []
    emit s { Fx.empty with raises := v.quarterRaises rs, ops := ops }))

/-! The blade token (R232). -/

def isBltake (p : Path) : Bool := match p.wait with | .bltake => true | _ => false
/-- A freed token goes to the group of the longest-waiting BLTAKE; its waiting crews go on. -/
def State.passBlade (s : State) (u : Nat) : State :=
  let c := s.core u
  match c.bladeWait.filterMap (fun k => (c.crews.find? k).map (fun w => w.gid)) with
  | [] => s.setCore u { c with blade := none, bladeWait := [] }
  | gid :: _ =>
    let mine (k : Nat) : Bool := match c.crews.find? k with | some w => w.gid == gid | none => true
    let go := c.bladeWait.filter mine
    let s := s.setCore u { c with blade := some gid, bladeWait := c.bladeWait.filter (fun k => !mine k) }
    go.foldl (fun s k => s.endWait u k (fun _ p => isBltake p) (fun _ _ => [])) s
def execBlgive (g : Guard) (s : State) : Host.Outcome State Fault Refusal :=
  withView s (fun v =>
    if v.core.blade == some v.crew.gid && !(v.acting g).isEmpty && v.crew.replay.isNone then emit (s.passBlade v.iss.unit) Fx.empty
    else emit s Fx.empty)
def execBltake (g : Guard) (s : State) : Host.Outcome State Fault Refusal :=
  withView s (fun v =>
    if (v.acting g).isEmpty || v.crew.replay.isSome then emit s Fx.empty
    else if v.bladeHeld then
      match block s .bltake with
      | .next t => .next (t.modCore v.iss.unit (fun c => { c with bladeWait := c.bladeWait ++ [v.slot] }))
      | r => r
    else emit (s.modCore v.iss.unit (fun c => { c with blade := some v.crew.gid })) Fx.empty)

end Sys2Proof.Machine
end

