-- ==== Sys2Proof/Machine/Sched.lean ====
section
/-! DEFINITION. Task graphs, starters, continuation records and group ends (R68, R69, R138, R139, R177 to R190, R194 to R197,
R234, R249, R312, R318, R322): triggers, runs, placing a record, and what becomes of a group. -/
namespace Sys2Proof.Machine

/-! Reading and writing by the units outside the cores: at the homes, in a context's addresses. Cluster 12 stands for the
I/O die. -/

def ioDie : Nat := 12
/-- One byte at a virtual address, read at its home; none when its page fails. -/
def State.fetchByte (s : State) (cl ctx va : Nat) (p : Perm) : Option Byte :=
  if va / 2 ^ 56 ≠ 0 then none
  else match s.xlate cl ctx va p with
    | .error _ => none
    | .ok l => some (if l.dest == .remote then Config.remoteByte s.free va else s.byte l.ha)
def State.fetchVa (s : State) (cl ctx va : Nat) : Nat → Option (List Byte)
  | 0 => some []
  | n + 1 =>
    match s.fetchByte cl ctx va .load with
    | none => none
    | some b => match s.fetchVa cl ctx (va + 1) n with | none => none | some r => some (b :: r)
/-- Bytes as doublewords. -/
def dwordsOf : Nat → List Byte → List DWord
  | 0, _ => []
  | n + 1, bs => BitVec.ofNat 64 (natOfBytes (bs.take 8)) :: dwordsOf n (bs.drop 8)

/-! Fields of a continuation record held as eight doublewords (R186). -/

def recW (r : List DWord) (i : Nat) : Nat := (r.getD i 0).toNat
def recCode (r : List DWord) : Nat := recW r 0
def recFrame (r : List DWord) : Nat := recW r 1
def recJoin (r : List DWord) : DWord := r.getD 2 0
def recWbase (r : List DWord) : Nat := recW r 3
def recWcount (r : List DWord) : Nat := bitsAt (recW r 4) 0 32
def recLive (r : List DWord) : Nat := bitsAt (recW r 4) 32 16
def recLivebase (r : List DWord) : Nat := bitsAt (recW r 4) 48 8
def recPrio (r : List DWord) : Nat := bitsAt (recW r 4) 56 3
def recRregs (r : List DWord) : Nat := bitsAt (recW r 5) 0 8
def recHdr (r : List DWord) : DWord := r.getD 6 0
def recCtime (r : List DWord) : DWord := r.getD 7 0
/-- The doublewords of a record. -/
def mkRec (code frame join wbase wcount live livebase prio rregs : Nat) (hdr ctime : DWord) : List DWord :=
  let w (n : Nat) : DWord := BitVec.ofNat 64 n
  [w code, w frame, w join, w wbase, w (wcount + live * 2 ^ 32 + livebase * 2 ^ 48 + prio * 2 ^ 56), w rregs, hdr, ctime]
/-- Registers of a LIVE mask, ascending. -/
def liveRegs (live base : Nat) : List Nat := (bitsOf 16 live).map (base + ·)
/-- The register count a record's crews begin with. -/
def recCount (r : List DWord) (h : List DWord) : Nat := if recRregs r = 0 then hdrRegs h else recRregs r
def recCrews (r : List DWord) : Nat := (recWcount r + 31) / 32
/-- A record is malformed (R186). -/
def recBad (r : List DWord) (h : List DWord) : Bool :=
  bitsAt (recW r 5) 8 56 != 0 || bitsAt (recW r 4) 59 5 != 0 || decide (recWcount r = 0 ∨ recWcount r > 1024) || recWbase r % 32 != 0 ||
  recRregs r % 8 != 0 || decide (recRregs r > 224) || (liveRegs (recLive r) (recLivebase r)).any (fun n => decide (n ≥ recCount r h))

/-! Nodes and runs (R181, R184). -/

/-- Change a node of the run of a graph. -/
def State.modNode (s : State) (gr run node : Nat) (f : RNode → RNode) : State :=
  let g := s.graph gr
  match g.run with
  | some r => if r.seq = run then s.setGraph gr { g with run := some { r with nodes := imap r.nodes (fun i x => if i = node then f x else x) } } else s
  | none => s
def State.addLeft (s : State) (gr run node : Nat) : State := s.modNode gr run node (fun x => { x with left := x.left + 1 })
def State.takeLeft (s : State) (gr run node : Nat) : State := s.modNode gr run node (fun x => { x with left := x.left - 1 })
/-- The run is still the graph's current one. -/
def State.runOpen (s : State) (gr run : Nat) : Bool := match (s.graph gr).run with | some r => r.seq == run | none => false
/-- The run is current and has not failed. -/
def State.runGood (s : State) (gr run : Nat) : Bool := match (s.graph gr).run with | some r => r.seq == run && r.status == 0 | none => false
/-- Resident groups with a property, as (unit, group). -/
def State.groupsOf (s : State) (sel : Group → Bool) : List (Nat × Nat) :=
  s.cores.flatMap (fun c => (c.2.groups.filter (fun g => sel g.2)).map (fun g => (c.1, g.1)))

/-- Clusters allowed by a header and ready (R182, R322). -/
def State.eligible (s : State) (h : List DWord) : List Nat :=
  (List.range 12).filter (fun n => (hdrClmask h == 0 || bitAt (hdrClmask h) n) && bitAt s.iod.ready (12 + n))
/-- Append a record to a starter's queue. -/
def State.enqueue (s : State) (cl : Nat) (q : QRec) : State :=
  let c := s.cluster cl
  let p := recPrio q.words
  s.setCluster cl { c with queues := setNth c.queues p ((c.queues.getD p []) ++ [{ q with bypass := 0, pushed := s.free }]) }

/-- First identifier and count of group k of a launch (R66). -/
def groupSpan (h : List DWord) (k : Nat) : Nat × Nat :=
  let size := 2 ^ hdrBG h
  let lo := max (hdrBase h) ((hdrBase h / size + k) * size)
  let hi := min (hdrBase h + hdrCount h) ((hdrBase h / size + k + 1) * size)
  (lo, hi - lo)
def groupCount (h : List DWord) : Nat :=
  let size := 2 ^ hdrBG h
  if hdrCount h = 0 then 0 else (hdrBase h + hdrCount h - 1) / size - hdrBase h / size + 1
/-- A header is rejected at launch (R183). -/
def launchRejected (h : List DWord) : Bool := hdrRejected h || !hdrFits h (2 ^ (hdrBG h - 5)) (hdrRegs h)
/-- Push the records of a ready node's groups from group k on. -/
def State.pushGroups (s : State) (gr run node ctx : Nat) (h : List DWord) (el : List Nat) : Nat → Nat → State
  | 0, _ => s
  | n + 1, k =>
    let w := groupSpan h k
    let words := mkRec (hdrW h 0) 0 0 w.1 w.2 0 0 (hdrPrio h) 0 (Config.nodeHeader gr node) 0
    let cl := el.getD (k % el.length) 0
    ((s.enqueue cl ⟨words, h, ctx, gr, run, node, 0, 0, false⟩).pushGroups gr run node ctx h el n (k + 1))
/-- Launch a ready node (R184): reject its header, complete it when it has no identifier, or push its groups. -/
def State.launchNode (s : State) (gr node : Nat) (r : Run) : State :=
  let g := s.graph gr
  let h := (g.nodes.getD node ⟨[], 0, []⟩).hdr
  if launchRejected h then (s.failRun gr r.seq node 2).modNode gr r.seq node (fun x => { x with launched := true })
  else
    let n := groupCount h
    (s.modNode gr r.seq node (fun x => { x with launched := true, left := n })).pushGroups gr r.seq node g.ctx h (s.eligible h) n 0
/-- A node of a run is complete and counts its successors down. -/
def State.finishNode (s : State) (gr node : Nat) (r : Run) : State :=
  let succs := ((s.graph gr).nodes.getD node ⟨[], 0, []⟩).succs
  let s := s.modNode gr r.seq node (fun x => { x with done := true })
  succs.foldl (fun s m => s.modNode gr r.seq m (fun x => { x with preds := x.preds - 1 })) s
/-- The first node of a list, counted from i, with a property. -/
def findNode (p : Nat → RNode → Bool) : Nat → List RNode → Option Nat
  | _, [] => none
  | i, x :: xs => if p i x then some i else findNode p (i + 1) xs
/-- A ready node can be launched now: one with no eligible cluster waits (R322). -/
def State.canLaunch (s : State) (gr : Nat) (i : Nat) (x : RNode) : Bool :=
  let h := ((s.graph gr).nodes.getD i ⟨[], 0, []⟩).hdr
  x.preds == 0 && !x.launched && (launchRejected h || hdrCount h == 0 || !(s.eligible h).isEmpty)
/-- Complete finished nodes and launch ready ones until none is left; each node is launched and completed once. -/
def State.settle (s : State) (gr : Nat) : Nat → State
  | 0 => s
  | fuel + 1 =>
    match (s.graph gr).run with
    | none => s
    | some r =>
      if !r.begun || r.status ≠ 0 then s
      else match findNode (fun _ x => x.launched && !x.done && x.left == 0) 0 r.nodes with
        | some n => (s.finishNode gr n r).settle gr fuel
        | none =>
          match findNode (s.canLaunch gr) 0 r.nodes with
          | some n => (s.launchNode gr n r).settle gr fuel
          | none => s

/-- The done word of R181. -/
def doneWord (seq node status : Nat) : DWord := BitVec.ofNat 64 (seq * 2 ^ 32 + node * 2 ^ 8 + status)
/-- The I/O die's stores of a graph's done word wait here for their replicated line (R152). -/
def doneOrigin (gr : Nat) : Nat := 9216 + gr
/-- A done word is written: the graph's vector is raised, and where it ends the run, the graph has none (R181). -/
def State.raiseDone (s : State) (gr : Nat) (w : DWord) (ends : Bool) : State :=
  let g := s.graph gr
  let s := s.setGraph gr { g with lastDone := w, run := if ends then none else g.run }
  { s with iod := { s.iod with msix := s.iod.msix.put g.vector (s.iod.msix.get 0 g.vector + 1) } }
/-- Write a done word and raise the graph's vector; a write that fails its checks is dropped (R181). One to a replicated page takes the
steps of R152 first, behind the graph's earlier ones. -/
def State.writeDone (s : State) (gr : Nat) (w : DWord) (ends : Bool) : State :=
  let g := s.graph gr
  let bytes (p : Piece) : List SByte := imap (bytesOf 8 w.toNat) (fun i b => ⟨p.ha + i, b, p.dest⟩)
  match s.locGlobal ioDie g.ctx g.doneaddr 8 .store with
  | .error _ => s.raiseDone gr w ends
  | .ok ps =>
    if ps.any (fun p => p.dest == .repl) then
      let x := s.origin (doneOrigin gr)
      s.addEvent (doneOrigin gr)
        { seq := x.next, who := none, threads := 0, scope := 3, await := 3, after := [], wit := false, cls := if ends then 1 else 0, bytes := ps.flatMap bytes,
          waits := x.pend.map (·.seq), entered := true, swept := true, locks := 0, held := false, marks := [] }
    else (s.writeAll (((ps.filter (fun p => p.dest != .remote)).flatMap bytes).map (fun b => (b.ha, b.val)))).raiseDone gr w ends
/-- The run's own done word is on its way. -/
def State.ending (s : State) (gr : Nat) : Bool := (s.origin (doneOrigin gr)).pend.any (fun e => e.cls == 1)
/-- End a run whose nodes are all complete, or that failed and has no resident group left. -/
def State.endRun (s : State) (gr : Nat) : State :=
  match (s.graph gr).run with
  | none => s
  | some r =>
    let ended := if r.status = 0 then r.nodes.all (·.done) else (s.groupsOf (fun g => g.graph == gr && g.run == r.seq)).isEmpty
    if r.begun && ended && !s.ending gr then s.writeDone gr (doneWord r.seq r.failNode r.status) true else s
/-- What follows when something of a run ended, failed or became ready. -/
def State.checkRun (s : State) (gr : Nat) : State := (s.settle gr (2 * (s.graph gr).nodes.length + 1)).endRun gr

/-! Triggers and the start of a run (R63, R147, R179 to R181, R318, R322). -/

/-- Every instruction cache and every translation cache is emptied (R63, R147). -/
def State.emptyCaches (s : State) : State :=
  { s with
    cores := s.cores.map (fun c => (c.1, { c.2 with icache := [] }))
    clusters := s.clusters.map (fun c => (c.1, { c.2 with tc := [] })) }
def State.countTrigErr (s : State) : State := { s with iod := { s.iod with trigErr := min (s.iod.trigErr + 1) (2 ^ 64 - 1) } }
/-- The nodes of a run as it begins. -/
def Graph.freshNodes (g : Graph) : List RNode := g.nodes.map (fun n => ⟨n.npred, 0, false, false⟩)
/-- The next run of a graph (R181). -/
def Graph.nextRun (g : Graph) (v : DWord) : Graph :=
  { g with seq := (g.seq + 1) % 2 ^ 32, run := some ⟨(g.seq + 1) % 2 ^ 32, bitsAt v.toNat 3 53, false, g.freshNodes, 0, 0⟩ }
/-- Submit a trigger doubleword that names an installed graph: its status (R181, R382). -/
def State.submit (s : State) (v : DWord) : State × Nat :=
  let gr := bitsAt v.toNat 56 8
  let g := s.graph gr
  match g.run, g.waiting with
  | none, [] => ((s.setGraph gr (g.nextRun v)).push (.runBegin gr), 0)
  | _, ws => if ws.length < 4 then (s.setGraph gr { g with waiting := ws ++ [v] }, 0) else (s.writeDone gr (doneWord 0 0 4) false, 4)
/-- A 64-bit write to the trigger register (R179, R322). -/
def execTrigger (w : DWord) (s : State) : Host.Outcome State Fault Refusal :=
  let s := s.emptyCaches
  if bitsAt w.toNat 0 3 ≠ 0 ∨ !(s.graph (bitsAt w.toNat 56 8)).installed ∨ !bitAt s.iod.ready 26 then .next s.countTrigErr
  else .next (s.submit w).1
/-- A write of zero to the trigger-error count (R318). -/
def execTriggerErrorClear (s : State) : Host.Outcome State Fault Refusal := .next { s with iod := { s.iod with trigErr := 0 } }

/-- The pairs of a patch list (R180): none when it cannot be read or is not well formed. -/
def State.patchPairs (s : State) (g : Graph) (a : Nat) : Option (List (Nat × DWord)) :=
  match s.fetchVa ioDie g.ctx a 8 with
  | none => none
  | some hd =>
    let n := natOfBytes hd
    if n > 64 then none
    else match s.fetchVa ioDie g.ctx (a + 8) (16 * n) with
      | none => none
      | some bs =>
        let ds := dwordsOf (2 * n) bs
        let ps := (List.range n).map (fun i => ((ds.getD (2 * i) 0).toNat, ds.getD (2 * i + 1) 0))
        if ps.all (fun p => p.1 % 8 == 0 && decide (p.1 < g.pblen)) then some ps else none
/-- Begin the current run of a graph: its patch list, then the nodes without predecessors (R180, R181). -/
def State.beginRun (s : State) (gr : Nat) : State :=
  let g := s.graph gr
  match g.run with
  | none => s
  | some r =>
    if r.begun then s
    else
      let s := s.setGraph gr { g with run := some { r with begun := true } }
      let s := if r.plist = 0 then s
        else match s.patchPairs g (8 * r.plist) with
          | none => s.failRun gr r.seq 0 1
          | some ps => ps.foldl (fun s p => s.writeAll (imap (bytesOf 8 p.2.toNat) (fun i b => ((g.pblock + p.1 + i) % 2 ^ 40, b)))) s
      s.checkRun gr
def execRunBegin (graph : Nat) (s : State) : Host.Outcome State Fault Refusal := .next (s.beginRun graph)
/-- A waiting trigger's run begins once the graph has no run (R181). -/
def execQueuedRunBegin (graph : Nat) (s : State) : Host.Outcome State Fault Refusal :=
  let g := s.graph graph
  match g.run, g.waiting with
  | none, v :: ws => .next ((s.setGraph graph ({ g with waiting := ws }.nextRun v)).beginRun graph)
  | _, _ => .next s

/-! Pushes of SPAWN, JOIN and PARK (R188 to R190). -/

/-- The launch header a record names: a node's own header under the address its records carry (log entry 17), else memory. -/
def State.readHeader (s : State) (cl ctx gr node : Nat) (va : DWord) : Option (List DWord) :=
  if va = Config.nodeHeader gr node then some ((s.graph gr).nodes.getD node ⟨[], 0, []⟩).hdr
  else (s.fetchVa cl ctx va.toNat 128).map (dwordsOf 16)
/-- Add a push that waits for its conditions. -/
def State.addPush (s : State) (p : Push) : State :=
  let id := 1 + s.pushes.foldl (fun m q => max m q.1) 0
  let s := { s with pushes := s.pushes.put id p }
  (s.addLeft p.graph p.run p.node).push (.recordPush id)
/-- The push of a group's record at `va` by its group or by one of its crews. -/
def Group.pushOf (g : Group) (u gid : Nat) (slot : Option Nat) (ord va : Nat) (after : DWord) (seq : Option Nat) : Push :=
  ⟨va, g.ctx, g.graph, g.run, g.node, clusterOf u, u, gid, slot, ord, after, seq⟩
/-- The slot of an agent that is a crew. -/
def Who.slot? (w : Who) : Option Nat := match w with | .crew k => some k | .cox _ => none
/-- The mark that a part of a load would bind to a register. -/
def State.partMarked (s : State) (u : Nat) (forced : Bool) (p : LPart) : Option (Nat × Nat) :=
  match p.dst with
  | none => none
  | some _ => (match s.readMark u forced p.dest p.ha p.n with
    | some m => some m
    | none => match p.tagAt with | some (a, d) => s.readMark u forced d a 1 | none => none)
/-- The accesses of an operation whose old value would bind a marked word to a register (R304). -/
def State.atomMarked (s : State) (a : Atom) : List AElem :=
  if a.dst.isNone then [] else a.elems.filter (fun e => if e.remote then Config.remotePoison s.free (e.ha / 8 * 8) else s.isPoisoned e.ha a.size)
/-- An operation of an agent, of those that `sel` picks by where they were issued, would consume poison now: what the agent issued after
it takes no effect, so that it waits (R315). -/
def State.poisonAhead (s : State) (u : Nat) (who : Who) (sel : Site → Bool) : Bool :=
  let c := s.core u
  c.loads.any (fun l => l.2.who == who && sel l.2.src && l.2.elems.any (fun e => e.parts.any (fun p => (s.partMarked u l.2.forced p).isSome))) ||
  c.atoms.any (fun a => a.2.who == who && sel a.2.src && !(s.atomMarked a.2).isEmpty) ||
  (c.queues.getD 0 []).any (fun e => e.who == who && sel e.src && e.kind.reads.any (fun t => (c.tiles.get Tile.reset t).poisoned))
/-- A push of a crew waits behind poison that the crew is to consume (R315). -/
def State.pushHeld (s : State) (p : Push) : Bool :=
  match p.slot with | some k => s.poisonAhead p.unit (.crew k) (fun x => decide (x.ord < p.ord)) | none => false
/-- A push whose record cannot be used ends its run with status 2 (R188). -/
def State.pushFailed (s : State) (p : Push) : State :=
  ((s.failRun p.graph p.run p.node 2).takeLeft p.graph p.run p.node).checkRun p.graph
def execRecordPush (id : Nat) (s : State) : Host.Outcome State Fault Refusal :=
  match s.pushes.find? id with
  | none => .next s
  | some p =>
    if s.pushHeld p || !(s.satisfied p.after 2 && (match p.seq with | some q => s.performed p.unit q 2 | none => true)) then .next s
    else
      let s := { s with pushes := s.pushes.drop id }
      if !s.runOpen p.graph p.run then .next s
      else match s.fetchVa p.cluster p.ctx p.va 64 with
        | none => .next (s.pushFailed p)
        | some bs =>
          let r := dwordsOf 8 bs
          match s.readHeader p.cluster p.ctx p.graph p.node (recHdr r) with
          | none => .next (s.pushFailed p)
          | some h =>
            if recBad r h || hdrRejected h || !hdrFits h (recCrews r) (recCount r h) then .next (s.pushFailed p)
            else
              let m := hdrClmask h
              let cl := if m = 0 ∨ bitAt m p.cluster then p.cluster else (bitsOf 12 m).headD p.cluster
              .next (s.enqueue cl ⟨r, h, p.ctx, p.graph, p.run, p.node, 0, 0, p.seq.isSome⟩)

/-! Placing a record (R68, R69, R138, R139, R185 to R187). -/

/-- Units that a core or seat test keeps out of use (R309, R312). -/
def State.coreOut (s : State) (u : Nat) : Bool :=
  s.ras.retiredCores.contains u || s.ras.suspect.contains (2 ^ 20 + u) || (List.range 4).any (fun k => s.ras.suspect.contains (4 * u + k))
/-- A slot whose crew is gone and of which no operation is left in flight. -/
def State.slotFree (s : State) (u k : Nat) : Bool :=
  let c := s.core u
  (match c.crews.find? k with | none => true | some w => w.exited) && !c.loads.any (fun l => l.2.who == .crew k) && !c.atoms.any (fun a => a.2.who == .crew k) &&
  !c.owed.any (fun p => p.1 == k) && !c.queues.any (fun q => q.any (fun e => e.who == .crew k)) && !(s.origin u).pend.any (fun e => e.who == some (.crew k)) &&
  !c.claims.contains k && !c.bladeWait.contains k
/-- The seat with the most free slots of a list; the lowest of them wins (R68). -/
def bestSeat (free : List Nat) : Nat :=
  let n (k : Nat) : Nat := (free.filter (fun i => i / 12 == k)).length
  [1, 2, 3].foldl (fun b k => if n k > n b then k else b) 0
/-- The slots that `n` crews take, one at a time: of the chosen seat the lowest that is free (DESIGN CHOICE, log entry 54: R68 chooses the seat
only, and the slot number shows in frames and records). -/
def takeSlots : Nat → List Nat → List Nat
  | 0, _ => []
  | n + 1, free =>
    match free.find? (fun i => i / 12 == bestSeat free) with
    | none => []
    | some i => i :: takeSlots n (free.filter (· != i))
/-- Tiles that no resident group holds and no entry still uses. -/
def Core.freeTiles (c : Core) : List Nat :=
  let held := c.groups.flatMap (fun g => g.2.tiles)
  let used := (c.queues.getD 0 []).flatMap (fun e => e.kind.writes ++ e.kind.reads)
  (List.range 16).filter (fun t => !held.contains t && !used.contains t)
def Core.flexFree (c : Core) : List Nat := (List.range 3).filter (fun i => c.flex.getD i .free == .free)
def Core.flexL1x (c : Core) : List Nat := (List.range 3).filter (fun i => c.flex.getD i .free == .l1x)
/-- What a group takes on a core: slots, tiles, and flex units as register extension, near scratch and L1 extension. -/
structure Room where
  slots : List Nat
  tiles : List Nat
  regx : List Nat
  nscr : List Nat
  l1x : List Nat
  deriving DecidableEq, Repr
/-- The room of a record on a core, when the core has it. -/
def State.room (s : State) (u : Nat) (q : QRec) : Option Room :=
  let c := s.core u
  let h := q.hdr
  let free := (List.range 48).filter (s.slotFree u)
  let need := 32 * recCount q.words h * recCrews q.words
  let units := c.flexFree
  let own := units.take (hdrRegx h + hdrNscr h)
  let l1 := (c.flexL1x ++ units.drop (hdrRegx h + hdrNscr h)).take (hdrL1x h)
  let cluster := s.cluster (clusterOf u)
  let gone (v : Nat) : Bool := decide (hdrVlen h ≠ 0 ∧ 0x200000 * v < 4096 * (hdrVbase h + hdrVlen h) ∧ 4096 * hdrVbase h < 0x200000 * (v + 1))
  if free.length < recCrews q.words ∨ need > c.pool + 12288 * hdrRegx h ∨ c.freeTiles.length < hdrTiles h ∨
     own.length < hdrRegx h + hdrNscr h ∨ l1.length < hdrL1x h ∨ cluster.retiredVaults.any gone = true ∨
     (hdrCoxEntry h ≠ 0 ∧ (c.groups.filter (fun g => hdrCoxEntry g.2.hdr != 0)).length ≥ 4) then none
  else some ⟨takeSlots (recCrews q.words) free, c.freeTiles.take (hdrTiles h), own.take (hdrRegx h), own.drop (hdrRegx h), l1⟩

/-- The registers and tags that crew c of a record finds in the frame (R186), as pairs of a register key and its value. -/
def frameRegs (live : List Nat) (bs : List Byte) : List (Nat × (Word × Tag)) :=
  (imap live (fun j n => (List.range 32).map (fun t =>
    (32 * n + t, (BitVec.ofNat 32 (natOfBytes ((bs.drop (4 * (32 * j + t))).take 4)), bs.getD (128 * live.length + 32 * j + t) 0))))).flatten
/-- A crew as it starts (R69, R186): `n` identifiers are live. Its code pointer needs no check where PARK wrote its record (R47). -/
def startCrew (gid cnum pos count n code : Nat) (park : Bool) (h : List DWord) (ctime : DWord) (regs : List (Nat × (Word × Tag))) : Crew :=
  let live (t : Nat) : Bool := decide (t < n)
  let mask (k : Nat) : Nat := maskOf ((List.range 4).filter (fun j => live (4 * k + j)))
  let path (k : Nat) : Path := { pc := BitVec.ofNat 64 code, mask := mask k, fmtr := hdrFmtr h, age := 0, inLine := false, wait := .none, issued := 0, since := 0 }
  { Crew.blank with
    gid := gid
    cnum := cnum
    pos := pos
    regs := regs.foldl (fun m r => m.set regDefault r.1 r.2) []
    count := count
    fmtr := hdrFmtr h
    ctime := ctime
    entered := park
    sculls := (List.range 8).map (fun k => { Scull.fresh with run := if mask k = 0 then none else some (path k) })
    threads := (List.range 32).map (fun t => { Thread.fresh with live := live t }) }
/-- The crews of a record, one for each slot. -/
def recordCrews (q : QRec) (gid : Nat) (slots : List Nat) (frame : List Byte) : List (Nat × Crew) :=
  let r := q.words
  let live := liveRegs (recLive r) (recLivebase r)
  imap slots (fun i slot =>
    let wid := recWbase r + 32 * i
    let pos := (wid + 2 ^ 64 - hdrBase q.hdr) % 2 ^ 64 / 32
    (slot, startCrew gid (wid / 32 % 2 ^ (hdrBG q.hdr - 5)) pos (recCount r q.hdr) (recWcount r - 32 * i) (recCode r) q.park q.hdr (recCtime r)
      (frameRegs live ((frame.drop (160 * live.length * i)).take (160 * live.length)))))
/-- Give flex units to a group. -/
def Core.assignFlex (c : Core) (room : Room) (gid : Nat) : Core :=
  { c with flex := imap c.flex (fun i f =>
      if room.regx.contains i then .regx gid else if room.nscr.contains i then .nscr gid else if room.l1x.contains i then .l1x else f) }
/-- Near-scratch units read zero at their grant (R138). -/
def State.zeroScratch (s : State) (u : Nat) (units : List Nat) : State :=
  let hit (a : Nat) : Bool := units.any (fun n => decide (scratchKey u n 0 ≤ a ∧ a < scratchKey u n 0 + 0x10000))
  { s with mem := s.mem.filter (fun p => !hit p.1), poison := s.poison.filter (fun w => !hit (8 * w)) }
/-- Start the group of a record on a core that has room: its clean L1 bytes from before the push are dropped first (R185). -/
def State.startGroup (s : State) (u : Nat) (q : QRec) (room : Room) (frame : List Byte) : State :=
  let s := s.modCore u (fun c => { c with l1 := c.l1.filter (fun e => !e.2.dirty.isEmpty || decide (e.2.fill > q.pushed)) }.tidy)
  let s := s.zeroScratch u room.nscr
  let c := s.core u
  let gid := c.nextGid
  let total := 32 * recCount q.words q.hdr * recCrews q.words
  let ext := min total (12288 * room.regx.length)
  let g : Group := { Group.blank with
    ctx := q.ctx
    graph := q.graph
    run := q.run
    node := q.node
    hdr := q.hdr
    hdrva := recHdr q.words
    prio := recPrio q.words
    join := recJoin q.words
    cnums := (recordCrews q gid room.slots frame).map (fun p => p.2.cnum)
    slots := room.slots
    tiles := room.tiles
    nscr := room.nscr
    regx := room.regx
    l1x := room.l1x
    regxFree := 12288 * room.regx.length - ext
    cox := if hdrCoxEntry q.hdr = 0 then none else some { Cox.blank with pc := BitVec.ofNat 64 (hdrCoxEntry q.hdr) } }
  let groups := c.groups.map (fun p => (p.1, { p.2 with slots := p.2.slots.filter (fun k => !room.slots.contains k) }))
  s.setCore u { (c.assignFlex room gid) with
    nextGid := gid + 1
    pool := c.pool - (total - ext)
    groups := SMap.put groups gid g
    tiles := room.tiles.foldl (fun m t => m.drop t) c.tiles
    crews := (recordCrews q gid room.slots frame).foldl (fun m p => m.put p.1 p.2) c.crews }

/-- The mark of the word that a starter reads at a virtual address: its array and home word (R302, R304). -/
def State.fetchMark (s : State) (cl ctx va : Nat) : Option (Nat × Nat) :=
  match s.xlate cl ctx va .load with
  | .error _ => none
  | .ok l => if (if l.dest == .remote then Config.remotePoison s.free (l.ha / 8 * 8) else s.isPoisoned l.ha 1) then some (arrayCode l.ha, l.ha / 8 * 8) else none
/-- What thread t of a crew would take poisoned from the `n` live registers of its frame part at `va`: array, address, home word. -/
def State.frameMark (s : State) (cl ctx va n t : Nat) : Option (Nat × Nat × Nat) :=
  (List.range n).findSome? (fun j => [4 * (32 * j + t), 128 * n + 32 * j + t].findSome? (fun o =>
    (s.fetchMark cl ctx (va + o)).map (fun m => (m.1, va + o, m.2))))
/-- The threads of crew i of a record whose live registers bind marked words of the frame, with those words. -/
def State.frameMarks (s : State) (cl : Nat) (q : QRec) (i : Nat) : List (Nat × Nat × Nat × Nat) :=
  let n := (liveRegs (recLive q.words) (recLivebase q.words)).length
  (List.range (min 32 (recWcount q.words - 32 * i))).filterMap (fun t => (s.frameMark cl q.ctx (recFrame q.words + 160 * n * i) n t).map (fun m => (t, m)))
/-- The crews of a record that has started consume the marked words of its frame (R186, R304; log entry 31). -/
def State.frameKills (s : State) (u cl : Nat) (q : QRec) (slots : List Nat) : State :=
  (imap slots (fun i k => (k, s.frameMarks cl q i))).foldl (fun s p =>
    match p.2 with | [] => s | m :: _ => s.poisonKill u p.1 none (p.2.map (·.1)) m.2.1 m.2.2.1 m.2.2.2) s

/-- Records of a context that is pre-empted or being pre-empted are skipped (R187), and those of one that stands at a cut. -/
def State.skips (s : State) (q : QRec) : Bool :=
  (s.ctx q.ctx).preempted || (match (s.ctx q.ctx).cut with | some c => c.completed | none => false)
/-- A job cut that is still open stops placement (R196). -/
def Ctx.cutting (x : Ctx) : Bool := match x.cut with | some c => !c.failed && !c.completed | none => false
/-- The core is offered (R81, R196, R309, R312, R322). -/
def State.offered (s : State) (cl u : Nat) : Bool :=
  decide (cl < 12) && clusterOf u == cl && decide (u < 2304) && bitAt s.iod.ready (12 + cl) && (s.core u).claims.isEmpty && !s.coreOut u &&
  !s.contexts.any (fun p => p.2.cutting)
/-- The level 7 record that the starter reserves a core for (R187). -/
def State.reservedRec (s : State) (c : Cluster) : Option QRec :=
  (c.queues.getD 7 []).find? (fun q => decide (q.bypass ≥ 64) && !s.skips q && s.runGood q.graph q.run)
/-- A record picked by a scan: the room it takes, its level, and how many records of its level stand before it. -/
structure RecPick where
  q : QRec
  room : Room
  level : Nat
  before : Nat
  deriving DecidableEq, Repr
/-- What a scan of the queues leaves: the queues, the discarded records, and the pick. -/
structure Scan (α : Type) where
  keep : α
  gone : List QRec
  pick : Option RecPick
/-- Scan one level: records of failed or ended runs are discarded as they are met; the first that fits is picked. -/
def State.scanLevel (s : State) (u level : Nat) (only : Option QRec) : List QRec → Scan (List QRec)
  | [] => ⟨[], [], none⟩
  | q :: qs =>
    let r := s.scanLevel u level only qs
    let pass : Scan (List QRec) := ⟨q :: r.keep, r.gone, r.pick.map (fun p => { p with before := p.before + 1 })⟩
    if !s.runGood q.graph q.run then { r with gone := q :: r.gone }
    else if s.skips q || (match only with | some x => x != q | none => false) then pass
    else match s.room u q with | some x => ⟨qs, [], some ⟨q, x, level, 0⟩⟩ | none => pass
/-- Scan the levels below `n`, the highest first. -/
def State.scan (s : State) (u : Nat) (only : Option QRec) (qs : List (List QRec)) : Nat → Scan (List (List QRec))
  | 0 => ⟨qs, [], none⟩
  | n + 1 =>
    let r := s.scanLevel u n only (qs.getD n [])
    let qs := setNth qs n r.keep
    match r.pick with
    | some p => ⟨qs, r.gone, some p⟩
    | none => let x := s.scan u only qs n; { x with gone := r.gone ++ x.gone }
/-- Count a bypass for older records of the same and higher levels, and begin every other record's count anew; 64 in a row move a record
to the tail of the next level (R187). A reserved record keeps its reservation. -/
def bypassLevel (now : Nat) (placed : QRec) (p level : Nat) (before : Nat) (qs : List (List QRec)) : List (List QRec) :=
  let older (i : Nat) (q : QRec) : Bool :=
    if level < p then false else if level = p then decide (i < before) else decide (q.pushed < placed.pushed)
  let mine := imap (qs.getD level []) (fun i q =>
    { q with bypass := if older i q then min 64 (q.bypass + 1) else if level = 7 ∧ q.bypass ≥ 64 then q.bypass else 0 })
  if level < p then setNth qs level mine
  else
    if level = 7 then setNth qs 7 mine
    else
      let up := (mine.filter (fun q => decide (q.bypass ≥ 64))).map (fun q => { q with bypass := 0, pushed := now })
      setNth (setNth qs level (mine.filter (fun q => decide (q.bypass < 64)))) (level + 1) (qs.getD (level + 1) [] ++ up)
/-- Discarded records leave their runs (R181, R187). -/
def State.discard (s : State) (qs : List QRec) : State := qs.foldl (fun s q => s.takeLeft q.graph q.run q.node) s
/-- The cycle counter of a starter goes on, and deadlines that it reaches are due (R14, R194). -/
def State.starterTick (s : State) (cl : Nat) : State :=
  let c := s.cluster cl
  let now := (c.cyc + 1 + Config.idleCycles (2320 + 32 * cl) s.free) % 2 ^ 64
  let due (p : Nat × Ctx) : Bool := match p.2.draining with | some m => (match m.find? cl with | some n => decide (n ≤ now) | none => false) | none => false
  let s := s.setCluster cl { c with cyc := now }
  { s with agenda := s.agenda ++ (s.contexts.filter due).map (fun p => .preemptDeadlineExpiry p.1 cl) }
/-- RECORD_PLACE: the starter of a cluster offers records to a core. -/
def execRecordPlace (cl u : Nat) (s : State) : Host.Outcome State Fault Refusal :=
  let s := if cl < 12 then s.starterTick cl else s
  if !s.offered cl u then .next s
  else
    let c := s.cluster cl
    let r := s.scan u (s.reservedRec c) c.queues 8
    match r.pick with
    | none => .next ((s.setCluster cl { c with queues := r.keep }).discard r.gone)
    | some p =>
      let q := p.q
      -- a kill's frame waits for the core's counter (R158)
      if (s.origin u).stalls && (List.range (recCrews q.words)).any (fun i => !(s.frameMarks cl q i).isEmpty) then .next s else
      let qs := [7, 6, 5, 4, 3, 2, 1, 0].foldl (fun qs l => bypassLevel s.free q p.level l p.before qs) r.keep
      let s := (s.setCluster cl { c with queues := qs }).discard r.gone
      let live := liveRegs (recLive q.words) (recLivebase q.words)
      (match s.fetchVa cl q.ctx (recFrame q.words) (160 * live.length * recCrews q.words) with
       | none => .next (((s.failRun q.graph q.run q.node 2).takeLeft q.graph q.run q.node).checkRun q.graph)
       | some frame => .next ((s.startGroup u q p.room frame).frameKills u cl q p.room.slots))

/-! The end of a group (R185, R189, R232, R234). -/

/-- The context has no resident group left. -/
def State.drained (s : State) (ctx : Nat) : State :=
  let x := s.ctx ctx
  if x.draining.isSome && (s.groupsOf (fun g => g.ctx == ctx)).isEmpty then s.setCtx ctx { x with draining := none } else s
/-- Registers that loads of exited crews still hold, with the part that belongs to ending extension units taken off. -/
def settleOwed (slots : List Nat) : Nat → List (Nat × Nat) → List (Nat × Nat)
  | _, [] => []
  | room, p :: ps => if slots.contains p.1 then (p.1, p.2 - room) :: settleOwed slots (room - min room p.2) ps else p :: settleOwed slots room ps
/-- Units assigned as L1 extension that no group but one holds (R139). -/
def Core.freedL1x (c : Core) (gid : Nat) : List Nat :=
  let held := (c.groups.drop gid).flatMap (fun p => p.2.l1x)
  c.flexL1x.filter (fun i => !held.contains i)
/-- The lines in the ways of units that stop being L1 extension go home and leave the L1 (R139). -/
def State.evictUnits (s : State) (u : Nat) (units : List Nat) : State :=
  ((s.core u).ways.filter (fun q => units.any (fun i => q.2 / 4 == i + 1))).foldl (fun s q => s.evict u q.1) s
/-- A group leaves its core: crews, tiles, flex units and the blade token are free again. -/
def State.removeGroup (s : State) (u gid : Nat) : State :=
  match s.group? u gid with
  | none => s
  | some g =>
    let mine (k : Nat) : Bool := g.slots.contains k
    let s := { s with monitors := s.monitors.filter (fun m => !(m.unit == u && mine m.slot)) }
    let s := s.evictUnits u ((s.core u).freedL1x gid)
    let s := s.modCore u (fun c =>
      let groups := c.groups.drop gid
      let l1held := groups.flatMap (fun p => p.2.l1x)
      { c with
        groups := groups
        crews := c.crews.filter (fun p => !mine p.1)
        claims := c.claims.filter (fun k => !mine k)
        bladeWait := c.bladeWait.filter (fun k => !mine k)
        tiles := g.tiles.foldl (fun m t => m.drop t) c.tiles
        owed := settleOwed g.slots (12288 * g.regx.length - g.regxFree) c.owed
        flex := imap c.flex (fun i f => match f with
          | .regx n => if n = gid then .free else f
          | .nscr n => if n = gid then .free else f
          | .l1x => if l1held.contains i then f else .free
          | .free => f) })
    let s := if (s.core u).blade == some gid then s.passBlade u else s
    if (s.core u).claims.isEmpty then s else s.push (.claimGrant u)
/-- The decrement of a group's join counter, once every earlier event of the core is performed (R189). -/
def State.groupJoin (s : State) (u gid : Nat) (g : Group) : State :=
  let a := g.join.toNat
  let fail := s.failRun g.graph g.run g.node 2
  if a / 2 ^ 56 ≠ 0 ∨ a % 64 ≠ 0 then fail
  else match s.xlate (clusterOf u) g.ctx a .atomic with
    | .error _ => fail
    | .ok l =>
      let old := if l.dest == .remote then (Config.remoteValue s.free).toNat % 2 ^ 32 else s.num l.ha 4
      let s := if l.dest == .remote then s else s.writeHome (imap (bytesOf 4 ((old + 2 ^ 32 - 1) % 2 ^ 32)) (fun i b => (l.ha + i, b)))
      if old = 1 then s.addPush (g.pushOf u gid none (s.core u).nextGid ((a + 64) % 2 ^ 64) 0 none) else s
/-- A group's join counter lies on a module whose port holds its flits (R311). -/
def State.joinHeld (s : State) (u : Nat) (g : Group) : Bool :=
  match s.xlate (clusterOf u) g.ctx g.join.toNat .atomic with | .ok l => l.dest == .remote && s.portHeld (farModule l.ha) | .error _ => false
/-- Every event of the core up to `seq` is performed at module scope. -/
def State.doneUpTo (s : State) (u : Nat) (seq : Option Nat) : Bool := match seq with | some q => s.performed u q 2 | none => true
/-- Entries of a group that are still in a queue of its core. -/
def Core.groupEntries (c : Core) (gid : Nat) : Bool := c.queues.any (fun q => q.any (fun e => e.gid == gid))
/-- The number of an event is done with. -/
def State.dropSeq (s : State) (u : Nat) (seq : Option Nat) : State :=
  s.setOrigin u { s.origin u with pend := (s.origin u).pend.filter (fun e => !(some e.seq == seq)) }
/-- The join decrement of a group that was removed by force after it took its number (R195). -/
def State.lateJoin (s : State) (u gid : Nat) : State :=
  match (s.core u).late.find? gid with
  | none => s
  | some g =>
    if s.doneUpTo u (g.lastSeq.map (fun q => (q + 2 ^ 30 - 1) % 2 ^ 30)) && !s.joinHeld u g then
      ((s.dropSeq u g.lastSeq).groupJoin u gid g).modCore u (fun c => { c with late := c.late.drop gid })
    else s
/-- GROUP_END: sweep, take the join decrement's number, wait for the events, decrement, and end. -/
def execGroupEnd (u gid : Nat) (s : State) : Host.Outcome State Fault Refusal :=
  match s.group? u gid with
  | none => .next (s.lateJoin u gid)
  | some g =>
    if s.liveCrews u gid ≠ 0 then .next s
    else
      let s := s.sweepAll u
      if g.join ≠ 0 ∧ !g.joined then
        let x := s.origin u
        if x.stalls then .next s else
        let ev : StoreEv :=
          { seq := x.next, who := none, threads := 0, scope := 2, await := 2, after := [], wit := false, cls := 2, bytes := [], waits := [], entered := false, swept := false,
            locks := 0, held := true, marks := [] }
        .next (((s.addEvent u ev).modGroup u gid (fun g => { g with joined := true, lastSeq := some x.next })).push (.groupEnd u gid))
      else
        -- the join decrement is the group's last event; the events before it are awaited first
        let before := if g.joined then g.lastSeq.map (fun q => (q + 2 ^ 30 - 1) % 2 ^ 30) else g.lastSeq
        if !s.doneUpTo u before || (s.core u).groupEntries gid || (g.joined && s.joinHeld u g) then .next s
        else
          let s := if g.joined then (s.dropSeq u g.lastSeq).groupJoin u gid g else s
          let s := (s.removeGroup u gid).takeLeft g.graph g.run g.node
          .next ((s.checkRun g.graph).drained g.ctx)

/-! Pre-emption (R194, R195, R249). -/

/-- A COLL whose round is not complete. -/
def EKind.gathers : EKind → Bool | .coll _ => true | _ => false
/-- The key of a rank's count of rounds. -/
def rankKey (group : DWord) (rank : Nat) : Nat := group.toNat * 2 ^ 16 + rank
/-- A rank has come to its next round, also where it sends nothing (R353). -/
def State.countRound (s : State) (group : DWord) (rank : Nat) : State :=
  let k := rankKey group rank
  { s with roundOf := s.roundOf.put k (s.roundOf.get 0 k + 1) }
/-- A withdrawn COLL has come to its round and sends nothing there, so that the round never fills (R195). -/
def State.withdraw (s : State) (e : Entry) : State :=
  match e.kind with | .coll d => s.countRound (BitVec.ofNat 64 (natOfBytes ((d.drop 32).take 8))) (natOfBytes ((d.drop 4).take 2)) | _ => s
/-- Take a resident group off its core by force. Its join counter is decremented only where the decrement had taken its number: R194 ends the
group, R195 speaks of decrements that had issued (DESIGN CHOICE, log entry 55). -/
def State.resetGroup (s : State) (u gid : Nat) : State :=
  match s.group? u gid with
  | none => s
  | some g =>
    let s := s.sweepAll u
    let c := s.core u
    -- entries that have not begun are withdrawn, with the event numbers of withdrawn TSTs
    let gone := c.queues.flatMap (fun q => q.filter (fun e => e.gid == gid && !e.begun))
    let seqs := gone.flatMap (fun e => match e.kind with | .tst _ _ ss => ss | _ => [])
    let x := s.origin u
    let s := gone.foldl State.withdraw (s.setOrigin u { x with pend := x.pend.filter (fun e => !(e.held && seqs.contains e.seq)) })
    let s := s.modCore u (fun c => { c with
      queues := c.queues.map (fun q => (q.filter (fun e => !(e.gid == gid && !e.begun))).map (fun e => if e.gid == gid then { e with drop := true } else e))
      atoms := c.atoms.filter (fun a => !(a.2.op == 9 && (match a.2.who with | .crew k => g.slots.contains k | .cox n => n == gid))) })
    -- registers return once the loads have landed
    let s := g.slots.foldl (fun s k =>
      match s.crew? u k with
      | none => s
      | some w =>
        let s := s.modCrew u k (fun w => { w with count := 0, threads := w.threads.map (fun t => { t with live := false, pend := none }) })
        if w.count = 0 then s
        else if ((s.core u).crewLoads k).isEmpty then s.returnRegs u gid (32 * w.count)
        else s.modCore u (fun c => { c with owed := c.owed ++ [(k, 32 * w.count)] })) s
    let s := if g.joined then (s.modCore u (fun c => { c with late := c.late.put gid g })).push (.groupEnd u gid) else s
    (s.failRun g.graph g.run g.node 3).removeGroup u gid
/-- Pushes of removed groups that still wait on a witness are abandoned (R195). -/
def State.abandonPushes (s : State) (gone : List (Nat × Nat)) : State :=
  let out := s.pushes.filter (fun p => gone.contains (p.2.unit, p.2.gid) && !s.satisfied p.2.after 2)
  out.foldl (fun s p => s.takeLeft p.2.graph p.2.run p.2.node) { s with pushes := s.pushes.filter (fun p => !out.any (fun q => q.1 == p.1)) }
/-- Crews of a context that have not exited, as (unit, slot). -/
def State.ctxCrews (s : State) (ctx : Nat) : List (Nat × Nat) :=
  s.cores.flatMap (fun c => (c.2.crews.filter (fun p => !p.2.exited && (c.2.groups.get Group.blank p.2.gid).ctx == ctx)).map (fun p => (c.1, p.1)))
/-- Let the crews of a context that stand at a CATCH of a step that `sel` picks go on. -/
def State.releaseCatch (s : State) (ctx : Nat) (sel : Nat → Bool) : State :=
  (s.ctxCrews ctx).foldl (fun s p => s.endWait p.1 p.2 (fun _ q => match q.wait with | .catch n => sel n | _ => false) (fun _ _ => [])) s
/-- PREEMPT_DEADLINE_EXPIRY: a starter's counter reaches the deadline, and the context is reset in its cluster. -/
def execPreemptDeadlineExpiry (ctx cl : Nat) (s : State) : Host.Outcome State Fault Refusal :=
  let x := s.ctx ctx
  match x.draining with
  | none => .next s
  | some m =>
    match m.find? cl with
    | none => .next s
    | some limit =>
      let c := s.cluster cl
      let s := s.setCluster cl { c with cyc := max c.cyc limit }
      let mine := (s.groupsOf (fun g => g.ctx == ctx)).filter (fun p => clusterOf p.1 == cl)
      let graphs := (mine.filterMap (fun p => (s.group? p.1 p.2).map (·.graph))).eraseDups
      let s := s.setCtx ctx { x with
        draining := some (m.drop cl)
        cut := x.cut.map (fun c => if c.completed then c else { c with failed := true }) }
      let s := mine.foldl (fun s p => s.resetGroup p.1 p.2) s
      -- a cut that fails releases the crews that stand at it (R196)
      let s := (if (match x.cut with | some c => !c.completed | none => false) then s.releaseCatch ctx (fun _ => true) else s).abandonPushes mine
      .next ((graphs.foldl (fun s gr => s.checkRun gr) s).drained ctx)

/-! Job cuts (R196). -/

/-- The paths of a crew that stand at a CATCH of a job cut. -/
def isCatch (p : Path) : Bool := match p.wait with | .catch _ => true | _ => false
/-- Every path of the crew stands at the CATCH of a step. -/
def Crew.caughtAt (w : Crew) (step : Nat) : Bool :=
  w.sculls.all (fun x => x.paths.all (fun p => match p.wait with | .catch n => n == step | _ => false))
/-- JOB_CUT_RELEASE: crews stopped below the largest step go on; the cut is complete when every crew stands at it. -/
def execJobCutRelease (ctx : Nat) (s : State) : Host.Outcome State Fault Refusal :=
  let x := s.ctx ctx
  match x.cut with
  | none => .next s
  | some c =>
    if c.failed || c.completed then .next s
    else match c.step with
      | none => .next (if (s.ctxCrews ctx).isEmpty then s.setCtx ctx { x with cut := some { c with step := some 0, completed := true } } else s)
      | some m =>
        let s := s.releaseCatch ctx (fun n => decide (n < m))
        let all := (s.ctxCrews ctx).all (fun p => match s.crew? p.1 p.2 with | some w => w.caughtAt m | none => true)
        .next (if all then s.setCtx ctx { s.ctx ctx with cut := some { c with completed := true } } else s)
/-- A wait that R196 limits: BAR, BARW, REGANG, WWAIT, SLTAKE, MWAIT. -/
def cutWait (w : Wait) : Bool := match w with | .bar .. | .regang | .wit _ false | .sltake _ | .mwait .. => true | _ => false
/-- JOB_CUT_TIMEOUT: a crew has waited 2^20 cycles of its core during the cut. -/
def execJobCutTimeout (ctx : Nat) (s : State) : Host.Outcome State Fault Refusal :=
  let x := s.ctx ctx
  match x.cut with
  | none => .next s
  | some c =>
    let late (p : Nat × Nat) : Bool :=
      match s.crew? p.1 p.2 with
      | none => false
      | some w => w.sculls.any (fun y => y.paths.any (fun q => cutWait q.wait && decide (max q.since (c.starts.get 0 p.1) + 2 ^ 20 ≤ (s.core p.1).ccyc)))
    if !c.failed && !c.completed && (s.ctxCrews ctx).any late then
      .next ((s.setCtx ctx { x with cut := some { c with failed := true } }).releaseCatch ctx (fun _ => true))
    else .next s

end Sys2Proof.Machine
end

