-- ==== Sys2Proof/Machine/System.lean ====
section
/-! DEFINITION. Control registers, return from a handler, software traps and TFENCE (R58, R75, R103, R114, R203, R236, R237, R241,
R242, R245, R281, R282, R285, R286, R289, R292, R294, R342, R369, R402 to R405, R435, R436). -/
namespace Sys2Proof.Machine

/-- The crew of the issuing crew's group with a crew number, by its slot (R292). -/
def View.sibling (v : View) (cnum : Nat) : Option (Nat × Crew) :=
  match v.grp.slots.find? (fun k => match v.core.crews.find? k with | some w => w.cnum == cnum && !w.exited | none => false) with
  | some k => (v.core.crews.find? k).map (fun w => (k, w))
  | none => none
def dbgCnum (sel : Word) : Nat := bitsAt sel.toNat 0 5
def dbgThr (sel : Word) : Nat := bitsAt sel.toNat 16 5
def dbgReg (sel : Word) : Nat := bitsAt sel.toNat 24 8

/-- What DBGSTAT shows of a crew (R292). -/
def Crew.dbgstat (w : Crew) : DWord :=
  BitVec.ofNat 64 (w.piece * 2 ^ 32 + w.stroke % 2 ^ 24 * 2 ^ 8 + (if w.halt = .halted then 2 ^ 7 else 0) + (if w.replay.isSome then 2 ^ 6 else 0))
/-- DBGSTAT (R292). -/
def View.dbgstat (v : View) : DWord := match v.sibling (dbgCnum v.crew.dbgsel) with | some (_, w) => w.dbgstat | none => 0

/-- The value of a control register as thread t reads it (R403, R404). -/
def View.control (v : View) (s : State) (t n : Nat) : DWord :=
  let x := s.ctx v.grp.ctx
  let w (y : Word) : DWord := y.zeroExtend 64
  let k (y : Nat) : DWord := BitVec.ofNat 64 y
  match n with
  | 0x000 => w (v.fmtr t)
  | 0x001 => w v.crew.sigfloor
  | 0x002 => k v.nbv
  | 0x003 => k (hdrWords v.grp.hdr)
  | 0x004 => k x.sel
  | 0x005 => w v.crew.logctl
  | 0x006 => k (v.crew.scull (t / 4)).fstat.toNat
  | 0x007 => w v.crew.dbgctl
  | 0x008 => k (hdrW v.grp.hdr 5)
  | 0x009 => (v.crew.scull (t / 4)).losspc
  | 0x00A => v.crew.tbase
  | 0x00B => k (frbase v.grp.hdr v.crew.pos)
  | 0x00C => v.crew.tcmp
  | 0x00D => v.crew.ctime
  | 0x00E => k v.core.ccyc
  | 0x00F => v.crew.recbase
  | 0x010 => w v.crew.dbgsel
  | 0x011 => v.crew.dbgdata
  | 0x013 => v.dbgstat
  | 0x014 => v.core.trbase
  | 0x015 => v.core.trhead
  | 0x016 => v.core.trtail
  | n =>
    if 0x020 ≤ n ∧ n ≤ 0x02F then w ((v.core.tiles.get Tile.reset (v.grp.tiles.getD (n - 0x020) 0)).tf)
    else if 0x030 ≤ n ∧ n ≤ 0x037 then x.brk.getD (n - 0x030) 0
    else if 0x038 ≤ n ∧ n ≤ 0x03B then x.watch.getD (n - 0x038) 0
    else if 0x040 ≤ n ∧ n ≤ 0x07F then w (s.iod.dmb.getD (n - 0x040) 0)
    else if 0x080 ≤ n ∧ n ≤ 0x0BF then k (((v.core.seats.getD ((n - 0x080) / 16) Seat.reset).ctr.getD ((n - 0x080) % 16) 0) % 2 ^ 64)
    else 0

/-- Reads that are logged while recording is on (R404). -/
def ctlLogged (n : Nat) : Bool := n == 0x00D || n == 0x00E || n == 0x011 || decide (0x040 ≤ n ∧ n ≤ 0x0BF)

/-- A TF number at or above the group's TILES (R405). -/
def tfAbsent (v : View) (n : Nat) : Bool := decide (0x020 ≤ n ∧ n ≤ 0x02F) && decide (n - 0x020 ≥ hdrTiles v.grp.hdr)

/-- MOVC read (R404). -/
def movcRead (s : State) (v : View) (g : Guard) (n : Nat) (d : Reg) : Host.Outcome State Fault Refusal :=
  if tfAbsent v n then emit s (raiseAll v (v.acting g) 0x02 131 0)
  else
    let ws := (v.lanes g d).flatMap (fun t =>
      let x := v.control s t n
      if ctl64 n then v.w2 t d x intTag intTag else v.w1 t d (loWord x) intTag)
    emit s { Fx.empty with wr := ws, log := if ctlLogged n then logOf ws else [] }

/-! Rules of written values. -/

/-- SIGFLOOR (R103). -/
def sigfloorBad (x : Word) : Bool :=
  bitsAt x.toNat 30 2 != 0 || bitsAt x.toNat 21 3 != 0 || bitsAt x.toNat 12 4 != 0 || bitsAt x.toNat 0 8 != 0 ||
  decide (dfloor x > 53) || decide (sfloor x > 24) || decide (hfloor x > 11)
/-- DBGCTL (R282). -/
def dbgctlBad (x : Word) : Bool := bitsAt x.toNat 16 16 != 0 || bitsAt x.toNat 0 7 != 0 || decide (bitsAt x.toNat 11 5 < 16 ∨ bitsAt x.toNat 11 5 > 24)
/-- DBGSEL (R292). -/
def dbgselBad (x : Word) : Bool := bitsAt x.toNat 21 3 != 0 || bitsAt x.toNat 5 11 != 0
/-- BRKn (R289). -/
def brkBad (x : DWord) : Bool := bitAt x.toNat 61 || pcBad (bitsAt x.toNat 0 56)
/-- WATCHn (R289). -/
def watchBad (x : DWord) : Bool := bitAt x.toNat 60
/-- FSTAT (R236). -/
def fstatBad (x : Word) : Bool := bitsAt x.toNat 7 25 != 0

/-- The position a crew stands at, or stood at when its replay began (R288). -/
def Crew.livePoint (w : Crew) : Nat × Nat := match w.replay with | some r => (r.livePiece, r.liveStroke) | none => (w.piece, w.stroke)
/-- A position that a crew cannot be replayed to: before its snapshot, beyond its live point, or in a piece whose log is not
complete (R288). -/
def Crew.replayBad (w : Crew) (pos : DWord) : Bool :=
  let p := bitsAt pos.toNat 24 32
  let t := bitsAt pos.toNat 0 24
  !w.recOk || decide (p < w.piece) || decide (p > w.livePoint.1 ∨ (p = w.livePoint.1 ∧ t > w.livePoint.2))
/-- Why a debug command on a crew is refused: a subcode of ILLEGAL_FIELD (R288, R292). -/
def Crew.dbgRefused (w : Crew) (cmd reg : Nat) (data : DWord) : Option Nat :=
  if cmd ≥ 4 ∧ w.halt ≠ .halted then some 101
  else if (cmd = 4 ∨ cmd = 5) ∧ reg ≥ w.count then some 101
  else if cmd = 7 ∧ w.replayBad data = true then some 102
  else none
/-- What is wrong with a crew's debug command (R288, R292): a subcode. -/
def dbgCmdBad (v : View) (cmd : Nat) : Option Nat :=
  if cmd = 0 then none
  else match v.sibling (dbgCnum v.crew.dbgsel) with
    | none => some 100
    | some (k, w) => if k = v.slot then some 100 else w.dbgRefused cmd (dbgReg v.crew.dbgsel) v.crew.dbgdata
/-- The step that a debug command is (R292): target crew, commanding crew, register, thread, data. -/
def dbgInstr (cmd u slot cu cslot reg thr : Nat) (data : DWord) : Instr :=
  match cmd with
  | 1 => .dbgHaltRequest u slot cu cslot
  | 2 => .dbgRelease u slot cu cslot
  | 3 => .dbgStep u slot cu cslot
  | 4 => .dbgReadRegister u slot cu cslot reg thr
  | 5 => .dbgWriteRegister u slot cu cslot reg thr (loWord data)
  | 6 => .dbgReadPc u slot cu cslot thr
  | 7 => .dbgReplay u slot cu cslot data
  | _ => .dbgNone u slot cu cslot
def dbgStepOf (v : View) (cmd : Nat) : Instr :=
  let k := match v.sibling (dbgCnum v.crew.dbgsel) with | some p => p.1 | none => 0
  dbgInstr cmd v.iss.unit k v.iss.unit v.slot (dbgReg v.crew.dbgsel) (dbgThr v.crew.dbgsel) v.crew.dbgdata

/-- Set the FMTR copies of the running paths of some sculls (R75). -/
def Crew.setFmtr (w : Crew) (ks : List Nat) (x : Word) : Crew :=
  ks.foldl (fun w k => let y := w.scull k; w.setScull k { y with run := y.run.map (fun p => { p with fmtr := x }) }) w

/-- A MOVC write of value `x` to control register `n`: the new state, or the cause and subcode that every acting thread takes. -/
def movcWrite (s : State) (v : View) (n : Nat) (r : Reg) (x : DWord) : Except (Nat × Nat) State :=
  let y := loWord x
  let crew (bad : Bool) (f : Crew → Crew) : Except (Nat × Nat) State :=
    if bad then .error (0x02, 18) else .ok (s.modCrew v.iss.unit v.slot f)
  let ctx (bad : Bool) (f : Ctx → Ctx) : Except (Nat × Nat) State :=
    if bad then .error (0x02, 18) else .ok (s.setCtx v.grp.ctx (f (s.ctx v.grp.ctx)))
  match n with
  | 0x000 =>
    crew (fmtrBad y) (fun w => if r.isCrew then ({ w with fmtr := y }).setFmtr (List.range 8) y else w.setFmtr v.iss.parts y)
  | 0x001 => crew (sigfloorBad y) (fun w => { w with sigfloor := y })
  | 0x005 => if v.crew.enm then .error (0x02, 97) else crew false (fun w => { w with logctl := y })
  | 0x007 => crew (dbgctlBad y) (fun w => { w with dbgctl := y, recOk := w.recOk && bitAt y.toNat 10 })
  | 0x00A => crew (pcBad x.toNat) (fun w => { w with tbase := x })
  | 0x00C => .ok ((s.modCrew v.iss.unit v.slot (fun w => { w with tcmp := x })).push (.timerExpiry v.iss.unit v.slot))
  | 0x00F => crew (bitsAt x.toNat 56 8 != 0) (fun w => { w with recbase := x })
  | 0x010 => crew (dbgselBad y) (fun w => { w with dbgsel := y })
  | 0x011 => crew false (fun w => { w with dbgdata := x })
  | n =>
    if 0x030 ≤ n ∧ n ≤ 0x037 then ctx (brkBad x) (fun c => { c with brk := setNth c.brk (n - 0x030) x })
    else if 0x038 ≤ n ∧ n ≤ 0x03B then ctx (watchBad x) (fun c => { c with watch := setNth c.watch (n - 0x038) x })
    else .error (0x05, 0)

/-- Run a write for the acting threads: the value comes from the lowest of them (R404). -/
def movcApply (s : State) (v : View) (g : Guard) (r : Reg) (wide : Bool) (f : DWord → Except (Nat × Nat) State) : Host.Outcome State Fault Refusal :=
  match v.acting g with
  | [] => emit s Fx.empty
  | t :: ts =>
    let x := if wide then v.pair t r else (v.val t r).zeroExtend 64
    match f x with
    | .ok s' => emit s' Fx.empty
    | .error c => emit s (raiseAll v (t :: ts) c.1 c.2 0)

/-- A MOVC write of DBGCMD (R292, R293): the command applies at the end of the core's cycle, after those of crews with lower numbers, and the MOVC
ends with it. What no longer holds then makes the MOVC issue again, and trap. A replaying crew waits for nothing (R288). -/
def movcCommand (s : State) (v : View) (g : Guard) (r : Reg) : Host.Outcome State Fault Refusal :=
  match v.acting g with
  | [] => emit s Fx.empty
  | t :: ts =>
    let cmd := (v.val t r).toNat % 8
    let add (s : State) : State := s.modCore v.iss.unit (fun c => { c with dbg := c.dbg ++ [(v.crew.cnum, dbgStepOf v cmd)] })
    match dbgCmdBad v cmd with
    | some sub => emit s (raiseAll v (t :: ts) 0x02 sub 0)
    | none =>
      if cmd = 0 then emit s Fx.empty
      else if v.crew.replay.isSome then emit (add s) Fx.empty
      else match block s .command with | .next s' => .next (add s') | o => o
def execMovc (g : Guard) (w : Bool) (num : BitVec 12) (r : Reg) (s : State) : Host.Outcome State Fault Refusal :=
  withView s (fun v => if w && num == 0x012#12 then movcCommand s v g r else if w then movcApply s v g r (ctl64 num.toNat) (movcWrite s v num.toNat r) else movcRead s v g num.toNat r)

/-! The MOVC writes with a row of their own. -/

def execDmbWrite (g : Guard) (n : Fin 64) (a : Reg) (s : State) : Host.Outcome State Fault Refusal :=
  withView s (fun v => movcApply s v g a false (fun x =>
    if n.val ≥ 48 then .error (0x05, 0)
    else .ok (if v.crew.replay.isSome then s else { s with iod := { s.iod with dmb := setNth s.iod.dmb n.val (loWord x) } })))
/-- A device write to DMB47 raises the host debug interrupt (R294). -/
def execDmbDoorbell (g : Guard) (a : Reg) (s : State) : Host.Outcome State Fault Refusal :=
  withView s (fun v => movcApply s v g a false (fun x =>
    .ok (if v.crew.replay.isSome then s else { s with iod := { s.iod with dmb := setNth s.iod.dmb 47 (loWord x), dbgIrq := s.iod.dbgIrq + 1 } })))
/-- A write of TRBASE empties the ring (R285). -/
def State.setTrace (s : State) (u : Nat) (x : DWord) : State := s.modCore u (fun c => { c with trbase := x, trhead := 0, trtail := 0 })
def State.setTracePointer (s : State) (u : Nat) (tail : Bool) (x : DWord) : State :=
  s.modCore u (fun c => if tail then { c with trtail := x } else { c with trhead := x })
def execTrbaseWrite (g : Guard) (a : Reg) (s : State) : Host.Outcome State Fault Refusal :=
  withView s (fun v => movcApply s v g a true (fun x =>
    if v.grp.ctx ≠ 0 then .error (0x05, 0)
    else if bitsAt x.toNat 56 8 ≠ 0 then .error (0x02, 18)
    else .ok (s.setTrace v.iss.unit x)))
/-- TRHEAD and TRTAIL (R285): the offset is a multiple of 8 inside the ring, and reserved bits are zero. -/
def tracePointerBad (c : Core) (tail : Bool) (x : DWord) : Bool :=
  bitsAt x.toNat 0 3 != 0 || decide (bitsAt x.toNat 0 32 ≥ 65536 * bitsAt c.trbase.toNat 0 16) ||
  (if tail then bitsAt x.toNat 32 32 != 0 else bitsAt x.toNat 32 16 != 0)
def execTracePointerWrite (g : Guard) (tail : Bool) (a : Reg) (s : State) : Host.Outcome State Fault Refusal :=
  withView s (fun v => movcApply s v g a true (fun x =>
    if v.grp.ctx ≠ 0 then .error (0x05, 0)
    else if tracePointerBad v.core tail x then .error (0x02, 18)
    else .ok (s.setTracePointer v.iss.unit tail x)))
/-- The umpire cores reach the trace registers of any core; what a MOVC would trap on changes nothing (R285). -/
def execUmpireTraceBase (u : Nat) (x : DWord) (s : State) : Host.Outcome State Fault Refusal :=
  .next (if u ≥ 2304 ∨ bitsAt x.toNat 56 8 ≠ 0 then s else s.setTrace u x)
def execUmpireTracePointer (u : Nat) (tail : Bool) (x : DWord) (s : State) : Host.Outcome State Fault Refusal :=
  .next (if u ≥ 2304 ∨ tracePointerBad (s.core u) tail x = true then s else s.setTracePointer u tail x)
/-- SCTR takes only zero, and only from the system context (R281). -/
def execSctrClear (g : Guard) (n : Fin 64) (a : Reg) (s : State) : Host.Outcome State Fault Refusal :=
  withView s (fun v => movcApply s v g a true (fun x =>
    if v.grp.ctx ≠ 0 ∨ x ≠ 0 then .error (0x05, 0)
    else .ok (s.modCore v.iss.unit (fun c =>
      let k := n.val / 16
      let seat := c.seats.getD k Seat.reset
      { c with seats := setNth c.seats k { seat with ctr := setNth seat.ctr (n.val % 16) 0 } }))))
def execDtblWrite (g : Guard) (a : Reg) (s : State) : Host.Outcome State Fault Refusal :=
  withView s (fun v => movcApply s v g a false (fun x =>
    if v.grp.ctx ≠ 0 then .error (0x05, 0)
    else if x.toNat ≥ 4 then .error (0x02, 18)
    else .ok (s.setCtx 0 { s.ctx 0 with sel := x.toNat })))
/-- FSTAT (R236): a crew register writes every scull, a per-thread register the lowest acting thread's; SIG clear clears LOSSPC. -/
def execFstatWrite (g : Guard) (a : Reg) (s : State) : Host.Outcome State Fault Refusal :=
  withView s (fun v => movcApply s v g a false (fun x =>
    if fstatBad (loWord x) then .error (0x02, 18)
    else
      let f : BitVec 7 := x.extractLsb' 0 7
      let put (y : Scull) : Scull := { y with fstat := f, losspc := if bitAt f.toNat 5 then y.losspc else 0 }
      let k := (v.acting g).headD 0 / 4
      .ok (s.modCrew v.iss.unit v.slot (fun w => if a.isCrew then { w with sculls := w.sculls.map put } else w.setScull k (put (w.scull k))))))

/-! Return from a handler (R242, R369). -/

/-- What ERET reads of a thread's frame: RPC, RFMTR, STICKY, and the frame's cause and subcode. -/
structure FrameRead where
  rpc : DWord
  rfmtr : Word
  sticky : BitVec 7
  cause : Nat
  sub : Nat
  deriving DecidableEq, Repr

/-- Stores of the threads that have yet to bring bytes of a read to where it reads them: an ERET waits for its handler's own (R369). -/
def State.ownBytes (s : State) (u : Nat) (who : Who) (threads : Nat) (ps : List Piece) : Bool :=
  (s.origin u).pend.any (fun e => e.who == some who && e.threads &&& threads != 0 && e.bytes.any (fun b =>
    !(e.entered && b.dest == .l1) && ps.any (fun p => decide (p.ha ≤ b.ha ∧ b.ha < p.ha + p.n))))
/-- Read an n-byte field of a frame as a core-scope load of the issuing core, unwatched. -/
def View.frameField (v : View) (s : State) (ts a n : Nat) : Except ReadStop (Nat × List Nat) :=
  let r := s.locGlobal v.cluster v.grp.ctx (a % 2 ^ 64) n .load
  match s.bindNow v.iss.unit a true r with
  | .error x => .error x
  | .ok bs => if (match r with | .ok ps => s.ownBytes v.iss.unit v.iss.who ts ps | .error _ => false) then .error .busy else .ok (natOfBytes bs.1, bs.2)
/-- The frame that a thread returns from, with the L1 lines that reading it fetches; `ts` are the returning threads as a mask. -/
def View.readFrame (v : View) (s : State) (ts t : Nat) : Except ReadStop (FrameRead × List Nat) :=
  let a := frbase v.grp.hdr v.crew.pos + 128 * ((v.crew.thread t).hlvl - 1)
  match v.frameField s ts (a + 72) 8, v.frameField s ts (a + 80) 4, v.frameField s ts (a + 64) 1, v.frameField s ts a 8 with
  | .error f, _, _, _ => .error f
  | _, .error f, _, _ => .error f
  | _, _, .error f, _ => .error f
  | _, _, _, .error f => .error f
  | .ok rpc, .ok fm, .ok st, .ok head =>
    .ok (⟨BitVec.ofNat 64 rpc.1, BitVec.ofNat 32 fm.1, BitVec.ofNat 7 st.1, head.1 % 256, head.1 / 2 ^ 32⟩, rpc.2 ++ fm.2 ++ st.2 ++ head.2)
/-- The log entries of a frame read (R286): RPC under register number 254, RFMTR with STICKY under 253, cause and subcode under 252
(log entry 16). -/
def FrameRead.log (f : FrameRead) (t : Nat) : List (Nat × Nat × DWord) :=
  [(254, t, f.rpc), (253, t, BitVec.ofNat 64 (f.sticky.toNat * 2 ^ 32 + f.rfmtr.toNat)), (252, t, BitVec.ofNat 64 (f.sub * 2 ^ 32 + f.cause))]
/-- What a replaying crew's log holds of a frame read: the frame, or the fault that the read met (R288). -/
def Crew.loggedFrame (w : Crew) (t : Nat) : Except ReadStop (FrameRead × List Nat) :=
  match w.loggedFault t with
  | some f => .error (.fault f)
  | none =>
    let x := (w.logged 253 t).getD 0
    let h := ((w.logged 252 t).getD 0).toNat
    .ok (⟨(w.logged 254 t).getD 0, loWord x, x.extractLsb' 32 7, h % 256, h / 2 ^ 32⟩, [])
/-- The return of thread t, or the cause it takes at the ERET. -/
def View.eretOf (v : View) (s : State) (ts t : Nat) : Except ReadStop (FrameRead × List Nat) :=
  if (v.crew.thread t).hlvl = 0 then .error (.fault (0x02, 99, 0))
  else match (if v.crew.replay.isSome then v.crew.loggedFrame t else v.readFrame s ts t) with
    | .error f => .error f
    | .ok f => if pcBad f.1.rpc.toNat || fmtrBad f.1.rfmtr then .error (.fault (0x02, 99, 0)) else .ok f
/-- The first issue after this return takes no breakpoint or watchpoint match (R290). -/
def FrameRead.unmatched (f : FrameRead) : Bool := (f.cause == 0x30 && decide (f.sub ≤ 7)) || f.cause == 0x31

/-- ERET (R369): the frames are read as loads would read them, then the threads return. -/
def execEret (g : Guard) (s : State) : Host.Outcome State Fault Refusal :=
  withView s (fun v =>
    let ts := v.acting g
    match readsOf (ts.map (fun t => (t, v.eretOf s (maskOf ts) t))) with
    | .busy => readFail v s ts .busy
    | .poison dead array va home => readFail v s dead (.poison array va home)
    | .done bad ok =>
      let raises := bad.map (fun p => raiseAt v p.1 p.2)
      match emit (s.fetchNow v.iss.unit (ok.flatMap (·.2.2))) { Fx.empty with
          raises := raises
          jumps := ok.map (fun p => (p.1, p.2.1.rpc))
          rets := ok.map (fun p => (p.1, p.2.1.rfmtr))
          log := ok.flatMap (fun p => p.2.1.log p.1) ++ faultLog raises } with
      | .next t =>
        let t := t.modCrew v.iss.unit v.slot (fun w => ok.foldl (fun w p => w.returnThread p.1 p.2.1.sticky p.2.1.unmatched) w)
        .next (t.push (.trapDelivery v.iss.unit v.slot))
      | r => r)

/-! Software traps (R342, R436) and TFENCE (R237, R435). -/

def execTrap (g : Guard) (code : Word) (s : State) : Host.Outcome State Fault Refusal :=
  withView s (fun v => emit s (raiseAll v (v.acting g) 0x33 code.toNat 0 true))
def execBkpt (g : Guard) (_code : BitVec 24) (s : State) : Host.Outcome State Fault Refusal :=
  withView s (fun v => emit s (raiseAll v (v.acting g) 0x30 8 0 true))

/-- Enables of FMTR[15:9] against FSTAT[6:0] (R115, R237). -/
def tfenceBits (fstat : BitVec 7) (fmtr : Word) : Nat := fstat.toNat &&& bitsAt fmtr.toNat 9 7
/-- Entries of the matrix queue that a scull's quarter still awaits. -/
def Core.quarterEntries (c : Core) (who : Who) (quarters : List Nat) : List Nat :=
  (c.queues.getD 0 []).filterMap (fun e => if e.who == who && quarters.contains e.quarter then
    (match e.kind with | .mma .. => some e.id | _ => none) else none)
/-- TFENCE: wait for the MMA entries of its quarters, then raise what is enabled. -/
def execTfence (s : State) : Host.Outcome State Fault Refusal :=
  withView s (fun v =>
    let wait := v.core.quarterEntries v.iss.who ((v.active.map (· / 8)).eraseDups)
    if !wait.isEmpty && v.crew.replay.isNone then block s (.ops 7 [] [] wait [])
    else emit s { Fx.empty with raises := v.active.filterMap (fun t =>
      let e := tfenceBits (v.crew.scull (t / 4)).fstat (v.fmtr t)
      if e = 0 then none else some ⟨t, 0x20, e, 0, true, v.iss.idx⟩) })

/-! HPROBE (R257 to R260). -/

/-- One step of the hash of R258. -/
def hashByte (h : Nat) (b : Byte) : Nat := ((h ^^^ b.toNat) * 0x00000100000001B3) % 2 ^ 64
def hashKey (seed : Nat) (key : List Byte) : Nat :=
  let h := key.foldl hashByte (0xCBF29CE484222325 ^^^ seed)
  h ^^^ (h >>> 29)

/-- Bytes of a key in memory, read byte by byte. -/
def View.readKey (v : View) (s : State) (t : Nat) (eats : Bool) (sp : Space) (a : Nat) : Nat → Except ReadStop (List Byte × List Nat)
  | 0 => .ok ([], [])
  | n + 1 =>
    match v.readNow s t 2 eats sp (a % 2 ^ 64) 1 with
    | .error f => .error f
    | .ok b => match v.readKey s t eats sp (a + 1) n with | .error f => .error f | .ok r => .ok (b.1 ++ r.1, b.2 ++ r.2)

/-- Probe entries from entry `e` of bucket step `j` on, at most `fuel` more (R260): the result, with the L1 lines fetched after `ls`. -/
def View.probe (v : View) (s : State) (t : Nat) (eats : Bool) (sp : Space) (base seed l n : Nat) (key : List Byte) : Nat → Nat → List Nat → Except ReadStop (Word × List Nat)
  | 0, _, ls => .ok (0xFFFFFFFF, ls)
  | fuel + 1, i, ls =>
    let h := hashKey seed key
    let bucket := (h / 2 ^ (64 - l) + i / 4) % 2 ^ l
    match v.readChunks s t 2 eats sp (base + 64 + 64 * bucket + 16 * (i % 4)) 2 with
    | .error f => .error f
    | .ok bs =>
      let e := natOfBytes bs.1
      let ls := ls ++ bs.2
      if bitsAt e 0 32 = 0xFFFFFFFF then .ok (0xFFFFFFFF, ls)
      else if bitsAt e 80 8 = 0 ∨ bitsAt e 80 8 > 16 then .ok (0xFFFFFFFE, ls)
      else if bitsAt e 64 16 = h % 2 ^ 16 ∧ bitsAt e 80 8 = n then
        (match v.readKey s t eats sp (base + bitsAt e 32 32) n with
         | .error f => .error f
         | .ok k =>
           if k.1 = key then .ok (BitVec.ofNat 32 (bitsAt e 0 32), ls ++ k.2) else v.probe s t eats sp base seed l n key fuel (i + 1) (ls ++ k.2))
      else v.probe s t eats sp base seed l n key fuel (i + 1) ls
/-- The key of thread t: the low n bytes of B to B + 3. -/
def View.probeKey (v : View) (t : Nat) (b : Reg) (n : Nat) : List Byte :=
  (((List.range 4).flatMap (fun i => bytesOf 4 (v.val t (regPlus b i)).toNat)).take n)
/-- The probe of one thread (R257, R260): L is bits [4:0] of the second doubleword. -/
def View.hprobe (v : View) (s : State) (t : Nat) (eats : Bool) (m : MAddr) (n : Nat) (b : Reg) : Except ReadStop (Word × List Nat) :=
  let base := (v.pair t m.base).toNat
  match v.readChunks s t 2 eats m.space base 2 with
  | .error f => .error f
  | .ok bs =>
    let seed := natOfBytes (bs.1.take 8)
    let l := natOfBytes (bs.1.drop 8) % 32
    if l = 0 ∨ l > 24 then .ok (0xFFFFFFFE, bs.2) else v.probe s t eats m.space base seed l n (v.probeKey t b n) 32 0 bs.2
/-- A replaying crew takes the results, and the faults, from its log (R288). -/
def View.probed (v : View) (s : State) (t : Nat) (eats : Bool) (m : MAddr) (n : Nat) (b : Reg) : Except ReadStop (Word × List Nat) :=
  if v.crew.replay.isSome then (match v.crew.loggedFault t with | some f => .error (.fault f) | none => .ok (0, [])) else v.hprobe s t eats m n b
/-- HPROBE (R259, R260). Its reads bind as it issues, so that their checks are precise; its results stay pending, and its completion flag raised,
until a later step writes them (R44, R45; DESIGN CHOICE, log entry 36). With D = vz nothing is bound to a register, so that no poison is consumed
(R304). -/
def execHprobe (m : MAddr) (fsel : Bool) (n : Fin 32) (d b : Reg) (s : State) : Host.Outcome State Fault Refusal :=
  withView s (fun v => withFlag v s fsel (v.acting m.g) (
    match readsOf ((v.lanes m.g d).map (fun t => (t, v.probed s t (d != .vz) m n.val b))) with
    | .busy => readFail v s (v.acting m.g) .busy
    | .poison dead array va home => readFail v s dead (.poison array va home)
    | .done bad ok =>
      let raises := v.faults d.isCrew (v.acting m.g) bad
      let elem (p : Nat × Word × List Nat) : LElem :=
        ⟨p.1, (v.pair p.1 m.base).toNat, [⟨0, 0, .home, v.key p.1 d, false, intTag, none, false, some p.2.1⟩], 1, 0⟩
      emit (s.fetchNow v.iss.unit (ok.flatMap (·.2.2))) { Fx.empty with
        raises := raises
        ops := if ok.isEmpty then [] else [.load ⟨v.iss.who, m.scope.code, false, v.flag fsel, v.sculls, ok.map elem, [], v.site⟩]
        log := faultLog raises }))

end Sys2Proof.Machine
end

