-- ==== Sys2Proof/Machine/Task.lean ====
section
/-! DEFINITION. Engine commands, event and decision queues, the affine address engine, records and triggers from a crew or a cox
(R84, R188 to R193, R330 to R333, R351 to R355, R367, R368, R370, R377 to R379, R381, R382, R386, R387, R411, R413, R414, R431).
An instruction that acts once per issue takes its operands from the lowest acting thread and raises its cause in all of them. -/
namespace Sys2Proof.Machine

/-- A checked address: canonical, aligned, and translated with its permission (R130, R146). -/
def View.checkAt (v : View) (s : State) (e align : Nat) (p : Perm) : Except AFault Loc :=
  if e / 2 ^ 56 ≠ 0 then .error (0x12, 0, e)
  else if e % align ≠ 0 then .error (0x13, 0, e)
  else match s.xlate v.cluster v.grp.ctx e p with | .error (c, sub) => .error (c, sub, e) | .ok l => .ok l
/-- A descriptor of `n` doublewords read as loads of thread t. -/
def View.desc (v : View) (s : State) (t e align n : Nat) : Except ReadStop (List Byte × List Nat) :=
  if e / 2 ^ 56 ≠ 0 then .error (.fault (0x12, 0, e))
  else if e % align ≠ 0 then .error (.fault (0x13, 0, e))
  else v.readChunks s t 2 true .global e n
/-- An unsigned field of a descriptor. -/
def field (bs : List Byte) (at_ n : Nat) : Nat := natOfBytes ((bs.drop at_).take n)

/-- Issue one engine command, once per issue: the after-witness is checked at the command's own scope `sc` (R161, R169), then the
descriptor is read and checked. -/
def command (g : Guard) (fsel : Bool) (q sc : Nat) (a after : Reg) (align n : Nat) (origin : Nat → Nat)
    (parse : List Byte → Option (EKind × DWord)) (s : State) : Host.Outcome State Fault Refusal :=
  withView s (fun v =>
    let ts := v.acting g
    notWhileEnm v s ts (withFlag v s fsel ts (
      match ts with
      | [] => emit s Fx.empty
      | t :: _ =>
        match v.witFault s t after sc with
        | some f => emit s { Fx.empty with raises := ts.map (fun t => raiseAt v t f) }
        | none =>
          match v.desc s t (v.pair t a).toNat align n with
          | .error x => readFail v s ts x
          | .ok bs =>
            let s := s.fetchNow v.iss.unit bs.2
            match parse bs.1 with
            | none => emit s (raiseAll v ts 0x02 128 0)
            | some (kind, tag) =>
              emit s { Fx.empty with ops := [.entry q (v.entry 0 sc (v.afterOf t after) (v.flag fsel) kind tag (origin v.iss.unit)) ts none] })))
/-- The descriptor of CPY (R354). -/
def parseCpy (dv sv : Bool) (bs : List Byte) : Option (EKind × DWord) :=
  let len := field bs 16 8
  if len > 2 ^ 32 then none else some (.cpy (field bs 0 8) (field bs 8 8) len dv sv, BitVec.ofNat 64 (field bs 24 8))
def execCpy (g : Guard) (fsel : Bool) (sc : Scope) (src dst : Space) (a after : Reg) (s : State) : Host.Outcome State Fault Refusal :=
  command g fsel 1 sc.code a after 32 4 dataEngineOf (parseCpy (dst == .vault) (src == .vault)) s
/-- The descriptor of GATH (R377, R379). -/
def parseGath (dv sv : Bool) (bs : List Byte) : Option (EKind × DWord) :=
  let esz := field bs 28 1
  let iw := field bs 29 1
  let bad := esz > 4 || iw > 1 || field bs 24 4 > 2 ^ 24 || field bs 30 2 != 0 || field bs 40 24 != 0 || field bs 0 8 % 2 ^ esz != 0 ||
    field bs 16 8 % (if iw = 0 then 4 else 8) != 0
  if bad then none
  else some (.gath (field bs 0 8) (field bs 8 8) (field bs 16 8) (field bs 24 4) esz (if iw = 0 then 4 else 8) dv sv, BitVec.ofNat 64 (field bs 32 8))
def execGath (g : Guard) (fsel : Bool) (sc : Scope) (src dst : Space) (a after : Reg) (s : State) : Host.Outcome State Fault Refusal :=
  command g fsel 1 sc.code a after 64 8 dataEngineOf (parseGath (dst == .vault) (src == .vault)) s
/-- A type that an operation of COLL accepts (R352). -/
def collTypeOk (op ty : Nat) : Bool :=
  if op ≤ 2 then [0, 1, 2, 3, 4, 5, 8, 9].contains ty else if op = 3 then ty == 4 else if op ≤ 5 then decide (ty ≤ 11) || ty == 13 else false
/-- The descriptor of COLL as it is checked at issue (R353). -/
def parseColl (bs : List Byte) : Option (EKind × DWord) :=
  if collTypeOk (field bs 0 1) (field bs 1 1) && decide (field bs 4 2 < field bs 2 2) then some (.coll bs, BitVec.ofNat 64 (field bs 40 8)) else none
def execColl (g : Guard) (fsel : Bool) (sc : Scope) (a after : Reg) (s : State) : Host.Outcome State Fault Refusal :=
  command g fsel 2 sc.code a after 64 8 (fun _ => collEngine) parseColl s

/-! Queues. -/

/-- The eight words of a completion record. -/
def recordWords (r : List DWord) : List Word := r.flatMap (fun x => [loWord x, hiWord x])
/-- EVPOP (R370). -/
def execEvpop (g : Guard) (nb : Bool) (d : Reg) (s : State) : Host.Outcome State Fault Refusal :=
  withView s (fun v =>
    let give (s : State) (r : List DWord) : Host.Outcome State Fault Refusal :=
      let ws := (v.lanes g d).flatMap (fun t => (imap (recordWords r) (fun j x => v.w1 t (regPlus d j) x intTag)).flatten)
      emit s { Fx.empty with wr := ws, log := logOf ws }
    if (v.acting g).isEmpty || v.crew.replay.isSome then emit s Fx.empty
    else match v.core.evq with
      | r :: rest => give (s.modCore v.iss.unit (fun c => { c with evq := rest })) r
      | [] => if nb then give s [0xFF00, 0, 0, 0] else block s (.queue 1 0))
/-- DQPUSH (R368): `cnums` are the crew numbers of the group. -/
def execDqpush (g : Guard) (a : Reg) (b : Src) (s : State) : Host.Outcome State Fault Refusal :=
  withView s (fun v =>
    let ts := v.acting g
    notWhileEnm v s ts (
      match ts with
      | [] => emit s Fx.empty
      | t :: _ =>
        let n := (v.src t b).1.toNat
        if !v.grp.cnums.contains n then emit s (raiseAll v ts 0x02 26 0)
        else if v.crew.replay.isSome then emit s Fx.empty
        else match v.grp.slots.find? (fun k => match v.core.crews.find? k with | some w => w.cnum == n && !w.exited | none => false) with
          | none => emit s Fx.empty
          | some k =>
            if (((v.core.crews.find? k).map (fun w => w.dq.length)).getD 0) ≥ 16 then block s (.queue 7 k)
            else emit (s.modCrew v.iss.unit k (fun w => { w with dq := w.dq ++ [v.reg t a] })) Fx.empty))
/-- DQPOP (R367). -/
def execDqpop (g : Guard) (d : Reg) (s : State) : Host.Outcome State Fault Refusal :=
  withView s (fun v =>
    if (v.acting g).isEmpty || v.crew.replay.isSome then emit s Fx.empty
    else match v.crew.dq with
      | [] => block s (.queue 0 v.slot)
      | x :: rest =>
        let ws := (v.lanes g d).flatMap (fun t => v.w1 t d x.1 x.2)
        emit (s.modCrew v.iss.unit v.slot (fun w => { w with dq := rest })) { Fx.empty with wr := ws, log := logOf ws })

/-! The affine address engine. -/

/-- The header of an access descriptor is malformed (R332, R333). -/
def accessBad (bs : List Byte) : Bool :=
  let l := field bs 0 1
  let n := field bs 1 1
  decide (l > 6 ∨ n = 0 ∨ n > 8) || field bs 2 2 != 0 || field bs 28 36 != 0 || ((List.range 6).drop l).any (fun i => field bs (4 + 4 * i) 4 != 0)
/-- A stream block is malformed. -/
def streamBad (l : Nat) (bs : List Byte) : Bool :=
  decide (field bs 8 1 > 3) || !([1, 2, 4].contains (field bs 9 1)) || field bs 10 6 != 0 || ((List.range 6).drop l).any (fun i => field bs (16 + 8 * i) 8 != 0)
def streamOf (bs : List Byte) : Stream where
  base := BitVec.ofNat 64 (field bs 0 8)
  queue := field bs 8 1
  size := field bs 9 1
  strides := (List.range 6).map (fun i => BitVec.ofNat 64 (field bs (16 + 8 * i) 8))
/-- The run of an access descriptor: its header, its streams; `need` are the core's stores issued before it, which its loads see (R333). -/
def aeRun (base : DWord) (need : List Nat) (hd : List Byte) (streams : List (List Byte)) : AeRun where
  base := base
  counts := (List.range (field hd 0 1)).map (fun i => field hd (4 + 4 * i) 4 + 1)
  streams := streams.map streamOf
  index := List.replicate (field hd 0 1) 0
  stream := 0
  partials := [[], [], [], []]
  need := need
/-- The blocks of a list of bytes. -/
def blocks (n : Nat) : Nat → List Byte → List (List Byte)
  | 0, _ => []
  | k + 1, bs => bs.take n :: blocks n k (bs.drop n)
/-- The watchpoint that an AESTART which is to wait meets in its descriptor as it stands: one written during the wait does not match it (R296). -/
def View.aeWatch (v : View) (s : State) (t e : Nat) : Option AFault :=
  let hit (r : Except ReadStop (List Byte × List Nat)) : Option AFault := match r with | .error (.fault f) => if f.1 = 0x31 then some f else none | _ => none
  match v.desc s t e 64 8 with
  | .error x => hit (.error x)
  | .ok hd => hit (v.readChunks s t 2 true .global (e + 64) (8 * min 8 (field hd.1 1 1)))
/-- AESTART (R331, R333). -/
def execAestart (g : Guard) (a : Reg) (off : Word) (s : State) : Host.Outcome State Fault Refusal :=
  withView s (fun v =>
    let ts := v.acting g
    match ts with
    | [] => emit s Fx.empty
    | t :: _ =>
      if v.crew.replay.isSome then emit s Fx.empty
      else
        let e := directTarget v.iss.pc.toNat off
        if v.grp.ae.isSome then (match v.aeWatch s t e with | some f => readFail v s ts (.fault f) | none => block s (.queue 6 v.gid))
        else match v.desc s t e 64 8 with
        | .error x => readFail v s ts x
        | .ok hd =>
          if accessBad hd.1 then emit (s.fetchNow v.iss.unit hd.2) (raiseAll v ts 0x02 128 0)
          else match v.readChunks s t 2 true .global (e + 64) (8 * field hd.1 1 1) with
            | .error x => readFail v s ts x
            | .ok bs =>
              let st := blocks 64 (field hd.1 1 1) bs.1
              let s := s.fetchNow v.iss.unit (hd.2 ++ bs.2)
              if st.any (streamBad (field hd.1 0 1)) then emit s (raiseAll v ts 0x02 128 0)
              else emit (s.modGroup v.iss.unit v.gid (fun g => { g with aeStarted := true, ae := some (aeRun (v.pair t a) ((s.origin v.iss.unit).pend.map (·.seq)) hd.1 st) })) Fx.empty)
/-- OQPOP (R411). A replaying crew takes the elements and their faults from its log (R288). -/
def execOqpop (g : Guard) (q : Fin 4) (d : Reg) (s : State) : Host.Outcome State Fault Refusal :=
  withView s (fun v =>
    let ts := v.acting g
    if ts.isEmpty then emit s Fx.empty
    else if !v.grp.aeStarted && v.crew.replay.isNone then
      emit s { raiseAll v ts 0x02 26 0 with log := faultLog (raiseAll v ts 0x02 26 0).raises }
    else if v.crew.replay.isSome then
      emit s { Fx.empty with raises := ts.filterMap (fun t => (v.crew.loggedFault t).map (raiseAt v t)) }
    else match v.grp.oq.getD q.val [] with
      | [] => block s (.queue (2 + q.val) v.gid)
      | x :: rest =>
        let elem (t : Nat) : OqElem := x.getD t ⟨0, 0, 0, 0, 0⟩
        match ts.filter (fun t => (elem t).cause == 0x18) with
        | t :: more =>
          v.poisoned s (s.modGroup v.iss.unit v.gid (fun g => { g with oq := setNth g.oq q.val rest })) (t :: more) (elem t).sub (elem t).addr (elem t).home
        | [] =>
        let ws := (ts.filter (fun t => (elem t).cause == 0)).flatMap (fun t => v.w1 t d (elem t).val intTag)
        let raises := (ts.filter (fun t => (elem t).cause != 0)).map (fun t => raiseAt v t ((elem t).cause, (elem t).sub, (elem t).addr))
        emit (s.modGroup v.iss.unit v.gid (fun g => { g with oq := setNth g.oq q.val rest }))
          { Fx.empty with raises := raises, wr := ws, log := logOf ws ++ faultLog raises })

/-! SPAWN, JOIN, PARK and GRTRIG. -/

/-- SPAWN (R188, R431): the starter reads the record once the witness is satisfied. -/
def execSpawn (g : Guard) (a after : Reg) (s : State) : Host.Outcome State Fault Refusal :=
  withView s (fun v =>
    let ts := v.acting g
    notWhileEnm v s ts (
      let r := gather ts (fun t =>
        match v.witFault s t after 2 with
        | some f => .error f
        | none => match v.checkAt s (v.pair t a).toNat 64 .load with | .error f => .error f | .ok _ => .ok t)
      let pushes := r.ok.map (fun t => v.grp.pushOf v.iss.unit v.gid v.iss.who.slot? v.core.nextGid (v.pair t a).toNat (v.afterOf t after) none)
      emit (if v.crew.replay.isSome then s else pushes.foldl (fun s p => s.addPush p) s) { Fx.empty with raises := v.faults false [] r.bad }))
/-- JOIN (R189, R386, R387): the path waits until its decrements have returned. Where threads fault, the others issue it again. -/
def execJoin (g : Guard) (d a : Reg) (s : State) : Host.Outcome State Fault Refusal :=
  withView s (fun v =>
    let ts := v.acting g
    let u := v.iss.unit
    notWhileEnm v s ts (withEvent v s ts (
      let r := gather (v.fresh ts) (fun t =>
        let e := (v.pair t a).toNat
        match v.checkAt s e 64 .atomic with
        | .error f => .error f
        | .ok l =>
          match v.watched s t 3 .global [⟨l.ha, 4, 0, e, l.dest, l.host⟩] with
          | some f => .error f
          | none => .ok (⟨t, e, l.ha, l.dest == .remote, 0, 0⟩ : AElem))
      if ts.isEmpty then emit s Fx.empty
      else if v.crew.replay.isSome then emit s { Fx.empty with wr := ts.flatMap (fun t => v.w1 t d (Config.replayValue s.free) intTag) }
      else if !r.bad.isEmpty then emit s { Fx.empty with raises := v.faults false [] r.bad, again := ts.filter (fun t => !r.bad.any (·.1 == t)) }
      else if r.ok.isEmpty then block s .join
      else
        let a : Atom := ⟨v.iss.who, 8, .u32, none, 2, false, [], [], if d = .vz then none else some d, none, v.sculls, r.ok, 0, v.site, v.grp.tag, [], none, false⟩
        block ((s.sweepAll u).issueOp (s.opBase u) u v.iss.who v.gid (.atom a none)) .join)))
/-- The record that PARK writes (R190). -/
def View.parkRecord (v : View) (va live base : Nat) : List Byte :=
  (mkRec v.iss.next.toNat ((va + 64) % 2 ^ 64) 0 (v.grp.firstWid v.crew) 32 live base v.grp.prio v.crew.count v.grp.hdrva v.crew.ctime).flatMap (fun x => bytesOf 8 x.toNat)
/-- The frame of the crew's live registers (R186). -/
def View.parkFrame (v : View) (regs : List Nat) : List Byte :=
  regs.flatMap (fun n => (List.range 32).flatMap (fun t => bytesOf 4 (v.crew.get (32 * n + t)).1.toNat)) ++
  regs.flatMap (fun n => (List.range 32).map (fun t => (v.crew.get (32 * n + t)).2))
/-- The bytes of a transfer as stored bytes. -/
def segBytes : List Seg → List Byte → List SByte
  | [], _ => []
  | g :: gs, bs => imap (bs.take g.n) (fun i b => ⟨g.ha + i, b, g.dest⟩) ++ segBytes gs (bs.drop g.n)
/-- What is wrong with a PARK: the lowest subcode (R414, R201). -/
def View.parkBad (v : View) (regs : List Nat) : Option Nat :=
  if regs.any (fun n => decide (n ≥ v.crew.count)) then some 64
  else if v.crew.enm then some 97
  else if v.active.any (fun t => decide ((v.crew.thread t).hlvl ≥ 1)) then some 99
  else none
/-- PARK (R190, R413, R414): the record and the frame are one store event, then the crew leaves its group. -/
def execPark (g : Guard) (a after : Reg) (live : BitVec 16) (livebase : BitVec 8) (s : State) : Host.Outcome State Fault Refusal :=
  withView s (fun v =>
    let ts := v.acting g
    let u := v.iss.unit
    match ts with
    | [] => emit s Fx.empty
    | t :: _ =>
      let regs := liveRegs live.toNat livebase.toNat
      let va := (v.pair t a).toNat
      let fail (f : AFault) : Host.Outcome State Fault Refusal := emit s { Fx.empty with raises := ts.map (fun t => raiseAt v t f) }
      let len := 64 + 160 * regs.length
      let pend := (v.core.pendingKeys v.iss.who).filter (fun k => regs.contains (k / 32) && decide (k < 7168))
      match v.parkBad regs with
      | some sub => emit s (raiseAll v ts 0x02 sub 0)
      | none =>
        match v.witFault s t after 2 with
        | some f => fail f
        | none =>
          if va / 2 ^ 56 ≠ 0 then fail (0x12, 0, va)
          else if va % 64 ≠ 0 then fail (0x13, 0, va)
          else match s.span u v.grp .global .store (len / 128 + 2) va len with
            | .error f => fail f
            | .ok segs =>
              if v.crew.replay.isSome then emit s Fx.empty
              else if !pend.isEmpty then block s (.regs pend)
              else withEvent v s ts (
                let bytes := v.parkRecord va live.toNat livebase.toNat ++ v.parkFrame regs
                let host := segs.any (fun x => isHostKey x.ha && x.dest != .remote)
                let seq := (s.origin u).next
                let req : StoreReq := ⟨2, none, if host then 8 else 2, v.active.map (fun x => (x, 0, if x = t then segBytes segs bytes else []))⟩
                let s := s.sweepAll u
                let s := s.issueOp (s.opBase u) u v.iss.who v.gid (.store req)
                let s := s.addPush (v.grp.pushOf u v.gid (some v.slot) (s.core u).nextGid va (v.afterOf t after) (some seq))
                let s := { s with monitors := s.monitors.filter (fun m => !(m.unit == u && m.slot == v.slot)) }
                emit s { Fx.empty with gone := v.active }))
/-- GRTRIG (R381, R382). The wait covers the events that were open when the instruction first issued. -/
def execGrtrig (g : Guard) (d a : Reg) (s : State) : Host.Outcome State Fault Refusal :=
  withView s (fun v =>
    let ts := v.acting g
    let u := v.iss.unit
    notWhileEnm v s ts (
      match ts with
      | [] => emit s Fx.empty
      | t :: _ =>
        let x := v.pair t a
        let gr := s.graph (bitsAt x.toNat 56 8)
        let give (s : State) (y : Word) : Host.Outcome State Fault Refusal :=
          emit s { Fx.empty with wr := (v.lanes g d).flatMap (fun t => v.w1 t d y intTag) }
        if bitsAt x.toNat 0 3 ≠ 0 ∨ !gr.installed ∨ gr.ctx ≠ v.grp.ctx then emit s (raiseAll v ts 0x02 18 0)
        else if v.crew.replay.isSome then give s (Config.replayValue s.free)
        else
          let s := s.sweepAll u
          let open_ := ((s.origin u).pend).map (fun e => 2 * e.seq + 1)
          let waited := match v.iss.resume with | .ops .. => true | _ => false
          if waited || open_.isEmpty then let r := s.emptyCaches.submit x; give r.1 (BitVec.ofNat 32 r.2)
          else block s (.ops 5 [] open_ [] [])))

end Sys2Proof.Machine
end

