-- ==== Sys2Proof/Machine/Shell.lean ====
section
/-! DEFINITION. The steps of the shell (R136, R143, R147, R150 to R152, R156 to R171, R189, R192, R303, R304, R335 to R337, R376,
R393, R428 to R430): store events enter the L1, are swept and go through; loads bind; operations perform at their homes. -/
namespace Sys2Proof.Machine

/-! Store events. -/

def State.event? (s : State) (u seq : Nat) : Option StoreEv := (s.origin u).pend.find? (fun e => e.seq == seq)
def State.modEvent (s : State) (u seq : Nat) (f : StoreEv → StoreEv) : State :=
  s.setOrigin u { s.origin u with pend := (s.origin u).pend.map (fun e => if e.seq = seq then f e else e) }
def State.dropEvent (s : State) (u seq : Nat) : State := s.setOrigin u { s.origin u with pend := (s.origin u).pend.filter (fun e => e.seq != seq) }
/-- Earlier operations that an operation must follow (R40, R164, R171, R430): events by number, loads, SLTAKEs and engine entries from 2^32 on. An event is
over once it has entered or gone through with all its bytes. -/
def State.needOver (s : State) (u : Nat) (need : List Nat) : Bool :=
  need.all (fun q => if q ≥ 2 ^ 32 then !((s.core u).loads.any (fun p => p.1 + 2 ^ 32 == q) || (s.core u).atoms.any (fun p => p.1 + 2 ^ 32 == q) ||
      (s.core u).queues.any (fun es => es.any (fun e => e.id + 2 ^ 32 == q)))
    else match s.event? u q with | none => true | some e => e.inView)
/-- Every after-witness of the event is satisfied at the scope that its instruction names (R164; DESIGN CHOICE, log entry 51). -/
def State.afterOk (s : State) (after : List DWord) (scope : Nat) : Bool := after.all (fun w => s.satisfied w scope)
def StoreEv.inL1 (e : StoreEv) : Bool := e.bytes.any (fun b => b.dest == .l1)
/-- The event owes a Sweep before it goes through (R163). -/
def StoreEv.owesSweep (e : StoreEv) : Bool := e.wit && decide (e.scope ≥ 1) && !e.swept
/-- The event before `seq` in its origin's numbering. -/
def prevSeq (q : Nat) : Nat := (q + 2 ^ 30 - 1) % 2 ^ 30
/-- The event waits behind poison that its agent is to consume (R315); one that holds a lock waits for nothing but locks (R152). -/
def State.eventHeld (s : State) (u : Nat) (e : StoreEv) : Bool :=
  e.held || match e.who with
    | some w => e.locks == 0 && s.poisonAhead u w (fun x => (s.origin u).after x.cnt e.seq)
    | none => false

/-- Bytes of an event become valid and dirty in the L1 (R136, R171); a word written whole loses its mark there (R303). Behind a Sweep that
has begun, what an older event makes dirty goes home at once (R163). -/
def State.enterL1 (s : State) (u : Nat) (e : StoreEv) : State :=
  let mine := e.bytes.filter (fun b => b.dest == .l1)
  let cnt := (s.origin u).cnt
  let marks (old : Option L1Byte) : List Nat := match old with | some x => x.dirty ++ [e.seq] | none => [e.seq]
  let put (s : State) (b : SByte) : State := s.putL1 u b.ha (fun old => ⟨b.val, marks old, fillOf s.free old⟩)
  let s := (mine.foldl put s).modCore u (fun c => { c with
    l1poison := c.l1poison.filter (fun w => !(wholeWords (mine.map (fun b => (b.ha, b.val)))).contains w) })
  match (s.origin u).behind with
  | some q => if seqLe cnt e.seq q then s.writeBack u (fun _ b => b.holds cnt q) else s
  | none => s
/-- STORE_ENTER. An event of core scope that lies wholly in L1 space is then performed at its scope. -/
def execStoreEnter (u seq : Nat) (s : State) : Host.Outcome State Fault Refusal :=
  match s.event? u seq with
  | none => .next s
  | some e =>
    if s.eventHeld u e || e.entered || !e.inL1 || !s.needOver u e.waits || !s.afterOk e.after e.await then .next s
    else
      let s := s.enterL1 u e
      .next (if e.scope = 0 ∧ e.bytes.all (fun b => b.dest == .l1) then s.dropEvent u seq else s.modEvent u seq (fun e => { e with entered := true }))
/-- STORE_SWEEP (R163). -/
def execStoreSweep (u seq : Nat) (s : State) : Host.Outcome State Fault Refusal :=
  match s.event? u seq with
  | none => .next s
  | some e =>
    if e.held || !e.owesSweep || (e.inL1 && !e.entered) then .next s
    else .next ((s.sweep u (prevSeq seq)).modEvent u seq (fun e => { e with swept := true }))

/-- The conditions of Through (R171). -/
def State.mayGo (s : State) (u : Nat) (e : StoreEv) : Bool :=
  !s.eventHeld u e && s.needOver u e.waits && !e.owesSweep && (if e.inL1 then e.entered else s.afterOk e.after e.await)
/-- An event's value of a byte is at the home: the byte stays dirty for the events that entered after it. -/
def L1Byte.through (x : L1Byte) (seq : Nat) : L1Byte := { x with dirty := (x.dirty.dropWhile (· != seq)).drop 1 }
/-- An event's own bytes in L1 space go home where the L1 still holds them dirty from it, a marked word with its mark (R303). -/
def State.throughL1 (s : State) (u : Nat) (e : StoreEv) : State :=
  let c := s.core u
  let mine := e.bytes.filter (fun b => b.dest == .l1 && (match c.l1.find? b.ha with | some x => x.dirty.contains e.seq | none => false))
  let marks := ((mine.map (·.ha / 8)).eraseDups).filter c.l1poison.contains
  let s := marks.foldl (fun s w => s.setPoison (8 * w) true) (s.writeHome (mine.map (fun b => (b.ha, b.val))))
  s.modCore u (fun c => { c with l1 := mine.foldl (fun m b => m.modify b.ha (fun x => x.through e.seq)) c.l1 })
/-- A copy of a line is held in some cluster. -/
def State.lineCopied (s : State) (line : Nat) : Bool := s.copies.any (fun q => q.1 % 2 ^ 40 == line)
/-- The lowest line of an event's bytes of a kind. -/
def lowestLine (bs : List SByte) : Option Nat :=
  match bs.map (fun b => b.ha / 128) with | [] => none | l :: ls => some (ls.foldl min l)
/-- The first event of a host stream goes on by one line, the lowest (R152, R176): it goes home, or where copies of it are held its bytes then
take the steps of R152. -/
def State.hostThrough (s : State) (u : Nat) (e : StoreEv) : State :=
  let first := match (s.origin u).pend with | x :: _ => x.seq == e.seq | [] => false
  if !first || e.bytes.any (fun b => b.dest == .repl) then s
  else
    let now (b : SByte) : Bool := some (b.ha / 128) == lowestLine e.bytes
    if (match lowestLine e.bytes with | some l => s.lineCopied l | none => false) then
      s.modEvent u e.seq (fun e => { e with bytes := e.bytes.map (fun b => if now b then { b with dest := .repl } else b) })
    else
      let s := s.writeHome ((e.bytes.filter now).map (fun b => (b.ha, b.val)))
      let rest := e.bytes.filter (fun b => !now b)
      if rest.isEmpty then s.dropEvent u e.seq else s.modEvent u e.seq (fun e => { e with bytes := rest })
/-- STORE_THROUGH: the bytes of an event go home; those on replicated pages and other modules stay for their own steps. -/
def execStoreThrough (u seq : Nat) (s : State) : Host.Outcome State Fault Refusal :=
  match s.event? u seq with
  | none => .next s
  | some e =>
    if 4032 ≤ u ∧ u < 4064 then .next (s.hostThrough u e)
    else if !s.mayGo u e then .next s
    else
      let s := if e.scope = 0 then s else s.throughL1 u e
      let s := s.writeHome ((e.bytes.filter (fun b => b.dest == .home)).map (fun b => (b.ha, b.val)))
      let rest := e.bytes.filter (fun b => b.dest == .repl || b.dest == .remote)
      .next (if rest.isEmpty then s.dropEvent u seq else s.modEvent u seq (fun e => { e with bytes := rest, entered := true, after := [] }))

/-! Replicated lines (R151, R152). An event locks and updates its lines one after the other, the lowest first; `locks` counts the locks that
it holds on the lowest. -/

/-- The lowest replicated line of an event. -/
def StoreEv.line (e : StoreEv) : Option Nat := lowestLine (e.bytes.filter (fun b => b.dest == .repl))
def State.copyLocked (s : State) (cl line : Nat) : Bool := match s.copies.find? (copyKey cl line) with | some c => c.lock.isSome | none => false
/-- REPLICA_LOCK: the next copy, in ascending cluster order (R152). -/
def execReplicaLock (u seq : Nat) (s : State) : Host.Outcome State Fault Refusal :=
  match s.event? u seq with
  | none => .next s
  | some e =>
    match e.line with
    | none => .next s
    | some l =>
      if !s.mayGo u e || decide (e.locks ≥ 12) || s.copyLocked e.locks l then .next s
      else
        let c := s.copyOf e.locks l
        .next (({ s with copies := s.copies.put (copyKey e.locks l) { c with lock := some (u, seq) } } : State).modEvent u seq (fun e => { e with locks := e.locks + 1 }))
/-- Write bytes of a replicated line at the home and in every copy, poison the words of the home keys `marks` there, and unlock it. -/
def State.updateLine (s : State) (line : Nat) (ws : List (Nat × Byte)) (marks : List Nat) : State :=
  let s := marks.foldl (fun s a => s.setPoison a true) (s.writeAll ws)
  { s with copies := s.copies.map (fun q => if q.1 % 2 ^ 40 = line then
      (q.1, { q.2 with lock := none, marks := marks.foldl (fun m a => insertNat m (a / 8 % 16)) q.2.marks }) else q) }
/-- What has left the module. -/
def State.send (s : State) (dest : Nat) (bs : List Byte) (bad : Bool) : State := { s with iod := { s.iod with sent := s.iod.sent ++ [(dest, bs, bad)] } }
/-- An answer to another module: a status, 0 or the cause of a fault with its subcode, and the data. -/
def State.answer (s : State) (src cause sub : Nat) (bs : List Byte) (bad : Bool) : State :=
  s.send (64 + src) (bytesOf 8 (cause + sub * 2 ^ 32) ++ bs) bad
/-- Where stores that another module sent wait for their replicated lines. -/
def fromModule (m : Nat) : Nat := 8192 + m
/-- An event is over; a store of another module is acknowledged then, and a done word's vector raised (R181). -/
def State.endEvent (s : State) (u seq : Nat) : State :=
  let t := s.dropEvent u seq
  if u ≥ doneOrigin 0 then (match s.event? u seq with
    | some e => t.raiseDone (u - doneOrigin 0) (BitVec.ofNat 64 (natOfBytes (e.bytes.map (·.val)))) (e.cls == 1)
    | none => t)
  else if u ≥ fromModule 0 then t.answer (u - fromModule 0) 0 0 [] false
  else t
/-- REPLICA_UPDATE: with all twelve locks held, the home and every copy are updated and unlocked (R152). -/
def execReplicaUpdate (u seq : Nat) (s : State) : Host.Outcome State Fault Refusal :=
  match s.event? u seq with
  | none => .next s
  | some e =>
    match e.line with
    | none => .next s
    | some l =>
      if e.locks < 12 then .next s
      else
        let here (b : SByte) : Bool := b.dest == .repl && b.ha / 128 == l
        let s := s.updateLine l ((e.bytes.filter here).map (fun b => (b.ha, b.val))) (e.marks.filter (fun a => a / 128 == l))
        let rest := e.bytes.filter (fun b => !here b)
        .next (if rest.isEmpty then s.endEvent u seq else s.modEvent u seq (fun e => { e with bytes := rest, locks := 0 }))
/-- REPLICA_COPY_EVICT (R151). -/
def execReplicaCopyEvict (cl line : Nat) (s : State) : Host.Outcome State Fault Refusal :=
  .next (if s.copyLocked cl line then s else { s with copies := s.copies.drop (copyKey cl line) })

/-! The L1. -/

/-- L1_WRITE_BACK: the dirty bytes of the byte's line go home as one masked write (R136). -/
def execL1WriteBack (u a : Nat) (s : State) : Host.Outcome State Fault Refusal := .next (s.writeBack u (fun k _ => k / 128 == a / 128))
/-- L1_WRITE_BACK of one dirty byte (R171), with every dirty byte of its word where the home's word is poisoned (R303). -/
def execL1WriteByte (u a : Nat) (s : State) : Host.Outcome State Fault Refusal :=
  .next (if s.isPoisoned a 1 then s.writeBack u (fun k _ => k / 8 == a / 8) else s.writeBack u (fun k _ => k == a))
/-- L1_DROP: a clean byte becomes invalid. -/
def execL1Drop (u a : Nat) (s : State) : Host.Outcome State Fault Refusal := .next (s.dropClean u (fun k => k == a))
/-- A part of a load reads a byte of the line that is not valid in the L1. -/
def Core.wants (c : Core) (a : Nat) (p : LPart) : Bool :=
  (p.dest == .l1 && (List.range p.n).any (fun i => (p.ha + i) / 128 == a / 128 && (c.l1.find? (p.ha + i)).isNone)) ||
  (match p.tagAt with | some (k, .l1) => k / 128 == a / 128 && (c.l1.find? k).isNone | _ => false)
/-- A load of the core misses in the line (R171 Fetch). -/
def State.misses (s : State) (u a : Nat) : Bool :=
  (s.core u).loads.any (fun l => l.2.elems.any (fun e => e.parts.any ((s.core u).wants a)))
/-- The loads that the fetch of a line serves have missed there. -/
def State.noteMiss (s : State) (u a : Nat) : State :=
  s.modCore u (fun c =>
    let mark (p : LPart) : LPart := if (s.core u).wants a p then { p with missed := true } else p
    { c with loads := c.loads.map (fun l => (l.1, { l.2 with elems := l.2.elems.map (fun e => { e with parts := e.parts.map mark }) })) })
/-- L1_FETCH. -/
def execL1Fetch (u a : Nat) (s : State) : Host.Outcome State Fault Refusal := .next (if s.misses u a then (s.noteMiss u a).fetchLine u a else s)

/-- TRANSLATION_WALK: a cluster's walkers hold the tables' answer for a page (R144, R147, R148). -/
def execTranslationWalk (cl ctx va : Nat) (s : State) : Host.Outcome State Fault Refusal :=
  if cl < 12 then
    let c := s.cluster cl
    .next (s.setCluster cl { c with tc := c.tc.put (tcKey ctx va) (s.walk ctx va) })
  else .next s

/-! Loads. -/

/-- A byte range can be read now: valid in the L1, in an unlocked copy, or over a port that holds nothing back (R152, R171, R311). -/
def State.readable (s : State) (u : Nat) (forced : Bool) (d : Dest) (a n : Nat) : Bool :=
  match d with
  | .l1 => forced || s.l1Valid u a n
  | .repl => !s.copyLocked (clusterOf u) (a / 128)
  | .remote => !s.portHeld (farModule a)
  | .home => true
def State.partReady (s : State) (u : Nat) (forced : Bool) (p : LPart) : Bool :=
  s.readable u forced p.dest p.ha p.n && (match p.tagAt with | some (a, d) => s.readable u forced d a 1 | none => true)
/-- The mark that a part binds, once its line is in the L1: with the home's array where the line came from there (R302). -/
def State.partDead (s : State) (u : Nat) (forced : Bool) (p : LPart) : Option (Nat × Nat) :=
  match p.dst with
  | none => none
  | some _ => (match s.marked u (forced || p.missed) p.dest p.ha p.n with
    | some m => some m
    | none => match p.tagAt with | some (a, d) => s.marked u (forced || p.missed) d a 1 | none => none)
/-- The register value of a part's bytes (R392). -/
def LPart.value (p : LPart) (bs : List Byte) : Word :=
  if p.sx then BitVec.ofNat 32 (wrapNat 32 (toSigned (8 * p.n) (natOfBytes bs))) else BitVec.ofNat 32 (natOfBytes bs)
/-- The register writes of a thread's parts; `remote` holds the bytes that other modules return, in order. -/
def State.bindParts (s : State) (u t : Nat) : List LPart → List Byte → List RegW
  | [], _ => []
  | p :: ps, r =>
    let far := p.dest == .remote
    let bs := if far then r.take p.n else s.readBytes u p.dest p.ha p.n
    let tag := match p.tagAt with | some (a, d) => s.l1Byte u d a | none => p.tag
    (match p.dst with | some k => [⟨t, k, p.known.getD (p.value bs), tag⟩] | none => []) ++ s.bindParts u t ps (if far then r.drop p.n else r)
/-- Registers that an exited crew still owed to its loads go back once the last has landed (R79). -/
def State.payOwed (s : State) (u slot : Nat) : State :=
  let c := s.core u
  if !(c.crewLoads slot).isEmpty then s
  else
    let gid := match s.crew? u slot with | some w => w.gid | none => c.nextGid
    let due := c.owed.filter (fun p => p.1 == slot)
    let s := s.setCore u { c with owed := c.owed.filter (fun p => p.1 != slot) }
    due.foldl (fun s p => s.returnRegs u gid p.2) s
/-- A load of which every thread has bound completes (R44). -/
def State.finishLoad (s : State) (u id : Nat) (l : Load) : State :=
  let s := s.modCore u (fun c => { c with loads := c.loads.drop id })
  let s := s.lowerFlag u l.who l.flag l.sculls
  match l.who with
  | .crew slot => (s.payOwed u slot).push (.haltComplete u slot)
  | .cox _ => s
/-- Log the registers written for a crew (R286). -/
def State.logWrites (s : State) (u : Nat) (who : Who) (stroke : Nat) (ws : List RegW) : State :=
  match who with
  | .crew slot => ws.foldl (fun s w => s.logValue u slot (logVal (w.val, w.tag)) stroke (regNumOf w.key) w.t) s
  | .cox _ => s
/-- The access of load `id` binds to bytes read early, of whole parts that bytes stand for: it follows no other operation (R40, R171), waits for no
witness, and its address comes from no load that bound later. -/
def Early.binds (x : Early) (id : Nat) (l : Load) (e : LElem) : Bool :=
  x.t == e.t && !x.bars.contains id && l.need.isEmpty && !l.forced && witKind e.after == 0 &&
  e.parts.all (fun p => p.dest != .remote && p.tagAt.isNone && p.known.isNone && (List.range p.n).all (fun i => x.bytes.any (fun b => b.1 == p.ha + i)))
/-- The register writes of an access that binds to what it has read early. -/
def Early.writes (x : Early) (e : LElem) : List RegW :=
  e.parts.flatMap (fun p =>
    let bs := (List.range p.n).map (fun i => ((x.bytes.find? (fun b => b.1 == p.ha + i)).map (·.2)).getD 0)
    match p.dst with | some k => [⟨e.t, k, p.value bs, p.tag⟩] | none => [])
/-- What thread t of a crew's slot has read early for its access of a load. -/
def State.earlyOf (s : State) (u id : Nat) (l : Load) (e : LElem) : Option (Nat × Crew × Early) :=
  match l.who with
  | .cox _ => none
  | .crew slot =>
    match s.crew? u slot with
    | none => none
    | some w => (w.early.find? (fun x => x.binds id l e)).map (fun x => (slot, w, x))
/-- An access of a load has bound: the load without it, and gone once all its accesses have. -/
def State.boundOf (s : State) (u id : Nat) (l : Load) (t : Nat) : State :=
  let rest := l.elems.filter (fun x => x.t != t)
  if rest.isEmpty then s.finishLoad u id l else s.modCore u (fun c => { c with loads := c.loads.put id { l with elems := rest } })
/-- LOAD_BIND: thread t's access of a load binds (R171, R304, R393). -/
def execLoadBind (u id t : Nat) (remote : List Byte) (s : State) : Host.Outcome State Fault Refusal :=
  match (s.core u).loads.find? id with
  | none => .next s
  | some l =>
    match l.elems.find? (fun e => e.t == t) with
    | none => .next s
    | some e =>
      if !(s.satisfied e.after l.scope && s.needOver u l.need && e.parts.all (s.partReady u l.forced)) || s.recHolds u l.who then .next s
      else
        let before := s
        let s := if l.forced then ((e.parts.filter (fun p => p.dest == .l1)).map (·.ha)).foldl (fun s a => s.fetchLine u a) s else s
        let s := ((e.parts.filter (fun p => p.dest == .repl)).map (·.ha)).foldl (fun s a => s.listCopy u a) s
        let leave (s : State) : State := s.boundOf u id l t
        -- the threads that would bind marked words, where this one does
        let dead (x : LElem) : Option (Nat × Nat × Nat × Nat) :=
          match x.parts.filterMap (s.partDead u l.forced) with | m :: _ => some (x.t, m.1, x.va, m.2) | [] => none
        let all := if (dead e).isSome then l.elems.filterMap dead else []
        match all with
        | m :: _ =>
          if before.killWaits u (s.consumer u l.who) (some l.src) then .next before
          else .next ((leave s).poisonKill u (s.consumer u l.who) (some l.src) (all.map (·.1)) m.2.1 m.2.2.1 m.2.2.2)
        | [] =>
          let ws := s.bindParts u t e.parts remote
          .next (leave ((s.applyWrites u l.who ws).logWrites u l.who l.src.stroke ws))
/-- LOAD_BIND of an access to what its thread read before the load issued, where it did (R171, R270). -/
def execLoadBindEarly (u id t : Nat) (s : State) : Host.Outcome State Fault Refusal :=
  match (s.core u).loads.find? id with
  | none => .next s
  | some l =>
    match l.elems.find? (fun e => e.t == t) with
    | none => .next s
    | some e =>
      match s.earlyOf u id l e with
      | none => .next s
      | some (slot, w, x) =>
        if s.recStalls u w then .next s else
        let s := s.modCrew u slot (fun _ => { w with early := w.early.filter (· != x) })
        let ws := x.writes e
        .next ((s.boundOf u id l t).applyWrites u l.who ws |>.logWrites u l.who l.src.stroke ws)

/-! Operations at a home. -/

/-- The result of an operation on two halves, the low one first. -/
def onHalves (f : Nat → Nat → Nat) (a b : Nat) : Nat := f (a % 2 ^ 16) (b % 2 ^ 16) + f (a / 2 ^ 16 % 2 ^ 16) (b / 2 ^ 16 % 2 ^ 16) * 2 ^ 16
/-- Add, min and max in a floating format, rounded to nearest-even, subnormals kept (R120, R143). -/
def atomFloat (f : Fmt) (op : Nat) (a b : Nat) : Nat :=
  if op = 0 then (f.add .near (f.value a) (f.value b)).bits
  else (outPick f (op == 2) a b ⟨f.value a, ⟨0, 0⟩⟩ ⟨f.value b, ⟨0, 0⟩⟩).bits
/-- The new memory value of an ATOM (R336, R337). -/
def atomNew (op : Nat) (ty : Ty) (old operand swap : Nat) : Nat :=
  let w := if ty.wide then 64 else 32
  match op with
  | 7 => if old = operand then swap else old
  | 6 => operand
  | 3 => old &&& operand
  | 4 => old ||| operand
  | 5 => old ^^^ operand
  | op =>
    match ty with
    | .f32 => atomFloat fp32 op old operand
    | .bf16x2 => onHalves (atomFloat bf16 op) old operand
    | .f16x2 => onHalves (atomFloat fp16 op) old operand
    | ty => if op = 0 then (old + operand) % 2 ^ w else pickInt ty (op == 2) old operand
/-- What an operation does to a word of n bytes: its new value. -/
def Atom.newOf (a : Atom) (e : AElem) (old : Nat) : Nat :=
  match a.op with
  | 8 => (old + 2 ^ 32 - 1) % 2 ^ 32
  | 9 => (old / 2 ^ 32 + 1) % 2 ^ 32 * 2 ^ 32 + (old % 2 ^ 32 - 1)
  | 10 => old / 2 ^ 32 * 2 ^ 32 + (old % 2 ^ 32 + e.operand.toNat % 2 ^ 32) % 2 ^ 32
  | op => atomNew op a.ty old e.operand.toNat e.swap.toNat
/-- Write the new value at the home. A marked word keeps its mark, but for an xchg of all eight bytes (R304). -/
def State.rmw (s : State) (a : Atom) (e : AElem) (old : Nat) : State :=
  let bad := s.isPoisoned e.ha a.size
  let s := s.writeHome (imap (bytesOf a.size (a.newOf e old)) (fun i b => (e.ha + i, b)))
  if bad && !(a.op == 6 && a.size == 8) then s.setPoison e.ha true else s
/-- The format of the halves of a packed operation, each of which is an atomic of its own (R143). -/
def Atom.halves (a : Atom) : Option Fmt :=
  if a.op > 2 ∧ a.op ≠ 6 then none else match a.ty with | .bf16x2 => some bf16 | .f16x2 => some fp16 | _ => none
/-- Update half `h` (1 the high one) of a pair: its old value comes with the state. -/
def State.rmwHalf (s : State) (f : Fmt) (a : Atom) (e : AElem) (h : Nat) : State × Nat :=
  let old := s.num (e.ha + 2 * h) 2
  let operand := bitsAt e.operand.toNat (16 * h) 16
  let x := if a.op = 6 then operand else atomFloat f a.op old operand
  (s.writeHome (imap (bytesOf 2 x) (fun i b => (e.ha + 2 * h + i, b))), old)
/-- The registers that an old value is written to for thread t, with the tag of R100. -/
def Atom.returns (a : Atom) (t : Nat) (x : DWord) : List RegW :=
  let key (r : Reg) : Option Nat := match r with
    | .v n => some (match a.who with | .crew _ => 32 * n.val + t | .cox _ => n.val)
    | .k n => some (crewKey n.val)
    | _ => none
  match a.dst with
  | none => []
  | some d =>
    let one (r : Reg) (v : Word) (i : Nat) : List RegW := match key r with | some k => [⟨t, k, v, loadTag a.ty 0 i⟩] | none => []
    one d (loWord x) 0 ++ if a.ty.wide && decide (a.op ≤ 7) then one (regPlus d 1) (hiWord x) 1 else []
/-- What the next step of an operation leaves: it is half way through its first thread's pair, or has that thread's old value (R143, R277). -/
def State.atomStep (s : State) (a : Atom) (e : AElem) (es : List AElem) (remote : List DWord) : State × Atom :=
  let done (old : Nat) : Atom := { a with elems := es, got := a.got ++ [(e.t, old)], half := none }
  if e.remote then (s, done (remote.headD 0).toNat)
  else match a.halves, a.half with
    | none, _ => (s.rmw a e (s.num e.ha a.size), done (s.num e.ha a.size))
    | some f, none =>
      let h := if Config.highFirst s.free then 1 else 0
      let r := s.rmwHalf f a e h
      (r.1, { a with half := some (h, r.2) })
    | some f, some (h, x) =>
      let r := s.rmwHalf f a e (1 - h)
      (r.1, done (x * 2 ^ (16 * h) + r.2 * 2 ^ (16 * (1 - h))))
/-- An earlier operation of the same thread on the same word has not performed (R143). -/
def Core.atomBefore (c : Core) (a : Atom) : Bool :=
  c.atoms.any (fun b => b.2.who == a.who && decide (b.2.order < a.order) && b.2.elems.any (fun x => a.elems.any (fun y => x.t == y.t && x.ha == y.ha)))
/-- The wait of a cox context ends: its instruction is done. -/
def State.endCox (s : State) (u gid : Nat) (sel : Wait → Bool) (ws : List RegW) : State :=
  match (s.group? u gid).bind (·.cox) with
  | none => s
  | some x =>
    if !sel x.wait then s
    else
      let n := pcAfter x.pc.toNat (slotOf x.pc.toNat)
      (s.applyWrites u (.cox gid) ws).modGroup u gid (fun g => { g with cox := g.cox.map (fun x =>
        { x with pc := BitVec.ofNat 64 n, wait := .none, begun := false, inLine := x.inLine && lineOf n == lineOf x.pc.toNat }) })
/-- The threads that an operation in flight still holds at their instruction. -/
def Core.heldBy (c : Core) (who : Who) (op : Nat) : List Nat :=
  (c.atoms.filter (fun a => a.2.who == who && a.2.op == op)).flatMap (fun a => a.2.elems.map (·.t) ++ a.2.got.map (·.1))
/-- The paths or the cox context that wait for operations of a kind go on, where none holds a thread of theirs any more. -/
def State.endOp (s : State) (u : Nat) (who : Who) (op : Nat) (sel : Wait → Bool) : State :=
  let held := (s.core u).heldBy who op
  match who with
  | .crew slot => s.endWait u slot (fun k p => sel p.wait && !(p.threads k).any held.contains) (fun _ _ => [])
  | .cox gid => if held.isEmpty then s.endCox u gid sel [] else s
def Wait.isJoin (w : Wait) : Bool := w == .join
def Wait.isTake (w : Wait) : Bool := match w with | .sltake _ => true | _ => false
/-- The record that a JOIN's decrement to zero pushes (R189, R387). -/
def State.joinPush (s : State) (u : Nat) (a : Atom) (gid va : Nat) : State :=
  s.addPush (a.grp.pushOf u gid a.who.slot? a.src.ord ((va + 64) % 2 ^ 64) 0 none)
/-- The group of an agent. -/
def State.gidOf (s : State) (u : Nat) (who : Who) : Nat :=
  match who with | .crew slot => (match s.crew? u slot with | some w => w.gid | none => 0) | .cox gid => gid
/-- An operation waits behind poison that its agent is to consume before it (R315), or for a port (R311). -/
def State.atomHeld (s : State) (u : Nat) (a : Atom) : Bool :=
  s.poisonAhead u a.who (fun x => decide (x.ord < a.src.ord)) || a.elems.any (fun e => e.remote && s.portHeld (farModule e.ha))
/-- The scope of an operation's event, raised where it reaches another module (R159). -/
def State.atomScope (s : State) (u seq : Nat) (a : Atom) : Nat := match s.event? u seq with | some e => e.scope | none => a.scope
/-- The operation may begin now (R143, R164, R430). -/
def State.atomReady (s : State) (u : Nat) (a : Atom) : Bool :=
  s.afterOk a.after a.scope && s.needOver u a.need && !(s.core u).atomBefore a && !s.atomHeld u a
/-- An operation that has begun may perform at its home (R168, R189): an ATOM that returns a witness once every earlier event of its origin
is at home, or for a witness of core scope in the L1 view. -/
def State.atomApplies (s : State) (u : Nat) (a : Atom) (seq : Nat) : Bool :=
  (a.op != 8 || s.performed u (prevSeq seq) 2) && (!a.wit || decide (a.op > 7) || !s.pendLate u (prevSeq seq) (s.atomScope u seq a))
/-- The lines of an operation leave the core's L1, which is swept where R163 asks for it (R168). -/
def State.atomFlush (s : State) (u id seq : Nat) (a : Atom) : State :=
  let s := a.elems.foldl (fun s e => if e.remote then s else s.flushLine u e.ha) s
  let s := if a.wit && decide (s.atomScope u seq a ≥ 1) then s.sweep u (prevSeq seq) else s
  s.modCore u (fun c => { c with atoms := c.atoms.put id { a with flushed := true } })
/-- The operation is over. -/
def State.atomLeave (s : State) (u id seq : Nat) (a : Atom) : State :=
  ((s.modCore u (fun c => { c with atoms := c.atoms.drop id })).dropEvent u seq).lowerFlag u a.who a.flag a.sculls
/-- Every thread's operation has performed: the old values are written, and the agent goes on. A JOIN writes 1 where it reached zero (R387). -/
def State.atomEnd (s : State) (u id seq : Nat) (a : Atom) : State :=
  let val (x : Nat) : DWord := if a.op = 8 then (if x = 1 then 1 else 0) else BitVec.ofNat 64 x
  let ws := a.got.flatMap (fun p => a.returns p.1 (val p.2))
  let s := s.applyWrites u a.who ws
  if a.op = 8 then (s.atomLeave u id seq a).endOp u a.who 8 Wait.isJoin
  else
    let s := (s.logWrites u a.who a.src.stroke ws).atomLeave u id seq a
    match a.who with | .crew slot => s.push (.haltComplete u slot) | .cox _ => s
/-- ATOM_APPLY: an ATOM, JOIN or SLPUT goes on by one step at its home: its lines leave the L1, then one thread after the other performs, a
packed pair half by half. -/
def execAtomApply (u id : Nat) (remote : List DWord) (s : State) : Host.Outcome State Fault Refusal :=
  match (s.core u).atoms.find? id with
  | none => .next s
  | some a =>
    match a.seq with
    | none => .next s
    | some seq =>
      if !s.atomReady u a || (s.dropEvent u seq).recHolds u a.who then .next s
      else if !a.flushed then .next (s.atomFlush u id seq a)
      else if !s.atomApplies u a seq then .next s
      else match s.atomMarked a with
        | m :: ms =>
          if (s.dropEvent u seq).killWaits u (s.consumer u a.who) (some a.src) then .next s
          else .next ((s.atomLeave u id seq a).poisonKill u (s.consumer u a.who) (some a.src) ((m :: ms).map (·.t)) (arrayCode m.ha) m.va (m.ha / 8 * 8))
        | [] =>
          match a.elems with
          | [] => .next (s.atomEnd u id seq a)
          | e :: es =>
            let r := s.atomStep a e es remote
            let zero := a.op == 8 && r.2.got.any (fun p => p.1 == e.t && p.2 == 1)
            let s := if zero then r.1.joinPush u a (s.gidOf u a.who) e.va else r.1
            .next (if r.2.elems.isEmpty then s.atomEnd u id seq r.2 else s.modCore u (fun c => { c with atoms := c.atoms.put id r.2 }))

/-- Another issue waits on the same counter since before (R429). -/
def State.takesBefore (s : State) (a : Atom) (e : AElem) : Bool :=
  s.cores.any (fun c => c.2.atoms.any (fun b => b.2.op == 9 && decide (b.2.order < a.order) && b.2.elems.any (fun x => x.ha == e.ha)))
/-- Grant slots to the threads of an SLTAKE in ascending order while the counters have them (R192, R429): those still waiting,
and the indices written. -/
def State.takeAll (s : State) (a : Atom) : List AElem → List DWord → State × List AElem × List RegW
  | [], _ => (s, [], [])
  | e :: es, r =>
    if s.takesBefore a e then (s, e :: es, [])
    else if e.remote then
      (match r with
       | [] => (s, e :: es, [])
       | x :: xs => let y := s.takeAll a es xs; (y.1, y.2.1, a.returns e.t (x.zeroExtend 64) ++ y.2.2))
    else
      let old := s.num e.ha 8
      if old % 2 ^ 32 = 0 then (s, e :: es, [])
      else let y := (s.rmw a e old).takeAll a es r; (y.1, y.2.1, a.returns e.t (BitVec.ofNat 64 (old / 2 ^ 32)) ++ y.2.2)
/-- The issuing crew is halted: nothing is written to its registers (R244). -/
def State.haltedWho (s : State) (u : Nat) (who : Who) : Bool :=
  match who with | .crew slot => (match s.crew? u slot with | some w => w.halt == .halted | none => false) | .cox _ => false
/-- SLTAKE_GRANT: the registers are logged when the issue ends (R286). -/
def execSltakeGrant (u id : Nat) (remote : List DWord) (s : State) : Host.Outcome State Fault Refusal :=
  match (s.core u).atoms.find? id with
  | none => .next s
  | some a =>
    if a.op != 9 || s.haltedWho u a.who || (s.core u).atomBefore a || s.atomHeld u a then .next s
    else
      let before := s
      let s := a.elems.foldl (fun s e => if e.remote then s else s.flushLine u e.ha) s
      match s.atomMarked a with
      | m :: ms =>
        if before.killWaits u (s.consumer u a.who) (some a.src) then .next before
        else .next ((s.modCore u (fun c => { c with atoms := c.atoms.drop id })).poisonKill u (s.consumer u a.who) (some a.src) ((m :: ms).map (·.t))
          (arrayCode m.ha) m.va (m.ha / 8 * 8))
      | [] =>
        let r := s.takeAll a a.elems remote
        let s := r.1.applyWrites u a.who r.2.2
        if r.2.1.isEmpty then .next ((s.modCore u (fun c => { c with atoms := c.atoms.drop id })).endOp u a.who 9 Wait.isTake)
        else .next (s.modCore u (fun c => { c with atoms := c.atoms.put id { a with elems := r.2.1 } }))

end Sys2Proof.Machine
end

