-- ==== Sys2Proof/Machine/Engine.lean ====
section
/-! DEFINITION. The steps of the engines (R102, R112, R113, R124 to R126, R128, R169, R174, R175, R191, R193, R223 to R230, R303, R304,
R315, R333, R353, R355, R378): an entry begins at the head of its queue, advances one line or chunk a step, and completes. -/
namespace Sys2Proof.Machine

/-! Reading at the homes. -/

/-- The bytes of a checked transfer, at the homes (R137). -/
def State.readSegs (s : State) (gs : List Seg) : List Byte :=
  gs.flatMap (fun g => if g.dest == .remote then (List.range g.n).map (fun i => Config.remoteByte s.free (g.ha + i)) else s.bytes g.ha g.n)
/-- Which of the bytes of a checked transfer lie in poisoned words. -/
def State.segMarks (s : State) (gs : List Seg) : List Bool :=
  gs.flatMap (fun g => (List.range g.n).map (fun i =>
    if g.dest == .remote then Config.remotePoison s.free ((g.ha + i) / 8 * 8) else s.isPoisoned (g.ha + i) 1))

/-- The flits of a transfer wait for a port that retrains or is down (R311). -/
def State.segsHeld (s : State) (gs : List Seg) : Bool := gs.any (fun g => g.dest == .remote && s.portHeld (farModule g.ha))

/-! Writing as one event of an origin (R156, R163, R169). -/

/-- Bytes of a write that take steps of their own: those of replicated pages and of other modules (R152, R160). -/
def SByte.later (b : SByte) : Bool := b.dest == .repl || b.dest == .remote
/-- The other bytes go home; the words of the marked home keys are poisoned there (R303). -/
def State.putHome (s : State) (bs : List SByte) (marks : List Nat) : State :=
  let near := bs.filter (fun b => !b.later)
  let s := s.writeAll (near.map (fun b => (b.ha, b.val)))
  (marks.filter (fun a => near.any (fun b => b.ha == a))).foldl (fun s a => s.setPoison a true) s
/-- One write event of an engine, of cluster scope at least (R355, R378): its number, and its bytes at their homes; those that take steps of
their own stay in the origin's buffer with their marks. -/
def State.engineEvent (s : State) (o scope : Nat) (bs : List SByte) (marks : List Nat) : State × DWord :=
  let x := s.origin o
  let sc := raiseScope bs (max 1 scope)
  let rest := bs.filter SByte.later
  let ev : StoreEv :=
    { seq := x.next, who := none, threads := 0, scope := sc, await := sc, after := [], wit := true, cls := 0, bytes := rest, waits := [], entered := true, swept := true,
      locks := 0, held := false, marks := marks.filter (fun a => rest.any (fun b => b.ha == a)) }
  let s := s.setOrigin o { x with cnt := x.next, pend := if rest.isEmpty then x.pend else x.pend ++ [ev] }
  (s.putHome bs marks, s.witOf o x.next sc 1)

/-! Tiles as engine operands. -/

/-- Bits lo to lo + w - 1 of a tile's contents. -/
def Tile.bitsAt (x : Tile) (lo w : Nat) : Nat :=
  let first := lo / 8
  let n := (lo % 8 + w + 7) / 8
  natOfBytes ((List.range n).map (fun i => x.data.get 0 (first + i))) / 2 ^ (lo % 8) % 2 ^ w
/-- The bit offset of element (r, c) (R224). -/
def elemBit (tf : Word) (r c : Nat) : Nat :=
  let line := if tfKdir tf then c else r
  let idx := if tfKdir tf then r else c
  line * tfLineBytes tf * 8 + idx * tfBits tf
/-- The scale byte of the block of element (r, c) (R226). -/
def Tile.scaleOf (x : Tile) (r c : Nat) : Nat :=
  let line := if tfKdir x.tf then c else r
  let idx := if tfKdir x.tf then r else c
  (x.scale.get 0 (line * (tfLineElems x.tf / 32) + idx / 32)).toNat
/-- The floating format of an element code. -/
def tfFloat (tf : Word) : Fmt :=
  match tfFmt tf with | 5 => fp64 | 8 => bf16 | 9 => fp16 | 10 => e4m3 | 11 => e5m2 | 12 => e2m1 | _ => fp32
/-- The value of element (r, c): a BFP mantissa with its block's exponent (R112), an integer, or a float, a BF16
subnormal flushed under NBV = 1 (R128). -/
def Tile.elem (x : Tile) (nbv r c : Nat) : FVal :=
  let w := tfBits x.tf
  let b := x.bitsAt (elemBit x.tf r c) w
  match tfFmt x.tf with
  | 14 =>
    let e := x.scaleOf r c
    if e = 255 then .nan false else .fin (decide (toSigned w b < 0)) (toSigned w b).natAbs ((e : Int) - 127 - ((w : Int) - 2))
  | 13 => .fin (decide (toSigned 8 b < 0)) (toSigned 8 b).natAbs 0
  | 0 => .fin (decide (toSigned 32 b < 0)) (toSigned 32 b).natAbs 0
  | 8 => bf16.value (if nbv = 1 then bf16.flush b else b)
  | _ => (tfFloat x.tf).value b

/-! MMA (R124, R125, R128). -/

/-- A sum in progress: its exact value, whether invalid was raised, and the signs of the infinities among its terms. -/
structure MSum where
  v : FVal
  nv : Bool
  pos : Bool
  neg : Bool
  deriving DecidableEq, Repr
/-- A term as a sum of its own; 0 · ∞ is none, and invalid. -/
def MSum.ofTerm (t : Option FVal) (snan : Bool) : MSum :=
  match t with
  | none => ⟨.nan false, true, false, false⟩
  | some (.nan _) => ⟨.nan false, snan, false, false⟩
  | some v => ⟨v, snan, v == .inf false, v == .inf true⟩
/-- Add an exact term. Infinities of both signs are invalid, in whatever order the terms come (R124). -/
def MSum.add (mode : Mode) (a : MSum) (t : Option FVal) (snan : Bool) : MSum :=
  let b := MSum.ofTerm t snan
  let pos := a.pos || b.pos
  let neg := a.neg || b.neg
  let v : FVal := match a.v, b.v with
    | .nan _, _ => .nan false
    | _, .nan _ => .nan false
    | .inf n, .inf k => if n = k then .inf n else .nan false
    | .inf n, .fin _ _ _ => .inf n
    | .fin _ _ _, .inf n => .inf n
    | .fin na ma ea, .fin nb mb eb => sumFin mode na ma ea nb mb eb
  ⟨v, a.nv || b.nv || (pos && neg), pos, neg⟩
/-- The exact sum of products; the first term stands alone so that zeros of one sign keep it (R116). -/
def chunkSum (mode : Mode) : List (Option FVal × Bool) → MSum
  | [] => ⟨.fin false 0 0, false, false, false⟩
  | (t, sn) :: ts => ts.foldl (fun a t => a.add mode t.1 t.2) (MSum.ofTerm t sn)
/-- A value times the scales, exact; 0 · ∞ is invalid. -/
def MSum.scale (a : MSum) (ks : List FVal) : MSum :=
  ks.foldl (fun a k =>
    match mulVal a.v k with
    | none => { a with v := .nan false, nv := true }
    | some v => { a with v := if v.isNan then .nan false else v, nv := a.nv || k.isSnan }) a
/-- What one element of a product needs. -/
structure MJob where
  a : Tile
  b : Tile
  scaled : Bool
  sa : Word
  sb : Word
  mode : Mode
  nbv : Nat
  deriving DecidableEq, Repr
/-- The scales of the block that holds index k: block scales and per-tensor scales of MMAS (R113). -/
def MJob.scales (j : MJob) (r c k : Nat) : List FVal :=
  if j.scaled then [e4m3.value (j.a.scaleOf r k), e4m3.value (j.b.scaleOf k c), fp32.value j.sa.toNat, fp32.value j.sb.toNat] else []
/-- A product of integer mantissas that is zero has no sign: it is +0 (DESIGN CHOICE, log entry 29: R125 gives the product as a number). -/
def plusZero (x : FVal) : FVal := match x with | .fin true 0 e => .fin false 0 e | x => x
/-- The product at index k of element (r, c), and whether it has a signalling operand. -/
def MJob.term (j : MJob) (r c n k : Nat) : Option FVal × Bool :=
  if k < n then
    let x := j.a.elem j.nbv r k
    let y := j.b.elem j.nbv k c
    (if tfFmt j.a.tf = 14 then (mulVal x y).map plusZero else mulVal x y, x.isSnan || y.isSnan)
  else (some (.fin false 0 0), false)
/-- One chunk of 16 under NBV = 2 (R124). -/
def MJob.chunk16 (j : MJob) (f : Fmt) (r c n k : Nat) (acc : FVal × Conds) : FVal × Conds :=
  let s := (chunkSum j.mode ((List.range 16).map (fun i => j.term r c n (k + i)))).scale (j.scales r c k)
  let s1 := f.roundVal j.mode false s.v
  let r1 := f.add j.mode acc.1 (f.value s1.bits)
  (f.value r1.bits, acc.2 ||| (if s.nv then condNV else 0) ||| s1.conds ||| r1.conds)
/-- One group of four under NBV = 1 (R128). -/
def MJob.group4 (j : MJob) (f : Fmt) (r c n k : Nat) (acc : FVal × Conds) : FVal × Conds :=
  let one (i : Nat) : Option FVal × Bool :=
    match j.term r c n (k + i) with
    | (none, _) => (none, true)
    | (some v, sn) => let m := (MSum.ofTerm (some v) sn).scale (j.scales r c k); (if m.nv && !sn then none else some m.v, m.nv)
  let s := chunkSum j.mode ((List.range 4).map one)
  let r1 := f.add j.mode acc.1 s.v
  (f.value r1.bits, acc.2 ||| (if s.nv then condNV else 0) ||| r1.conds)
/-- The chunks of an element from index k on. -/
def MJob.run (j : MJob) (f : Fmt) (r c n : Nat) : Nat → Nat → FVal × Conds → FVal × Conds
  | 0, _, acc => acc
  | fuel + 1, k, acc =>
    if k ≥ n then acc
    else if j.nbv = 1 then j.run f r c n fuel (k + 4) (j.group4 f r c n k acc) else j.run f r c n fuel (k + 16) (j.chunk16 f r c n k acc)
/-- One integer element: a sum that wraps (R118, R124). -/
def MJob.intElem (j : MJob) (r c n : Nat) (acc : Int) : Nat :=
  let v (x : FVal) : Int := match x with | .fin s m _ => if s then -(m : Int) else m | _ => 0
  wrapNat 32 ((List.range n).foldl (fun t k => t + v (j.a.elem 2 r k) * v (j.b.elem 2 k c)) acc)
/-- One element of D: its bits and conditions. `cv` is the element of C, or +0. -/
def MJob.elem (j : MJob) (d : Word) (r c : Nat) (cv : FVal) : Nat × Conds :=
  let n := tfCols j.a.tf
  if tfFmt j.a.tf = 13 then (j.intElem r c n (match cv with | .fin s m _ => if s then -(m : Int) else m | _ => 0), 0)
  else
    let f := if tfFmt j.a.tf = 5 then fp64 else fp32
    let x := j.run f r c n n 0 (cv, 0)
    let y := (tfFloat d).roundVal j.mode false x.1
    (y.bits, x.2 ||| y.conds)
/-- The tag of an MMA's result (R102). -/
def mmaTag (d a b : Tile) (c : Option Tile) : Nat :=
  let t := min a.tag b.tag - (tfCols a.tf).log2 / 2
  let t := match c with | some x => min t x.tag | none => t
  min t (tfPrec d.tf)
/-- The result of an MMA: the tile and the conditions raised. -/
def mmaResult (j : MJob) (d : Tile) (c : Option Tile) : Tile × Conds :=
  let w := tfBits d.tf / 8
  let cells := (List.range (tfRows d.tf)).flatMap (fun r => (List.range (tfCols d.tf)).map (fun k =>
    let cv := match c with | some x => x.elem j.nbv r k | none => .fin false 0 0
    let e := j.elem d.tf r k cv
    (elemOff d.tf r k, e)))
  let data : SMap Byte := cells.foldl (fun m e => SMap.setMany 0 m e.1 (bytesOf w e.2.1)) []
  ({ d with data := data, tag := mmaTag d j.a j.b c, poisoned := false }, cells.foldl (fun a e => a ||| e.2.2) 0)

/-! Entries. -/

def State.modQueue (s : State) (u q : Nat) (f : List Entry → List Entry) : State :=
  s.modCore u (fun c => { c with queues := setNth c.queues q (f (c.queues.getD q [])) })
/-- Change an entry of a queue. -/
def State.modEntry (s : State) (u q id : Nat) (f : Entry → Entry) : State := s.modQueue u q (fun es => es.map (fun e => if e.id = id then f e else e))
/-- Change the head entry of a queue. -/
def State.modHead (s : State) (u q : Nat) (f : Entry → Entry) : State :=
  s.modQueue u q (fun es => match es with | [] => [] | e :: r => f e :: r)
def Core.tile (c : Core) (n : Nat) : Tile := c.tiles.get Tile.reset n
def State.setTile (s : State) (u n : Nat) (x : Tile) : State := s.modCore u (fun c => { c with tiles := c.tiles.set Tile.reset n x })
/-- The issuing crew consumed a poisoned tile (R225, R304): its entry has no further effect. The kill's frame waits for the origin (R158). -/
def State.tileKill (s : State) (u q : Nat) (e : Entry) : State :=
  let before := s
  let seqs := match e.kind with | .tst _ _ ss => ss | _ => []
  let s := s.setOrigin u { s.origin u with pend := (s.origin u).pend.filter (fun v => !(v.held && seqs.contains v.seq)) }
  if s.killWaits u (s.consumer u e.who) (some e.src) then before else
  (s.modEntry u q e.id (fun e => { e with begun := true, finished := true })).poisonKill u (s.consumer u e.who) (some e.src) [8 * e.quarter] 2 0 0

/-- TLD: one line a step; its last line also fills the scale slot and sets the tag (R102, R224 to R226). -/
def State.stepTld (s : State) (u q : Nat) (e : Entry) (tile : Nat) (lines : List (List Seg)) (scale : List Seg) (tag : Nat) : State :=
  let x := (s.core u).tile tile
  let segs := lines.getD e.pos []
  let last := decide (e.pos + 1 ≥ lines.length)
  let used := if last then segs ++ scale else segs
  if s.segsHeld used then s else
  let x := { x with
    data := SMap.setMany 0 x.data (e.pos * tfLineBytes x.tf) (s.readSegs segs)
    poisoned := (x.poisoned && e.pos != 0) || (s.segMarks used).any id }
  let x := if last then { x with tag := tag, scale := SMap.setMany 0 x.scale 0 (s.readSegs scale) } else x
  (s.setTile u tile x).modHead u q (fun e => { e with begun := true, pos := e.pos + 1, finished := last })
def State.stepScld (s : State) (u q : Nat) (tile : Nat) (scale : List Seg) : State :=
  let x := (s.core u).tile tile
  if s.segsHeld scale then s else
  (s.setTile u tile { x with scale := SMap.setMany 0 x.scale 0 (s.readSegs scale), poisoned := x.poisoned || (s.segMarks scale).any id }).modHead u q
    (fun e => { e with begun := true, finished := true })
/-- TST: one line a step, as the store event whose number it took at issue, with its Sweep before (R163, R225); a line begins once the line
before it is at its homes (R152). -/
def State.stepTst (s : State) (u q : Nat) (e : Entry) (tile : Nat) (lines : List (List Seg)) (seqs : List Nat) : State :=
  let x := (s.core u).tile tile
  let seq := seqs.getD e.pos 0
  if x.poisoned then s.tileKill u q e
  else if e.pos ≠ 0 ∧ (s.event? u (seqs.getD (e.pos - 1) 0)).isSome then s
  else
    let n := tfLineBytes x.tf
    let bytes := (List.range n).map (fun i => x.data.get 0 (e.pos * n + i))
    let bs := segBytes (lines.getD e.pos []) bytes
    let rest := bs.filter SByte.later
    let owes := match s.event? u seq with | some v => v.wit && decide (v.scope ≥ 1) | none => false
    let s := if owes then s.sweep u (prevSeq seq) else s
    let s := s.putHome bs []
    let s := if rest.isEmpty then s.dropEvent u seq else s.modEvent u seq (fun v => { v with bytes := rest, held := false, entered := true, swept := true })
    s.modHead u q (fun e => { e with begun := true, pos := e.pos + 1, finished := decide (e.pos + 1 ≥ lines.length) })
/-- The quarters of one issue of MMA or MMAS that name one B tile, with formats and shapes that agree, run as one pass (R230): the other
entries of the pass that the head entry begins. -/
def Core.fused (c : Core) (h : Entry) (es : List Entry) : List Entry :=
  let tf (t : Nat) : Word := (c.tile t).tf
  es.takeWhile (fun e => e.who == h.who && e.src.pc == h.src.pc && e.src.instr == h.src.instr && e.src.stroke == h.src.stroke && e.src.cnt == h.src.cnt &&
    decide (h.src.ord < e.src.ord ∧ e.src.ord < h.src.ord + 4) &&
    (match h.kind, e.kind with
     | .mma d a b c nc .., .mma d' a' b' c' .. => b == b' && tf d == tf d' && tf a == tf a' && (nc || tf c == tf c')
     | _, _ => false))
/-- One quarter of a pass: the whole result tile of an MMA or MMAS, or the end of the pass where it consumes poison. -/
def State.mmaPass (s : State) (u q : Nat) : List Entry → State
  | [] => s
  | e :: es =>
    match e.kind with
    | .mma d a b c nc scaled sa sb rm nbv =>
      let k := s.core u
      let cs := if nc then none else some (k.tile c)
      if (k.tile a).poisoned || (k.tile b).poisoned || (match cs with | some x => x.poisoned | none => false) then s.tileKill u q e
      else
        let r := mmaResult ⟨k.tile a, k.tile b, scaled, sa, sb, Mode.ofRm rm, nbv⟩ (k.tile d) cs
        ((s.setTile u d r.1).modEntry u q e.id (fun e => { e with begun := true, finished := true, conds := r.2 })).mmaPass u q es
    | _ => s
/-- The entries that end with the head of a queue: those of its pass, if it has one (R230). -/
def State.passOf (s : State) (u q : Nat) : List Entry :=
  match (s.core u).queues.getD q [] with
  | [] => []
  | e :: es => e :: (s.core u).fused e es

/-- The space of a data engine address. -/
def spaceOf (vault : Bool) : Space := if vault then .vault else .global
/-- The parts of an engine access of n bytes. -/
def State.engSpan (s : State) (u : Nat) (e : Entry) (vault : Bool) (p : Perm) (a n : Nat) : Except AFault (List Seg) :=
  s.span u e.grp (spaceOf vault) p (n / 128 + 2) (a % 2 ^ 64) n
/-- The engine write of a chunk: the home keys of the bytes that carry a mark. -/
def markedKeys : List SByte → List Bool → List Nat
  | b :: bs, m :: ms => if m then b.ha :: markedKeys bs ms else markedKeys bs ms
  | _, _ => []
/-- The last write event of a command is at its homes: the next one begins, and the command can end, only then (R152, R315). -/
def State.writeOver (s : State) (e : Entry) : Bool :=
  match e.kind with
  | .cpy .. | .gath .. | .deliver .. => e.wit == 0 || (s.event? e.origin (witSeq e.wit)).isNone
  | _ => true
/-- Write one chunk of a command, or report the failing access (R315). It waits for the origin (R158). -/
def State.writeChunk (s : State) (u q : Nat) (e : Entry) (dv : Bool) (dst done : Nat) (finished : Bool) (bytes : List Byte) (marks : List Bool) (scope : Nat) : State :=
  match s.engSpan u e dv .store dst bytes.length with
  | .error f => s.modHead u q (fun e => { e with begun := true, finished := true, status := f.1 })
  | .ok segs =>
    if (s.origin e.origin).stalls then s
    else
      let bs := segBytes segs bytes
      let r := s.engineEvent e.origin scope bs (markedKeys bs marks)
      r.1.modHead u q (fun e => { e with
        begun := true
        pos := done
        finished := finished
        status := if marks.any id then 0x18 else e.status
        wit := r.2 })
/-- A command ends with a status. -/
def State.endEntry (s : State) (u q status : Nat) : State := s.modHead u q (fun e => { e with begun := true, finished := true, status := status })
/-- CPY: one chunk inside a 128-byte line of the destination a step (R355). -/
def State.stepCpy (s : State) (u q : Nat) (e : Entry) (dst src len : Nat) (dv sv : Bool) : State :=
  if e.pos ≥ len then s.modHead u q (fun e => { e with begun := true, finished := true })
  else
    let n := min (len - e.pos) (128 - (dst + e.pos) % 128)
    match s.engSpan u e sv .load (src + e.pos) n with
    | .error f => s.endEntry u q f.1
    | .ok segs => if s.segsHeld segs then s else s.writeChunk u q e dv (dst + e.pos) (e.pos + n) (decide (e.pos + n ≥ len)) (s.readSegs segs) (s.segMarks segs) e.scope
/-- The elements of a GATH chunk with their marks, or the cause that stops it (R378); cause 0 says that a port holds its flits (R311). -/
def State.gathRead (s : State) (u : Nat) (e : Entry) (src idx size iw : Nat) (sv : Bool) : Nat → Nat → Except Nat (List Byte × List Bool)
  | 0, _ => .ok ([], [])
  | n + 1, i =>
    match s.engSpan u e false .load (idx + i * iw) iw with
    | .error f => .error f.1
    | .ok is =>
      if s.segsHeld is then .error 0 else
      let x := toSigned (8 * iw) (natOfBytes (s.readSegs is))
      let a := wrapNat 64 ((src : Int) + x * (size : Int))
      if sv = false ∧ a / 2 ^ 56 ≠ 0 then .error 0x12
      else if a % size ≠ 0 then .error 0x13
      else match s.engSpan u e sv .load a size with
        | .error f => .error f.1
        | .ok es =>
          if s.segsHeld es then .error 0 else
          match s.gathRead u e src idx size iw sv n (i + 1) with
          | .error c => .error c
          | .ok r => .ok (s.readSegs es ++ r.1, s.segMarks es ++ r.2)
def State.stepGath (s : State) (u q : Nat) (e : Entry) (dst src idx count esz iw : Nat) (dv sv : Bool) : State :=
  if e.pos ≥ count then s.modHead u q (fun e => { e with begun := true, finished := true })
  else
    let size := 2 ^ esz
    let n := min (count - e.pos) ((128 - (dst + e.pos * size) % 128) / size)
    match s.gathRead u e src idx size iw sv n e.pos with
    | .error c => if c = 0 then s else s.endEntry u q c
    | .ok r => s.writeChunk u q e dv (dst + e.pos * size) (e.pos + n) (decide (e.pos + n ≥ count)) r.1 r.2 e.scope

/-! Collectives (R126, R352, R353). -/

/-- Bytes of an element of a COLL type; a pair is 8 bytes. -/
def collSize (op ty : Nat) : Nat :=
  if op = 3 then 8 else if [2, 3, 5].contains ty then 8 else if [0, 1, 4, 6, 7].contains ty then 4 else if [8, 9].contains ty then 2 else 1
/-- The element indices that hold a marked byte. -/
def markedElems (size : Nat) (ms : List Bool) : List Nat := (((imap ms (fun i m => if m then some (i / size) else none)).filterMap id)).eraseDups
/-- A descriptor field that is malformed beyond what COLL itself checks (R353). -/
def collBad (d : List Byte) : Bool := decide (field d 2 2 > 1024) || field d 6 2 != 0 || field d 48 16 != 0
/-- An address on another module. -/
def State.offModule (s : State) (a : Nat) : Bool := decide (a / 2 ^ 56 = 0) && bitsAt a 46 10 != s.modnum
/-- Add a contribution to the round its rank has come to. -/
def State.contribute (s : State) (group : DWord) (c : Contrib) : State :=
  let m := s.roundOf.get 0 (rankKey group c.rank)
  let s := s.countRound group c.rank
  let known := s.rounds.any (fun r => r.group == group && r.round == m)
  { s with rounds := if known then s.rounds.map (fun r => if r.group == group && r.round == m then { r with parts := r.parts ++ [c] } else r)
                     else s.rounds ++ [⟨group, m, [c], false⟩] }
/-- The round that a rank comes to next is over already: it comes with another NRANK than those that filled it (R353). -/
def State.roundClosed (s : State) (group : DWord) (rank : Nat) : Bool :=
  s.rounds.any (fun r => r.group == group && r.round == s.roundOf.get 0 (rankKey group rank) && r.closed)
/-- The round of a participant's entry will never fill: a rank of it has gone past it and sent nothing (R195). -/
def State.roundLost (s : State) (u id : Nat) : Bool :=
  s.rounds.any (fun r => r.parts.any (fun c => c.unit == u && c.entry == id && (List.range c.nrank).any (fun k =>
    !r.parts.any (fun p => p.rank == k) && !Config.remoteRank r.group k && decide (s.roundOf.get 0 (rankKey r.group k) > r.round))))
/-- A COLL begins: it reads its source and joins its round, or fails; a participant that fails sends nothing. Once it has begun it waits for its
round; that of a context that was reset ends where the round never fills. -/
def State.stepColl (s : State) (u q : Nat) (e : Entry) (d : List Byte) : State :=
  let op := field d 0 1
  let ty := field d 1 1
  let size := collSize op ty
  let count := field d 8 8
  let group := BitVec.ofNat 64 (field d 32 8)
  let rank := field d 4 2
  let part (ok : Bool) (data : List Byte) (marks : List Nat) : Contrib := ⟨rank, u, e.id, e.grp.ctx, ok, op, ty, field d 2 2, count, data, marks⟩
  let sends := op != 4 || rank == 0
  if e.begun then (if e.drop && s.roundLost u e.id then s.endEntry u q 0 else s)
  else if s.roundClosed group rank then (s.countRound group rank).endEntry u q 2
  else if collBad d then ((s.contribute group (part false [] [])).modHead u q (fun e => { e with begun := true })).push (.collRoundComplete group (s.roundOf.get 0 (rankKey group rank)))
  else if s.offModule (field d 16 8) || s.offModule (field d 24 8) then (s.countRound group rank).endEntry u q 0x10
  else
    match (if sends then s.engSpan u e false .load (field d 16 8) (count * size) else .ok []) with
    | .error f => (s.countRound group rank).endEntry u q f.1
    | .ok segs =>
      if s.segsHeld segs then s else
      ((s.contribute group (part true (s.readSegs segs) (markedElems size (s.segMarks segs)))).modHead u q (fun e => { e with begun := true })).push
        (.collRoundComplete group (s.roundOf.get 0 (rankKey group rank)))
/-- The combine of two elements, BF16 and FP16 sums being held in FP32 (R126). -/
def collCombine (op ty : Nat) (a b : Nat) : Nat :=
  let pick (f : Fmt) : Nat := (outPick f (op == 2) a b ⟨f.value a, ⟨0, 0⟩⟩ ⟨f.value b, ⟨0, 0⟩⟩).bits
  if op = 3 then
    let pair (x : Nat) : Word × Word := (BitVec.ofNat 32 x, BitVec.ofNat 32 (x / 2 ^ 32))
    if beforeF32 (pair b) (pair a) then b else a
  else match ty with
    | 4 => if op = 0 then (fp32.add .near (fp32.value a) (fp32.value b)).bits else pick fp32
    | 5 => if op = 0 then (fp64.add .near (fp64.value a) (fp64.value b)).bits else pick fp64
    | 8 => if op = 0 then (fp32.add .near (fp32.value a) (fp32.value b)).bits else pick bf16
    | 9 => if op = 0 then (fp32.add .near (fp32.value a) (fp32.value b)).bits else pick fp16
    | ty =>
      let t : Ty := match ty with | 0 => .i32 | 1 => .u32 | 2 => .i64 | _ => .u64
      if op = 0 then (a + b) % 2 ^ tyBits t else pickInt t (op == 2) a b
/-- A contribution as it enters the tree: a half sum's element in FP32. -/
def collLeaf (op ty x : Nat) : Nat :=
  if op = 0 ∧ ty = 8 then (fp32.roundVal .near false (bf16.value x)).bits
  else if op = 0 ∧ ty = 9 then (fp32.roundVal .near false (fp16.value x)).bits else x
/-- The root value in the element's own format. -/
def collRoot (op ty x : Nat) : Nat :=
  if op = 0 ∧ ty = 8 then (bf16.roundVal .near false (fp32.value x)).bits
  else if op = 0 ∧ ty = 9 then (fp16.roundVal .near false (fp32.value x)).bits else x
/-- The data of a rank: its contribution, or what another module sends. -/
def State.rankData (s : State) (r : Round) (rank len : Nat) : List Byte :=
  match r.parts.find? (fun c => c.rank == rank) with
  | some c => c.data
  | none => (List.range len).map (fun i => Config.remoteByte s.free (2 ^ 60 + rank * 2 ^ 50 + i))
/-- The marked elements of a rank's contribution. -/
def State.rankMarks (s : State) (r : Round) (rank count size : Nat) : List Nat :=
  match r.parts.find? (fun c => c.rank == rank) with
  | some c => c.marks
  | none => (List.range count).filter (fun i => Config.remotePoison s.free ((2 ^ 60 + rank * 2 ^ 50 + i * size) / 8 * 8))
/-- The result of a round, and its marked elements. -/
def State.roundResult (s : State) (r : Round) (op ty nrank count : Nat) : List Byte × List Nat :=
  let size := collSize op ty
  let all := (List.range nrank).map (fun k => s.rankData r k (count * size))
  let marks := (List.range nrank).map (fun k => s.rankMarks r k count size)
  if op = 4 then (s.rankData r 0 (count * size), s.rankMarks r 0 count size)
  else if op = 5 then (all.flatten, (imap marks (fun k ms => ms.map (· + k * count))).flatten)
  else
    let elem (i : Nat) : List Byte :=
      let leaves := all.map (fun d => some (collLeaf op ty (natOfBytes ((d.drop (i * size)).take size))))
      bytesOf size (collRoot op ty ((treeFold (collCombine op ty) 10 leaves).getD 0))
    ((List.range count).flatMap elem, marks.flatten.eraseDups)
/-- The round is open, and every rank that some contribution counts has contributed, here or from another module. -/
def Round.full (r : Round) : Bool :=
  !r.closed && r.parts.any (fun c => (List.range c.nrank).all (fun k => r.parts.any (fun p => p.rank == k) || Config.remoteRank r.group k))
/-- Contributions agree and are well formed. -/
def Round.agrees (r : Round) : Bool :=
  match r.parts with
  | [] => false
  | c :: _ => r.parts.all (fun p => p.ok && p.op == c.op && p.ty == c.ty && p.nrank == c.nrank && p.count == c.count)
/-- Change a participant's entry while it waits for the round. -/
def State.modPart (s : State) (p : Contrib) (f : Entry → Entry) : State :=
  s.modQueue p.unit 2 (fun es => es.map (fun e => if e.id == p.entry && e.kind.gathers then f e else e))
/-- COLL_ROUND_COMPLETE: the root combines, and every participant's entry gets the result to write. The round stays, closed, so that a participant
that comes to it later, with another NRANK, fails. -/
def execCollRoundComplete (group : DWord) (round : Nat) (s : State) : Host.Outcome State Fault Refusal :=
  match s.rounds.find? (fun r => r.group == group && r.round == round) with
  | none => .next s
  | some r =>
    match r.parts with
    | [] => .next s
    | c :: _ =>
      if !r.full then .next s
      else
        let res := if r.agrees then s.roundResult r c.op c.ty c.nrank c.count else ([], [])
        let s : State := { s with rounds := s.rounds.map (fun x => if x.group == group && x.round == round then { x with parts := [], closed := true } else x) }
        let give (e : Entry) : Entry :=
          match e.kind with
          | .coll d => { e with kind := .deliver (field d 24 8) (collSize c.op c.ty) res.1 res.2, status := if res.2.isEmpty then 0 else 0x18 }
          | _ => e
        .next (r.parts.foldl (fun s p => s.modPart p (fun e => if r.agrees then give e else { e with finished := true, status := 2 })) s)
/-- Delivery: one 128-byte chunk of the destination a step, at module scope or wider (R353); `pos` counts bytes. -/
def State.stepDeliver (s : State) (u q : Nat) (e : Entry) (dst size : Nat) (data : List Byte) (marks : List Nat) : State :=
  if e.pos ≥ data.length then s.modHead u q (fun e => { e with finished := true })
  else
    let n := min (data.length - e.pos) (128 - (dst + e.pos) % 128)
    let bits := (List.range n).map (fun i => marks.contains ((e.pos + i) / size))
    s.writeChunk u q e false (dst + e.pos) (e.pos + n) (decide (e.pos + n ≥ data.length)) ((data.drop e.pos).take n) bits (max 2 e.scope)

/-- A QFENCE entry at the head of every queue it names is over (R175). -/
def State.stepFence (s : State) (u id queues : Nat) : State :=
  let heads (q : Nat) : Bool := match ((s.core u).queues.getD q []) with | e :: _ => (match e.kind with | .fence i _ => i == id | _ => false) | [] => false
  if (bitsOf 3 queues).all heads then (bitsOf 3 queues).foldl (fun s q => s.modQueue u q (fun es => es.drop 1)) s else s
/-- An entry that has not begun waits for its witness (R169), for the memory accesses of its group that stand before it (R40), and behind poison that its agent is to consume (R315). -/
def State.mayBegin (s : State) (u : Nat) (e : Entry) : Bool :=
  e.begun || (s.satisfied e.after e.scope && s.needOver u e.need && !s.poisonAhead u e.who (fun x => decide (x.ord < e.src.ord)))
/-- ENGINE_ENTRY_BEGIN: the head entry of a queue begins, or advances by one line or chunk; an MMA runs with its whole pass. -/
def execEngineEntryBegin (u q : Nat) (s : State) : Host.Outcome State Fault Refusal :=
  match (s.core u).queues.getD q [] with
  | [] => .next s
  | e :: _ =>
    if e.finished || !s.writeOver e || !s.mayBegin u e then .next s
    else .next (match e.kind with
      | .tld tile lines scale tag => s.stepTld u q e tile lines scale tag
      | .tst tile lines seqs => s.stepTst u q e tile lines seqs
      | .scld tile scale => s.stepScld u q tile scale
      | .mma .. => s.mmaPass u q (s.passOf u q)
      | .cpy dst src len dv sv => s.stepCpy u q e dst src len dv sv
      | .gath dst src idx count esz iw dv sv => s.stepGath u q e dst src idx count esz iw dv sv
      | .coll d => s.stepColl u q e d
      | .deliver dst size data marks => s.stepDeliver u q e dst size data marks
      | .fence id queues => s.stepFence u id queues)

/-- Bytes or elements completed: COLL counts elements (R353). -/
def Entry.doneCount (e : Entry) : Nat := match e.kind with | .deliver _ size _ _ => e.pos / size | _ => e.pos
/-- The completion record of a data or collective command (R193). -/
def Entry.record (e : Entry) (q : Nat) : List DWord :=
  let slot := match e.who with | .crew k => k | .cox g => Config.coxSlot g % 256
  [BitVec.ofNat 64 (slot + (q - 1) * 2 ^ 8 + e.status * 2 ^ 16), e.tag, BitVec.ofNat 64 e.doneCount, e.wit]
/-- The bytes of a TST are performed at its scope (R44). -/
def State.tstOver (s : State) (u : Nat) (e : Entry) : Bool :=
  match e.kind with | .tst _ _ seqs => seqs.all (fun x => (s.event? u x).isNone) | _ => true
/-- Conditions of an MMA go to the sculls of its quarter (R124). -/
def State.mmaConds (s : State) (u : Nat) (e : Entry) : State :=
  match e.who with
  | .crew slot => s.modCrew u slot (fun w => [2 * e.quarter, 2 * e.quarter + 1].foldl (fun w k =>
      w.setScull k { w.scull k with fstat := (w.scull k).fstat ||| e.conds }) w)
  | .cox _ => s
/-- What an entry that leaves its queue owes its agent: its conditions, and its completion flag. -/
def State.entryDone (s : State) (u : Nat) (e : Entry) : State := if e.drop then s else (s.mmaConds u e).lowerFlag u e.who e.flag e.sculls
/-- ENGINE_ENTRY_COMPLETE: the entry, with the rest of its pass (R230), leaves its queue, its flag falls and its record is placed; a full event
queue stalls it. Entries of the matrix queue place no record (DESIGN CHOICE, log entry 29: R193 gives them an ENGINE code, and no rule says
that one of them places a record). -/
def execEngineEntryComplete (u q : Nat) (s : State) : Host.Outcome State Fault Refusal :=
  match (s.core u).queues.getD q [] with
  | [] => .next s
  | e :: _ =>
    let needs := q != 0 && !e.drop
    let pass := (s.passOf u q).takeWhile (·.finished)
    if !e.finished || !s.tstOver u e || !s.writeOver e || (needs && decide ((s.core u).evq.length ≥ 64)) then .next s
    else
      let s := s.modQueue u q (fun es => es.drop pass.length)
      let s := if needs then s.modCore u (fun c => { c with evq := c.evq ++ [e.record q] }) else s
      .next (pass.foldl (fun s e => s.entryDone u e) s)

/-! The affine address engine (R191, R333). -/

/-- The next iteration vector, innermost fastest; none after the last. -/
def nextIndex : List Nat → List Nat → Option (List Nat)
  | c :: cs, i :: is =>
    (match nextIndex cs is with
     | some r => some (i :: r)
     | none => if i + 1 < c then some ((i + 1) :: is.map (fun _ => 0)) else none)
  | _, _ => none
/-- The address of the element a stream is at. -/
def AeRun.addr (r : AeRun) (st : Stream) : Nat :=
  ((List.zip r.index st.strides).foldl (fun a p => a + BitVec.ofNat 64 p.1 * p.2) (r.base + st.base)).toNat
/-- Put an element in the partial entry of its queue; 32 make an entry. -/
def Group.addElem (g : Group) (r : AeRun) (q : Nat) (x : OqElem) : Group × AeRun :=
  let part := r.partials.getD q [] ++ [x]
  if part.length ≥ 32 then ({ g with oq := setNth g.oq q (g.oq.getD q [] ++ [part]) }, { r with partials := setNth r.partials q [] })
  else (g, { r with partials := setNth r.partials q part })
/-- Push the partial entries of an ended run, their missing elements zero. -/
def Group.pushPartials (g : Group) (r : AeRun) : Group :=
  let fill (p : List OqElem) : List OqElem := p ++ List.replicate (32 - p.length) ⟨0, 0, 0, 0, 0⟩
  { g with ae := none, oq := imap g.oq (fun q es => match r.partials.getD q [] with | [] => es | p => es ++ [fill p]) }
/-- The element at a located address, as a load of the core: its bytes must be readable; a marked word carries POISON. -/
def State.aeElem (s : State) (u e n : Nat) (missed : Bool) (p : Piece) : OqElem :=
  match s.marked u missed p.dest p.ha n with
  | some m => ⟨0, 0x18, m.1, e, m.2⟩
  | none => ⟨BitVec.ofNat 32 (natOfBytes (s.readBytes u p.dest p.ha n)), 0, 0, 0, 0⟩
/-- The run goes on past the element it loaded. -/
def Group.aeNext (g : Group) (r : AeRun) : Group :=
  if r.stream + 1 < r.streams.length then { g with ae := some { r with stream := r.stream + 1 } }
  else match nextIndex r.counts r.index with
    | some i => { g with ae := some { r with index := i, stream := 0 } }
    | none => g.pushPartials r
/-- AE_ELEMENT_LOAD: one element of a group's run. -/
def execAeElementLoad (u gid : Nat) (s : State) : Host.Outcome State Fault Refusal :=
  match s.group? u gid with
  | none => .next s
  | some g =>
    match g.ae with
    | none => .next s
    | some r =>
      match r.streams[r.stream]? with
      | none => .next s
      | some st =>
        if (g.oq.getD st.queue []).length ≥ 16 ∨ s.needOver u r.need = false then .next s
        else
          let e := r.addr st
          let put (s : State) (x : OqElem) : Host.Outcome State Fault Refusal :=
            let y := g.addElem r st.queue x
            .next (s.modGroup u gid (fun _ => y.1.aeNext y.2))
          match s.locGlobal (clusterOf u) g.ctx e st.size .load with
          | .error f => put s ⟨0, f.1, f.2.1, f.2.2, 0⟩
          | .ok [p] =>
            if p.dest != .l1 && !s.readable u false p.dest p.ha p.n then .next s
            else
              let miss := p.dest == .l1 && !s.l1Valid u p.ha p.n
              let s := if miss then s.fetchLine u p.ha else s
              put s (s.aeElem u e st.size miss p)
          | .ok _ => .next s

/-- TILE_INTERLOCK_RELEASE: paths that wait for entries on a tile go on when none is left (R223). -/
def execTileInterlockRelease (u slot : Nat) (s : State) : Host.Outcome State Fault Refusal :=
  let open_ (ids : List Nat) : Bool := ((s.core u).queues.getD 0 []).any (fun e => ids.contains e.id)
  .next (s.retryWait u slot (fun p => match p.wait with | .tile ids => !open_ ids | _ => false))

end Sys2Proof.Machine
end

