-- ==== Sys2Proof/Machine/Issue.lean ====
section
/-! DEFINITION. The steps of a core: choosing and starting an issue group (R37 to R42, R45, R70 to R77, R82, R85, R87, R280, R290,
R442), piece boundaries and snapshots (R283, R286, R287), instruction fetch (R37, R63), deliveries, timers, halts, and the ends of
waits that only make an instruction issue again. -/
namespace Sys2Proof.Machine

/-! The words of a line, and the registers they name. -/

/-- The first slot of a group and the words of its members, in a line. -/
def lineWords (bs : List Byte) (first last : Nat) : List Slot :=
  ((List.range 5).filter (fun i => decide (first ≤ i ∧ i ≤ last))).map (fun i => BitVec.ofNat 96 (natOfBytes ((bs.drop (4 + 12 * i)).take 12)))
def lineLast (bs : List Byte) (slot : Nat) : Nat := groupLast (bitsAt (lineWord bs) 5 4) slot
/-- Registers that a word's count names beyond its operands' spans (TTOV, VTOT). -/
def regReach (id : Nat) (w : Slot) : List Nat :=
  match parse id (Raw.ofSlot w) with
  | some (_, .ttov _ n _ _ (.v d) _) => (List.range (n.val + 1)).map (fun j => d.val + j)
  | some (_, .vtot _ n _ _ _ (.v a)) => (List.range (n.val + 1)).map (fun j => a.val + j)
  | _ => []
/-- The stored keys of the register numbered n, for the threads ts. -/
def numKeys (cox : Bool) (ts : List Nat) (n : Nat) : List Nat :=
  if cox then (if n < 64 then [n] else [])
  else if n < 224 then ts.map (fun t => 32 * n + t) else if n < 248 then [crewKey (n - 224)] else []
/-- The stored keys of registers that a word names, for the threads of a mask; the map operations and LOGCMT read all 32 threads (R199, R211). -/
def wordKeys (x : Ctx) (cox : Bool) (mask : Nat) (w : Slot) : List Nat :=
  let id := x.opOf w
  let ts := if (0x200 ≤ id ∧ id ≤ 0x203) ∨ id = 0x205 then List.range 32 else bitsOf 32 mask
  (regNums id w (fun _ => true) ++ regReach id w).flatMap (numKeys cox ts)

/-! When a wait is over. -/

/-- A store event that an instruction waits for: an even number until it has entered, an odd one until it is at its homes. -/
def State.eventOver (s : State) (u q : Nat) : Bool :=
  match s.event? u (q / 2) with | none => true | some e => q % 2 == 0 && e.inView
/-- An agent's instruction may issue again; `ks` are the sculls that take part. -/
def State.waitOver (s : State) (u : Nat) (who : Who) (gid : Nat) (w : Crew) (ks : List Nat) : Wait → Bool
  | .none => true
  | .flags m => !flagsHeld w ks m
  | .fetch key => ((s.core u).icache.find? key).isSome
  | .regs keys => !((s.core u).pendingKeys who).any keys.contains
  | .ops _ loads seqs entries atoms =>
    loads.all (fun i => ((s.core u).loads.find? i).isNone) && seqs.all (s.eventOver u) &&
    !(s.core u).queues.any (fun q => q.any (fun e => entries.contains e.id)) && atoms.all (fun i => ((s.core u).atoms.find? i).isNone)
  | .full f => ks.all (fun k => decide ((w.scull k).cf.getD f 0 < 63))
  | .stall => !(s.origin u).stalls
  | .blade => (match (s.core u).blade with | none => true | some g => g == gid)
  | .read => true
  | _ => false
/-- The words of the group at a PC, when its line is held, and the WAIT mask of the line. -/
def State.groupAt (s : State) (u ctx pc : Nat) : Option (List Slot × Nat) :=
  ((s.core u).icache.find? (lineKey ctx pc)).map (fun bs => (lineWords bs (slotOf pc) (lineLast bs (slotOf pc)), bitsAt (lineWord bs) 9 12))
/-- What a path of scull k waits for before its group can issue: a wait of its own, a clause flag of the line it enters, or a register
with a pending write (R45, R74). While the crew replays, waits pass at once (R288). -/
def State.pathWait (s : State) (u slot : Nat) (w : Crew) (ks : List Nat) (k : Nat) (p : Path) : Wait :=
  if p.isOver then .none
  else if w.replay.isSome then
    (match p.wait with | .trap => .trap | .regang => .regang | .fetch key => if ((s.core u).icache.find? key).isSome then .none else p.wait | _ => .none)
  else if !s.waitOver u (.crew slot) w.gid w ks p.wait then p.wait
  else
    let ctx := ((s.group? u w.gid).getD Group.blank).ctx
    match s.groupAt u ctx p.pc.toNat with
    | none => .none
    | some (words, mask) =>
      if !p.inLine && flagsHeld w ks mask then .flags mask
      else
        let keys := ((s.core u).pendingKeys (.crew slot)).filter ((words.flatMap (wordKeys (s.ctx ctx) false (p.mask * 2 ^ (4 * k)))).contains)
        if keys.isEmpty then .none else .regs keys
/-- The waits that R74 lists, which keep a path from being chosen in its scull, and the wait for a delivery, whose threads stand at no instruction
(R243). BARA waits as BARW does (R339). -/
def Wait.listed : Wait → Bool
  | .flags _ | .regs _ | .bar _ _ _ _ _ _ | .bara _ _ _ | .regang | .claim _ | .mwait _ _ _ | .sltake _ | .wit _ false | .queue 0 _ | .trap => true
  | _ => false
/-- A path of scull k may be offered an issue: its scull is not stopped (R293), a release for one issue is not under way at another group (R292), no
operation of the crew is about to consume poison (R315), and a piece that is full has ended, with a recording crew's stores (R158, R283). -/
def State.pathOpen (s : State) (u slot : Nat) (w : Crew) (k : Nat) (p : Path) : Bool :=
  !(w.scull k).stopped && !s.poisonAhead u (.crew slot) (fun _ => true) && decide (w.stroke < 2 ^ w.plog) && !s.recStalls u w &&
  (match w.halt with | .stepping js pc => js.contains k && p.pc == pc && p.issued != 0 | _ => true)
/-- A path of scull k is ready (R74): it waits for nothing that R74 lists. -/
def State.pathReady (s : State) (u slot : Nat) (w : Crew) (ks : List Nat) (k : Nat) (p : Path) : Bool :=
  s.pathOpen u slot w k p && !(s.pathWait u slot w ks k p).listed
/-- A path of scull k can issue: it waits for nothing at all. -/
def State.pathCan (s : State) (u slot : Nat) (w : Crew) (ks : List Nat) (k : Nat) (p : Path) : Bool :=
  s.pathOpen u slot w k p && s.pathWait u slot w ks k p == .none

/-! Path resolution (R74). -/

/-- The chosen path (R74, steps 2 and 3): none when no path is ready, else the running path or a stack entry. -/
def Scull.pick (x : Scull) (ready : Path → Bool) : Option (Option Nat) :=
  let rs := x.stack.filter (fun e => ready e.2)
  match rs.find? (fun e => decide (e.2.age ≥ 255)) with
  | some e => some (some e.1)
  | none =>
    let best (b : Option (Option Nat × Nat)) (e : Nat × Path) : Option (Option Nat × Nat) :=
      match b with
      | none => some (some e.1, e.2.pc.toNat)
      | some c => if e.2.pc.toNat < c.2 then some (some e.1, e.2.pc.toNat) else some c
    let start : Option (Option Nat × Nat) := match x.run with | some r => if ready r then some (none, r.pc.toNat) else none | none => none
    (rs.foldl best start).map (·.1)
/-- Take the chosen path and age the ready entries passed over (R74, step 4). -/
def Scull.takePath (x : Scull) (ready : Path → Bool) (c : Option Nat) : Scull :=
  let aged : SMap Path := x.stack.map (fun e => if ready e.2 && some e.1 != c then (e.1, { e.2 with age := min 255 (e.2.age + 1) }) else e)
  match c with
  | none => { x with stack := aged, run := x.run.map (fun r => { r with age := 0 }) }
  | some i =>
    match aged.find? i with
    | none => x
    | some p =>
      let rest := match x.run with | some r => aged.put i { r with age := 0 } | none => aged.drop i
      { x with run := some { p with age := 0 }, stack := rest }
/-- The choice that a replaying crew's log holds for a scull at the current stroke (R288). -/
def Crew.loggedChoice (w : Crew) (k : Nat) : Option DWord :=
  match w.replay with
  | none => none
  | some r => (r.log.find? (fun e => e.1 == w.stroke && e.2.1 == 255 && e.2.2.1 == k)).map (fun e => e.2.2.2)
/-- The path of a scull with a logged PC and mask. -/
def Scull.loggedPath (x : Scull) (c : DWord) : Option (Option Nat) :=
  let is (p : Path) : Bool := p.pc.toNat == c.toNat % 2 ^ 60 && p.mask == c.toNat / 2 ^ 60
  let inStack : Option (Option Nat) := (List.find? (fun (e : Nat × Path) => is e.2) x.stack).map (fun e => some e.1)
  match x.run with
  | some r => if is r then some none else inStack
  | none => inStack
/-- A scull that is offered an issue resolves its paths. -/
def State.resolve (s : State) (u slot : Nat) (w : Crew) (ks : List Nat) (k : Nat) : Scull :=
  let ready := s.pathReady u slot w ks k
  let x := w.merged k
  match (match w.loggedChoice k with | some c => x.loggedPath c | none => none) with
  | some c => x.takePath ready c
  | none => match x.pick ready with | some c => x.takePath ready c | none => x

/-! Candidates (R87). -/

structure Cand where
  slot : Nat
  scull : Option Nat
  deriving DecidableEq, Repr
def Crew.liveSculls (w : Crew) : List Nat := (List.range 8).filter (fun k => !(w.scull k).gone)
def Cand.sculls (c : Cand) (w : Crew) : List Nat := match c.scull with | some k => [k] | none => w.liveSculls
/-- Candidates of a crew: itself, or its sculls once it has parted. A replaying crew's log names the scull that issues; where that one waits at
REGANG, the others come there first (R288). One whose halt is only requested is still a candidate, but issues nothing (R280, R293). -/
def Crew.cands (w : Crew) (slot : Nat) : List Cand :=
  if w.killed || w.exited || w.halt == .halted then []
  else if !w.parted then [⟨slot, none⟩]
  else
    let logged := w.liveSculls.filter (fun k => (w.loggedChoice k).isSome)
    let due := logged.filter (fun k => !(match (w.scull k).run with | some p => p.wait == .regang | none => false))
    (if due.isEmpty then w.liveSculls else due).map (fun k => ⟨slot, some k⟩)
/-- Candidates of a seat, by slot and scull. -/
def State.cands (s : State) (u seat : Nat) : List (Cand × Crew) :=
  ((s.core u).crews.filter (fun p => p.1 / 12 == seat)).flatMap (fun p => (p.2.cands p.1).map (fun c => (c, p.2)))

/-- What becomes of a candidate that is offered an issue: it is not ready; the path chosen waits for something that R74 does not list; its sculls'
PCs no longer agree and it parts (R76); or its paths `ks` with `mask` would issue at a PC. -/
inductive Offer where
  | idle
  | wait (w : Crew)
  | part (w : Crew)
  | go (w : Crew) (ks : List Nat) (pc mask : Nat)
  deriving DecidableEq, Repr
def State.offer (s : State) (u : Nat) (c : Cand) (w : Crew) : Offer :=
  let ks := c.sculls w
  let ready (k : Nat) : Path → Bool := s.pathReady u c.slot w ks k
  let can (k : Nat) : Path → Bool := s.pathCan u c.slot w ks k
  if w.halt == .requested || !ks.any (fun k => (w.scull k).paths.any (ready k)) then .idle
  else
    let w1 := ks.foldl (fun x k => if (w.scull k).paths.any (ready k) then x.setScull k (s.resolve u c.slot w ks k) else x) w
    let runs := ks.filterMap (fun k => (w1.scull k).run.map (fun p => (k, p)))
    match runs.map (·.2) with
    | [] => .idle
    | r :: rs =>
      if !rs.all (fun p => p.pc == r.pc) then .part { w1 with parted := true }
      else if !runs.all (fun x => ready x.1 x.2) then .idle
      else if !runs.all (fun x => can x.1 x.2) then .wait w1
      else .go w1 (ks.filter (fun k => (w1.scull k).run.isSome)) r.pc.toNat
        (ks.foldl (fun m k => match (w1.scull k).run with | some p => m + p.mask * 2 ^ (4 * k) | none => m) 0)

/-! Lanes (R70, R71). -/

/-- Lane cycles of an operation (R70). -/
def laneCycles (id : Nat) : Nat :=
  if id = 0xC3 then 0
  else if [0x80, 0x81, 0x82, 0x83, 0x86, 0x06].contains id then 8
  else if [0x47, 0x48, 0x49, 0x4A, 0x4B, 0x4C].contains id then 16
  else if id = 0x84 ∨ id = 0x85 then 32
  else if id < 0x100 ∨ (0x200 ≤ id ∧ id ≤ 0x203) ∨ [0x280, 0x281, 0x291].contains id then 4
  else 0
/-- Lane cycles of a word: none where its D is a crew register (R71). -/
def Ctx.cycles (x : Ctx) (w : Slot) : Nat :=
  if ((Reg.ofNum (Raw.ofSlot w).d.toNat).getD .vz).isCrew then 0 else laneCycles (x.opOf w)
/-- Lane cycles that shadow lanes recompute (R85): those of the Simple, Double and Iterative classes. -/
def Ctx.shadowed (x : Ctx) (w : Slot) : Nat := if [0x280, 0x281, 0x291].contains (x.opOf w) then 0 else x.cycles w
/-- A lane that carries threads of an issue; a shadowing lane gives way. -/
def laneBusy (l : List Nat) : Bool := match l with | [] => false | h :: _ => h != 1
/-- The lanes that an issue takes: its own scull's in a parted crew, all eight else, also those of exited or parked sculls (R70, R76). -/
def lanesOf (parted : Bool) (ks : List Nat) : List Nat := if parted then ks else List.range 8
/-- The words that a candidate would issue, when its line is held. -/
def State.wordsAt (s : State) (u ctx pc : Nat) : List Slot :=
  match (s.core u).icache.find? (lineKey ctx pc) with
  | some bs => lineWords bs (slotOf pc) (lineLast bs (slotOf pc))
  | none => []
/-- The lanes that an offer needs are free. -/
def State.lanesFree (s : State) (u seat : Nat) (w : Crew) (o : Offer) : Bool :=
  match o with
  | .go _ ks pc _ =>
    let x := s.ctx ((s.group? u w.gid).getD Group.blank).ctx
    let lanes := ((s.core u).seats.getD seat Seat.reset).lanes
    (s.wordsAt u ((s.group? u w.gid).getD Group.blank).ctx pc).all (fun i => x.cycles i == 0) || (lanesOf w.parted ks).all (fun k => !laneBusy (lanes.getD k []))
  | _ => true

/-- The yield of a candidate: none, for a number of cycles still, or until another candidate has issued. -/
def Cand.yield? (c : Cand) (w : Crew) : Option Nat := match c.scull with | some k => (w.scull k).yielded | none => w.yielded
/-- A candidate yields the seat (R442). -/
def State.yields (s : State) (u : Nat) (c : Cand) (w : Crew) : Bool :=
  match c.yield? w with | none => false | some n => n == 0 || decide (n > (s.core u).ccyc)
/-- The first leaf that a resident candidate of the seat waits on (R280): candidates that replay or yield are not counted, nor sculls that a stop
has halted (R246, R442). -/
def State.stallLeaf (s : State) (u seat : Nat) : Nat :=
  ((s.cands u seat).filter (fun p => p.2.replay.isNone && !s.yields u p.1 p.2)).foldl (fun m p =>
    let ks := (p.1.sculls p.2).filter (fun k => !(p.2.scull k).stopped)
    ks.foldl (fun m k => (p.2.scull k).paths.foldl (fun m q => min m (s.pathWait u p.1.slot p.2 ks k q).leaf) m) m) 14
/-- A cycle of a seat in which no group starts. -/
def Seat.idle (x : Seat) (leaf : Nat) : SeatTick where
  lanes := x.lanes.map List.tail
  busy := x.lanes.filterMap List.head?
  free := (x.lanes.filter List.isEmpty).length
  leaf := leaf
/-- The leaves of a lane for the members of a group that starts, beat by beat. -/
def View.laneLeaves (v : View) (x : Ctx) (words : List Slot) (k : Nat) : List Nat :=
  words.flatMap (fun w =>
    let g : Guard := ⟨(Reg.ofNum (Raw.ofSlot w).p.toNat).getD .vz, (Raw.ofSlot w).pn⟩
    (List.range 4).flatMap (fun j => List.replicate (x.cycles w / 4) (if bitAt v.iss.mask (4 * k + j) && v.holds g (4 * k + j) then 0 else 2)))
/-- Some member has an active, unpredicated thread in a scull. -/
def View.laneUseful (v : View) (words : List Slot) (k : Nat) : Bool :=
  words.any (fun w =>
    let g : Guard := ⟨(Reg.ofNum (Raw.ofSlot w).p.toNat).getD .vz, (Raw.ofSlot w).pn⟩
    (List.range 4).any (fun j => bitAt v.iss.mask (4 * k + j) && v.holds g (4 * k + j)))
/-- A cycle of a seat in which a group starts: the lanes that the issue takes, those that shadow it, and the others (R70, R85, R280). -/
def View.startTick (v : View) (x : Ctx) (seat : Seat) (words : List Slot) : SeatTick :=
  let mine := lanesOf v.crew.parted v.iss.parts
  let shadows := if x.shadow && v.iss.beats != 0 then (shadowPairs v.iss.mask).map (·.2) else []
  let lane (k : Nat) : List Nat × Nat :=
    let old := seat.lanes.getD k []
    let own := if mine.contains k then v.laneLeaves x words k else []
    let shadow := shadows.contains k && (mine.contains k || !laneBusy old)
    let new := if shadow then imap (if own.isEmpty then List.replicate v.iss.beats 1 else own) (fun i l => if i < v.iss.beats then 1 else l) else own
    match new with
    | h :: t => (t, h)
    | [] =>
      match old with
      | h :: t => (t, h)
      | [] => ([], if mine.contains k && v.laneUseful words k then 0 else 2)
  let ls := (List.range 8).map lane
  ⟨ls.map (·.1), ls.map (·.2), 0, 14⟩

/-! Checks before a group issues. -/

/-- The least enabled breakpoint that matches a PC for a crew number; none for a cox with FILT set (R289, R290). -/
def breakAt (bs : List DWord) (pc : Nat) (cnum : Option Nat) : Option Nat :=
  (List.range 8).find? (fun n =>
    let b := (bs.getD n 0).toNat
    bitAt b 63 && b % 2 ^ 56 == pc && (!bitAt b 62 || cnum == some (bitsAt b 56 5)))
/-- The line word breaks R38. -/
def lineBad (bs : List Byte) : Bool :=
  let lw := lineWord bs
  bitAt lw 29 || [12, 13, 14].contains (bitsAt lw 21 4) || [12, 13, 14].contains (bitsAt lw 25 4)
/-- Operations that may stand in a group of two or more (R41). -/
def mayPair (id : Nat) : Bool :=
  (parse id (Raw.ofSlot 0)).isSome && (decide (id < 0x100) && id != 0xC3 || [0x100, 0x101, 0x104].contains id || decide (0x140 ≤ id ∧ id ≤ 0x147) || decide (0x180 ≤ id ∧ id ≤ 0x188) ||
  [0x1C0, 0x1C1, 0x1C2, 0x1C3, 0x1C4, 0xC3].contains id)
def isTransfer (id : Nat) : Bool := [0x1C0, 0x1C1, 0x1C2, 0x1C3, 0x1C4, 0xC3].contains id
def isMemOp (id : Nat) : Bool := [0x100, 0x101, 0x104].contains id || decide (0x140 ≤ id ∧ id ≤ 0x147)
def isTileOp (id : Nat) : Bool := decide (0x180 ≤ id ∧ id < 0x1C0)
def regWrites (id : Nat) (w : Slot) : List Nat :=
  regNums id w (·.wr) ++ (match parse id (Raw.ofSlot w) with | some (_, .ttov ..) => regReach id w | _ => [])
def anyCommon (xs ys : List Nat) : Bool := xs.any ys.contains
/-- No two of the lists share a number. -/
def disjointAll : List (List Nat) → Bool
  | [] => true
  | x :: xs => !xs.any (anyCommon x) && disjointAll xs
/-- A group of two or more members breaks R41. -/
def groupBad (x : Ctx) (words : List Slot) : Bool :=
  let ids := words.map x.opOf
  let n := ids.length
  decide (n ≥ 2) && (!ids.all mayPair || (ids.take (n - 1)).any isTransfer || decide ((ids.filter isMemOp).length > 2) ||
    decide ((ids.filter isTileOp).length > 1) || !disjointAll (words.map (fun w => regWrites (x.opOf w) w)))

/-! Starting an issue. -/

/-- The issue of a group by a crew or a cox; its words and line fields are filled in once the line is held. -/
def newIssue (s : State) (u : Nat) (who : Who) (pc mask : Nat) (parts : List Nat) (resume : Wait) : Issue where
  unit := u
  who := who
  pc := BitVec.ofNat 64 pc
  next := BitVec.ofNat 64 (pcAfter pc (slotOf pc))
  parts := parts
  mask := mask
  words := []
  cur := 0
  idx := 0
  nmem := 1
  setA := 15
  setB := 15
  beats := 0
  id := s.free
  resume := resume
  go := none
  stall := none
  group := []
  off := 0
  srcs := none
  fx := Fx.empty
/-- The issue with the words of its line. -/
def Issue.withLine (iss : Issue) (bs : List Byte) : Issue :=
  let first := slotOf iss.pc.toNat
  let last := lineLast bs first
  let words := lineWords bs first last
  { iss with
    next := BitVec.ofNat 64 (pcAfter iss.pc.toNat last)
    words := words
    group := words
    cur := words.headD 0
    nmem := words.length
    setA := bitsAt (lineWord bs) 21 4
    setB := bitsAt (lineWord bs) 25 4 }
/-- Every active thread takes a cause at the group's first slot, and nothing of the group issues. -/
def State.refuse (s : State) (iss : Issue) (cause sub faddr : Nat) : State :=
  s.commit { iss with words := [], idx := 5, go := none, fx := iss.causeFx cause sub faddr 0 }

/-- What stands between a group and its issue: a cause, a wait, or nothing. -/
inductive Ready where
  | cause (cause sub faddr : Nat)
  | wait (w : Wait)
  | enter (w : Wait)
  | ok (bs : List Byte)
  deriving DecidableEq, Repr
/-- The checks of a group at a PC: the PC's form, the line's fetch (R37, R146), the line word (R38) and the first fetch of a
code pointer (R47), WAIT (R45), the group's composition (R41), and pending registers (R45). `held` tells whether WAIT flags stand. -/
def State.readyAt (s : State) (u ctx : Nat) (who : Who) (pc mask : Nat) (inLine first : Bool) (held : Nat → Bool) (replay : Bool) : Ready :=
  let x := s.ctx ctx
  if pc / 2 ^ 56 ≠ 0 then .cause 0x12 0 pc
  else if pcBad pc then .cause 0x03 2 pc
  else match (s.core u).icache.find? (lineKey ctx pc) with
    | none =>
      (match s.xlate (clusterOf u) ctx (lineOf pc) .fetch with
       | .error (c, sub) => .cause c sub (lineOf pc)
       | .ok _ => .wait (.fetch (lineKey ctx pc)))
    | some bs =>
      match (if first then s.badTarget u ctx pc else none) with
      | some c => .cause c.1 c.2 pc
      | none =>
        if !inLine && lineBad bs then .cause 0x02 96 0
        else if !inLine && !replay && held (bitsAt (lineWord bs) 9 12) then .wait (.flags (bitsAt (lineWord bs) 9 12))
        else
          let words := lineWords bs (slotOf pc) (lineLast bs (slotOf pc))
          if groupBad x words then .cause 0x02 98 0
          else
            let cox := match who with | .cox _ => true | .crew _ => false
            let pend := ((s.core u).pendingKeys who).filter ((words.flatMap (wordKeys x cox mask)).contains)
            if pend.isEmpty || replay then .ok bs else .enter (.regs pend)

/-- A thread-wide cause that comes from outside the instruction stream (TIMER, a cox trap): the threads hold it at their PC. -/
def State.asyncPend (s : State) (u slot : Nat) (w : Crew) (ks : List Nat) (mask : Nat) (p : Pend) : State :=
  let ts := bitsOf 32 mask
  let w := { w with
    threads := imap w.threads (fun t x => if ts.contains t then { x with pend := some p } else x)
    sculls := imap w.sculls (fun k x => if ks.contains k then { x with run := x.run.map (fun r => { r with wait := .trap }) } else x) }
  (s.modCrew u slot (fun _ => w)).push (.trapDelivery u slot)
/-- The running paths of the sculls wait, or enter their line. -/
def Crew.setRuns (w : Crew) (ks : List Nat) (f : Path → Path) : Crew :=
  { w with sculls := imap w.sculls (fun k x => if ks.contains k then { x with run := x.run.map f } else x) }

/-- The numbers of the registers that a group reads, where its members only compute, transfer and load (R171). -/
def Ctx.sources (x : Ctx) (words : List Slot) : Option (List Nat) :=
  let plain (id : Nat) : Bool := decide (id ≤ 0x100) || isTransfer id
  if words.all (fun w => plain (x.opOf w)) then some (words.flatMap (fun w => regNums (x.opOf w) w (fun r => !r.wr))) else none
/-- The issue of a group, with the words of its line where the line is held. -/
def State.lineIssue (s : State) (ctx : Nat) (iss : Issue) : Issue :=
  match (s.core iss.unit).icache.find? (lineKey ctx iss.pc.toNat) with
  | some bs => let i := iss.withLine bs; { i with srcs := (s.ctx ctx).sources i.words }
  | none => iss
/-- Start the group of a chosen crew candidate whose paths are resolved in `w`; where the wait of its instruction is over, that ends instead. A
thread for which the group has issued before and waits is at no instruction boundary: nothing is taken before it (R243, R296), but a breakpoint
matches for threads that have come to it since (R290). A trap of the group's cox goes to the threads of its crew 0 that would issue
next, in a first group whose crew numbers begin higher to those of its first crew, and to none once that crew has exited (DESIGN CHOICE, log entry
19: R83 names no threads, and no crew where there is no crew 0). The frame of a TIMER, which no member raises, has no instruction word and names no group
(DESIGN CHOICE, log entry 19: R240 does not say). -/
def State.startCrewIssue (s : State) (u seat slot : Nat) (w : Crew) (ks : List Nat) (pc mask leaf : Nat) : State :=
  let g := (s.group? u w.gid).getD Group.blank
  let x := s.ctx g.ctx
  let runs := ks.filterMap (fun k => (w.scull k).run)
  let resume := match runs with | r :: _ => r.wait | [] => .none
  let begun := runs.any (fun p => p.issued != 0)
  let w0 := { w.setRuns ks (fun p => { p with wait := .none }) with
    entered := true
    yielded := if w.parted then w.yielded else none
    sculls := imap (w.setRuns ks (fun p => { p with wait := .none })).sculls (fun k x => if w.parted && ks.contains k then { x with yielded := none } else x) }
  let s0 := s.modCrew u slot (fun _ => w0)
  let fresh (t : Nat) : Bool := match (w.scull (t / 4)).run with | some p => !bitAt p.issued (t % 4) | none => true
  let hit := match breakAt x.brk pc (some w.cnum) with
    | some n => ((bitsOf 32 mask).filter (fun t => fresh t && !(w.thread t).noMatch)).map (fun t => (⟨t, 0x30, n, 0, false, 0⟩ : Raise))
    | none => []
  let iss := { s.lineIssue g.ctx (newIssue s u (.crew slot) pc mask ks resume) with
    off := maskOf (hit.map (·.t))
    fx := { Fx.empty with raises := hit } }
  let idleTick (n : Nat) (t : State) : State := t.seatAfter u seat (some (((s.core u).seats.getD seat Seat.reset).idle (min leaf n))) 14 none
  let base : Pend := { cause := 0x34, sub := 0, faddr := 0, rpc := BitVec.ofNat 64 pc, pc := BitVec.ofNat 64 pc, instr := 0, issue := s.free, stroke := w.stroke,
                       grp := false, mem := 0, ganged := !w.parted, waited := false, cox := false }
  let coxTrap := if g.cnums.head? == some w.cnum && !begun then (match g.cox with | some c => c.trap | none => none) else none
  if runs.any Path.isOver then idleTick 14 ((s.modCrew u slot (fun _ => w)).endHeld u slot ks)
  else match s.readyAt u g.ctx (.crew slot) pc mask (runs.all (·.inLine)) (!w.entered) (flagsHeld w ks) w.replay.isSome with
  | .wait r => idleTick r.leaf (s.modCrew u slot (fun _ => w.setRuns ks (fun p => { p with wait := r, since := (s.core u).ccyc })))
  | .enter r => idleTick r.leaf (s.modCrew u slot (fun _ => w.setRuns ks (fun p => { p with inLine := true, wait := r, since := (s.core u).ccyc })))
  | ready =>
    if hit.isEmpty && coxTrap.isSome then
      let p : Pend := { coxTrap.getD base with issue := s.free, stroke := w.stroke, ganged := !w.parted }
      idleTick 14 ((s0.modGroup u w.gid (fun g => { g with cox := g.cox.map (fun c => { c with trap := none }) })).asyncPend u slot w0 ks mask p)
    else if hit.isEmpty && w.timer && !begun then idleTick 14 (s0.asyncPend u slot { w0 with timer := false } ks mask base)
    else if hit.length = (bitsOf 32 mask).length ∧ !hit.isEmpty then idleTick 14 (s0.commit { iss with words := [], idx := 5 })
    else
      match ready with
      | .cause c sub fa => idleTick 14 (s0.refuse iss c sub fa)
      | .ok _ =>
        let iss := { iss with beats := iss.words.foldl (fun n i => n + x.shadowed i) 0 }
        let s1 := s.modCrew u slot (fun _ => w0.setRuns ks (fun p => { p with inLine := true }))
        let seatNow := (s.core u).seats.getD seat Seat.reset
        let s2 := { s1 with issue := some iss }
        let go := s2.view.map (fun v => v.startTick x seatNow iss.words)
        { s1 with issue := some { iss with go := go, stall := some (seatNow.idle leaf) } }
      | _ => s0

/-! Reading ahead of a branch. -/

/-- LOAD_EARLY: what a load that thread t of a crew may issue later would read of the 16 bytes around `va` is read now (R171, R270: a branch is no
dependence). Nothing is read early while the crew is halted or replays, behind a witness wait of the thread that loads stand before, or behind poison;
only bytes that a load could bind now are. -/
def execLoadEarly (u slot t va : Nat) (s : State) : Host.Outcome State Fault Refusal :=
  match s.crew? u slot with
  | none => .next s
  | some w =>
    let a := va / 16 * 16
    let l : Load := ⟨.crew slot, 0, false, none, [], [⟨t, a, [], 1, 0⟩], [], ⟨0, 0, false, 0, 0, 0⟩⟩
    if !(w.thread t).live || (w.thread t).pend.isSome || w.halt != .none || w.replay.isSome || a / 2 ^ 56 ≠ 0 ||
        !s.needOver u (s.markedLoads u l) || s.poisonAhead u (.crew slot) (fun _ => true) then .next s
    else match s.xlate (clusterOf u) ((s.core u).groups.get Group.blank w.gid).ctx a .load with
      | .error _ => .next s
      | .ok x =>
        let part (i : Nat) : LPart := ⟨x.ha + i, 1, x.dest, some 0, false, intTag, none, false, none⟩
        let open_ (i : Nat) : Bool := x.dest != .remote && s.partReady u false (part i) && (s.partDead u false (part i)).isNone
        let bytes := ((List.range 16).filter open_).map (fun i => (x.ha + i, s.l1Byte u x.dest (x.ha + i)))
        .next (if bytes.isEmpty then s else s.modCrew u slot (fun w => { w with early := w.early ++ [⟨t, bytes, [], []⟩] }))

/-! A seat's choice. -/

/-- One candidate of a seat with what an offer does. -/
structure Choice where
  cand : Cand
  crew : Crew
  offer : Offer
  free : Bool
  deriving DecidableEq, Repr
/-- A parted scull whose ageing counter is full (R87). -/
def Cand.aged (c : Cand) (w : Crew) : Bool := match c.scull with | some k => decide ((w.scull k).age ≥ 255) | none => false
/-- The candidates of a seat in the order of R87: sculls that have aged, then by slot from the one after the slot that issued last. -/
def orderCands (last : Option Nat) (cs : List (Cand × Crew)) : List (Cand × Crew) :=
  let aged := cs.filter (fun p => p.1.aged p.2)
  let young := cs.filter (fun p => !p.1.aged p.2)
  let later (p : Cand × Crew) : Bool := match last with | some l => decide (p.1.slot > l) | none => true
  aged ++ young.filter later ++ young.filter (fun p => !later p)
/-- Candidates are offered an issue one after the other until one takes it, whether its lanes are free or not (R87); one whose chosen path waits for
something that R74 does not list resolves its paths all the same and passes the offer on (DESIGN CHOICE, log entry 49). -/
def State.offerTo (s : State) (u seat : Nat) : List Cand → State × Option Choice
  | [] => (s, none)
  | c :: cs =>
    match s.crew? u c.slot with
    | none => s.offerTo u seat cs
    | some w =>
      match s.offer u c w with
      | .idle => s.offerTo u seat cs
      | .wait x => (s.modCrew u c.slot (fun _ => x)).offerTo u seat cs
      | o => (s, some ⟨c, w, o, s.lanesFree u seat w o⟩)
/-- A candidate is ready: it would take an offer. -/
def State.candReady (s : State) (u : Nat) (c : Cand) (w : Crew) : Bool := match s.offer u c w with | .idle | .wait _ => false | _ => true
/-- The ready parted sculls that a choice passes over, by slot and scull (R87). -/
def State.passedOver (s : State) (u : Nat) (chosen : Cand) (cs : List (Cand × Crew)) : List (Nat × Nat) :=
  (cs.filter (fun p => p.1 != chosen && s.candReady u p.1 p.2)).filterMap (fun p => p.1.scull.map (fun k => (p.1.slot, k)))
/-- The choice of a seat, with the state in which the candidates before it have had their offer and those passed over have aged: among
candidates that do not yield, else among those that yield until another one issues (R442). -/
def State.choose (s : State) (u seat : Nat) : State × Option Choice :=
  let last := ((s.core u).seats.getD seat Seat.reset).last
  let all := orderCands last (s.cands u seat)
  let awake := all.filter (fun p => !s.yields u p.1 p.2)
  let r := s.offerTo u seat (awake.map (·.1))
  match r.2 with
  | some c =>
    let passed := s.passedOver u c.cand awake
    let t := r.1.modCore u (fun x => { x with crews := x.crews.map (fun p => (p.1, p.2.agedBy p.1 passed)) })
    let o : Offer := match c.offer with
      | .go w ks pc mask => .go (w.agedBy c.cand.slot passed) ks pc mask
      | .part w => .part (w.agedBy c.cand.slot passed)
      | o => o
    (t, some { c with offer := o })
  | none => r.1.offerTo u seat ((all.filter (fun p => p.1.yield? p.2 == some 0)).map (·.1))
/-- A seat's cycle. A chosen candidate whose lanes are busy waits for them, and nothing else starts (R87, R280). -/
def State.seatCycle (s : State) (u seat : Nat) : State :=
  let leaf := s.stallLeaf u seat
  let idle (s : State) (n : Nat) : State := s.seatAfter u seat (some (((s.core u).seats.getD seat Seat.reset).idle n)) 14 none
  match s.choose u seat with
  | (t, none) => idle t leaf
  | (t, some c) =>
    if !c.free then idle t 2
    else match c.offer with
      | .part w => idle (t.modCrew u c.cand.slot (fun _ => w)) leaf
      | .go w ks pc mask => t.startCrewIssue u seat c.cand.slot w ks pc mask leaf
      | _ => idle t leaf

/-! The cox (R82, R83). -/

/-- Cox contexts that may issue, in ascending group number. -/
def State.coxReady (s : State) (u : Nat) : List (Nat × Group × Cox) :=
  (s.core u).groups.filterMap (fun p => match p.2.cox with
    | some x => if !x.stopped && s.waitOver u (.cox p.1) p.1 Crew.blank [] x.wait then some (p.1, p.2, x) else none
    | none => none)
def State.setCoxWait (s : State) (u gid : Nat) (w : Wait) (inLine : Bool) : State :=
  s.modGroup u gid (fun g => { g with cox := g.cox.map (fun x => { x with wait := w, inLine := x.inLine || inLine }) })
/-- Start an issue group of a cox context: the members of a group issue in one turn (DESIGN CHOICE, log entry 19: R82 says one instruction
per cycle and nothing of groups). -/
def State.startCoxIssue (s : State) (u gid : Nat) (g : Group) (c : Cox) : State :=
  let pc := c.pc.toNat
  let iss := newIssue s u (.cox gid) pc 1 [] c.wait
  match (if c.begun then none else breakAt (s.ctx g.ctx).brk pc none) with
  | some n => s.refuse iss 0x30 n 0
  | none =>
    match s.readyAt u g.ctx (.cox gid) pc 1 c.inLine (pc == hdrCoxEntry g.hdr && !c.inLine) (fun _ => false) false with
    | .cause k sub fa => s.refuse iss k sub fa
    | .wait w => s.setCoxWait u gid w false
    | .enter w => s.setCoxWait u gid w true
    | .ok bs => { s.setCoxWait u gid .none true with issue := some (iss.withLine bs) }
/-- The cox's cycle: its contexts in turn. -/
def State.coxCycle (s : State) (u : Nat) : State :=
  let cs := s.coxReady u
  match (match cs.find? (fun p => decide (p.1 > (s.core u).coxLast)) with | some p => some p | none => cs.head?) with
  | none => s
  | some p => (s.modCore u (fun c => { c with coxLast := p.1 })).startCoxIssue u p.1 p.2.1 p.2.2

/-- At the end of every 2^24th cycle the scores of the core and its seats are due to be halved (R308). -/
def State.halvingDue (s : State) (u : Nat) : State :=
  let units := (0, 4 * u) :: (0, 4 * u + 1) :: (0, 4 * u + 2) :: (0, 4 * u + 3) :: [(1, u)]
  { s with
    ras := { s.ras with due := units.foldl (fun d x => insertNat d (2 ^ 20 * x.1 + x.2)) s.ras.due }
    agenda := s.agenda ++ units.map (fun x => .scoreHalving x.1 x.2) }
/-- Debug commands in the order in which they apply: by the number of the commanding crew, those of the mailbox (32) last (R293). -/
def cmdOrder (cmds : List (Nat × Instr)) : List Instr := (List.range 33).flatMap (fun n => (cmds.filter (fun c => c.1 == n)).map (·.2))
/-- A crew's timer is due (R245). -/
def Crew.timerDue (w : Crew) : Bool := w.tcmp != 0 && decide (w.tcmp.toNat ≤ w.ctime.toNat)
/-- The end of a core's cycle: its counter goes on, CTIME of resident crews with it (R197), timers that are reached are due, and the debug
commands of the cycle apply. -/
def State.endCycle (s : State) (u : Nat) : State :=
  let cmds := cmdOrder (s.core u).dbg
  let s := s.modCore u (fun c => { c with
    seatPtr := 4
    ccyc := (c.ccyc + 1) % 2 ^ 64
    crews := c.crews.map (fun p => (p.1, { p.2 with ctime := p.2.ctime + 1 }))
    dbg := [] })
  let due := (s.core u).crews.filter (fun p => p.2.timerDue)
  let s : State := { s with agenda := s.agenda ++ due.map (fun p => .timerExpiry u p.1) ++ cmds }
  if (s.core u).ccyc % 2 ^ 24 = 0 then s.halvingDue u else s
/-- The next turn in a core's cycle: the cox first, so that what it pushes enters a queue before a crew's push of the same cycle (R368). -/
def nextTurn (seat : Nat) : Nat := if seat = 4 then 0 else if seat = 3 then 5 else seat + 1
/-- SEAT_ISSUE: a core's cycle is the turn of its cox (4), of its seats 0 to 3, and its end (5). -/
def execSeatIssue (u seat : Nat) (s : State) : Host.Outcome State Fault Refusal :=
  if seat ≠ (s.core u).seatPtr ∨ 2304 ≤ u then .next s
  else if seat = 5 then .next (s.endCycle u)
  else .next ((if seat = 4 then s.coxCycle u else s.seatCycle u seat).modCore u (fun c => { c with seatPtr := nextTurn seat }))

/-! Piece boundaries (R283, R286, R287). -/

/-- PIECE_BOUNDARY. -/
def execPieceBoundary (u slot : Nat) (s : State) : Host.Outcome State Fault Refusal := .next (s.boundary u slot)

/-! Fetch. -/

/-- Paths of a core's crews that wait for a line, as (slot, threads). -/
def State.fetchers (s : State) (u key : Nat) : List (Nat × List Nat) :=
  let crews := (s.core u).crews.filterMap (fun p =>
    let ts := (List.range 8).flatMap (fun k => ((p.2.scull k).paths.filter (fun q => q.wait == .fetch key)).flatMap (fun q => q.threads k))
    if ts.isEmpty then none else some (p.1, ts))
  let coxes := (s.core u).groups.filterMap (fun p => match p.2.cox with
    | some x => if x.wait == .fetch key then some (s.coxSlot u p.1, [0]) else none
    | none => none)
  crews ++ coxes
/-- A line comes into the instruction cache, which holds 512 (R8): a full one gives up a line first. -/
def Core.holdLine (c : Core) (key : Nat) (bs : List Byte) (victim : Nat) : Core :=
  let kept := if c.icache.length < 512 ∨ (c.icache.find? key).isSome then c.icache
    else match c.icache[victim % c.icache.length]? with | some q => c.icache.drop q.1 | none => c.icache
  { c with icache := kept.put key bs }
/-- Some core has written the dirty bytes of an instruction line home in part, so that a store to it may stand there half done. -/
def State.tornLine (s : State) (n : Nat) : Bool :=
  s.cores.any (fun c => c.2.torn.contains n && c.2.l1.any (fun e => e.1 / 64 == n && !e.2.dirty.isEmpty))
/-- ICACHE_FILL: a line comes into the instruction cache, checked twice at most (R37); `bad1` and `bad2` are errors of the two
copies on their way. A line is read whole before or after a store to it (R63). The refetch of a first bad copy is a correctable error of the core (R302, R308). -/
def execIcacheFill (u line : Nat) (bad1 bad2 : Bool) (s : State) : Host.Outcome State Fault Refusal :=
  let ctx := line / 2 ^ 56
  let va := lineOf (line % 2 ^ 56)
  let key := lineKey ctx va
  match s.xlate (clusterOf u) ctx va .fetch with
  | .error _ => .next s
  | .ok l =>
    if (l.dest == .repl && s.copyLocked (clusterOf u) (l.ha / 128)) || s.tornLine (l.ha / 64) then .next s
    else
      let kill (array home : Nat) : Host.Outcome State Fault Refusal :=
        if (s.origin u).stalls && !(s.fetchers u key).isEmpty then .next s else
        .next ((s.fetchers u key).foldl (fun s p => s.poisonKill u p.1 none p.2 array va home) s)
      let bs := s.readBytes u (codeDest l.dest) l.ha 64
      match s.marked u false (codeDest l.dest) l.ha 64 with
      | some m => kill m.1 m.2
      | none =>
        if (parityBad bs || bad1) && (parityBad bs || bad2) then kill 4 l.ha
        else .next ((if bad1 then s.charge 1 u 1 else s).modCore u (fun c => c.holdLine key bs (Config.icacheVictim s.free)))

/-! Deliveries, timers, halts. -/

/-- Pending threads whose save slot is busy have waited for it (R243). -/
def Crew.markWaited (w : Crew) : Crew :=
  let busy (x : Thread) : Bool := match x.hlvl with | 0 => w.slot0 != 0 | 1 => w.slot1 != 0 | _ => false
  { w with threads := w.threads.map (fun x => if busy x then { x with pend := x.pend.map (fun p => { p with waited := true }) } else x) }
/-- TRAP_DELIVERY (R241, R243, R244): the next delivery of a crew, unless its halt is complete. Its frame, and that of a kill at the
handler's address, wait for the origin (R158). -/
def execTrapDelivery (u slot : Nat) (s : State) : Host.Outcome State Fault Refusal :=
  match s.crew? u slot with
  | none => .next s
  | some w =>
    if w.killed || w.exited || w.halt == .halted || (s.origin u).stallsBy 2 then .next s
    else
      let w := w.markWaited
      let s := s.modCrew u slot (fun _ => w)
      match w.nextDelivery with
      | none => .next s
      | some t =>
        match (w.thread t).pend with
        | none => .next s
        | some p => .next ((s.deliver u slot p (w.sameCause p (w.thread t).hlvl)).push (.trapDelivery u slot))
/-- TIMER_EXPIRY (R245): TIMER becomes pending and CMP is cleared. -/
def execTimerExpiry (u slot : Nat) (s : State) : Host.Outcome State Fault Refusal :=
  match s.crew? u slot with
  | none => .next s
  | some w =>
    if !w.timerDue then .next s
    else .next (s.modCrew u slot (fun w => { w with timer := true, tcmp := 0 }))
/-- HALT_COMPLETE (R244): no register of the crew has a write under way, and no delivery can be made first. The crew's monitors
trigger (R400). -/
def execHaltComplete (u slot : Nat) (s : State) : Host.Outcome State Fault Refusal :=
  match s.crew? u slot with
  | none => .next s
  | some w =>
    let busy := !((s.core u).crewLoads slot).isEmpty || (s.core u).atoms.any (fun a => a.2.who == .crew slot && a.2.op != 9)
    if w.halt == .requested && !busy && w.nextDelivery.isNone then
      .next ((s.modCrew u slot (fun w => { w with halt := .halted })).hitWhere (fun m => m.unit == u && m.slot == slot))
    else .next s

/-! Waits that only make an instruction issue again. -/

/-- The queue that a path or cox context waits on has what it waits for. -/
def State.queueReady (s : State) (u : Nat) (own : Option Crew) : Wait → Bool
  | .queue 0 _ => (match own with | some w => !w.dq.isEmpty | none => false)
  | .queue 1 _ => !(s.core u).evq.isEmpty
  | .queue 6 gid => (match s.group? u gid with | some g => g.ae.isNone | none => true)
  | .queue 7 k => (match s.crew? u k with | some w => decide (w.dq.length < 16) || w.exited | none => true)
  | .queue q gid => (match s.group? u gid with | some g => !(g.oq.getD (q - 2) []).isEmpty | none => true)
  | _ => false
/-- QUEUE_WAIT_RESUME (R84, R191, R193): `slot` is a crew slot, or 48 plus the number of a cox context's group. -/
def execQueueWaitResume (u slot : Nat) (s : State) : Host.Outcome State Fault Refusal :=
  if slot < 48 then .next (s.retryWait u slot (fun p => s.queueReady u (s.crew? u slot) p.wait))
  else .next (s.modGroup u (slot - 48) (fun g => { g with cox := g.cox.map (fun x => if s.queueReady u none x.wait then { x with wait := .none } else x) }))
/-- WITNESS_WAIT_RESUME (R166, R167). -/
def execWitnessWaitResume (u slot : Nat) (s : State) : Host.Outcome State Fault Refusal :=
  .next (s.retryWait u slot (fun p => match p.wait with | .wit ws _ => ws.all (fun x => s.satisfied x.1 x.2) | _ => false))

end Sys2Proof.Machine
end

