-- ==== Sys2Proof/Machine/Debug.lean ====
section
/-! DEFINITION. Debug commands (R244, R287, R288, R292, R293, R296) and stop reports (R295). The commanding agent of a command is
a crew (`cu` below 2304), or the mailbox of U0. -/
namespace Sys2Proof.Machine

/-- What a debug command answers goes to DBGDATA of the commanding crew, or into the reply of the mailbox command (R292, R320). -/
def State.setDbgData (s : State) (cu cslot : Nat) (x : DWord) : State :=
  if cu < 2304 then s.modCrew cu cslot (fun w => { w with dbgdata := x })
  else { s with iod := { s.iod with cmd := s.iod.cmd.map (fun c => { c with reply := setNth (setNth c.reply 1 (loWord x)) 2 (hiWord x) }) } }

/-- The command is over: the MOVC that gave it ends (R293). -/
def State.cmdDone (s : State) (cu cslot : Nat) : State :=
  if cu < 2304 then s.endWait cu cslot (fun _ p => p.wait == .command) (fun _ _ => []) else s
/-- The command no longer applies: its MOVC issues again and traps, or the mailbox answers error 10 (R292, R321). -/
def State.cmdRefused (s : State) (cu cslot : Nat) : State :=
  if cu < 2304 then s.retryWait cu cslot (fun p => p.wait == .command)
  else { s with iod := { s.iod with cmd := s.iod.cmd.map (fun c => if c.code = 8 then { c with reply := [10] } else c) } }
/-- A command applies to its target as that stands now (R292, R293). -/
def State.command (s : State) (u slot cu cslot cmd reg : Nat) (data : DWord) (f : Crew → State) : Host.Outcome State Fault Refusal :=
  match s.crew? u slot with
  | none => .next (s.cmdRefused cu cslot)
  | some w =>
    if w.exited || w.killed || (w.dbgRefused cmd reg data).isSome then .next (s.cmdRefused cu cslot) else .next ((f w).cmdDone cu cslot)

def execDbgNone (_u _slot _cu _cslot : Nat) (s : State) : Host.Outcome State Fault Refusal := .next s
/-- DBG_HALT_REQUEST: the target takes no further issue, and halts once R244 allows it. -/
def execDbgHaltRequest (u slot cu cslot : Nat) (s : State) : Host.Outcome State Fault Refusal :=
  s.command u slot cu cslot 1 0 0 (fun _ =>
    (s.modCrew u slot (fun w => if w.halt = .halted then w else { w with halt := .requested })).push (.haltComplete u slot))

/-- At its live point a crew is as it was when its replay began (R288). -/
def Crew.goLive (w : Crew) (r : Replay) : Crew :=
  { w with
    replay := none
    sculls := imap w.sculls (fun k x => { x with cf := r.cf.getD k x.cf })
    threads := imap w.threads (fun t x => { x with bara := r.bara.getD t x.bara }) }
/-- A replaying crew that is released goes live at its live point, and else replays on as far as that point (R288). -/
def Crew.resume (w : Crew) : Crew :=
  match w.replay with
  | none => w
  | some r =>
    if w.piece = r.livePiece ∧ w.stroke = r.liveStroke then w.goLive r
    else { w with replay := some { r with toPiece := r.livePiece, toStroke := r.liveStroke } }
/-- The resume PCs of threads that a stop in the system context held (R246). -/
def Crew.resumes (w : Crew) (ts : List Nat) : List DWord := (ts.filterMap (fun t => if (w.thread t).pend.isNone then (w.thread t).resume else none)).eraseDups
/-- The parts into which a path that such a stop held falls: its threads go on at their resume PCs, those that still hold a cause stay. -/
def Crew.freed (w : Crew) (k : Nat) (p : Path) : List Path :=
  let ts := p.threads k
  if p.wait != .trap then [p]
  else
    let goes (pc : DWord) : List Nat := ts.filter (fun t => (w.thread t).pend.isNone && (w.thread t).resume == some pc)
    let stay := ts.filter (fun t => (w.thread t).pend.isSome || (w.thread t).resume.isNone)
    (w.resumes ts).map (fun pc => { p.goTo pc.toNat p.fmtr (scullMask k (goes pc)) true with issued := 0 }) ++
      (if stay.isEmpty then [] else [{ p with mask := scullMask k stay, issued := 0 }])
/-- A scull whose paths fall into parts: the first part of each takes its place, the others are stacked. -/
def Scull.refit (x : Scull) (f : Path → List Path) : Scull :=
  let y := x.mapPaths (fun p => (f p).headD p)
  (x.paths.flatMap (fun p => (f p).drop 1)).foldl Scull.pushPath y
/-- Sculls and paths stopped by a system-context trap go on, at the resume PC of their frame (R235, R246; DESIGN CHOICE, log entry 52), and their
save slots are free. -/
def Crew.unstop (w : Crew) : Crew :=
  let held := (List.range 32).filter (fun t => (w.thread t).resume.isSome)
  { w with
    slot0 := w.slot0 - (w.slot0 &&& maskOf held)
    slot1 := w.slot1 - (w.slot1 &&& maskOf held)
    threads := w.threads.map (fun x => { x with resume := none })
    sculls := imap w.sculls (fun k x => ({ x with stopped := false } : Scull).refit (w.freed k)) }
/-- A crew is let go, for good or for one issue. Deliveries that its halt held back follow, and waits that ended during it (R244, R408). -/
def State.letGo (s : State) (u slot : Nat) (h : Halt) : State :=
  let s := s.modCrew u slot (fun w => { w.resume.unstop with halt := h })
  let s := if h = .none && !(match s.crew? u slot with | some w => s.recStalls u w | none => false) then s.endHeld u slot (List.range 8) else s
  { s with agenda := s.agenda ++ [.trapDelivery u slot, .mwaitTimeout u slot] }
def execDbgRelease (u slot cu cslot : Nat) (s : State) : Host.Outcome State Fault Refusal :=
  s.command u slot cu cslot 2 0 0 (fun _ => s.letGo u slot .none)
def execDbgStep (u slot cu cslot : Nat) (s : State) : Host.Outcome State Fault Refusal :=
  s.command u slot cu cslot 3 0 0 (fun _ => s.letGo u slot .step)

/-- DBG_READ_REGISTER: zero-extended. -/
def execDbgReadRegister (u slot cu cslot reg thr : Nat) (s : State) : Host.Outcome State Fault Refusal :=
  s.command u slot cu cslot 4 reg 0 (fun w => s.setDbgData cu cslot ((w.get (32 * reg + thr)).1.zeroExtend 64))
def execDbgWriteRegister (u slot cu cslot reg thr : Nat) (data : Word) (s : State) : Host.Outcome State Fault Refusal :=
  s.command u slot cu cslot 5 reg 0 (fun _ => s.modCrew u slot (fun w => w.set (32 * reg + thr) data intTag))
/-- DBG_READ_PC: the running PC of a scull with its mask; zero when it has no running path. -/
def execDbgReadPc (u slot cu cslot thr : Nat) (s : State) : Host.Outcome State Fault Refusal :=
  s.command u slot cu cslot 6 0 0 (fun w =>
    s.setDbgData cu cslot (match (w.scull (thr / 4)).run with | some p => BitVec.ofNat 64 (p.mask * 2 ^ 60 + p.pc.toNat) | none => 0))

/-! Replay (R287, R288). -/

/-- Bytes of an image as a number. -/
def imageNum (bs : List Byte) (at_ n : Nat) : Nat := natOfBytes ((bs.drop at_).take n)
/-- An FMTR copy of an image; what an image holds in reserved bits of a register reads as zero (R5). -/
def fmtrOf (x : Nat) : Word := BitVec.ofNat 32 x &&& 0x8000FE0F#32
/-- A stack entry in the layout of R72; none when it is free. -/
def pathOfImage (x : Nat) : Option Path :=
  if bitsAt x 84 4 = 0 then none else some ⟨BitVec.ofNat 64 x, bitsAt x 84 4, fmtrOf (x / 2 ^ 96), bitsAt x 88 8, false, .none, 0, 0⟩
/-- The 16-byte block of a thread. -/
def imageThread (k j : Nat) (bs : List Byte) : Nat := imageNum bs (0x100 + 512 * k + 0x140 + 16 * j) 16
/-- A scull of an image: threads with a cause that waits for its delivery hold their path. -/
def scullOfImage (k : Nat) (bs : List Byte) : Scull :=
  let b := 0x100 + 512 * k
  let n := imageNum bs (b + 0x108) 8
  let held := maskOf ((List.range 4).filter (fun j => imageThread k j bs % 256 ≠ 0))
  let hold (p : Path) : Path := if p.mask &&& held ≠ 0 then { p with wait := .trap } else p
  let run : Path := ⟨BitVec.ofNat 64 (imageNum bs (b + 0x100) 8), bitsAt n 32 4, fmtrOf n, 0, false, .none, 0, 0⟩
  { Scull.fresh with
    run := if run.mask = 0 then none else some (hold run)
    stack := (List.range 16).filterMap (fun i => (pathOfImage (imageNum bs (b + 16 * i) 16)).map (fun p => (i, hold p)))
    cf := (List.range 12).map (fun f => imageNum bs (b + 0x118 + f) 1 % 64)
    fstat := BitVec.ofNat 7 (bitsAt n 48 7)
    losspc := BitVec.ofNat 64 (imageNum bs (b + 0x110) 8 % 2 ^ 56)
    pkmask := bitsAt n 36 4
    age := bitsAt n 40 8 }
/-- The latest phase of a barrier, not after `now`, that is `m` modulo 128. -/
def phaseOf (now m : Nat) : Nat := now - (now + 128 - m) % 128
/-- The BARA arrivals of an image, one for each level whose byte shows one. -/
def Crew.baraOfImage (w : Crew) (g : Group) (bs : List Byte) : List (Nat × Nat) :=
  (List.range 7).filterMap (fun j =>
    let x := imageNum bs (0xC8 + j) 1
    let b := hdrBound g.hdr j
    if x % 2 = 1 then some (b, phaseOf (g.barrier b (g.firstWid w / 2 ^ b)).phase (x / 2)) else none)
/-- Causes that resume at the next PC (R235). -/
def resumesNext (cause sub : Nat) : Bool := [0x20, 0x28, 0x32, 0x33].contains cause || (cause == 0x30 && sub == 8)
/-- A thread of an image; a pending cause keeps what the image holds of it, and resumes at `next` of its path's PC where R235 says so, which for
STEP is the sequential PC. The rest of its frame, which the image does not hold, is zero, PEND set, and its issue that of every other pending cause
of the image (DESIGN CHOICE, log entry 16). -/
def threadOfImage (t : Nat) (x : Scull) (bara : List (Nat × Nat)) (next : DWord → DWord) (bs : List Byte) : Thread :=
  let n := imageThread (t / 4) (t % 4) bs
  let live := bitAt n 10 || bitAt x.pkmask (t % 4)
  let pc : DWord := match pathOfThread x (t % 4) with | some p => p.pc | none => 0
  { Thread.fresh with
    live := live
    hlvl := bitsAt n 8 2
    bara := if live then bara else []
    pend := if n % 256 = 0 then none
      else some ⟨n % 256, bitsAt n 32 32, bitsAt n 64 64, if resumesNext (n % 256) (bitsAt n 32 32) then next pc else pc, pc, 0, 0, 0, false, 0, true, true, false⟩ }
/-- The crew with the image of R287 restored. A pending TIMER, the abandoned mark, the decision queue and a yield, which it does not hold,
are gone (R248), and waits pass (R288). -/
def Crew.ofImage (w : Crew) (g : Group) (next : DWord → DWord) (bs : List Byte) : Crew :=
  let n (a k : Nat) : Nat := imageNum bs a k
  let rc := n 4 1
  let regs : List (Nat × (Word × Tag)) :=
    (List.range 24).map (fun i => (crewKey i, (BitVec.ofNat 32 (n (0x50 + 4 * i) 4), BitVec.ofNat 8 (n (0xB0 + i) 1)))) ++
    (List.range (32 * rc)).map (fun i => (i, (BitVec.ofNat 32 (n (0x1100 + 4 * i) 4), BitVec.ofNat 8 (n (0x1100 + 128 * rc + i) 1))))
  let sculls := (List.range 8).map (fun k => scullOfImage k bs)
  let threads := (List.range 32).map (fun t => threadOfImage t (sculls.getD (t / 4) Scull.fresh) (w.baraOfImage g bs) next bs)
  let level (h : Nat) : Nat := maskOf ((List.range 32).filter (fun t => decide (h ≤ (threads.getD t Thread.fresh).hlvl)))
  let w1 : Crew := { w with
    regs := regs.foldl (fun m r => m.set regDefault r.1 r.2) []
    count := rc
    piece := n 8 4
    stroke := 0
    fmtr := fmtrOf (n 0x10 4)
    sigfloor := BitVec.ofNat 32 (n 0x14 4) &&& 0x3F1F0F00#32
    logctl := BitVec.ofNat 32 (n 0x18 4)
    enm := bitAt (n 0x1C 1) 0
    cert := bitAt (n 0x1C 1) 1
    slot0 := if bitAt (n 0x1C 1) 2 then level 1 else 0
    slot1 := if bitAt (n 0x1C 1) 3 then level 2 else 0
    tbase := BitVec.ofNat 64 (n 0x20 8 % 2 ^ 56)
    tcmp := BitVec.ofNat 64 (n 0x28 8)
    ctime := BitVec.ofNat 64 (n 0x30 8)
    dbgctl := BitVec.ofNat 32 (n 0x38 4) &&& 0x0000FF80#32
    dbgsel := BitVec.ofNat 32 (n 0x3C 4) &&& 0xFF1F001F#32
    recbase := BitVec.ofNat 64 (n 0x40 8 % 2 ^ 56)
    dbgdata := BitVec.ofNat 64 (n 0x48 8)
    plog := bitsAt (n 0x38 4) 11 5
    parted := false
    timer := false
    abandoned := false
    dq := []
    early := []
    entered := true
    yielded := none
    sculls := sculls
    threads := threads }
  w1.checkPart
/-- The entries of a log (R286) as (stroke, register, thread, value). -/
def logEntries : Nat → List Byte → List (Nat × Nat × Nat × DWord)
  | 0, _ => []
  | n + 1, bs =>
    let x := natOfBytes (bs.take 16)
    (bitsAt x 40 24, bitsAt x 32 8, bitsAt x 27 5, BitVec.ofNat 64 (x / 2 ^ 64)) :: logEntries n (bs.drop 16)
/-- The PC after the issue group at a PC, by the line that a core would fetch; the slot's own where it cannot be read. -/
def State.nextPc (s : State) (u ctx : Nat) (pc : DWord) : DWord :=
  BitVec.ofNat 64 (pcAfter pc.toNat (match s.codeLine u ctx (lineOf pc.toNat) with
    | .ok bs => groupLast (bitsAt (lineWord bs) 5 4) (slotOf pc.toNat)
    | .error _ => slotOf pc.toNat))
/-- DBG_REPLAY: the crew's image comes from the piece's snapshot as it stands in memory, and the crew re-executes to the position,
taking logged values and choices from the log. A recording that cannot be read any more leaves the crew halted with no complete log. -/
def execDbgReplay (u slot cu cslot : Nat) (pos : DWord) (s : State) : Host.Outcome State Fault Refusal :=
  s.command u slot cu cslot 7 0 pos (fun w =>
    let g := s.groupOf u slot
    match s.fetchVa (clusterOf u) g.ctx (recBase w) w.recPos with
    | none => s.modCrew u slot (fun w => { w with recOk := false })
    | some bs =>
      let size := imageNum bs 0 4
      let live := w.livePoint
      let r : Replay := ⟨live.1, live.2, bitsAt pos.toNat 24 32, bitsAt pos.toNat 0 24, logEntries ((w.recPos - size) / 16) (bs.drop size),
        match w.replay with | some x => x.cf | none => w.sculls.map (·.cf), match w.replay with | some x => x.bara | none => w.threads.map (·.bara)⟩
      let s := s.modCrew u slot (fun w => ({ w.ofImage g (s.nextPc u g.ctx) bs with replay := some r, halt := .none }).replayStop)
      s.hitWhere (fun m => m.unit == u && m.slot == slot))

/-- DMB63_ACK: a host write of zero to DMB63 takes the report, and the next one is posted (R295). -/
def State.ackReport (s : State) : State := ({ s with iod := { s.iod with dmb := setNth s.iod.dmb 63 0 } } : State).postReport
def execDmb63Ack (s : State) : Host.Outcome State Fault Refusal := .next s.ackReport

end Sys2Proof.Machine
end

