-- ==== Sys2Proof/Machine/Enum.lean ====
section
/-! DEFINITION. Enumeration mode, maps and tentative logs (R198 to R212). -/
namespace Sys2Proof.Machine

/-! Fields of header slot A (R204). -/

def hdrCountOf (a : Nat) : Nat := bitsAt a 0 16
def hdrLinked (a : Nat) : Bool := bitAt a 16
def hdrLeader (a : Nat) : Nat := bitsAt a 17 5
def hdrFcause (a : Nat) : Nat := bitsAt a 24 8
def hdrLidx (a : Nat) : Nat := bitsAt a 32 16
def hdrCdone (a : Nat) : Nat := bitsAt a 48 16

/-- A map word (R198). -/
def mapWord (leader : Nat) (fol miss valid : Bool) (exit_ entry_ : Nat) : Word :=
  let b (x : Bool) (n : Nat) : Nat := if x then 2 ^ n else 0
  BitVec.ofNat 32 (leader * 2 ^ 27 + b fol 26 + b miss 25 + b valid 24 + exit_ * 2 ^ 12 + entry_)
def mapValid (m : Word) : Bool := bitAt m.toNat 24
def mapMiss (m : Word) : Bool := bitAt m.toNat 25
def mapExit (m : Word) : Nat := bitsAt m.toNat 12 12
def mapEntry (m : Word) : Nat := bitsAt m.toNat 0 12
/-- Threads that have not exited (R199). -/
def View.present (v : View) : List Nat := (List.range 32).filter (fun t => (v.crew.thread t).live)
/-- The lowest thread whose map word is valid and has the entry state. -/
def View.mapFind (v : View) (b : Reg) (st : Nat) : Option Nat := v.present.find? (fun j => mapValid (v.val j b) && mapEntry (v.val j b) == st)

/-- The lowest offset of the log region outside the group's grant (R203). -/
def View.logRegionBad (v : View) : Option Nat :=
  let lo := 4096 * hdrVbase v.grp.hdr
  let hi := lo + 4096 * hdrVlen v.grp.hdr
  let a := logBlock v.crew 0
  let n := 512 * (logNent v.crew + 2)
  if hdrVlen v.grp.hdr = 0 ∨ a < lo ∨ a ≥ hi then some a else if a + n > hi then some hi else none

/-- The lowest of some vault offsets that lies in a retired vault (R312). -/
def View.lost (v : View) (s : State) (offs : List Nat) : Option Nat :=
  (offs.filter (fun e => decide (e < 0x6000000) && (s.cluster v.cluster).retiredVaults.contains (e / 0x200000))).min?
/-- The header slots of some threads' log blocks. -/
def View.headers (v : View) (ts : List Nat) : List Nat := ts.flatMap (fun t => [logBlock v.crew t, logBlock v.crew t + 16])
/-- An instruction that reaches log headers in a retired vault takes VAULT_RANGE in every active thread (R312). -/
def onHeaders (v : View) (s : State) (ts : List Nat) (k : Host.Outcome State Fault Refusal) : Host.Outcome State Fault Refusal :=
  match (if v.crew.replay.isSome then none else v.lost s (v.headers ts)) with
  | some off => emit s (raiseAll v v.active 0x15 3 off)
  | none => k
/-- Every parked thread goes on after the releasing instruction (R200). Where one scull of a parted crew releases threads of a scull whose running
path stands at another PC, R200's "PC after the releasing group" and "they join that path" part: they make a path of their own at that PC with the
FMTR copy of the running path (DESIGN CHOICE, log entry 56). -/
def State.release (s : State) (u slot : Nat) (next : DWord) (fmtr : Word) : State :=
  s.modCrew u slot (fun w =>
    { w with sculls := w.sculls.map (fun (x : Scull) =>
        if x.pkmask = 0 then x
        else
          let y : Scull := { x with pkmask := 0 }
          let p : Path := { pc := next, mask := x.pkmask, fmtr := fmtr, age := 0, inLine := false, wait := .none, issued := 0, since := 0 }
          match x.run with
          | none => { y with run := some p }
          | some r => if r.pc = next then { y with run := some { r with mask := r.mask ||| x.pkmask } } else y.join { p with fmtr := r.fmtr }) }.checkPart)
/-- End a releasing instruction: its effects, then the release. -/
def emitRelease (v : View) (s : State) (fx : Fx) : Host.Outcome State Fault Refusal :=
  match emit s fx with
  | .next t => .next (t.release v.iss.unit v.slot v.iss.next (v.fmtr (v.active.headD 0)))
  | r => r
/-- Instructions that need enumeration mode (R201). -/
def whileEnm (v : View) (s : State) (acting : List Nat) (k : Host.Outcome State Fault Refusal) : Host.Outcome State Fault Refusal :=
  if v.crew.enm || acting.isEmpty then k else emit s (raiseAll v acting 0x02 97 0)

/-- ENUM (R206). -/
def execEnum (cert list : Bool) (d a : Reg) (b : Src) (s : State) : Host.Outcome State Fault Refusal :=
  withView s (fun v =>
    if v.crew.enm then emit s (raiseAll v v.active 0x02 97 0)
    else match v.logRegionBad with
      | some off => emit s (raiseAll v v.active 0x15 1 off)
      | none => onHeaders v s v.present (
        let entry_ (t : Nat) : Option Nat :=
          if list then (let x := (v.val t a).toNat; if bitAt x 15 then none else some (bitsAt x 0 12))
          else
            let n := min (v.src t b).1.toNat 32
            let st := (v.val t a).toNat + t
            if t < n ∧ st ≤ 4095 then some st else none
        let word (t : Nat) : Word := match entry_ t with | some st => mapWord t false false true st st | none => mapWord t false false false 0 0
        let s := if v.crew.replay.isSome then s
          else v.present.foldl (fun s t => (s.setLogSlot v.cluster v.crew t 0 0).setLogSlot v.cluster v.crew t 1 0) s
        emit (s.modCrew v.iss.unit v.slot (fun w => { w with enm := true, cert := cert }))
          { Fx.empty with
            wr := v.present.flatMap (fun t => v.w1 t d (word t) intTag)
            parks := v.present.filter (fun t => (entry_ t).isNone) }))

/-- Follow the links of thread t's run to its leader (R207): leaders have lower numbers, so 32 links suffice. -/
def State.runLeader (s : State) (v : View) : Nat → Nat → Nat
  | 0, t => t
  | n + 1, t => let h := s.logSlot v.cluster v.crew t 0; if hdrLinked h then s.runLeader v n (hdrLeader h) else t
/-- SMERGE (R207). -/
def execSmerge (join : Bool) (d a b : Reg) (s : State) : Host.Outcome State Fault Refusal :=
  withView s (fun v => whileEnm v s v.active (onHeaders v s v.present (
    let hdr (t : Nat) : Nat := s.logSlot v.cluster v.crew t 0
    if join then
      let word (t : Nat) : Word :=
        let r := s.runLeader v 32 t
        let m := setBits (v.val t b).toNat 12 12 (v.val r a).toNat
        let m := if r ≠ t then setBits (setBits m 26 1 1) 27 5 r else m
        BitVec.ofNat 32 (if hdrFcause (hdr r) ≠ 0 ∨ hdrFcause (hdr t) ≠ 0 then setBits m 24 1 0 else m)
      emitRelease v s { Fx.empty with wr := v.present.flatMap (fun t => v.w1 t d (word t) intTag) }
    else
      let st (t : Nat) : Nat := bitsAt (v.val t a).toNat 0 12
      let lead (t : Nat) : Nat := (v.active.find? (fun u => st u == st t)).getD t
      let word (t : Nat) : Word :=
        let m := setBits (v.val t b).toNat 12 12 (st t)
        BitVec.ofNat 32 (if lead t ≠ t then setBits (setBits m 26 1 1) 27 5 (lead t) else m)
      let fol := v.active.filter (fun t => lead t != t)
      let link (s : State) (t : Nat) : State :=
        s.setLogSlot v.cluster v.crew t 0 (setBits (setBits (setBits (hdr t) 16 1 1) 17 5 (lead t)) 32 16 (hdrCountOf (hdr (lead t))))
      emit (if v.crew.replay.isSome then s else fol.foldl link s)
        { Fx.empty with wr := v.active.flatMap (fun t => v.w1 t d (word t) intTag), parks := fol })))

/-- COMPOSE (R208). -/
def execCompose (d a b : Reg) (s : State) : Host.Outcome State Fault Refusal :=
  withView s (fun v =>
    let word (i : Nat) : Word :=
      let x := v.val i a
      let m (miss : Bool) (ex : Nat) : Word := mapWord i false miss (mapValid x) ex (mapEntry x)
      if !mapValid x || mapMiss x then m (mapMiss x) 0
      else match v.mapFind b (mapExit x) with
        | none => m true 0
        | some j => let y := v.val j b; if mapMiss y then m true 0 else m false (mapExit y)
    emit s { Fx.empty with wr := v.present.flatMap (fun t => v.w1 t d (word t) intTag) })
/-- MAPAT (R209). -/
def execMapat (d a b : Reg) (s : State) : Host.Outcome State Fault Refusal :=
  withView s (fun v =>
    let word (t : Nat) : Word :=
      let st := bitsAt (v.val t a).toNat 0 12
      match v.mapFind b st with
      | some j => let y := v.val j b; mapWord 0 false (mapMiss y) true (mapExit y) st
      | none => mapWord 0 false true true 0 st
    let ts := if d.isCrew then v.active.take 1 else v.present
    emit s { Fx.empty with wr := ts.flatMap (fun t => v.w1 t d (word t) intTag) })

/-! LOGST, LOGCMT and LOGDROP. -/

/-- The target check of a LOGST (R210): a target on another module is checked for form and alignment only. -/
def View.logTarget (v : View) (s : State) (sp : Space) (e n : Nat) : Option AFault :=
  let f (r : Except AFault (List Piece)) : Option AFault := match r with | .error x => some x | .ok _ => none
  match sp with
  | .vault => f (s.locVault v.iss.unit v.grp e n)
  | _ =>
    if e / 2 ^ 56 = 0 ∧ bitsAt e 46 10 ≠ s.modnum then (if e % n ≠ 0 then some (0x13, 0, e) else none)
    else f (s.locGlobal v.cluster v.grp.ctx e n .store)
/-- A log entry of R204. -/
def logEntry (e sp width : Nat) (data : Nat) : Nat := data * 2 ^ 64 + sp * 2 ^ 60 + width * 2 ^ 58 + e % 2 ^ 56
def View.logAppend (v : View) (s : State) (m : MAddr) (d : Reg) (t : Nat) : Except AFault (Nat × Nat) :=
  let e := v.ea t m
  let count := hdrCountOf (s.logSlot v.cluster v.crew t 0)
  match v.logTarget s m.space e m.width.bytes with
  | some f => .error f
  | none =>
    if count ≥ logNent v.crew then .error (0x15, 2, logBlock v.crew t + 32 + 16 * count)
    else match (if v.crew.replay.isSome then none else v.lost s ((logBlock v.crew t + 32 + 16 * count) :: v.headers [t])) with
    | some off => .error (0x15, 3, off)
    | none => .ok (t, logEntry e m.space.code m.width.code (natOfBytes (v.dataBytes t d m.width.bytes)))
def execLogst (m : MAddr) (d : Reg) (s : State) : Host.Outcome State Fault Refusal :=
  withView s (fun v => whileEnm v s (v.acting m.g) (
    let r := gather (v.lanes m.g d) (v.logAppend s m d)
    let add (s : State) (p : Nat × Nat) : State :=
      let h := s.logSlot v.cluster v.crew p.1 0
      (s.setLogSlot v.cluster v.crew p.1 (2 + hdrCountOf h) p.2).setLogSlot v.cluster v.crew p.1 0 (setBits h 0 16 (hdrCountOf h + 1))
    emit (if v.crew.replay.isSome then s else r.ok.foldl add s) { Fx.empty with raises := v.faults d.isCrew (v.acting m.g) r.bad }))

/-- Entry places (thread, index) of a run in replay order (R211). -/
def State.logPlaces (s : State) (v : View) : Nat → Nat → Nat → List (Nat × Nat)
  | 0, _, _ => []
  | n + 1, u, start =>
    let h := s.logSlot v.cluster v.crew u 0
    let own := ((List.range (hdrCountOf h)).drop start).map (fun i => (u, i))
    if hdrLinked h then own ++ s.logPlaces v n (hdrLeader h) (hdrLidx h) else own
/-- How a LOGCMT stands: the entries issued, and why it stopped. -/
inductive LogStop where
  | done | fault (f : AFault) | stall
  deriving DecidableEq, Repr
/-- Check and issue entries as store events of the core, one by one. `last` names the witness pair of the last one. -/
def View.logIssue (v : View) (s : State) (sc : Nat) (d : Reg) : List (Nat × Nat) → Nat → State × Nat × LogStop
  | [], n => (s, n, .done)
  | (u, i) :: rest, n =>
    let x := s.logSlot v.cluster v.crew u (2 + i)
    let spc := bitsAt x 60 2
    let len := 2 ^ bitsAt x 58 2
    let e := bitsAt x 0 56
    match v.lost s [logBlock v.crew u + 32 + 16 * i] with
    | some off => (s, n, .fault (0x15, 3, off))
    | none =>
    if spc % 2 = 1 ∨ bitsAt x 62 2 ≠ 0 ∨ bitsAt x 56 2 ≠ 0 then (s, n, .fault (0x02, 128, 0))
    else match v.access s (v.active.headD 0) 1 (if spc = 2 then .vault else .global) e len .store with
      | .error f => (s, n, .fault f)
      | .ok ps =>
        if (s.origin v.iss.unit).stalls then (s, n, .stall)
        else
          let bytes := ps.flatMap (storeBytes (bytesOf len (bitsAt x 64 64)))
          let req : StoreReq := ⟨sc, if rest.isEmpty && d != .vz then some d else none, storeClass ps,
            (v.active.take 1).map (fun t => (t, 0, bytes)) ++ (v.active.drop 1).map (fun t => (t, 0, []))⟩
          View.logIssue v (s.issueOp (s.opBase v.iss.unit) v.iss.unit v.iss.who v.crew.gid (.store req)) sc d rest (n + 1)
/-- A LOGCMT's fault is taken in every active thread, also in a speculative run. -/
def View.logFail (v : View) (s : State) (f : AFault) : Host.Outcome State Fault Refusal :=
  let cert (b : Bool) (s : State) : State := s.modCrew v.iss.unit v.slot (fun w => { w with cert := b })
  let raises := v.active.map (fun t => raiseAt v t f)
  match emit (cert true s) { Fx.empty with raises := raises, log := faultLog (raises.take 1) } with
  | .next t => .next (cert v.crew.cert t)
  | o => o
/-- LOGCMT (R211). A fault is precise at the LOGCMT and never deferred; a replaying crew takes it from its log (R288). -/
def execLogcmt (sc : Scope) (d a b : Reg) (s : State) : Host.Outcome State Fault Refusal :=
  withView s (fun v => whileEnm v s v.active (
    let u := v.iss.unit
    let off (s : State) : State := s.modCrew u v.slot (fun w => { w with enm := false })
    let null : List RegW := match v.active with | [] => [] | t :: _ => v.w2 t d 0 intTag intTag
    if v.crew.replay.isSome then
      (match v.crew.loggedFault (v.active.headD 0) with
       | some f => v.logFail s f
       | none => emitRelease v (off s) Fx.empty)
    else match v.lost s (v.headers v.present) with
    | some off => v.logFail s (0x15, 3, off)
    | none => match v.mapFind b (bitsAt (v.val (v.active.headD 0) a).toNat 0 12) with
      | none => emitRelease v (off (s.zeroLog u v.crew)) { Fx.empty with wr := null, log := logOf null }
      | some t =>
        let h := s.logSlot v.cluster v.crew t 0
        let todo := (s.logPlaces v 33 t 0).drop (hdrCdone h)
        let r := v.logIssue s sc.code d todo 0
        let cdone (s : State) : State := s.setLogSlot v.cluster v.crew t 0 (setBits (s.logSlot v.cluster v.crew t 0) 48 16 (hdrCdone h + r.2.1))
        match r.2.2 with
        | .done =>
          let wr := if todo.isEmpty then null else []
          let w := ((r.1.crew? u v.slot).getD v.crew)
          let logged : List (Nat × Nat × DWord) := match d with
            | .k n => [(224 + n.val, 0, logVal (w.get (crewKey n.val))), (225 + n.val, 0, logVal (w.get (crewKey (n.val + 1))))]
            | _ => []
          emitRelease v (off (r.1.zeroLog u v.crew)) { Fx.empty with wr := wr, log := if todo.isEmpty then logOf null else logged }
        | .stall => block (cdone r.1) .stall
        | .fault f => v.logFail (cdone r.1) f))
/-- LOGDROP (R212). -/
def execLogdrop (s : State) : Host.Outcome State Fault Refusal :=
  withView s (fun v => whileEnm v s v.active (onHeaders v s v.present (
    let s := if v.crew.replay.isSome then s else s.zeroLog v.iss.unit v.crew
    emitRelease v (s.modCrew v.iss.unit v.slot (fun w => { w with enm := false })) Fx.empty)))

end Sys2Proof.Machine
end

