-- ==== Sys2Proof/Machine/Host.lean ====
section
/-! DEFINITION. The host: its requests (R176, R316 to R318), the mailbox and its commands (R319 to R321), graph images (R178), context
descriptors (R58, R177), firmware images and attestation (R323 to R325). -/
namespace Sys2Proof.Machine

/-! BAR0. -/

/-- ALL of the ready bitmap (R322). -/
def readyAll (ready : Nat) : Bool := ready % 2 ^ 28 == 2 ^ 28 - 1
def readyWord (ready : Nat) : Nat := ready + if readyAll ready then 2 ^ 31 else 0
/-- The host witness register of a stream (R176). -/
def State.hostWitness (s : State) (n : Nat) : DWord := s.witOf (4032 + n) (s.origin (4032 + n)).cnt 4 3
/-- The BAR0 register that holds an offset: its base, its size, its value (R318). -/
structure BarReg where
  base : Nat
  size : Nat
  val : Nat
  deriving DecidableEq, Repr
def State.barReg (s : State) (a : Nat) : Option BarReg :=
  let at_ (lo n size : Nat) (f : Nat → Nat) : Option BarReg :=
    if lo ≤ a ∧ a < lo + n * size then some ⟨lo + (a - lo) / size * size, size, f ((a - lo) / size)⟩ else none
  (at_ 0 1 8 (fun _ => 0)).or <| (at_ 8 1 8 (fun _ => s.iod.trigErr)).or <| (at_ 0x100 1 8 (fun _ => readyWord s.iod.ready)).or <|
  (at_ 0x108 1 4 (fun _ => s.iod.replace.toNat)).or <| (at_ 0x1000 32 8 (fun n => (s.hostWitness n).toNat)).or <|
  (at_ 0x2000 64 4 (fun i => (s.iod.mailbox.getD i 0).toNat)).or <| (at_ 0x2100 1 4 (fun _ => s.iod.doorbell.toNat)).or <|
  (at_ 0x3000 64 4 (fun i => (s.iod.dmb.getD i 0).toNat)).or <| at_ 0x4000 256 8 (fun g => (s.graph g).lastDone.toNat)
/-- A byte of BAR0 as a read returns it. -/
def State.barByte (s : State) (a : Nat) : Byte :=
  match s.barReg a with | some r => BitVec.ofNat 8 (r.val / 2 ^ (8 * (a - r.base))) | none => 0
/-- A doorbell write (R319, R322). -/
def State.ring (s : State) (x : Word) : State :=
  if !bitAt s.iod.ready 26 || s.iod.doorbell != 0 then s.countTrigErr else { s with iod := { s.iod with doorbell := x } }
/-- A 64-bit write of the trigger register (R179, R318, R322). -/
def State.writeTrigger (s : State) (w : DWord) : State :=
  match execTrigger w s with | .next t => t | _ => s
/-- A write of a whole BAR0 register. -/
def State.barWrite (s : State) (base x : Nat) : State :=
  if base = 0 then s.writeTrigger (BitVec.ofNat 64 x)
  else if base = 8 then (if x = 0 then { s with iod := { s.iod with trigErr := 0 } } else s)
  else if 0x2000 ≤ base ∧ base < 0x2100 then { s with iod := { s.iod with mailbox := setNth s.iod.mailbox ((base - 0x2000) / 4) (BitVec.ofNat 32 x) } }
  else if base = 0x2100 then s.ring (BitVec.ofNat 32 x)
  else if 0x3000 ≤ base ∧ base < 0x3000 + 4 * 48 then { s with iod := { s.iod with dmb := setNth s.iod.dmb ((base - 0x3000) / 4) (BitVec.ofNat 32 x) } }
  else if base = 0x3000 + 4 * 63 ∧ x = 0 then s.ackReport
  else s
/-- A BAR0 write: each register that it covers whole is written, and one covered in part is not; the trigger then counts. -/
def State.bar0 (s : State) (a : Nat) (data : List Byte) : State :=
  let regs := ((List.range data.length).filterMap (fun i => (s.barReg (a + i)).map (fun r => (r.base, r.size)))).eraseDups
  regs.foldl (fun s r =>
    if a ≤ r.1 ∧ r.1 + r.2 ≤ a + data.length then s.barWrite r.1 (natOfBytes ((data.drop (r.1 - a)).take r.2))
    else if r.1 = 0 then s.countTrigErr else s) s

/-! BAR2 and CXL.mem: a stream from 0 to 31 and a physical address. -/

/-- The request cannot be served: no ready stack holds the address, or its region is retired (R317, R142). -/
def State.unsupported (s : State) (pa n : Nat) : Bool :=
  let no (a : Nat) : Bool := decide (a / 2 ^ 36 ≥ 12) || !bitAt s.iod.ready (a / 2 ^ 36) || s.hbmGone a
  no pa || no (pa + n - 1)
/-- HOST_WRITE: streams 0 to 31 write device memory, each write taking the stream's next number and going home in a step of its own
(R176); 32 stands for BAR0, 33 for the host's own writes of the memory behind the host window. -/
def execHostWrite (stream a : Nat) (data : List Byte) (s : State) : Host.Outcome State Fault Refusal :=
  if data.isEmpty then .next s
  else if stream = 32 then .next (s.bar0 a data)
  else if stream = 33 then .next (if a + data.length ≤ 2 ^ 36 then s.writeHome (imap data (fun i b => (hostKey (a + i), b))) else s)
  else if stream > 33 ∨ s.unsupported a data.length = true ∨ (s.origin (4032 + stream)).stalls = true then .next s
  else
    let e : StoreEv :=
      { seq := 0, who := none, threads := 0, scope := 4, await := 4, after := [], wit := false, cls := 2, bytes := imap data (fun i b => ⟨a + i, b, .home⟩),
        waits := [], entered := false, swept := false, locks := 0, held := false, marks := [] }
    .next (s.addEvent (4032 + stream) e)
/-- HOST_READ: the answer comes from the homes, with the poisoned-data indication; an Unsupported Request carries no data (R303, R317). -/
def execHostRead (stream a n : Nat) (s : State) : Host.Outcome State Fault Refusal :=
  if n = 0 ∨ stream > 32 then .next s
  else if stream = 32 then .next (s.send 32 ((List.range n).map (fun i => s.barByte (a + i))) false)
  else if s.unsupported a n then .next (s.send stream [] false)
  else .next (s.send stream (s.bytes a n) (s.isPoisoned a n))
/-- HOST_WITNESS_READ: a read of a stream's host witness register. -/
def execHostWitnessRead (stream : Nat) (s : State) : Host.Outcome State Fault Refusal :=
  .next (if stream < 32 then s.send 32 (bytesOf 8 (s.hostWitness stream).toNat) false else s)

/-! The mailbox. -/

def State.mbx (s : State) (i : Nat) : Nat := (s.iod.mailbox.getD i 0).toNat
/-- Two words as a 64-bit value, the lower-numbered one low. -/
def State.mbx64 (s : State) (i : Nat) : Nat := s.mbx i + s.mbx (i + 1) * 2 ^ 32
/-- U0 may take this command now. -/
def State.rung (s : State) (code : Nat) : Bool := s.iod.doorbell.toNat == code && s.iod.cmd.isNone
/-- A word that the command does not name is nonzero (R320). -/
def State.mbxReserved (s : State) (used : List Nat) : Bool := ((List.range 64).drop 1).any (fun i => !used.contains i && s.mbx i != 0)
/-- The cycle counter of an umpire core goes on (R14). -/
def State.umpireTick (s : State) (k : Nat) : State :=
  { s with iod := { s.iod with ucyc := s.iod.ucyc.put k ((s.iod.ucyc.get 0 k + 1 + Config.idleCycles (4064 + k) s.free) % 2 ^ 64) } }
/-- U0 has taken a command: its reply follows once what it waits for is over. The counters of the umpire cores that run have gone on since the
command before (R14; log entry 10). -/
def State.take (s : State) (code arg : Nat) (reply : List Nat) : State :=
  let s := ((List.range 8).filter (fun k => k == 0 || (s.iod.umpire.find? k).isSome)).foldl State.umpireTick s
  ({ s with iod := { s.iod with cmd := some ⟨code, arg, reply.map (BitVec.ofNat 32), []⟩ } } : State).push .mailboxReply
/-- Take a command whose request words are in range, or answer error 3 (R321). -/
def mbxStep (s : State) (code : Nat) (used : List Nat) (ok : Bool) (f : State) : Host.Outcome State Fault Refusal :=
  if !s.rung code then .next s
  else if s.mbxReserved used || !ok then .next (s.take code 0 [3])
  else .next f
/-- The context that word 1 names (R320): 1 to 15. -/
def State.mbxCtxOk (s : State) : Bool := decide (1 ≤ s.mbx 1 ∧ s.mbx 1 ≤ 15)

/-! Graph images (R178). -/

/-- A node of an image; none when its word or its successor list is refused. -/
def imageNode (img : List Byte) (n i : Nat) : Option GNode :=
  let a := 0x40 + 192 * i
  let w := imageNum img (a + 128) 8
  let off := w / 2 ^ 32
  let k := imageNum img off 2
  if a + 192 > img.length ∨ bitsAt w 13 19 ≠ 0 ∨ off + 2 > img.length ∨ off + 2 + 2 * k > img.length then none
  else
    let succs := (List.range k).map (fun j => imageNum img (off + 2 + 2 * j) 2)
    if succs.any (fun m => decide (m ≥ n)) then none
    else some ⟨dwordsOf 16 ((img.drop a).take 128), bitsAt w 0 13, succs⟩
/-- The nodes of an image; none when one is refused. -/
def imageNodes (img : List Byte) (n : Nat) : Option (List GNode) :=
  let ns := (List.range n).map (imageNode img n)
  if ns.any (·.isNone) then none else some (ns.filterMap id)
/-- How often each node is named in the successor lists. -/
def timesNamed (ns : List GNode) (i : Nat) : Nat := (ns.flatMap (·.succs)).count i
/-- Take nodes without open predecessors away, one after the other: the number that can be taken. -/
def acyclicCount (ns : List GNode) : Nat → List Nat → List Nat → Nat
  | 0, _, _ => 0
  | fuel + 1, open_, left =>
    match left.find? (fun i => open_.getD i 0 == 0) with
    | none => 0
    | some i =>
      let succs := (ns.getD i ⟨[], 0, []⟩).succs
      1 + acyclicCount ns fuel (imap open_ (fun j x => x - succs.count j)) (left.filter (· != i))
/-- The graph of an image, or none where it is refused. -/
def graphOfImage (img : List Byte) : Option Graph :=
  let d := imageNum img 0 8
  let n := bitsAt d 0 16
  if img.length < 0x40 ∨ n = 0 ∨ n > 4096 ∨ bitsAt d 32 32 ≠ 0 ∨ imageNum img 0x10 8 % 8 ≠ 0 ∨ imageNum img 0x18 8 > 4096 then none
  else match imageNodes img n with
    | none => none
    | some ns =>
      let agrees := (List.range n).all (fun i => (ns.getD i ⟨[], 0, []⟩).npred == timesNamed ns i)
      if !agrees || acyclicCount ns n (ns.map (·.npred)) (List.range n) != n then none
      else some { Graph.reset with
        installed := true
        ctx := bitsAt d 16 4
        vector := bitsAt d 20 12
        doneaddr := imageNum img 8 8
        pblock := imageNum img 0x10 8
        pblen := imageNum img 0x18 8
        nodes := ns }
/-- PBLOCK names HBM (R178, R321). -/
def pblockOk (g : Graph) : Bool := decide (g.pblock + g.pblen ≤ 12 * 2 ^ 36)
/-- MBX_INSTALL_GRAPH: `image` is what U0 read from host memory, `ok` whether it could. An image for context 0, on which no command acts
(R320), is a field outside its range (log entry 38). -/
def execMbxInstallGraph (image : List Byte) (ok : Bool) (s : State) : Host.Outcome State Fault Refusal :=
  let id := s.mbx 1
  let fit := decide (id < 256) && s.mbx64 2 % 64 == 0 && decide (s.mbx 4 ≤ 2 ^ 23)
  if fit && ok && image.length != s.mbx 4 then .next s
  else mbxStep s 1 [1, 2, 3, 4] fit (
    if !ok then s.take 1 0 [6]
    else if (s.graph id).installed then s.take 1 0 [4]
    else match graphOfImage image with
      | none => s.take 1 0 [7]
      | some g =>
        if g.ctx = 0 then s.take 1 0 [3]
        else if !pblockOk g then s.take 1 0 [7]
        else if Config.schedulerFull s.free image.length then s.take 1 0 [8]
        else (s.setGraph id { g with lastDone := (s.graph id).lastDone }).take 1 0 [0, g.nodes.length])
/-- MBX_REMOVE_GRAPH. -/
def execMbxRemoveGraph (s : State) : Host.Outcome State Fault Refusal :=
  let id := s.mbx 1
  let g := s.graph id
  mbxStep s 2 [1] (decide (id < 256)) (
    if !g.installed then s.take 2 0 [4]
    else if g.run.isSome || !g.waiting.isEmpty then s.take 2 0 [5]
    else (s.setGraph id { Graph.reset with lastDone := g.lastDone }).take 2 0 [0])

/-! Context descriptors (R58, R177). -/

/-- The context has no run, record or resident group. -/
def State.ctxIdle (s : State) (c : Nat) : Bool :=
  !s.graphs.any (fun p => p.2.installed && p.2.ctx == c && (p.2.run.isSome || !p.2.waiting.isEmpty)) && (s.groupsOf (fun g => g.ctx == c)).isEmpty &&
  !s.clusters.any (fun p => p.2.queues.any (fun q => q.any (fun r => r.ctx == c)))
/-- A stretch of HBM that can be read: backed, ready, not retired. -/
def State.hbmReadable (s : State) (pa n : Nat) : Bool := !s.unsupported pa n
/-- A descriptor field outside its range: the reserved bits, QBASE, ROOT (R144, R145, R177). -/
def descBad (x : Nat) : Bool :=
  bitsAt x 6 26 != 0 || bitsAt x 0 3 != 0 || bitsAt x 192 64 % 2 ^ 26 != 0 || decide (bitsAt x 192 64 ≥ 12 * 2 ^ 36) ||
  bitsAt x 64 64 % 2 ^ 19 != 0 || decide (bitsAt x 64 64 ≥ 12 * 2 ^ 36)
/-- The stack that an address names exists, and its ready bit is clear (R321, R322). -/
def State.stackDown (s : State) (pa : Nat) : Bool := decide (pa / 2 ^ 36 < 12) && !bitAt s.iod.ready (pa / 2 ^ 36)
/-- MBX_WRITE_DESCRIPTOR. A loaded decode table is read once, here (R58); where its stack is not ready the command answers 9 (R321). -/
def execMbxWriteDescriptor (s : State) : Host.Outcome State Fault Refusal :=
  let n := s.mbx 1
  let x := (List.range 4).foldl (fun x i => x + s.mbx64 (2 + 2 * i) * 2 ^ (64 * i)) 0
  let sel := bitsAt x 4 2
  let at_ := bitsAt x 128 64
  let down := sel == 3 && at_ % 2048 == 0 && s.stackDown at_
  let table := at_ % 2048 == 0 && s.hbmReadable at_ 2048 && !s.isPoisoned at_ 2048
  mbxStep s 3 [1, 2, 3, 4, 5, 6, 7, 8, 9] (s.mbxCtxOk && !descBad x && (sel != 3 || table || down)) (
    if down then s.take 3 0 [9]
    else if !s.ctxIdle n then s.take 3 0 [5]
    else
      (s.setCtx n { s.ctx n with
        qbase := BitVec.ofNat 64 (bitsAt x 192 64)
        dtaddr := BitVec.ofNat 64 at_
        root := BitVec.ofNat 64 (bitsAt x 64 64)
        deadline := BitVec.ofNat 32 (bitsAt x 32 32)
        shadow := bitAt x 3
        sel := sel
        held := if sel = 3 then (List.range 1024).map (fun i => s.num (at_ + 2 * i) 2) else [] }).take 3 0 [0])

/-! Pre-emption, job cuts, translation (R147, R194, R196). -/

/-- MBX_PREEMPT: starters stop placing the context's records and count its deadline from here. -/
def execMbxPreempt (s : State) : Host.Outcome State Fault Refusal :=
  let n := s.mbx 1
  let x := s.ctx n
  let limits : SMap Nat := (List.range 12).map (fun c => (c, (s.cluster c).cyc + 1024 * max 1 x.deadline.toNat))
  mbxStep s 4 [1] s.mbxCtxOk (((s.setCtx n { x with preempted := true, draining := some limits }).drained n).take 4 n [0])
/-- MBX_RESUME: a context that stands at a completed cut goes on too. -/
def execMbxResume (s : State) : Host.Outcome State Fault Refusal :=
  let n := s.mbx 1
  mbxStep s 5 [1] s.mbxCtxOk (((s.setCtx n { s.ctx n with preempted := false, cut := none }).releaseCatch n (fun _ => true)).take 5 n [0])
/-- The largest step that crews of a context already stand at. -/
def State.caughtStep (s : State) (n : Nat) : Option Nat :=
  ((s.ctxCrews n).flatMap (fun p => match s.crew? p.1 p.2 with
    | some w => w.sculls.flatMap (fun x => x.paths.filterMap (fun q => match q.wait with | .catch k => some k | _ => none))
    | none => [])).foldl (fun m k => match m with | some j => some (max j k) | none => some k) none
/-- MBX_JOB_CUT. -/
def execMbxJobCut (s : State) : Host.Outcome State Fault Refusal :=
  let n := s.mbx 1
  let cut : Cut := ⟨s.caughtStep n, s.cores.map (fun p => (p.1, p.2.ccyc)), false, false⟩
  mbxStep s 6 [1] s.mbxCtxOk (((s.setCtx n { s.ctx n with cut := some cut }).push (.jobCutRelease n)).take 6 n [0])
/-- MBX_TRANSLATION_INVALIDATE. -/
def execMbxTranslationInvalidate (s : State) : Host.Outcome State Fault Refusal :=
  let n := s.mbx 1
  let all := n == 0xFFFFFFFF
  let keep (k : Nat) : Bool := if all then decide (k / 2 ^ 30 = 0) else k / 2 ^ 30 != n
  mbxStep s 7 [1] (s.mbxCtxOk || all) (
    ({ s with clusters := s.clusters.map (fun c => (c.1, { c.2 with tc := c.2.tc.filter (fun e => keep e.1) })) } : State).take 7 0 [0])
/-- MBX_DEBUG_COMMAND (R292, R320): the command on a crew applies at the end of its core's cycle, after those of the crews (R293); its reply
follows. A crew of context 0 is outside its range (R320; log entry 38). -/
def execMbxDebugCommand (s : State) : Host.Outcome State Fault Refusal :=
  let w2 := s.mbx 2
  let w3 := s.mbx 3
  let u := bitsAt w2 0 12
  let slot := bitsAt w2 16 6
  let reg := bitsAt w3 24 8
  let data := BitVec.ofNat 64 (s.mbx64 4)
  let ok := decide (s.mbx 1 < 8) && bitsAt w2 12 4 == 0 && bitsAt w2 22 10 == 0 && decide (u < 2304 ∧ slot < 48) && bitsAt w3 0 16 == 0 && bitsAt w3 21 3 == 0
  mbxStep s 8 (if s.mbx 1 = 5 ∨ s.mbx 1 = 7 then [1, 2, 3, 4, 5] else [1, 2, 3]) ok (
    match s.crew? u slot with
    | none => s.take 8 0 [10]
    | some w =>
      if ((s.group? u w.gid).getD Group.blank).ctx = 0 then s.take 8 0 [3]
      else if w.exited || w.killed || (w.dbgRefused (s.mbx 1) reg data).isSome then s.take 8 0 [10]
      else
        let step := dbgInstr (s.mbx 1) u slot 4064 0 reg (bitsAt w3 16 5) data
        (s.modCore u (fun c => { c with dbg := c.dbg ++ [(32, step)] })).take 8 (64 * u + slot) [0, s.mbx 4, s.mbx 5])

/-! Firmware and attestation (R323 to R325). -/

/-- The digest of the body as the header gives it. -/
def fwDigest (img : List Byte) : List Byte := (img.drop 32).take 64
/-- What the measurement log records of an image: its digest and its version (R323, R324). -/
def fwMeasure (img : List Byte) : List Byte := fwDigest img ++ (img.drop 104).take 4
def State.measure (s : State) (img : List Byte) : State := { s with iod := { s.iod with log := s.iod.log ++ [fwMeasure img] } }
def fwBodyLen (img : List Byte) : Nat := imageNum img 96 8
def fwBody (img : List Byte) : List Byte := (img.drop 256).take (fwBodyLen img)
def fwLoad (img : List Byte) : Nat := imageNum img 112 4
/-- Reserved bytes are zero and every field is in its range. -/
def fwFieldsOk (img : List Byte) : Bool :=
  let n := fwBodyLen img
  ((img.drop 116).take 12).all (· == 0) && ((img.drop 192).take 64).all (· == 0) && n % 64 == 0 && decide (64 ≤ n ∧ n ≤ 2 ^ 20 ∧ 256 + n ≤ img.length) &&
  imageNum img 108 4 % 4 == 0 && decide (imageNum img 108 4 < n) && fwLoad img % 64 == 0 && decide (fwLoad img + n ≤ 2 ^ 20)
/-- The checks of U0 on an image (R323). -/
def fwOk (img : List Byte) : Bool :=
  let key := img.take 32
  Config.sha512 key == Config.rootDigest && Config.ed25519 key (img.take 128) ((img.drop 128).take 64) && fwFieldsOk img && Config.sha512 (fwBody img) == fwDigest img
/-- An umpire core resets into an image: its body lies in its memory, its cycle counter is zero (R14), and its origin takes a new incarnation,
but for the `first` time after the module's reset (R157). -/
def State.bootUmpire (s : State) (k : Nat) (img : List Byte) (first : Bool) : State :=
  let s := s.writeHome (imap (fwBody img) (fun i b => (tcmKey k (fwLoad img + i), b)))
  let x := s.origin (4064 + k)
  let s := if first then s else s.setOrigin (4064 + k) { x with inc := (x.inc + 1) % 16, cnt := 0 }
  { s with iod := { s.iod with umpire := s.iod.umpire.put k img, ucyc := s.iod.ucyc.put k 0 } }
/-- MBX_LOAD_FIRMWARE: `image` is what U0 read from host memory, `ok` whether it could. U0 itself resets after its reply. -/
def execMbxLoadFirmware (image : List Byte) (ok : Bool) (s : State) : Host.Outcome State Fault Refusal :=
  let k := s.mbx 1
  if k < 8 ∧ ok = true ∧ image.length ≠ s.mbx 4 then .next s
  else mbxStep s 10 [1, 2, 3, 4] (decide (k < 8)) (
    if !ok then s.take 10 0 [6]
    else if !fwOk image then s.take 10 0 [2]
    else
      let s := s.measure image
      let reply := [0, natOfBytes ((fwDigest image).take 4)]
      if k = 0 then
        let s := s.take 10 0 reply
        { s with iod := { s.iod with cmd := s.iod.cmd.map (fun c => { c with image := image }) } }
      else (s.bootUmpire k image (s.iod.umpire.find? k).isNone).take 10 k reply)
/-- The report of R325 for a nonce. -/
def State.report (s : State) (nonce : List Byte) : List Byte :=
  let body := nonce ++ Config.serial ++ s.iod.log.flatten
  body ++ Config.identitySign (Config.sha512 body)
/-- MBX_ATTESTATION: `ok` says whether host memory took the report. The write is one event of U0. -/
def execMbxAttestation (ok : Bool) (s : State) : Host.Outcome State Fault Refusal :=
  let a := s.mbx64 9
  let r := s.report ((List.range 8).flatMap (fun i => bytesOf 4 (s.mbx (1 + i))))
  mbxStep s 9 [1, 2, 3, 4, 5, 6, 7, 8, 9, 10] true (
    if !bitAt s.iod.ready 27 then s.take 9 0 [9]
    else if !ok then s.take 9 0 [6]
    else
      let x := s.origin 4064
      let s := (s.setOrigin 4064 { x with cnt := x.next }).send 4064 r false
      let s := if a + r.length ≤ 2 ^ 36 then s.writeHome (imap r (fun i b => (hostKey (a + i), b))) else s
      s.take 9 0 [0, r.length])
/-- MBX_UNKNOWN_COMMAND. -/
def execMbxUnknownCommand (s : State) : Host.Outcome State Fault Refusal :=
  let c := s.iod.doorbell.toNat
  .next (if c > 10 ∧ s.iod.cmd.isNone = true then s.take c 0 [1] else s)

/-- What the command in progress answers; none while what it waits for is not over. -/
def State.replyOf (s : State) (c : Cmd) : Option (List Word) :=
  if c.reply.getD 0 0 ≠ 0 then some c.reply
  else if c.code = 4 then (if (s.ctx c.arg).draining.isNone then some c.reply else none)
  else if c.code = 6 then
    (match (s.ctx c.arg).cut with
     | none => some [11]
     | some x =>
       if x.failed then some [11]
       else if x.completed then some [0, BitVec.ofNat 32 (x.step.getD 0)]
       else none)
  else if c.code = 8 then
    if (s.core (c.arg / 64)).dbg.any (fun p => p.1 == 32) then none
    else
    (let y : DWord := match s.crew? (c.arg / 64) (c.arg % 64) with | some w => if w.exited then 0 else w.dbgstat | none => 0
     some (c.reply ++ [loWord y, hiWord y]))
  else some c.reply
/-- MAILBOX_REPLY: the reply fills the mailbox, the doorbell is zero, and vector 0 is raised (R319, R320). A cut that failed is over. -/
def execMailboxReply (s : State) : Host.Outcome State Fault Refusal :=
  match s.iod.cmd with
  | none => .next s
  | some c =>
    match s.replyOf c with
    | none => .next s
    | some r =>
      let s : State := { s with iod := { s.iod with
        mailbox := (r ++ List.replicate 64 0).take 64
        doorbell := 0
        cmd := none
        msix := s.iod.msix.put 0 (s.iod.msix.get 0 0 + 1) } }
      let s := if c.code = 6 ∧ r.getD 0 0 = 11 then s.setCtx c.arg { s.ctx c.arg with cut := none } else s
      .next (if c.image.isEmpty then s else s.bootUmpire 0 c.image false)

end Sys2Proof.Machine
end

