-- ==== Sys2Proof/Machine/Ras.lean ====
section
/-! DEFINITION. Reliability (R142, R302 to R315): errors, suspicion scores, tests, retirement, spares, the REPLACE register. -/
namespace Sys2Proof.Machine

def unitKey (kind idx : Nat) : Nat := 2 ^ 20 * kind + idx
/-- How far retired regions reach without a gap from an address on. -/
def reachOf (rs : List (Nat × Nat)) : Nat → Nat → Nat
  | 0, a => a
  | fuel + 1, a => match rs.find? (fun r => decide (r.1 ≤ a ∧ a < r.1 + r.2)) with | some r => reachOf rs fuel (r.1 + r.2) | none => a
/-- All of a stack is retired, by its regions or by its pseudo-channels. -/
def Ras.stackGone (x : Ras) (n : Nat) : Bool :=
  decide (reachOf x.hbmRetired x.hbmRetired.length (n * 2 ^ 36) ≥ (n + 1) * 2 ^ 36) ||
  (List.range 64).all (fun c => x.retired.contains (unitKey 4 (64 * n + c)))
/-- The units of R308. -/
def unitOk (kind idx : Nat) : Bool := decide (idx < [9216, 2304, 576, 768, 768, 24].getD kind 0)
/-- A core and its seats. -/
def coreKeys (u : Nat) : List Nat := unitKey 1 u :: (List.range 4).map (fun k => unitKey 0 (4 * u + k))
/-- A reason for replacement occurs (R313): the first sets SET and FIRST. -/
def replaceWith (r : Word) (reason : Nat) : Word :=
  let r := r ||| BitVec.ofNat 32 (2 ^ (reason - 1))
  if bitAt r.toNat 31 then r else r ||| BitVec.ofNat 32 (2 ^ 31 + reason * 2 ^ 16)
def State.setReplace (s : State) (reason : Nat) : State := { s with iod := { s.iod with replace := replaceWith s.iod.replace reason } }
/-- Scores of units return to 0 and they are suspect no longer. -/
def State.clearUnits (s : State) (keys : List Nat) : State :=
  { s with ras := { s.ras with score := s.ras.score.filter (fun p => !keys.contains p.1), suspect := s.ras.suspect.filter (fun k => !keys.contains k) } }
/-- No group is resident and nothing of the core is left in flight (R309, R312). -/
def State.coreIdle (s : State) (u : Nat) : Bool :=
  let c := s.core u
  c.groups.isEmpty && c.loads.isEmpty && c.atoms.isEmpty && c.queues.all (·.isEmpty) && (s.origin u).pend.isEmpty && c.l1.all (fun b => b.2.dirty.isEmpty)
/-- A core is retired: it keeps its number, and CORES falls (R309, R312, R313). -/
def State.retireCore (s : State) (u : Nat) : State :=
  if s.ras.retiredCores.contains u then s
  else
    let s := s.clearUnits (coreKeys u)
    let s : State := { s with
      ras := { s.ras with retiredCores := insertNat s.ras.retiredCores u }
      iod := { s.iod with ready := if s.iod.ready < 2 ^ 32 then s.iod.ready else s.iod.ready - 2 ^ 32 } }
    if s.ras.retiredCores.length ≥ 116 then s.setReplace 3 else s
/-- Ready bits of stacks of which all is retired clear (R322), and REPLACE tells of the region (R313). -/
def State.hbmLost (s : State) : State :=
  let gone := (List.range 12).filter (fun n => s.ras.stackGone n && bitAt s.iod.ready n)
  ({ s with iod := { s.iod with ready := gone.foldl (fun r n => r - 2 ^ n) s.iod.ready } } : State).setReplace 5
/-- A region of HBM is retired (R142). -/
def State.retireHbm (s : State) (lo len : Nat) : State := ({ s with ras := { s.ras with hbmRetired := s.ras.hbmRetired ++ [(lo, len)] } } : State).hbmLost
/-- A vault is retired with its quad's cores, those that are not idle once they have drained (R312, R313). -/
def State.retireVault (s : State) (cl v : Nat) : State :=
  let c := s.cluster cl
  let s := (s.setCluster cl { c with retiredVaults := insertNat c.retiredVaults v }).setReplace 4
  let s := s.clearUnits [unitKey 2 (48 * cl + v)]
  (List.range 4).foldl (fun s k =>
    let u := 192 * cl + 4 * v + k
    if s.coreIdle u then s.retireCore u else { s with ras := { s.ras with suspect := insertNat s.ras.suspect (unitKey 1 u) } }) s

/-! Errors. -/

/-- CORRECTABLE_ERROR: `n` errors of a unit; of an HBM pseudo-channel one, in row `n` of its stack (R308, R310). -/
def execCorrectableError (kind idx n : Nat) (s : State) : Host.Outcome State Fault Refusal :=
  if !unitOk kind idx then .next s
  else if kind = 4 then
    let row := idx / 64 * 2 ^ 32 + n
    .next { s.charge 4 idx 1 with ras := { (s.charge 4 idx 1).ras with rowErrs := s.ras.rowErrs.put row (s.ras.rowErrs.get 0 row + 1) } }
  else .next (s.charge kind idx n)
/-- The line of a byte lies in a flex unit of the core (R138). -/
def Core.inFlex (c : Core) (a : Nat) : Bool := match c.ways.find? (a / 128) with | some w => decide (w ≥ 4) | none => false
/-- A word of an L1 extension fails: it is poisoned (R302, array 5). -/
def State.flexError (s : State) (u a : Nat) : State :=
  if (s.core u).inFlex a && (s.core u).l1.any (fun b => b.1 / 8 == a / 8) then s.modCore u (fun c => { c with l1poison := insertNat c.l1poison (a / 8) }) else s
/-- A word of an L1 fails: its clean bytes are dropped; dirty ones are poisoned, and without any it counts as corrected (R302). -/
def State.l1Error (s : State) (u a : Nat) : State :=
  let c := s.core u
  if c.inFlex a then s else
  let dirty := c.l1.any (fun b => b.1 / 8 == a / 8 && !b.2.dirty.isEmpty)
  if !c.l1.any (fun b => b.1 / 8 == a / 8) then s
  else
    let s := s.dropClean u (fun k => k / 8 == a / 8)
    if dirty then s.modCore u (fun c => { c with l1poison := insertNat c.l1poison (a / 8) }) else s.charge 1 u 1
/-- A unit that leaves a reset of its own: its counter is zero and its incarnation rises (R156, R157). -/
def Origin.reborn (x : Origin) : Origin := { x with cnt := 0, inc := (x.inc + 1) % 16 }
/-- An umpire core resets after an error of its memory (R302); one that fails for good no longer runs (R313). -/
def State.umpireError (s : State) (k : Nat) (forGood : Bool) : State :=
  if (s.iod.umpire.find? k).isNone then s
  else
    let s := s.setOrigin (4064 + k) (s.origin (4064 + k)).reborn
    let s : State := { s with iod := { s.iod with ucyc := s.iod.ucyc.put k 0 } }
    if forGood then ({ s with iod := { s.iod with umpire := s.iod.umpire.drop k } } : State).setReplace 7 else s
/-- A word at an L2 slice fails: the copy of a replicated line in a cluster that is not the line's home, else the line's home (R151, R303). -/
def State.l2Error (s : State) (cl a : Nat) : State :=
  match s.copies.find? (copyKey cl (a / 128)) with
  | some c => { s with copies := s.copies.put (copyKey cl (a / 128)) { c with marks := insertNat c.marks (a / 8 % 16) } }
  | none =>
    if cl = homeCluster a then s.setPoison a true
    else let c := s.copyOf cl (a / 128); { s with copies := s.copies.put (copyKey cl (a / 128)) { c with marks := insertNat c.marks (a / 8 % 16) } }
/-- UNCORRECTABLE_ERROR in an array of R302. `owner` is the unit of R306 (for HBM with 2^16 times the row added), `a` the word: a home key,
a tile, 32·slot + thread of a register that is read, or a graph; of a flex unit a near-scratch key, 2^42 above the key of an L1 extension's
line, or a register; of an umpire core its memory, or from 2^20 on the core itself (log entry 40). A register fails when a read of it finds
the error. -/
def execUncorrectableError (array owner a : Nat) (s : State) : Host.Outcome State Fault Refusal :=
  match array with
  | 1 => .next (if (s.origin owner).stalls then s else s.poisonKill owner (a / 32) none [a % 32] 1 0 0)
  | 2 => .next (if a < 16 then s.modCore owner (fun c => { c with tiles := c.tiles.put a { c.tiles.get Tile.reset a with poisoned := true } }) else s)
  | 3 => .next (s.l1Error owner a)
  | 4 => .next ((s.modCore owner (fun c => { c with icache := c.icache.drop a })).charge 1 owner 1)
  | 5 => .next (if 2 ^ 42 ≤ a then s.flexError owner (a - 2 ^ 42) else if 2 ^ 41 ≤ a then s.setPoison a true
      else if (s.origin owner).stalls then s else s.poisonKill owner (a / 32) none [a % 32] 5 0 0)
  | 6 => .next (if 2 ^ 40 ≤ a ∧ a < 2 ^ 41 then s.setPoison a true else s)
  | 7 => .next (if a < 12 * 2 ^ 36 then s.l2Error (owner / 64) a else s)
  | 8 =>
    let row := owner % 2 ^ 16 / 64 * 2 ^ 32 + owner / 2 ^ 16
    .next (if a < 12 * 2 ^ 36 then { s.setPoison a true with ras := { s.ras with rowErrs := s.ras.rowErrs.put row (max 2 (s.ras.rowErrs.get 0 row)) } } else s)
  | 9 =>
    (match (s.graph a).run with
     | some r => .next ((s.failRun a r.seq 0 2).checkRun a)
     | none => .next s)
  | 10 => .next (if owner < 8 then s.umpireError owner (decide (a ≥ 2 ^ 20)) else s)
  | _ => .next s
/-- SCORE_HALVING (R308): a seat or core at the end of every 2^24th cycle of its core's counter, the other units by their own dividers. -/
def execScoreHalving (kind idx : Nat) (s : State) : Host.Outcome State Fault Refusal :=
  let key := unitKey kind idx
  if !unitOk kind idx || (decide (kind ≤ 1) && !s.ras.due.contains key) then .next s
  else .next { s with ras := { s.ras with
    due := s.ras.due.filter (· != key)
    score := (s.ras.score.map (fun p => if p.1 = key then (p.1, p.2 / 2) else p)).filter (fun p => p.2 != 0) } }

/-! Tests and retirement. -/

/-- A replica lock of the cluster is held at a slice. -/
def State.sliceLocked (s : State) (cl slice : Nat) : Bool :=
  s.copies.any (fun q => q.1 / 2 ^ 40 == cl && q.2.lock.isSome && (s.cluster cl).slices.getD (homeSlice (q.1 % 2 ^ 40 * 128)) 0 == slice)
/-- The unit may be tested: seats and cores only once they have drained, a slice while no replica lock is held there (R309). -/
def State.testable (s : State) (kind idx : Nat) : Bool :=
  unitOk kind idx && s.ras.suspect.contains (unitKey kind idx) && (match kind with | 0 => s.coreIdle (idx / 4) | 1 => s.coreIdle idx | 3 => !s.sliceLocked (idx / 64) (idx % 64) | _ => true)
/-- The core's vault is retired, so that the core is to be too (R312). -/
def State.vaultGone (s : State) (u : Nat) : Bool := (s.cluster (clusterOf u)).retiredVaults.contains (quadOf u)
/-- UNIT_TEST_OUTCOME (R309). -/
def execUnitTestOutcome (kind idx : Nat) (pass : Bool) (s : State) : Host.Outcome State Fault Refusal :=
  if !s.testable kind idx then .next s
  else if pass && !(kind == 1 && s.vaultGone idx) then .next (s.clearUnits [unitKey kind idx])
  else match kind with
    | 0 => .next (s.retireCore (idx / 4))
    | 1 => .next (s.retireCore idx)
    | 2 => .next (s.retireVault (idx / 48) (idx % 48))
    | 3 => .next ((s.clearUnits [unitKey 3 idx]).push (.l2SliceRetire (idx / 64) (idx % 64)))
    | 4 =>
      let s := s.clearUnits [unitKey 4 idx]
      .next ({ s with ras := { s.ras with retired := insertNat s.ras.retired (unitKey 4 idx) } } : State).hbmLost
    | _ =>
      let s := (s.clearUnits [unitKey 5 idx]).setReplace 2
      .next { s with ras := { s.ras with
        retired := insertNat s.ras.retired (unitKey 5 idx)
        ports := s.ras.ports.put idx { s.ras.ports.get Port.reset idx with lost := 3 } } }
/-- L2_WAY_RETIRE (R142): the values of its set's lines stay; words that fail keep their marks. -/
def execL2WayRetire (cl slice set way : Nat) (s : State) : Host.Outcome State Fault Refusal :=
  if cl < 12 ∧ slice < 64 ∧ set < 256 ∧ way < 16 then
    let c := s.cluster cl
    .next (s.setCluster cl { c with retiredWays := insertNat c.retiredWays (4096 * slice + 16 * set + way) })
  else .next s
/-- The next slice above s, counting round, that is in service. -/
def Cluster.nextSlice (c : Cluster) (s : Nat) : Option Nat :=
  ((List.range 63).map (fun i => (s + 1 + i) % 64)).find? (fun k => !c.retiredSlices.contains k)
/-- L2_SLICE_RETIRE (R142). The last slice stays, and its home stack is retired instead. -/
def execL2SliceRetire (cl slice : Nat) (s : State) : Host.Outcome State Fault Refusal :=
  let c := s.cluster cl
  if cl ≥ 12 ∨ slice ≥ 64 ∨ c.retiredSlices.contains slice = true then .next s
  else match c.nextSlice slice with
    | none => .next (s.retireHbm (cl * 2 ^ 36) (2 ^ 36))
    | some n =>
      if s.sliceLocked cl slice then .next s
      else
        let s := s.hitWhere (fun m => m.place == 64 * cl + slice)
        .next ((s.setCluster cl { c with slices := c.slices.map (fun x => if x = slice then n else x), retiredSlices := insertNat c.retiredSlices slice }).setReplace 6)
/-- HBM_REGION_RETIRE (R142). -/
def execHbmRegionRetire (lo len : Nat) (s : State) : Host.Outcome State Fault Refusal :=
  .next (if len ≠ 0 ∧ lo + len ≤ 12 * 2 ^ 36 then s.retireHbm lo len else s)
/-- HBM_ROW_REPAIR (R310): a row with two corrected errors or an uncorrectable one takes a spare of its stack. Its data and marks stay. -/
def execHbmRowRepair (stack row : Nat) (s : State) : Host.Outcome State Fault Refusal :=
  let key := stack * 2 ^ 32 + row
  let left := s.ras.spareRows.get 1024 stack
  if stack ≥ 12 ∨ left = 0 ∨ s.ras.rowErrs.get 0 key < 2 then .next s
  else
    let s : State := { s with ras := { s.ras with spareRows := s.ras.spareRows.put stack (left - 1), rowErrs := s.ras.rowErrs.drop key } }
    .next (if left - 1 < 64 then s.setReplace 1 else s)

/-! Links (R302, R308, R311). -/

/-- The key under which a port counts all its retries, modulo 64. -/
def allRetries : Nat := 1000
/-- LINK_FLIT_RETRY: the `n`-th retry of one flit on a lane. Ports 24 to 27 are the links of the compute dies, whose lanes have no spare: one
that fails is lost (R302). -/
def execLinkFlitRetry (port lane n : Nat) (s : State) : Host.Outcome State Fault Refusal :=
  let p := s.ras.ports.get Port.reset port
  let total := p.retries.get 0 allRetries + 1
  if port ≥ 28 ∨ lane ≥ 9 ∨ ¬ (n = 1 ∨ n = p.retries.get 0 lane + 1) ∨ n > 8 then .next s
  else
    let s : State := { s with ras := { s.ras with ports := s.ras.ports.put port { p with retries := (p.retries.put lane n).put allRetries (total % 64) } } }
    let s := if total = 64 ∧ port < 24 then s.charge 5 port 1 else s
    .next (if n = 8 ∧ port < 24 then s.push (.laneSpareSwap port lane)
      else if n = 8 then { s with ras := { s.ras with ports := s.ras.ports.modify port (fun p => { p with retries := p.retries.drop lane, lost := p.lost + 1 }) } }
      else s)
/-- LANE_SPARE_SWAP: a failed lane is replaced by the spare while the port retrains; a second loss halves the port, a third ends it. -/
def execLaneSpareSwap (port lane : Nat) (s : State) : Host.Outcome State Fault Refusal :=
  let p := s.ras.ports.get Port.reset port
  if port ≥ 24 ∨ lane ≥ allRetries ∨ p.retries.get 0 lane < 8 then .next s
  else
    let q : Port := { p with retries := p.retries.drop lane, lost := p.lost + 1, spareUsed := true, retraining := p.retraining || !p.spareUsed }
    let s : State := { s with ras := { s.ras with ports := s.ras.ports.put port q } }
    .next (if q.lost ≥ 2 then s.setReplace 2 else s)

end Sys2Proof.Machine
end

