-- ==== Sys2Proof/Machine/Fabric.lean ====
section
/-! DEFINITION. The fabric (R149, R176, R311, R327), power (R328), and bring-up (R14, R156, R157, R312, R322, R323). -/
namespace Sys2Proof.Machine

/-! Zwinen. -/

/-- ROUTE_REWRITE: the umpire cores write the routing table, from modules to ports (R311, R327). -/
def execRouteRewrite (table : List (Nat × Nat)) (s : State) : Host.Outcome State Fault Refusal :=
  .next { s with routes := (table.filter (fun p => decide (p.1 < 1024 ∧ p.2 < 24))).foldl (fun m p => m.put p.1 p.2) [] }
/-- The operations of another module's requests: `kind` 0 a load, 1 a store, 2 the check of a witness, and 16·(1 + TY) + op an operation at
the home, `op` as in ATOM, 8 JOIN, 9 SLTAKE, 10 SLPUT; 4096 more where it returns nothing. The halves of a packed pair are atomics of their own
(R143) and come as requests of their own, 8192 more for the high one (log entry 43). -/
def reqAtom (kind : Nat) (data : List Byte) (ha : Nat) : Option (Atom × AElem) :=
  let op := kind % 16
  match Ty.ofCode (kind % 4096 / 16 - 1) with
  | some ty =>
    let a : Atom := ⟨.cox 0, op, if op ≥ 9 then .u64 else if op = 8 then .u32 else ty, none, 2, false, [], [], none, none, [], [], 0,
      ⟨0, 0, false, 0, 0, 0⟩, Group.blank, [], none, true⟩
    if kind < 16 ∨ kind ≥ 16384 ∨ op > 10 ∨ (kind ≥ 8192 ∧ a.halves = none) then none
    else some (a, ⟨0, 0, ha, false, BitVec.ofNat 64 (imageNum data 0 8), BitVec.ofNat 64 (imageNum data 8 8)⟩)
  | none => none
/-- What a request of another module needs of its page. -/
def reqPerm (kind : Nat) : Perm := if kind = 0 then .load else if kind = 1 then .store else .atomic
/-- What the check of a witness of this module answers (R158, R327): 0 satisfied, 1 not yet, 2 stale, 3 expired. -/
def State.checkHere (s : State) (w : DWord) (sc : Nat) : Nat :=
  if !isOrigin (witOrigin w) || witInc w != (s.origin (witOrigin w)).inc then 2 else if s.expired w then 3 else if s.satisfied w sc then 0 else 1
/-- An operation at its home, of a packed pair the half that the request names: its old value comes with the state (log entry 43). -/
def State.performOp (s : State) (kind : Nat) (a : Atom) (e : AElem) : State × Nat :=
  match a.halves with
  | none => (s.rmw a e (s.num e.ha a.size), s.num e.ha a.size)
  | some f => s.rmwHalf f a e (kind / 8192)
/-- The store of another module to a replicated line, which takes the steps of R152 and is answered after them. -/
def State.farStore (s : State) (src : Nat) (bs : List SByte) : State :=
  s.addEvent (fromModule src)
    { seq := 0, who := none, threads := 0, scope := 3, await := 3, after := [], wit := false, cls := 2, bytes := bs, waits := [], entered := true, swept := true, locks := 0,
      held := false, marks := [] }
/-- Perform a request at its home and answer it. An SLTAKE without a free slot waits; a returning operation on a poisoned word takes no
effect (R304). -/
def State.perform (s : State) (src kind : Nat) (l : Loc) (data : List Byte) : Option State :=
  let n := data.length
  if kind = 0 then some (s.answer src 0 0 (s.bytes l.ha n) (s.isPoisoned l.ha n))
  else if kind = 1 then
    (if l.dest == .repl || s.lineCopied (l.ha / 128) then some (s.farStore src (imap data (fun i b => ⟨l.ha + i, b, .repl⟩)))
     else some ((s.writeAll (imap data (fun i b => (l.ha + i, b)))).answer src 0 0 [] false))
  else match reqAtom kind data l.ha with
    | none => some s
    | some (a, e) =>
      let bad := s.isPoisoned l.ha a.size
      if a.op = 9 ∧ s.num l.ha 8 % 2 ^ 32 = 0 then none
      else if bad && decide (kind % 8192 < 4096) then some (s.answer src 0 0 (bytesOf 8 0) true)
      else
        let r := s.performOp kind a e
        some (r.1.answer src 0 0 (bytesOf 8 r.2) false)
/-- ZWINEN_REQUEST: `va` holds VA[45:0]; it is translated here, in the context the request carries, and a fault returns to its origin
(R149, R327). -/
def execZwinenRequest (src ctx va kind : Nat) (wit : DWord) (data : List Byte) (s : State) : Host.Outcome State Fault Refusal :=
  let n := data.length
  let full := s.modnum * 2 ^ 46 + va % 2 ^ 46
  if src ≥ 1024 ∨ src = s.modnum ∨ ctx ≥ 16 ∨ s.portHeld src = true then .next s
  else if kind = 2 then .next (s.answer src 0 0 (bytesOf 8 (s.checkHere wit (imageNum data 0 1))) false)
  else if n = 0 ∨ va % 128 + n > 128 ∨ (kind > 1 ∧ reqAtom kind data 0 = none) then .next s
  else match s.xlate ioDie ctx full (reqPerm kind) with
    | .error f => .next (s.answer src f.1 f.2 [] false)
    | .ok l => .next ((s.perform src kind l data).getD s)
/-- ZWINEN_ACK: the remote bytes of a store event are performed at their homes (R160, R327). -/
def execZwinenAck (u seq : Nat) (s : State) : Host.Outcome State Fault Refusal :=
  match s.event? u seq with
  | none => .next s
  | some e =>
    let far := e.bytes.filter (fun b => b.dest == .remote)
    if far.isEmpty || !s.mayGo u e || far.any (fun b => s.portHeld (farModule b.ha)) then .next s
    else
      let rest := e.bytes.filter (fun b => b.dest != .remote)
      .next (if rest.isEmpty then s.dropEvent u seq else s.modEvent u seq (fun e => { e with bytes := rest }))
/-- PORT_RETRAINED (R311): the flits it held go on. -/
def execPortRetrained (port : Nat) (s : State) : Host.Outcome State Fault Refusal :=
  .next { s with ras := { s.ras with ports := s.ras.ports.modify port (fun p => { p with retraining := false }) } }

/-! Power. -/

/-- CLOCK_ADJUST (R328): 50 MHz up or down, between 1.2 GHz and 1.9 GHz. Dies 0 to 3 compute; 4 is the I/O die. -/
def execClockAdjust (die : Nat) (up : Bool) (s : State) : Host.Outcome State Fault Refusal :=
  let f := s.ras.clock.get 1900 die
  .next (if die < 5 then { s with ras := { s.ras with clock := s.ras.clock.put die (if up then min 1900 (f + 50) else max 1200 (f - 50)) } } else s)

/-! Reset and bring-up. -/

/-- MODULE_RESET: everything is as at reset, but what memory holds, its marks, and the spare rows that are used up. -/
def execModuleReset (s : State) : Host.Outcome State Fault Refusal :=
  .next { State.reset with free := s.free, mem := s.mem, poison := s.poison, ras := { Ras.reset with spareRows := s.ras.spareRows } }
/-- FIRMWARE_BOOT: U0 checks its first image in the ROM (R323). One that fails does not run; DMB48 reports it. -/
def execFirmwareBoot (image : List Byte) (s : State) : Host.Outcome State Fault Refusal :=
  if (s.iod.umpire.find? 0).isSome || s.iod.bootFailed then .next s
  else if fwOk image then .next ((s.bootUmpire 0 image true).measure image)
  else .next { s with iod := { s.iod with bootFailed := true, dmb := setNth s.iod.dmb 48 (Config.bootReport s.free) } }
/-- A function completes bring-up and its bit sets (R322). With ZW comes the module number (R19); bit 32 stands for CORES, the cores that are
in service (R18). -/
def State.setReady (s : State) (bit val : Nat) : State :=
  let s : State := if bit = 25 then { s with modnum := val % 1024 } else s
  { s with iod := { s.iod with ready := if bit = 32 then s.iod.ready + (2304 - s.ras.retiredCores.length) * 2 ^ 32 else s.iod.ready + 2 ^ bit } }
/-- READY_BIT_SET. Nodes that waited for a cluster may be launched. A stack of which all is retired stays unsupported (R322). -/
def execReadyBitSet (bit : Nat) (val : Nat) (s : State) : Host.Outcome State Fault Refusal :=
  if (bit < 28 ∧ bitAt s.iod.ready bit = false ∧ ¬ (bit < 12 ∧ s.ras.stackGone bit = true)) ∨ (bit = 32 ∧ s.iod.ready < 2 ^ 32) then
    .next ((s.setReady bit val).graphs.foldl (fun s g => s.checkRun g.1) (s.setReady bit val))
  else .next s
/-- An origin unit may leave a reset of its own: nothing of it is in flight. -/
def State.unitIdle (s : State) (u : Nat) : Bool :=
  isOrigin u && (s.origin u).pend.isEmpty && (decide (u ≥ 2304) || s.coreIdle u) &&
  !(decide (2304 ≤ u ∧ u < 2688) && (u - 2304) % 32 == 16 && (s.cluster ((u - 2304) / 32)).queues.any (fun q => !q.isEmpty))
/-- UNIT_RESET: the unit alone leaves a reset of its own (R14, R156, R157). -/
def execUnitReset (u : Nat) (s : State) : Host.Outcome State Fault Refusal :=
  if !s.unitIdle u then .next s
  else
    let s := s.setOrigin u (s.origin u).reborn
    if u < 2304 then .next (s.setCore u { Core.reset with nextGid := (s.core u).nextGid })
    else if u < 2688 ∧ (u - 2304) % 32 = 16 then
      let n := (u - 2304) / 32
      .next (s.setCluster n { s.cluster n with cyc := 0 })
    else if 4064 ≤ u then .next { s with iod := { s.iod with ucyc := s.iod.ucyc.put (u - 4064) 0 } }
    else .next s
/-- RETURN_TO_SERVICE: firmware returns a retired core, which takes a new incarnation (R157, R312). -/
def execReturnToService (u : Nat) (s : State) : Host.Outcome State Fault Refusal :=
  if !s.ras.retiredCores.contains u || s.vaultGone u then .next s
  else
    let x := s.origin u
    let s := (s.setOrigin u { x with inc := (x.inc + 1) % 16 }).clearUnits (coreKeys u)
    .next { s with
      ras := { s.ras with retiredCores := s.ras.retiredCores.filter (· != u) }
      iod := { s.iod with ready := if s.iod.ready < 2 ^ 32 then s.iod.ready else s.iod.ready + 2 ^ 32 } }

end Sys2Proof.Machine
end

