-- ==== Sys2Proof/Machine/Fetch.lean ====
section
/-! DEFINITION. Taking the next member of the issue group in flight: its word, its decoding in the environment of the agent
that issues it (R57, R62), and the trap of a word that does not decode. -/
namespace Sys2Proof.Machine

/-- What the decoder checks registers and convergence against (R49, R55, R56, R69, R82). -/
def State.decEnv (s : State) (iss : Issue) : DecEnv :=
  match iss.who with
  | .crew slot =>
    (match s.crew? iss.unit slot with
     | some w => ⟨false, w.count, w.converged, w.parted⟩
     | none => ⟨false, 0, false, false⟩)
  | .cox _ => ⟨true, 64, true, false⟩

/-- Decode a word as the issuing agent does. -/
def State.decode (s : State) (iss : Issue) (w : Slot) : Except DecTrap Instr :=
  let x := s.ctx (s.issueCtx iss)
  decodeSlot (s.decEnv iss) x.sel x.held w

/-- The cause code and subcode of a decode trap of a word (R62, R235). -/
def decTrapCause (w : Slot) : DecTrap → Nat × Nat
  | .illegalOp => (0x01, w.toNat % 1024)
  | .illegalField sub => (0x02, sub)
  | .diverged => (0x04, 0)

/-- What a decode trap of a member does: its cause in every active thread (R42), and nothing of the group takes effect. -/
def decodeTrapFx (iss : Issue) (d : DecTrap) : Fx := iss.causeFx (decTrapCause iss.cur d).1 (decTrapCause iss.cur d).2 0 iss.idx

/-- The group in flight with its next member taken: its word current, the rest still to come. -/
def Issue.take (iss : Issue) (w : Slot) (ws : List Slot) : Issue := { iss with cur := w, words := ws, idx := iss.nmem - ws.length - 1 }

/-- The state with the next member's word taken, and that word; none when no group is in flight or none of it is left. -/
def State.nextMember (s : State) : Option (State × Issue) :=
  match s.issue with
  | none => none
  | some iss =>
    match iss.words with
    | [] => none
    | w :: ws => let i := iss.take w ws; some ({ s with issue := some i }, i)

/-- A word that does not decode ends its group (R62). Its cause goes to every active thread and takes the place of causes that earlier
members raised in some of them: R62 and R243 order the causes of one instruction only (DESIGN CHOICE, log entry 49); a BRK match of R290
comes first (`Issue.causeFx`). -/
def State.trapWord (s : State) (iss : Issue) (d : DecTrap) : State := s.commit { iss with words := [], fx := decodeTrapFx iss d }

/-! Placing an instruction where the next step takes it. -/

/-- A crew alone on core 0 that is converged, holds every register, and runs in context 1. -/
def probeCrew : Crew := { Crew.blank with count := 224, sculls := List.replicate 8 { Scull.fresh with run := some ⟨0, 15, 0, 0, true, .none, 0, 0⟩ } }
/-- Its group: one crew at level 5. -/
def probeGroup : Group := { Group.blank with ctx := 1, hdr := [0, 0, 0, 32, 0, 0, 5 * 2 ^ 22 + 1 * 2 ^ 19 + 224 * 2 ^ 11, 0, 0, 0, 0, 0, 0, 0, 0, 0], slots := [0] }
/-- The issue of one word by that crew. -/
def probeIssue (w : Slot) : Issue where
  unit := 0
  who := .crew 0
  pc := 0
  next := 1
  parts := List.range 8
  mask := 2 ^ 32 - 1
  words := [w]
  cur := w
  idx := 0
  nmem := 1
  setA := 0
  setB := 0
  beats := 0
  id := 0
  resume := .none
  go := none
  stall := none
  group := [w]
  off := 0
  srcs := none
  fx := Fx.empty
/-- A state in which the next step executes the slot `w`: a launch of one crew, seated, with `w` in its issue latch. A CLAIM finds 8 registers
per thread, so that it can ask for more. -/
def State.placeSlot (s : State) (w : Slot) : State :=
  { s with
    cores := s.cores.put 0 { s.core 0 with crews := (s.core 0).crews.put 0 { probeCrew with count := regsFor w }, groups := (s.core 0).groups.put 0 probeGroup, nextGid := 1 }
    issue := some (probeIssue w) }

end Sys2Proof.Machine
end

