-- ==== Sys2Proof/Machine/Dispatch.lean ====
section
/-! DEFINITION. Every instruction and every step of the machine, each with its meaning. -/
namespace Sys2Proof.Machine

def exec (i : Instr) (s : State) : Host.Outcome State Fault Refusal :=
  match i with
  | .iadd ty o => Sys2Proof.Machine.execIadd ty o s
  | .iadd64 ty o => Sys2Proof.Machine.execIadd64 ty o s
  | .isub ty o => Sys2Proof.Machine.execIsub ty o s
  | .imul ty o => Sys2Proof.Machine.execImul ty o s
  | .imulhi ty o => Sys2Proof.Machine.execImulhi ty o s
  | .imad ty o => Sys2Proof.Machine.execImad ty o s
  | .imad64 ty o => Sys2Proof.Machine.execImad64 ty o s
  | .imin ty o => Sys2Proof.Machine.execImin ty o s
  | .imax ty o => Sys2Proof.Machine.execImax ty o s
  | .iabs o => Sys2Proof.Machine.execIabs o s
  | .ineg ty o => Sys2Proof.Machine.execIneg ty o s
  | .icmp cc ty o => Sys2Proof.Machine.execIcmp cc ty o s
  | .and o => Sys2Proof.Machine.execAnd o s
  | .or o => Sys2Proof.Machine.execOr o s
  | .xor o => Sys2Proof.Machine.execXor o s
  | .not o => Sys2Proof.Machine.execNot o s
  | .shl o => Sys2Proof.Machine.execShl o s
  | .shr o => Sys2Proof.Machine.execShr o s
  | .sar o => Sys2Proof.Machine.execSar o s
  | .bfx sx o => Sys2Proof.Machine.execBfx sx o s
  | .bfi o => Sys2Proof.Machine.execBfi o s
  | .popc o => Sys2Proof.Machine.execPopc o s
  | .clz o => Sys2Proof.Machine.execClz o s
  | .brev o => Sys2Proof.Machine.execBrev o s
  | .sel ty o => Sys2Proof.Machine.execSel ty o s
  | .mov ty o => Sys2Proof.Machine.execMov ty o s
  | .movi ty g d imm => Sys2Proof.Machine.execMovi ty g d imm s
  | .fadd rm o => Sys2Proof.Machine.execFadd rm o s
  | .fsub rm o => Sys2Proof.Machine.execFsub rm o s
  | .fmul rm o => Sys2Proof.Machine.execFmul rm o s
  | .ffma rm o => Sys2Proof.Machine.execFfma rm o s
  | .fmin o => Sys2Proof.Machine.execFmin o s
  | .fmax o => Sys2Proof.Machine.execFmax o s
  | .fcmp cc o => Sys2Proof.Machine.execFcmp cc o s
  | .fdiv rm o => Sys2Proof.Machine.execFdiv rm o s
  | .fsqrt rm o => Sys2Proof.Machine.execFsqrt rm o s
  | .frcp rm o => Sys2Proof.Machine.execFrcp rm o s
  | .frsq rm o => Sys2Proof.Machine.execFrsq rm o s
  | .fexp2 rm o => Sys2Proof.Machine.execFexp2 rm o s
  | .flog2 rm o => Sys2Proof.Machine.execFlog2 rm o s
  | .frnd rm o => Sys2Proof.Machine.execFrnd rm o s
  | .dadd rm o => Sys2Proof.Machine.execDadd rm o s
  | .dsub rm o => Sys2Proof.Machine.execDsub rm o s
  | .dmul rm o => Sys2Proof.Machine.execDmul rm o s
  | .dfma rm o => Sys2Proof.Machine.execDfma rm o s
  | .ddiv rm o => Sys2Proof.Machine.execDdiv rm o s
  | .dsqrt rm o => Sys2Proof.Machine.execDsqrt rm o s
  | .dcmp cc o => Sys2Proof.Machine.execDcmp cc o s
  | .hadd2 rm o => Sys2Proof.Machine.execHadd2 rm o s
  | .hmul2 rm o => Sys2Proof.Machine.execHmul2 rm o s
  | .hfma2 rm o => Sys2Proof.Machine.execHfma2 rm o s
  | .hmax2 o => Sys2Proof.Machine.execHmax2 o s
  | .hcmp2 cc o => Sys2Proof.Machine.execHcmp2 cc o s
  | .cvt dst src hi rm o => Sys2Proof.Machine.execCvt dst src hi rm o s
  | .sigget o => Sys2Proof.Machine.execSigget o s
  | .sigset ty o => Sys2Proof.Machine.execSigset ty o s
  | .sigmin ty o => Sys2Proof.Machine.execSigmin ty o s
  | .bsig kind n g a target => Sys2Proof.Machine.execBsig kind n g a target s
  | .shfl ty seg mode o => Sys2Proof.Machine.execShfl ty seg mode o s
  | .vote mode o => Sys2Proof.Machine.execVote mode o s
  | .redx op rm ty o => Sys2Proof.Machine.execRedx op rm ty o s
  | .scanx op ex rm ty o => Sys2Proof.Machine.execScanx op ex rm ty o s
  | .bxch ty lk ld o => Sys2Proof.Machine.execBxch ty lk ld o s
  | .mrgk ty o => Sys2Proof.Machine.execMrgk ty o s
  | .ld ty m fsel sig d after => Sys2Proof.Machine.execLd ty m fsel sig d after s
  | .st ty m after d wit => Sys2Proof.Machine.execSt ty m after d wit s
  | .spill m d wit => Sys2Proof.Machine.execSpill m d wit s
  | .fill m fsel d => Sys2Proof.Machine.execFill m fsel d s
  | .pref l2 m => Sys2Proof.Machine.execPref l2 m s
  | .l1wb m d => Sys2Proof.Machine.execL1wb m d s
  | .l1inv m d => Sys2Proof.Machine.execL1inv m d s
  | .monitor m => Sys2Proof.Machine.execMonitor m s
  | .mwait g timeout d => Sys2Proof.Machine.execMwait g timeout d s
  | .wmerge sc g d a b => Sys2Proof.Machine.execWmerge sc g d a b s
  | .wwait sc g a => Sys2Proof.Machine.execWwait sc g a s
  | .wtest sc o => Sys2Proof.Machine.execWtest sc o s
  | .fence sc g pred succ => Sys2Proof.Machine.execFence sc g pred succ s
  | .qfence g mask => Sys2Proof.Machine.execQfence g mask s
  | .atomAdd ty m fsel e d wit => Sys2Proof.Machine.execAtomAdd ty m fsel e d wit s
  | .atomMin ty m fsel e d wit => Sys2Proof.Machine.execAtomMin ty m fsel e d wit s
  | .atomMax ty m fsel e d wit => Sys2Proof.Machine.execAtomMax ty m fsel e d wit s
  | .atomAnd ty m fsel e d wit => Sys2Proof.Machine.execAtomAnd ty m fsel e d wit s
  | .atomOr ty m fsel e d wit => Sys2Proof.Machine.execAtomOr ty m fsel e d wit s
  | .atomXor ty m fsel e d wit => Sys2Proof.Machine.execAtomXor ty m fsel e d wit s
  | .atomXchg ty m fsel e d wit => Sys2Proof.Machine.execAtomXchg ty m fsel e d wit s
  | .atomCas ty m fsel e d wit => Sys2Proof.Machine.execAtomCas ty m fsel e d wit s
  | .tcfg g qd d a => Sys2Proof.Machine.execTcfg g qd d a s
  | .tld g fsel sc qd sp scope sig d a b after => Sys2Proof.Machine.execTld g fsel sc qd sp scope sig d a b after s
  | .tst g fsel qd sp scope d a b after wit => Sys2Proof.Machine.execTst g fsel qd sp scope d a b after wit s
  | .scld g fsel qd sp scope d a after => Sys2Proof.Machine.execScld g fsel qd sp scope d a after s
  | .tzero g qd d => Sys2Proof.Machine.execTzero g qd d s
  | .mma g fsel q nc d a b c => Sys2Proof.Machine.execMma g fsel q nc d a b c s
  | .mmas g fsel q nc d a b c ka kb => Sys2Proof.Machine.execMmas g fsel q nc d a b c ka kb s
  | .ttov g n row0 col0 d a => Sys2Proof.Machine.execTtov g n row0 col0 d a s
  | .vtot g n row0 col0 d a => Sys2Proof.Machine.execVtot g n row0 col0 d a s
  | .blgive g => Sys2Proof.Machine.execBlgive g s
  | .bltake g => Sys2Proof.Machine.execBltake g s
  | .bra g target => Sys2Proof.Machine.execBra g target s
  | .brd g a target => Sys2Proof.Machine.execBrd g a target s
  | .brx g a => Sys2Proof.Machine.execBrx g a s
  | .call g d t => Sys2Proof.Machine.execCall g d t s
  | .ret g a => Sys2Proof.Machine.execRet g a s
  | .recv mask => Sys2Proof.Machine.execRecv mask s
  | .regang => Sys2Proof.Machine.execRegang s
  | .exit g => Sys2Proof.Machine.execExit g s
  | .nop g => Sys2Proof.Machine.execNop g s
  | .yield n => Sys2Proof.Machine.execYield n s
  | .catch g n => Sys2Proof.Machine.execCatch g n s
  | .mark g id => Sys2Proof.Machine.execMark g id s
  | .give g n => Sys2Proof.Machine.execGive g n s
  | .claim g n => Sys2Proof.Machine.execClaim g n s
  | .bar g lvl d => Sys2Proof.Machine.execBar g lvl d s
  | .bara g lvl d => Sys2Proof.Machine.execBara g lvl d s
  | .barw g lvl d => Sys2Proof.Machine.execBarw g lvl d s
  | .sltake m d => Sys2Proof.Machine.execSltake m d s
  | .slput m after d wit => Sys2Proof.Machine.execSlput m after d wit s
  | .enum cert list d a b => Sys2Proof.Machine.execEnum cert list d a b s
  | .smerge join d a b => Sys2Proof.Machine.execSmerge join d a b s
  | .compose d a b => Sys2Proof.Machine.execCompose d a b s
  | .mapat d a b => Sys2Proof.Machine.execMapat d a b s
  | .logst m d => Sys2Proof.Machine.execLogst m d s
  | .logcmt sc d a b => Sys2Proof.Machine.execLogcmt sc d a b s
  | .logdrop => Sys2Proof.Machine.execLogdrop s
  | .cpy g fsel sc src dst a after => Sys2Proof.Machine.execCpy g fsel sc src dst a after s
  | .gath g fsel sc src dst a after => Sys2Proof.Machine.execGath g fsel sc src dst a after s
  | .coll g fsel sc a after => Sys2Proof.Machine.execColl g fsel sc a after s
  | .evpop g nb d => Sys2Proof.Machine.execEvpop g nb d s
  | .dqpush g a b => Sys2Proof.Machine.execDqpush g a b s
  | .dqpop g d => Sys2Proof.Machine.execDqpop g d s
  | .aestart g a off => Sys2Proof.Machine.execAestart g a off s
  | .oqpop g q d => Sys2Proof.Machine.execOqpop g q d s
  | .spawn g a after => Sys2Proof.Machine.execSpawn g a after s
  | .join g d a => Sys2Proof.Machine.execJoin g d a s
  | .park g a after live livebase => Sys2Proof.Machine.execPark g a after live livebase s
  | .grtrig g d a => Sys2Proof.Machine.execGrtrig g d a s
  | .csacc ty o => Sys2Proof.Machine.execCsacc ty o s
  | .cschk ty k g a b => Sys2Proof.Machine.execCschk ty k g a b s
  | .movc g w num r => Sys2Proof.Machine.execMovc g w num r s
  | .eret g => Sys2Proof.Machine.execEret g s
  | .trap g code => Sys2Proof.Machine.execTrap g code s
  | .tfence => Sys2Proof.Machine.execTfence s
  | .bkpt g code => Sys2Proof.Machine.execBkpt g code s
  | .hprobe m fsel n d b => Sys2Proof.Machine.execHprobe m fsel n d b s
  | .noise ty o => Sys2Proof.Machine.execNoise ty o s
  | .dmbWrite g n a => Sys2Proof.Machine.execDmbWrite g n a s
  | .dmbDoorbell g a => Sys2Proof.Machine.execDmbDoorbell g a s
  | .trbaseWrite g a => Sys2Proof.Machine.execTrbaseWrite g a s
  | .tracePointerWrite g tail a => Sys2Proof.Machine.execTracePointerWrite g tail a s
  | .sctrClear g n a => Sys2Proof.Machine.execSctrClear g n a s
  | .dtblWrite g a => Sys2Proof.Machine.execDtblWrite g a s
  | .fstatWrite g a => Sys2Proof.Machine.execFstatWrite g a s
  | .tfWrite g n a => Sys2Proof.Machine.execTfWrite g n a s
  | .seatIssue u seat => Sys2Proof.Machine.execSeatIssue u seat s
  | .pieceBoundary u slot => Sys2Proof.Machine.execPieceBoundary u slot s
  | .icacheFill u line bad1 bad2 => Sys2Proof.Machine.execIcacheFill u line bad1 bad2 s
  | .trapDelivery u slot => Sys2Proof.Machine.execTrapDelivery u slot s
  | .timerExpiry u slot => Sys2Proof.Machine.execTimerExpiry u slot s
  | .yieldExpiry u slot => Sys2Proof.Machine.execYieldExpiry u slot s
  | .mwaitTimeout u slot => Sys2Proof.Machine.execMwaitTimeout u slot s
  | .haltComplete u slot => Sys2Proof.Machine.execHaltComplete u slot s
  | .barrierPhaseComplete u gid bnd key => Sys2Proof.Machine.execBarrierPhaseComplete u gid bnd key s
  | .claimGrant u => Sys2Proof.Machine.execClaimGrant u s
  | .sltakeGrant u id remote => Sys2Proof.Machine.execSltakeGrant u id remote s
  | .queueWaitResume u slot => Sys2Proof.Machine.execQueueWaitResume u slot s
  | .witnessWaitResume u slot => Sys2Proof.Machine.execWitnessWaitResume u slot s
  | .regangGang u slot => Sys2Proof.Machine.execRegangGang u slot s
  | .monitorTrigger id => Sys2Proof.Machine.execMonitorTrigger id s
  | .storeEnter u seq => Sys2Proof.Machine.execStoreEnter u seq s
  | .storeSweep u seq => Sys2Proof.Machine.execStoreSweep u seq s
  | .storeThrough u seq => Sys2Proof.Machine.execStoreThrough u seq s
  | .l1WriteBack u a => Sys2Proof.Machine.execL1WriteBack u a s
  | .l1WriteByte u a => Sys2Proof.Machine.execL1WriteByte u a s
  | .l1Drop u a => Sys2Proof.Machine.execL1Drop u a s
  | .l1Fetch u a => Sys2Proof.Machine.execL1Fetch u a s
  | .loadBind u id t remote => Sys2Proof.Machine.execLoadBind u id t remote s
  | .loadBindEarly u id t => Sys2Proof.Machine.execLoadBindEarly u id t s
  | .loadEarly u slot t pc => Sys2Proof.Machine.execLoadEarly u slot t pc s
  | .translationWalk cl ctx va => Sys2Proof.Machine.execTranslationWalk cl ctx va s
  | .atomApply u id remote => Sys2Proof.Machine.execAtomApply u id remote s
  | .replicaLock u seq => Sys2Proof.Machine.execReplicaLock u seq s
  | .replicaUpdate u seq => Sys2Proof.Machine.execReplicaUpdate u seq s
  | .replicaCopyEvict cl line => Sys2Proof.Machine.execReplicaCopyEvict cl line s
  | .engineEntryBegin u q => Sys2Proof.Machine.execEngineEntryBegin u q s
  | .engineEntryComplete u q => Sys2Proof.Machine.execEngineEntryComplete u q s
  | .collRoundComplete group round => Sys2Proof.Machine.execCollRoundComplete group round s
  | .aeElementLoad u gid => Sys2Proof.Machine.execAeElementLoad u gid s
  | .tileInterlockRelease u slot => Sys2Proof.Machine.execTileInterlockRelease u slot s
  | .trigger w => Sys2Proof.Machine.execTrigger w s
  | .triggerErrorClear => Sys2Proof.Machine.execTriggerErrorClear s
  | .runBegin graph => Sys2Proof.Machine.execRunBegin graph s
  | .queuedRunBegin graph => Sys2Proof.Machine.execQueuedRunBegin graph s
  | .recordPlace cl u => Sys2Proof.Machine.execRecordPlace cl u s
  | .groupEnd u gid => Sys2Proof.Machine.execGroupEnd u gid s
  | .recordPush id => Sys2Proof.Machine.execRecordPush id s
  | .preemptDeadlineExpiry ctx cl => Sys2Proof.Machine.execPreemptDeadlineExpiry ctx cl s
  | .jobCutRelease ctx => Sys2Proof.Machine.execJobCutRelease ctx s
  | .jobCutTimeout ctx => Sys2Proof.Machine.execJobCutTimeout ctx s
  | .hostWrite stream a data => Sys2Proof.Machine.execHostWrite stream a data s
  | .hostRead stream a n => Sys2Proof.Machine.execHostRead stream a n s
  | .hostWitnessRead stream => Sys2Proof.Machine.execHostWitnessRead stream s
  | .mbxInstallGraph image ok => Sys2Proof.Machine.execMbxInstallGraph image ok s
  | .mbxRemoveGraph => Sys2Proof.Machine.execMbxRemoveGraph s
  | .mbxWriteDescriptor => Sys2Proof.Machine.execMbxWriteDescriptor s
  | .mbxPreempt => Sys2Proof.Machine.execMbxPreempt s
  | .mbxResume => Sys2Proof.Machine.execMbxResume s
  | .mbxJobCut => Sys2Proof.Machine.execMbxJobCut s
  | .mbxTranslationInvalidate => Sys2Proof.Machine.execMbxTranslationInvalidate s
  | .mbxDebugCommand => Sys2Proof.Machine.execMbxDebugCommand s
  | .mbxAttestation ok => Sys2Proof.Machine.execMbxAttestation ok s
  | .mbxLoadFirmware image ok => Sys2Proof.Machine.execMbxLoadFirmware image ok s
  | .mbxUnknownCommand => Sys2Proof.Machine.execMbxUnknownCommand s
  | .mailboxReply => Sys2Proof.Machine.execMailboxReply s
  | .dbgNone u slot cu cslot => Sys2Proof.Machine.execDbgNone u slot cu cslot s
  | .dbgHaltRequest u slot cu cslot => Sys2Proof.Machine.execDbgHaltRequest u slot cu cslot s
  | .dbgRelease u slot cu cslot => Sys2Proof.Machine.execDbgRelease u slot cu cslot s
  | .dbgStep u slot cu cslot => Sys2Proof.Machine.execDbgStep u slot cu cslot s
  | .dbgReadRegister u slot cu cslot reg thr => Sys2Proof.Machine.execDbgReadRegister u slot cu cslot reg thr s
  | .dbgWriteRegister u slot cu cslot reg thr data => Sys2Proof.Machine.execDbgWriteRegister u slot cu cslot reg thr data s
  | .dbgReadPc u slot cu cslot thr => Sys2Proof.Machine.execDbgReadPc u slot cu cslot thr s
  | .dbgReplay u slot cu cslot pos => Sys2Proof.Machine.execDbgReplay u slot cu cslot pos s
  | .dmb63Ack => Sys2Proof.Machine.execDmb63Ack s
  | .correctableError kind idx n => Sys2Proof.Machine.execCorrectableError kind idx n s
  | .uncorrectableError array owner a => Sys2Proof.Machine.execUncorrectableError array owner a s
  | .scoreHalving kind idx => Sys2Proof.Machine.execScoreHalving kind idx s
  | .unitTestOutcome kind idx pass => Sys2Proof.Machine.execUnitTestOutcome kind idx pass s
  | .l2WayRetire cl slice set way => Sys2Proof.Machine.execL2WayRetire cl slice set way s
  | .l2SliceRetire cl slice => Sys2Proof.Machine.execL2SliceRetire cl slice s
  | .hbmRegionRetire lo len => Sys2Proof.Machine.execHbmRegionRetire lo len s
  | .hbmRowRepair stack row => Sys2Proof.Machine.execHbmRowRepair stack row s
  | .linkFlitRetry port lane n => Sys2Proof.Machine.execLinkFlitRetry port lane n s
  | .laneSpareSwap port lane => Sys2Proof.Machine.execLaneSpareSwap port lane s
  | .routeRewrite table => Sys2Proof.Machine.execRouteRewrite table s
  | .zwinenRequest src ctx va kind wit data => Sys2Proof.Machine.execZwinenRequest src ctx va kind wit data s
  | .zwinenAck u seq => Sys2Proof.Machine.execZwinenAck u seq s
  | .clockAdjust die up => Sys2Proof.Machine.execClockAdjust die up s
  | .moduleReset => Sys2Proof.Machine.execModuleReset s
  | .firmwareBoot image => Sys2Proof.Machine.execFirmwareBoot image s
  | .readyBitSet bit val => Sys2Proof.Machine.execReadyBitSet bit val s
  | .unitReset u => Sys2Proof.Machine.execUnitReset u s
  | .returnToService u => Sys2Proof.Machine.execReturnToService u s
  | .portRetrained port => Sys2Proof.Machine.execPortRetrained port s
  | .umpireTraceBase u x => Sys2Proof.Machine.execUmpireTraceBase u x s
  | .umpireTracePointer u tail x => Sys2Proof.Machine.execUmpireTracePointer u tail x s

end Sys2Proof.Machine
end

