-- ==== Sys2Proof/Machine/Step.lean ====
section
/-! DEFINITION. One step of the module: the next member of the issue group in flight, else the next pending step of the
machine, else a step that the open order of the agents brings (R171, R187). -/
namespace Sys2Proof.Machine

/-- The counter that the free values are applied to goes on. -/
def State.tick (s : State) : State := { s with free := s.free + 1 }

def step (s : State) : Host.Outcome State Fault Refusal :=
  match s.tick.nextMember with
  | some (s1, iss) =>
    (match s1.decode iss iss.cur with
     | .ok i => exec i s1
     | .error d => .next (s1.trapWord iss d))
  | none =>
    (match s.tick.agenda with
     | i :: rest => exec i { s.tick with agenda := rest }
     | [] =>
       let i := Config.schedule s.tick.free
       if i.isEvent then exec i s.tick else .next s.tick)

/-- `s` with the slot whose bits are `w` where the next step takes its instruction. -/
def State.withFetchWord (s : State) (nbits w : Nat) : State := s.placeSlot (BitVec.ofNat 96 (w % 2 ^ nbits))

end Sys2Proof.Machine
end

