-- ==== Sys2Proof/Safety.lean ====
section
/-! DEFINITION. What counts as a safe run, and the words that statements about instructions are made of: the registers of
the agent that issues, an issue group of one member, what such a member leaves alone. -/
namespace Sys2Proof.Safety
open Machine

/-- The step from a state goes on. -/
def goesOn (s : State) : Prop := ∃ t, step s = .next t

/-- No step of a run of `k` steps from a state stops. -/
def safeFor : Nat → State → Prop
  | 0, _ => True
  | k + 1, s => ∃ t, step s = .next t ∧ safeFor k t

/-- An instruction completes with a next state that has a property. -/
def Completes (i : Instr) (s : State) (P : State → Prop) : Prop := ∃ t, exec i s = .next t ∧ P t

/-- The value and tag of a stored register of an agent, by key (32·n + t for v<n> of thread t, 7168 + n for k<n>; n for
c<n> of a cox context, whose registers have no tags). -/
def regOf (s : State) (u : Nat) (who : Who) (key : Nat) : Option (Word × Tag) :=
  match who with
  | .crew k => (s.crew? u k).map (fun w => w.get key)
  | .cox g => (s.group? u g).bind (fun x => x.cox.map (fun c => (c.regs.get 0 key, intTag)))

/-- The instruction is the only member of the issue group in flight, and its agent is resident and does not replay. -/
structure Alone (s : State) (v : View) : Prop where
  view : s.view = some v
  last : v.iss.words = []
  only : v.iss.nmem = 1
  first : v.iss.fx = Fx.empty
  here : (regOf s v.iss.unit v.iss.who 0).isSome
  live : v.crew.replay = none
  full : v.crew.threads.length = 32 ∧ v.crew.sculls.length = 8
  one : v.isCox = true → v.active = [0]

/-- The stored registers of the agent after the instruction: `new` gives those that it writes, and no other changes. -/
def Landed (s t : State) (v : View) (new : Nat → Option (Word × Tag)) : Prop :=
  ∀ key old, regOf s v.iss.unit v.iss.who key = some old →
    regOf t v.iss.unit v.iss.who key = some (match new key with | some x => (x.1, if v.isCox then intTag else x.2) | none => old)

/-- One register of each thread that the instruction runs for (R56). -/
def single (v : View) (g : Guard) (d : Reg) (f : Nat → Word × Tag) (key : Nat) : Option (Word × Tag) :=
  ((v.lanes g d).find? (fun i => v.key i d == some key)).map f
/-- A register pair of each thread that the instruction runs for. -/
def double (v : View) (g : Guard) (d : Reg) (f : Nat → DWord × Tag × Tag) (key : Nat) : Option (Word × Tag) :=
  match (v.lanes g d).find? (fun i => v.key i (regPlus d 1) == some key) with
  | some i => some (hiWord (f i).1, (f i).2.2)
  | none => ((v.lanes g d).find? (fun i => v.key i d == some key)).map (fun i => (loWord (f i).1, (f i).2.1))

/-- A crew apart from a yield that another issue ends, and from the ages of its candidates that the issue passed over (R87, R442). -/
def awake (w : Crew) : Crew := { w with yielded := none, sculls := w.sculls.map (fun x => { x with yielded := none, age := 0 }) }
/-- A crew's control registers, counts and queues: all but its registers, paths, threads, stroke counters, halt and yield, and what its loads
have read early. -/
def controls (w : Crew) : Crew :=
  { w with regs := [], early := [], stroke := 0, sinceMark := 0, halt := .none, yielded := none, sculls := [], threads := [], parted := false }
/-- A core apart from its crews, its groups and the counters of its seats. -/
def uncore (c : Core) : Core := { c with crews := [], groups := [], seats := [] }

/-- What an instruction that only writes registers leaves alone: memory, every unit, every other agent, and of its own crew
the control registers, completion flags, handler levels, barrier arrivals and parked threads. The agenda, the reliability scores, the
seat's counters, paths, pending causes and FSTAT are spoken of elsewhere. -/
structure Quiet (s t : State) (v : View) : Prop where
  free : t.free = s.free
  mem : t.mem = s.mem
  poison : t.poison = s.poison
  origins : t.origins = s.origins
  contexts : t.contexts = s.contexts
  graphs : t.graphs = s.graphs
  pushes : t.pushes = s.pushes
  rounds : t.rounds = s.rounds
  roundOf : t.roundOf = s.roundOf
  monitors : t.monitors = s.monitors
  clusters : t.clusters = s.clusters
  copies : t.copies = s.copies
  iod : t.iod = s.iod
  routes : t.routes = s.routes
  modnum : t.modnum = s.modnum
  cores : ∀ n, n ≠ v.iss.unit → t.core n = s.core n
  core : uncore (t.core v.iss.unit) = uncore (s.core v.iss.unit)
  groups : ∀ g, v.iss.who ≠ .cox g → t.group? v.iss.unit g = s.group? v.iss.unit g
  crews : ∀ k, v.iss.who ≠ .crew k → (t.crew? v.iss.unit k).map awake = (s.crew? v.iss.unit k).map awake
  own : ∀ k w, v.iss.who = .crew k → t.crew? v.iss.unit k = some w →
    controls w = controls v.crew ∧
    (∀ j, (w.scull j).cf = (v.crew.scull j).cf ∧ (w.scull j).pkmask = (v.crew.scull j).pkmask) ∧
    (∀ j, (w.thread j).live = (v.crew.thread j).live ∧ (w.thread j).hlvl = (v.crew.thread j).hlvl ∧
      (w.thread j).bara = (v.crew.thread j).bara ∧ (w.thread j).mark = (v.crew.thread j).mark)

/-- FSTAT and LOSSPC after an instruction that raises no condition: unchanged, but for SHD, which shadow lanes may set (R86). -/
def FlagsKept (t : State) (v : View) : Prop :=
  ∀ k w, v.iss.who = .crew k → t.crew? v.iss.unit k = some w → ∀ j,
    (w.scull j).fstat &&& ~~~condSHD = (v.crew.scull j).fstat &&& ~~~condSHD ∧ (w.scull j).losspc = (v.crew.scull j).losspc

/-- An instruction that only writes registers: it completes, the registers `new` land, FSTAT stands, and, where the crew
does not record, all else stays. -/
def Writes (i : Instr) (s : State) (v : View) (new : Nat → Option (Word × Tag)) : Prop :=
  Completes i s (fun t => Landed s t v new ∧ FlagsKept t v ∧ (v.crew.recOk = false → Quiet s t v))

/-! Values. -/

/-- A 32-bit value as an integer: signed under TY 0, unsigned otherwise (R385). -/
def num (ty : Ty) (x : Word) : Int := if ty = .i32 then x.toInt else (x.toNat : Int)
/-- A word of one condition: 1 or 0. -/
def truth (p : Prop) [Decidable p] : Word := if p then 1 else 0
/-- One integer result in each thread that a binary instruction runs for, with the integer tag (R56, R99). -/
def binary (v : View) (o : R2) (f : Word → Word → Word) : Nat → Option (Word × Tag) :=
  single v o.g o.d (fun t => (f (v.val t o.a) (v.src t o.b).1, 0xFE))
/-- The same of a unary instruction. -/
def unary (v : View) (o : R1) (f : Word → Word) : Nat → Option (Word × Tag) :=
  single v o.g o.d (fun t => (f (v.val t o.a), 0xFE))

/-- FSTAT and LOSSPC of every scull after an instruction of the threads `ts` that raises conditions and falls below the floor in some of
them (R105, R119): conditions accumulate; the first fall of a scull whose SIG is clear sets SIG and records the PC and the threads. SHD,
which shadow lanes may set (R86), is left open. -/
def FlagsSet (t : State) (v : View) (ts : List Nat) (conds : Nat → BitVec 7) (fell : Nat → Bool) : Prop :=
  ∀ k w, v.iss.who = .crew k → t.crew? v.iss.unit k = some w → ∀ j, j < v.crew.sculls.length →
    let old := v.crew.scull j
    let mine := ts.filter (fun i => i / 4 == j)
    let now := mine.foldl (fun c i => c ||| conds i) old.fstat
    let falls := mine.filter fell
    (w.scull j).fstat &&& ~~~condSHD = (if falls = [] then now else now ||| condSIG) &&& ~~~condSHD ∧
    (w.scull j).losspc = if falls = [] ∨ now.getLsbD 5 = true then old.losspc
      else BitVec.ofNat 64 (maskOf (falls.map (fun i => i % 4)) * 2 ^ 60 + v.iss.pc.toNat / 64 * 64 + v.iss.pc.toNat % 8 + v.iss.idx)

/-- A floating instruction: it completes, `new` lands, conditions and falls are as given, and, where the crew does not
record, all else stays. -/
def Computes (i : Instr) (s : State) (v : View) (ts : List Nat) (new : Nat → Option (Word × Tag)) (conds : Nat → BitVec 7) (fell : Nat → Bool) : Prop :=
  Completes i s (fun t => Landed s t v new ∧ FlagsSet t v ts conds fell ∧ (v.crew.recOk = false → Quiet s t v))

/-- An FP32 result of each thread: its value and tag, its conditions, and its fall below SFLOOR (R103, R104). -/
def Floats32 (i : Instr) (s : State) (v : View) (g : Guard) (d : Reg) (r : Nat → FOut) : Prop :=
  Computes i s v (v.lanes g d) (single v g d (fun t => (BitVec.ofNat 32 (r t).bits, (r t).tr.tag))) (fun t => (r t).conds)
    (fun t => decide ((r t).tr.t < v.crew.sigfloor.toNat / 2 ^ 16 % 32))
/-- An FP64 result of each thread; the odd register's tag is 0xFF (R89). -/
def Floats64 (i : Instr) (s : State) (v : View) (g : Guard) (d : Reg) (r : Nat → FOut) : Prop :=
  Computes i s v (v.lanes g d) (double v g d (fun t => (BitVec.ofNat 64 (r t).bits, (r t).tr.tag, 0xFF))) (fun t => (r t).conds)
    (fun t => decide ((r t).tr.t < v.crew.sigfloor.toNat / 2 ^ 24 % 64))
/-- A packed-half result of each thread, half by half. -/
def FloatsHalf (i : Instr) (s : State) (v : View) (g : Guard) (d : Reg) (lo hi : Nat → FOut) : Prop :=
  Computes i s v (v.lanes g d)
    (single v g d (fun t => (BitVec.ofNat 32 ((hi t).bits * 2 ^ 16 + (lo t).bits), BitVec.ofNat 8 (16 * (hi t).tr.t + (lo t).tr.t))))
    (fun t => (lo t).conds ||| (hi t).conds)
    (fun t => decide ((lo t).tr.t < v.crew.sigfloor.toNat / 2 ^ 8 % 16) || decide ((hi t).tr.t < v.crew.sigfloor.toNat / 2 ^ 8 % 16))
/-- An integer result of a floating instruction: no fall, conditions `c`. -/
def FloatsInt (i : Instr) (s : State) (v : View) (g : Guard) (d : Reg) (f : Nat → Word) (c : Nat → BitVec 7) : Prop :=
  Computes i s v (v.lanes g d) (single v g d (fun t => (f t, 0xFE))) c (fun _ => false)

/-- An FP32 operand with its trust (R91). -/
def f32 (x : Word × Tag) : Opd := ⟨fp32.value x.1.toNat, readTag 24 x.2⟩
/-- A half of a register under the half format of the thread's path; under NBV 1 a BF16 subnormal reads as zero (R114, R128). -/
def half (v : View) (t : Nat) (hi : Bool) (x : Word × Tag) : Opd := halfOpd v.nbv (halfFmt (v.fmtr t)) hi x
/-- The tag of a half has no debt, and an inexact half loses a bit (R96). -/
def halfResult (v : View) (t : Nat) (o : FOut) : FOut :=
  { o with tr := ⟨if o.conds.getLsbD 4 then min o.tr.t ((halfFmt (v.fmtr t)).p - 1) else o.tr.t, 0⟩ }

/-- `n` registers from D on of each thread that the instruction runs for: `f t i` is the value and tag of register D + i (R56). -/
def several (v : View) (g : Guard) (d : Reg) (n : Nat) (f : Nat → Nat → Word × Tag) (key : Nat) : Option (Word × Tag) :=
  (((v.lanes g d).flatMap (fun t => (List.range n).map (fun i => (t, i)))).find? (fun x => v.key x.1 (regPlus d x.2) == some key)).map (fun x => f x.1 x.2)

/-! Reductions over the 32 thread positions (R122, R123). -/

/-- Two positions of which either may be absent. -/
def merged {α : Type} (op : α → α → α) (a b : Option α) : Option α :=
  match a, b with | some x, some y => some (op x y) | some x, none => some x | none, y => y
/-- The tree of R122: the value of position 0. -/
def tree {α : Type} (op : α → α → α) (at_ : Nat → Option α) : Option α :=
  (List.range 5).foldl (fun (f : Nat → Option α) l i => if i % 2 ^ (l + 1) = 0 then merged op (f i) (f (i + 2 ^ l)) else f i) at_ 0
/-- The inclusive scan of R123. -/
def scan {α : Type} (op : α → α → α) (at_ : Nat → Option α) : Nat → Option α :=
  [1, 2, 4, 8, 16].foldl (fun (f : Nat → Option α) d i => if d ≤ i then merged op (f (i - d)) (f i) else f i) at_
/-- What position t holds: the value of a participating thread (R420). -/
def position (v : View) (g : Guard) (ty : Ty) (a : Reg) (t : Nat) : Option Elem := if t ∈ v.acting g then some (v.elem t ty a) else none
/-- The registers that an element of a type is written to, with the tags of R99 and R420. -/
def elemWrites (v : View) (g : Guard) (ty : Ty) (d : Reg) (e : Nat → Elem) : Nat → Option (Word × Tag) :=
  if ty.wide then double v g d (fun t => (BitVec.ofNat 64 (e t).x, if ty = .f64 then (e t).tr.tag else 0xFE, if ty = .f64 then 0xFF else 0xFE))
  else single v g d (fun t => (BitVec.ofNat 32 (e t).x, if ty = .f32 then (e t).tr.tag else 0xFE))
/-- A floating element falls below the floor of its type (R104). -/
def elemFalls (v : View) (ty : Ty) (e : Elem) : Bool :=
  (ty == .f32 && decide (e.tr.t < v.crew.sigfloor.toNat / 2 ^ 16 % 32)) || (ty == .f64 && decide (e.tr.t < v.crew.sigfloor.toNat / 2 ^ 24 % 64))

/-! The L1 of a core (R136). -/

/-- The byte that a core sees in L1 space: its L1's where valid, else the home's. -/
def seen (s : State) (u a : Nat) : Byte := match (s.core u).l1.find? a with | some x => x.val | none => s.byte a
/-- The line of a byte holds a way of the L1. -/
def HasWay (s : State) (u a : Nat) : Prop := ((s.core u).ways.find? (a / 128)).isSome = true
/-- A byte that a step leaves alone, in the L1 and at its home. Where `evict` its line may instead have left the L1, and where `swept` it
may have been written back: a dirty value is then at its home. -/
def Spared (s t : State) (u a : Nat) (evict swept : Prop) : Prop :=
  ((t.core u).l1.find? a = (s.core u).l1.find? a ∧ t.byte a = s.byte a) ∨
  (evict ∧ (t.core u).l1.find? a = none ∧
    t.byte a = match (s.core u).l1.find? a with | some x => if x.dirty ≠ [] then x.val else s.byte a | none => s.byte a) ∨
  (swept ∧ ∃ x, (s.core u).l1.find? a = some x ∧ x.dirty ≠ [] ∧ (t.core u).l1.find? a = some { x with dirty := [] } ∧ t.byte a = x.val)

/-! Where threads stand after an instruction. -/

/-- Thread j stands at a PC in a path that does not wait; of a cox context, the context does (R72, R82). -/
def Stands (t : State) (v : View) (j : Nat) (pc : DWord) : Prop :=
  match v.iss.who with
  | .crew k => ∃ w p, t.crew? v.iss.unit k = some w ∧ pathOfThread (w.scull (j / 4)) (j % 4) = some p ∧ p.pc = pc ∧ p.wait = .none
  | .cox g => ∃ x c, t.group? v.iss.unit g = some x ∧ x.cox = some c ∧ c.pc = pc ∧ c.wait = .none

/-- The paths of a crew that issues are in order (R72): each scull that issues has a running path, no waiting path of it holds a thread
that issues, and its stack has room; and its threads are not stepped (R291). -/
structure Runs (v : View) : Prop where
  ids : ∀ t ∈ v.active, t < 32
  parts : v.isCox = false → ∀ t ∈ v.active, t / 4 ∈ v.iss.parts
  running : v.isCox = false → ∀ k ∈ v.iss.parts, ((v.crew.scull k).run).isSome
  room : v.isCox = false → ∀ k ∈ v.iss.parts, (v.crew.scull k).stack.length ≤ 12
  apart : v.isCox = false → ∀ t ∈ v.active, ∀ e ∈ (v.crew.scull (t / 4)).stack, bitAt e.2.mask (t % 4) = false
  free : v.crew.dbgctl.getLsbD 8 = false

/-- An instruction that writes registers and moves threads: it completes, `new` lands, and thread j goes on at `dest j`. -/
def Goes (i : Instr) (s : State) (v : View) (dest : Nat → DWord) (new : Nat → Option (Word × Tag)) : Prop :=
  Completes i s (fun t => Landed s t v new ∧ FlagsKept t v ∧ (∀ j ∈ v.active, Stands t v j (dest j)) ∧ (v.crew.recOk = false → Quiet s t v))
/-- An instruction that does nothing more than go on to the next. -/
def Passes (i : Instr) (s : State) (v : View) : Prop := Goes i s v (fun _ => v.iss.next) (fun _ => none)

/-- Thread j holds a cause that waits for its delivery, with the PCs of its frame (R235, R243); of a cox context, the context stops with it
(R83). -/
def Holds (t : State) (v : View) (j cause sub faddr : Nat) (next : Bool) : Prop :=
  match v.iss.who with
  | .crew k => ∃ w p, t.crew? v.iss.unit k = some w ∧ (w.thread j).pend = some p ∧ p.cause = cause ∧ p.sub = sub ∧ p.faddr = faddr ∧
      p.pc = v.iss.pc ∧ p.rpc = (if next then v.iss.next else v.iss.pc) ∧ p.instr = v.iss.cur
  | .cox g => ∃ x c p, t.group? v.iss.unit g = some x ∧ x.cox = some c ∧ c.stopped = true ∧ c.trap = some p ∧
      p.cause = cause ∧ p.sub = sub ∧ p.faddr = faddr ∧ p.pc = v.iss.pc ∧ p.instr = v.iss.cur
/-- An instruction that traps in the threads `ts` and has no other effect: each takes its cause, subcode and fault address; the delivery
follows. -/
def Traps (i : Instr) (s : State) (v : View) (ts : List Nat) (f : Nat → AFault) (next : Bool) : Prop :=
  Completes i s (fun t => Landed s t v (fun _ => none) ∧ FlagsKept t v ∧ (∀ j ∈ ts, Holds t v j (f j).1 (f j).2.1 (f j).2.2 next) ∧
    (∀ k, v.iss.who = .crew k → ts ≠ [] → Instr.trapDelivery v.iss.unit k ∈ t.agenda) ∧ (v.crew.recOk = false → Quiet s t v))

/-- An instruction that is held back: its paths wait at its PC with a wait reason, and no register, flag or byte of memory changes. -/
def Waits (i : Instr) (s : State) (v : View) (w : Wait) : Prop :=
  Completes i s (fun t => t.issue = none ∧ t.mem = s.mem ∧ Landed s t v (fun _ => none) ∧
    match v.iss.who with
    | .crew k => ∃ c, t.crew? v.iss.unit k = some c ∧ c.stroke = v.crew.stroke ∧
        ∀ n ∈ v.iss.parts, n < 8 → (c.scull n).fstat = (v.crew.scull n).fstat ∧
          ∀ p, (v.crew.scull n).run = some p → (c.scull n).run = some { p with wait := w, since := v.core.ccyc, issued := if w.started then p.mask else p.issued }
    | .cox g => ∃ x c, t.group? v.iss.unit g = some x ∧ x.cox = some c ∧ c.pc = v.cox.pc ∧ c.wait = w)

/-- What a slot instruction leaves alone that touches only its own agent, its own core and its own origin: memory at its homes, every
other core, crew, group and origin, the units of the cluster and of the I/O die. -/
structure Calm (s t : State) (v : View) : Prop where
  free : t.free = s.free
  mem : t.mem = s.mem
  poison : t.poison = s.poison
  graphs : t.graphs = s.graphs
  pushes : t.pushes = s.pushes
  rounds : t.rounds = s.rounds
  roundOf : t.roundOf = s.roundOf
  clusters : t.clusters = s.clusters
  copies : t.copies = s.copies
  routes : t.routes = s.routes
  modnum : t.modnum = s.modnum
  origins : ∀ o, o ≠ v.iss.unit → t.origin o = s.origin o
  cores : ∀ n, n ≠ v.iss.unit → t.core n = s.core n
  groups : ∀ g, g ≠ v.gid → t.group? v.iss.unit g = s.group? v.iss.unit g
  crews : ∀ k, v.iss.who ≠ .crew k → (t.crew? v.iss.unit k).map awake = (s.crew? v.iss.unit k).map awake

/-- The control registers of the issuing crew after the instruction are `f` of those before, and its threads' handler levels, barrier
arrivals and parked marks stand. -/
def Controls (t : State) (v : View) (f : Crew → Crew) : Prop :=
  ∀ k w, v.iss.who = .crew k → t.crew? v.iss.unit k = some w →
    controls w = f (controls v.crew) ∧ (∀ j, (w.scull j).pkmask = (v.crew.scull j).pkmask) ∧
    ∀ j, (w.thread j).live = (v.crew.thread j).live ∧ (w.thread j).hlvl = (v.crew.thread j).hlvl ∧ (w.thread j).bara = (v.crew.thread j).bara

/-- An instruction that issues operations or sets what only its agent holds: it completes, its threads go on to the next instruction, no
condition is raised, and, where the crew does not record, what is not its own stays. -/
def Issues (i : Instr) (s : State) (v : View) (P : State → Prop) : Prop :=
  Completes i s (fun t => FlagsKept t v ∧ (∀ j ∈ v.active, Stands t v j v.iss.next) ∧ (v.crew.recOk = false → Calm s t v) ∧ P t)
/-- The same of an instruction that reads memory inside its issue, at the bytes `as`: an L1 line that it misses takes a way, so that another
line may leave the L1 for its home (R136), and of a replicated line, a key from 2^57 on, the cluster then holds a copy (R151). -/
def IssuesReading (i : Instr) (s : State) (v : View) (as : List Nat) (P : State → Prop) : Prop :=
  Completes i s (fun t => FlagsKept t v ∧ (∀ j ∈ v.active, Stands t v j v.iss.next) ∧
    (v.crew.recOk = false → (∀ a ∈ as, a < 2 ^ 57 ∧ HasWay s v.iss.unit a) → Calm s t v) ∧ P t)
/-- The same of an instruction that traps in the threads `ts` after its reads. -/
def TrapsReading (i : Instr) (s : State) (v : View) (as : List Nat) (ts : List Nat) (f : Nat → AFault) : Prop :=
  ((∀ a ∈ as, a < 2 ^ 57 ∧ ((s.core v.iss.unit).l1.find? a).isSome) → Traps i s v ts f false) ∧
  Completes i s (fun t => Landed s t v (fun _ => none) ∧ FlagsKept t v ∧ ∀ j ∈ ts, Holds t v j (f j).1 (f j).2.1 (f j).2.2 false)

/-- The path of a scull that was waiting goes on at the PC after its unpaired instruction. -/
def Resumed (t : State) (u slot k : Nat) (p : Path) : Prop :=
  ∃ w q, t.crew? u slot = some w ∧ (w.scull k).run = some q ∧ q.pc = BitVec.ofNat 64 (pcAfter p.pc.toNat (p.pc.toNat % 8)) ∧ q.mask = p.mask ∧ q.wait = .none
/-- The path of a scull that was waiting may issue its instruction again. -/
def Retried (t : State) (u slot k : Nat) (p : Path) : Prop :=
  ∃ w q, t.crew? u slot = some w ∧ (w.scull k).run = some q ∧ q.pc = p.pc ∧ q.mask = p.mask ∧ q.wait = .none
/-- A crew with a scull whose running path waits. -/
structure Parked (s : State) (u slot k : Nat) (w : Crew) (p : Path) : Prop where
  here : s.crew? u slot = some w
  path : (w.scull k).run = some p
  free : w.dbgctl.getLsbD 8 = false
  small : k < 8

/-- A starter offers a core and places the record that heads its queue of level l: nothing of a higher level waits, no record is reserved
for, the core has room, and the record's frame can be read (R187). -/
structure Placing (s : State) (cl u l : Nat) (q : QRec) (rest : List QRec) (room : Room) (frame : List Byte) : Prop where
  offered : s.offered cl u = true
  queue : (s.cluster cl).queues.getD l [] = q :: rest
  eight : (s.cluster cl).queues.length = 8
  low : l < 8
  above : ∀ k, l < k → (s.cluster cl).queues.getD k [] = []
  good : s.runGood q.graph q.run = true
  taken : s.skips q = false
  fresh : q.bypass < 64 ∧ ∀ x ∈ rest, x.bypass < 64
  room : s.room u q = some room
  clean : ∀ i, s.frameMarks cl q i = []
  frame : s.fetchVa cl q.ctx (recFrame q.words) (160 * (liveRegs (recLive q.words) (recLivebase q.words)).length * recCrews q.words) = some frame

/-! Exact values and their rounding (R116, R117). -/

/-- An exact real value, given by the rationals below it and those above it. -/
structure Exact where
  above : Rat → Prop
  below : Rat → Prop
/-- A rational as an exact value: `above q` says that the value lies above q. -/
def Exact.of (x : Rat) : Exact := ⟨fun q => q < x, fun q => x < q⟩
/-- The square root of a rational, and its reciprocal. -/
def Exact.sqrt (x : Rat) : Exact := ⟨fun q => q < 0 ∨ q * q < x, fun q => 0 ≤ q ∧ x < q * q⟩
def Exact.rsqrt (x : Rat) : Exact := ⟨fun q => q ≤ 0 ∨ q * q * x < 1, fun q => 0 < q ∧ 1 < q * q * x⟩
/-- The value is `q`. -/
def Exact.is (x : Exact) (q : Rat) : Prop := ¬ x.above q ∧ ¬ x.below q
/-- A finite value as a rational. -/
def ratOf : FVal → Rat | .fin n m e => (if n then -1 else 1) * (m : Rat) * (2 : Rat) ^ e | _ => 0
/-- An encoding of a finite value of a format. -/
def Encodes (f : Fmt) (b : Nat) (x : Rat) : Prop := b < 2 ^ f.bits ∧ (∃ n m e, f.value b = .fin n m e) ∧ ratOf (f.value b) = x
/-- `v`, which is in the set, is the value that a mode chooses for `x` among the set: `x` itself, or its neighbour (R116). -/
def Chosen (mode : Mode) (set even : Rat → Prop) (x : Exact) (v : Rat) : Prop :=
  match mode with
  | .near => ∀ y, set y → (v < y → ¬ x.above ((v + y) / 2)) ∧ (y < v → ¬ x.below ((v + y) / 2)) ∧ (y ≠ v → x.is ((v + y) / 2) → even v)
  | .zero => (x.above 0 → ¬ x.below v ∧ ∀ y, set y → ¬ x.below y → y ≤ v) ∧ (x.below 0 → ¬ x.above v ∧ ∀ y, set y → ¬ x.above y → v ≤ y)
  | .up => ¬ x.above v ∧ ∀ y, set y → ¬ x.above y → v ≤ y
  | .down => ¬ x.below v ∧ ∀ y, set y → ¬ x.below y → y ≤ v
/-- The largest finite value of a format and the distance to the next one that an unbounded exponent would have. -/
def largest (f : Fmt) : Rat := (f.maxSig : Rat) * (2 : Rat) ^ (f.emax - (f.p : Int) + 1)
def topStep (f : Fmt) : Rat := (2 : Rat) ^ (f.emax - (f.p : Int) + 1)
/-- The magnitude rounded with unbounded exponent exceeds the largest finite value (R116). -/
def Overflows (f : Fmt) (mode : Mode) (x : Exact) : Prop :=
  let tie : Rat := largest f + topStep f / 2
  let next : Rat := largest f + topStep f
  match mode with
  | .near => x.above tie ∨ x.below (-tie) ∨ (f.maxSig % 2 = 1 ∧ (x.is tie ∨ x.is (-tie)))
  | .zero => ¬ x.below next ∨ ¬ x.above (-next)
  | .up => x.above (largest f) ∨ ¬ x.above (-next)
  | .down => ¬ x.below next ∨ x.below (-largest f)
/-- What overflow delivers (R117): an infinity, or the largest finite value, of the sign of the exact value. -/
def overflowed (f : Fmt) (mode : Mode) (sat neg : Bool) (b : Nat) : Prop :=
  if f.top ≠ .ieee ∨ sat = true ∨ mode = .zero ∨ (mode = .up ∧ neg = true) ∨ (mode = .down ∧ neg = false) then Encodes f b (if neg then -largest f else largest f)
  else f.value b = .inf neg
/-- RoundTo of an exact value that is not zero: the result's value and sign, its inexactness and its conditions (R116, R117, R119). -/
def RoundsTo (f : Fmt) (mode : Mode) (sat : Bool) (x : Exact) (r : FRes) : Prop :=
  ∀ neg : Bool, (neg = true ↔ x.below 0) → bitAt r.bits (f.bits - 1) = neg ∧
    (Overflows f mode x → overflowed f mode sat neg r.bits ∧ r.inexact = true ∧ r.conds = condOF ||| condNX) ∧
    (¬ Overflows f mode x → ∃ v, Encodes f r.bits v ∧ Chosen mode (fun y => ∃ b, Encodes f b y) (fun _ => r.bits % 2 = 0) x v ∧ (r.inexact = false ↔ x.is v) ∧
      (x.is v → r.conds = 0) ∧ (¬ x.is v → v ≠ 0 ∧ v < (2 : Rat) ^ f.emin ∧ -((2 : Rat) ^ f.emin) < v → r.conds = condNX ||| condUF) ∧
      (¬ x.is v → (v = 0 ∨ (2 : Rat) ^ f.emin ≤ v ∨ v ≤ -((2 : Rat) ^ f.emin)) → r.conds = condNX))

end Sys2Proof.Safety
end

