-- ==== Sys2Proof/Certificates/Slice0/Obligations.lean ====
section
/-! DEFINITION. The statements about the model. Each is about every state and every operand that its hypotheses admit. -/
open Sys2Proof Sys2Proof.Machine Sys2Proof.Safety

/-- R385: what the 32-bit integer members and the members with a pair result write, in each thread they run for, with the tags of the result; no other register, no condition, no memory. -/
def Obligations.IntegerArithmetic : Prop :=
  (∀ (s : State) (v : View), Alone s v → ∀ (ty : Ty) (o : R2) (u : R1) (m : R3) (cc : ICmp),
      Writes (.iadd ty o) s v (binary v o (fun a b => BitVec.ofInt 32 (a.toInt + b.toInt))) ∧
      Writes (.isub ty o) s v (binary v o (fun a b => BitVec.ofInt 32 (a.toInt - b.toInt))) ∧
      Writes (.imul ty o) s v (binary v o (fun a b => BitVec.ofInt 32 (a.toInt * b.toInt))) ∧
      Writes (.imulhi ty o) s v (binary v o (fun a b => BitVec.ofInt 32 ((num ty a * num ty b) / 2 ^ 32))) ∧
      Writes (.imad ty m) s v (single v m.g m.d (fun t =>
        (BitVec.ofInt 32 ((v.val t m.a).toInt * (v.src t m.b).1.toInt + (v.val t m.c).toInt), 0xFE))) ∧
      Writes (.imin ty o) s v (binary v o (fun a b => BitVec.ofInt 32 (min (num ty a) (num ty b)))) ∧
      Writes (.imax ty o) s v (binary v o (fun a b => BitVec.ofInt 32 (max (num ty a) (num ty b)))) ∧
      Writes (.iabs u) s v (unary v u (fun a => BitVec.ofInt 32 (a.toInt.natAbs : Int))) ∧
      Writes (.ineg ty u) s v (unary v u (fun a => BitVec.ofInt 32 (-a.toInt))) ∧
      Writes (.icmp cc ty o) s v (binary v o (fun a b =>
        match cc with
        | .eq => truth (num ty a = num ty b) | .ne => truth (num ty a ≠ num ty b) | .lt => truth (num ty a < num ty b)
        | .le => truth (num ty a ≤ num ty b) | .gt => truth (num ty a > num ty b) | .ge => truth (num ty a ≥ num ty b)))) ∧
  (∀ (s : State) (v : View), Alone s v → ∀ (ty : Ty) (o : R2) (m : R3),
      Writes (.iadd64 ty o) s v (double v o.g o.d (fun t =>
        (v.pair t o.a + (match o.b with | .reg r => v.pair t r | .imm w => if ty = .i64 then BitVec.ofInt 64 w.toInt else BitVec.ofNat 64 w.toNat), 0xFE, 0xFE))) ∧
      Writes (.imad64 ty m) s v (double v m.g m.d (fun t =>
        (BitVec.ofInt 64 (num ty (v.val t m.a) * num ty (v.src t m.b).1 + (v.pair t m.c).toInt), 0xFE, 0xFE))))

/-- R334, R346, R412 and their kin, R341, R423: logic, shifts, fields and counts. -/
def Obligations.LogicShiftField : Prop :=
  ∀ (s : State) (v : View), Alone s v → ∀ (o : R2) (u : R1) (m : R3) (sx : Bool),
    Writes (.and o) s v (binary v o (fun a b => a &&& b)) ∧
    Writes (.or o) s v (binary v o (fun a b => a ||| b)) ∧
    Writes (.xor o) s v (binary v o (fun a b => a ^^^ b)) ∧
    Writes (.not u) s v (unary v u (fun a => ~~~a)) ∧
    Writes (.shl o) s v (binary v o (fun a b => BitVec.ofNat 32 (a.toNat * 2 ^ (b.toNat % 64)))) ∧
    Writes (.shr o) s v (binary v o (fun a b => BitVec.ofNat 32 (a.toNat / 2 ^ (b.toNat % 64)))) ∧
    Writes (.sar o) s v (binary v o (fun a b => BitVec.ofInt 32 (a.toInt / 2 ^ (b.toNat % 64)))) ∧
    Writes (.popc u) s v (unary v u (fun a => BitVec.ofNat 32 ((List.range 32).countP (fun i => a.getLsbD i)))) ∧
    Writes (.clz u) s v (unary v u (fun a => if a = 0 then 32 else BitVec.ofNat 32 (31 - a.toNat.log2))) ∧
    Writes (.brev u) s v (unary v u (fun a => a.reverse)) ∧
    Writes (.bfx sx o) s v (binary v o (fun a b =>
      let pos := b.toNat % 32
      let h := min (pos + b.toNat / 256 % 64) 32
      let field := a.toNat % 2 ^ h / 2 ^ pos
      if h = pos then 0
      else if sx = true ∧ a.getLsbD (h - 1) = true then BitVec.ofInt 32 ((field : Int) - 2 ^ (h - pos)) else BitVec.ofNat 32 field)) ∧
    Writes (.bfi m) s v (single v m.g m.d (fun t =>
      let b := (v.src t m.b).1
      let pos := b.toNat % 32
      let h := min (pos + b.toNat / 256 % 64) 32
      (BitVec.ofNat 32 ((v.val t m.c).toNat / 2 ^ h * 2 ^ h + (v.val t m.a).toNat % 2 ^ (h - pos) * 2 ^ pos + (v.val t m.c).toNat % 2 ^ pos), 0xFE)))

/-- R401, R406, R426, R107: moves, selection and the significance instructions, with the tags they write; SIGMIN lowers the trust of A to that of B, or to n, and keeps the larger debt. -/
def Obligations.MovesAndTags : Prop :=
  (∀ (s : State) (v : View), Alone s v → ∀ (ty : Ty) (u : R1) (o : R2) (m : R3) (g : Guard) (d : Reg) (imm : Word),
      Writes (.mov ty u) s v
        (if ty.wide then double v u.g u.d (fun t => (v.pair t u.a, v.tag t u.a, v.tag t (regPlus u.a 1))) else single v u.g u.d (fun t => v.reg t u.a)) ∧
      Writes (.movi ty g d imm) s v (single v g d (fun _ => (imm, if ty = .f32 then 0x60 else 0xFE))) ∧
      Writes (.sel ty m) s v
        (if ty.wide then
          double v m.g m.d (fun t =>
            if (v.val t m.c).getLsbD 0 then (v.pair t m.a, v.tag t m.a, v.tag t (regPlus m.a 1))
            else match m.b with
              | .reg r => (v.pair t r, v.tag t r, v.tag t (regPlus r 1))
              | .imm w => (BitVec.ofInt 64 w.toInt, 0xFE, 0xFE))
        else single v m.g m.d (fun t => if (v.val t m.c).getLsbD 0 then v.reg t m.a else v.src t m.b)) ∧
      Writes (.sigget u) s v (single v u.g u.d (fun t => (BitVec.ofNat 32 (v.tag t u.a).toNat, 0xFE))) ∧
      Writes (.sigset ty o) s v
        (if ty.wide then double v o.g o.d (fun t => (v.pair t o.a, BitVec.ofNat 8 (v.src t o.b).1.toNat, 0xFF))
        else single v o.g o.d (fun t => (v.val t o.a, BitVec.ofNat 8 (v.src t o.b).1.toNat)))) ∧
  (∀ (s : State) (v : View), Alone s v → ∀ (ty : Ty) (o : R2),
      (ty.packed = false → ∀ b, o.b = .reg b →
        let tag (t : Nat) : Tag := BitVec.ofNat 8 (4 * min (readTag ty.prec (v.tag t o.a)).t (readTag ty.prec (v.tag t b)).t +
          max (readTag ty.prec (v.tag t o.a)).debt (readTag ty.prec (v.tag t b)).debt)
        Writes (.sigmin ty o) s v (if ty.wide then double v o.g o.d (fun t => (v.pair t o.a, tag t, 0xFF)) else single v o.g o.d (fun t => (v.val t o.a, tag t)))) ∧
      (ty.packed = false → ∀ n, o.b = .imm n →
        let tag (t : Nat) : Tag := BitVec.ofNat 8 (4 * min (readTag ty.prec (v.tag t o.a)).t n.toNat + (readTag ty.prec (v.tag t o.a)).debt)
        Writes (.sigmin ty o) s v (if ty.wide then double v o.g o.d (fun t => (v.pair t o.a, tag t, 0xFF)) else single v o.g o.d (fun t => (v.val t o.a, tag t)))) ∧
      (ty.packed = true → ty.wide = false →
        let p (t : Nat) : Nat := (halfFmt (v.fmtr t)).p
        let other (t : Nat) (hi : Bool) : Nat := match o.b with | .imm n => n.toNat | .reg b => (readHalf (p t) hi (v.tag t b)).t
        Writes (.sigmin ty o) s v (single v o.g o.d (fun t => (v.val t o.a,
          BitVec.ofNat 8 (16 * min (readHalf (p t) true (v.tag t o.a)).t (other t true) + min (readHalf (p t) false (v.tag t o.a)).t (other t false)))))))

/-- R363 to R366, R372 to R374 with R93 to R95: the FP32 members, and the FP64 members, of which an immediate is the high word of the second operand (R364). That FMIN and FMAX write the tag
of the operand they return as it is decoded, a zero of the other sign not counting as equal, and that FEXP2 and FLOG2 are rounded from 320-bit intermediates, is the model's choice (log entry 13). -/
def Obligations.FloatMembers : Prop :=
  (∀ (s : State) (v : View), Alone s v → ∀ (rm : Rnd) (o : R2) (u : R1) (m : R3),
      let a (t : Nat) : Opd := f32 (v.reg t o.a)
      let b (t : Nat) : Opd := f32 (v.src t o.b)
      let x (t : Nat) : Opd := f32 (v.reg t u.a)
      let mode (t : Nat) : Mode := modeOf rm (v.fmtr t)
      Floats32 (.fadd rm o) s v o.g o.d (fun t => FOut.of fp32 (fp32.add (mode t) (a t).v (b t).v) (addTag 24 (a t) (b t))) ∧
      Floats32 (.fsub rm o) s v o.g o.d (fun t => FOut.of fp32 (fp32.add (mode t) (a t).v (b t).v.negate) (addTag 24 (a t) (b t))) ∧
      Floats32 (.fmul rm o) s v o.g o.d (fun t => FOut.of fp32 (fp32.mul (mode t) (a t).v (b t).v) (mulTag 24 (a t) (b t))) ∧
      Floats32 (.fdiv rm o) s v o.g o.d (fun t => FOut.of fp32 (fp32.div (mode t) (a t).v (b t).v) (mulTag 24 (a t) (b t))) ∧
      Floats32 (.ffma rm m) s v m.g m.d (fun t =>
        FOut.of fp32 (fp32.fma (mode t) (f32 (v.reg t m.a)).v (f32 (v.src t m.b)).v (f32 (v.reg t m.c)).v)
          (fmaTag 24 (f32 (v.reg t m.a)) (f32 (v.src t m.b)) (f32 (v.reg t m.c)))) ∧
      Floats32 (.fmin o) s v o.g o.d (fun t => outPick fp32 false (v.val t o.a).toNat (v.src t o.b).1.toNat (a t) (b t)) ∧
      Floats32 (.fmax o) s v o.g o.d (fun t => outPick fp32 true (v.val t o.a).toNat (v.src t o.b).1.toNat (a t) (b t)) ∧
      Floats32 (.fsqrt rm u) s v u.g u.d (fun t => FOut.of fp32 (fp32.sqrt (mode t) (x t).v) (unTag 24 (x t))) ∧
      Floats32 (.frcp rm u) s v u.g u.d (fun t => FOut.of fp32 (fp32.div (mode t) (.fin false 1 0) (x t).v) (unTag 24 (x t))) ∧
      Floats32 (.frsq rm u) s v u.g u.d (fun t => FOut.of fp32 (fp32.rsqrt (mode t) (x t).v) (unTag 24 (x t))) ∧
      Floats32 (.fexp2 rm u) s v u.g u.d (fun t => FOut.of fp32 (fp32.exp2 (mode t) (x t).v) (unTag 24 (x t))) ∧
      Floats32 (.flog2 rm u) s v u.g u.d (fun t => FOut.of fp32 (fp32.log2 (mode t) (x t).v) (unTag 24 (x t))) ∧
      Floats32 (.frnd rm u) s v u.g u.d (fun t => FOut.of fp32 (fp32.rint (mode t) (v.val t u.a).toNat) (rndTag 24 (x t)))) ∧
  (∀ (s : State) (v : View), Alone s v → ∀ (rm : Rnd) (o : R2) (u : R1) (m : R3),
      let reg (t : Nat) (r : Reg) : Opd := ⟨fp64.value (v.pair t r).toNat, readTag 53 (v.tag t r)⟩
      let src (t : Nat) (b : Src) : Opd := match b with | .reg r => reg t r | .imm w => ⟨fp64.value (w.toNat * 2 ^ 32), ⟨53, 0⟩⟩
      let mode (t : Nat) : Mode := modeOf rm (v.fmtr t)
      Floats64 (.dadd rm o) s v o.g o.d (fun t => FOut.of fp64 (fp64.add (mode t) (reg t o.a).v (src t o.b).v) (addTag 53 (reg t o.a) (src t o.b))) ∧
      Floats64 (.dsub rm o) s v o.g o.d (fun t => FOut.of fp64 (fp64.add (mode t) (reg t o.a).v (src t o.b).v.negate) (addTag 53 (reg t o.a) (src t o.b))) ∧
      Floats64 (.dmul rm o) s v o.g o.d (fun t => FOut.of fp64 (fp64.mul (mode t) (reg t o.a).v (src t o.b).v) (mulTag 53 (reg t o.a) (src t o.b))) ∧
      Floats64 (.ddiv rm o) s v o.g o.d (fun t => FOut.of fp64 (fp64.div (mode t) (reg t o.a).v (src t o.b).v) (mulTag 53 (reg t o.a) (src t o.b))) ∧
      Floats64 (.dfma rm m) s v m.g m.d (fun t =>
        FOut.of fp64 (fp64.fma (mode t) (reg t m.a).v (src t m.b).v (reg t m.c).v) (fmaTag 53 (reg t m.a) (src t m.b) (reg t m.c))) ∧
      Floats64 (.dsqrt rm u) s v u.g u.d (fun t => FOut.of fp64 (fp64.sqrt (mode t) (reg t u.a).v) (unTag 53 (reg t u.a))))

/-- R366, R383, R96: a floating compare writes 1 or 0 with the integer tag, and a signalling NaN raises NV; the packed-half members, half by half, in the half format of the path. That HMAX2
writes the tag of the operand it returns as it is decoded is the model's choice (log entry 13). -/
def Obligations.ComparesAndHalves : Prop :=
  (∀ (s : State) (v : View), Alone s v → ∀ (cc : FCmp) (o : R2),
      let c32 (t : Nat) : FVal × FVal := (fp32.value (v.val t o.a).toNat, fp32.value (v.src t o.b).1.toNat)
      let c64 (t : Nat) : FVal × FVal :=
        (fp64.value (v.pair t o.a).toNat, fp64.value (match o.b with | .reg r => (v.pair t r).toNat | .imm w => w.toNat * 2 ^ 32))
      let ch (t : Nat) (hi : Bool) : FVal × FVal := ((half v t hi (v.reg t o.a)).v, (half v t hi (v.src t o.b)).v)
      let nv (p : FVal × FVal) : BitVec 7 := if p.1.isSnan ∨ p.2.isSnan then 1 else 0
      FloatsInt (.fcmp cc o) s v o.g o.d (fun t => truth (fcmpHolds cc (c32 t).1 (c32 t).2 = true)) (fun t => nv (c32 t)) ∧
      FloatsInt (.dcmp cc o) s v o.g o.d (fun t => truth (fcmpHolds cc (c64 t).1 (c64 t).2 = true)) (fun t => nv (c64 t)) ∧
      FloatsInt (.hcmp2 cc o) s v o.g o.d
        (fun t => truth (fcmpHolds cc (ch t false).1 (ch t false).2 = true) + 0x10000 * truth (fcmpHolds cc (ch t true).1 (ch t true).2 = true))
        (fun t => nv (ch t false) ||| nv (ch t true))) ∧
  (∀ (s : State) (v : View), Alone s v → ∀ (rm : Rnd) (o : R2) (m : R3),
      let f (t : Nat) : Fmt := halfFmt (v.fmtr t)
      let mode (t : Nat) : Mode := modeOf rm (v.fmtr t)
      let a (hi : Bool) (t : Nat) : Opd := half v t hi (v.reg t o.a)
      let b (hi : Bool) (t : Nat) : Opd := half v t hi (v.src t o.b)
      let add (hi : Bool) (t : Nat) : FOut := halfResult v t (FOut.of (f t) ((f t).add (mode t) (a hi t).v (b hi t).v) (addTag (f t).p (a hi t) (b hi t)))
      let mul (hi : Bool) (t : Nat) : FOut := halfResult v t (FOut.of (f t) ((f t).mul (mode t) (a hi t).v (b hi t).v) (mulTag (f t).p (a hi t) (b hi t)))
      let fma (hi : Bool) (t : Nat) : FOut :=
        let x := half v t hi (v.reg t m.a)
        let y := half v t hi (v.src t m.b)
        let z := half v t hi (v.reg t m.c)
        halfResult v t (FOut.of (f t) ((f t).fma (mode t) x.v y.v z.v) (fmaTag (f t).p x y z))
      let top (hi : Bool) (t : Nat) : FOut :=
        outPick (f t) true (halfBits v.nbv (f t) hi (v.val t o.a)) (halfBits v.nbv (f t) hi (v.src t o.b).1) (a hi t) (b hi t)
      FloatsHalf (.hadd2 rm o) s v o.g o.d (add false) (add true) ∧
      FloatsHalf (.hmul2 rm o) s v o.g o.d (mul false) (mul true) ∧
      FloatsHalf (.hfma2 rm m) s v m.g m.d (fma false) (fma true) ∧
      FloatsHalf (.hmax2 o) s v o.g o.d (top false) (top true))

/-- R359 to R362, R98: a conversion reads its source under its type and writes the target's bits, tag and conditions; a packed target
takes its low half from A and its high half from B. That an exact zero result has the full trust of the target's format where its source is fully trusted is the model's choice
(log entry 13). -/
def Obligations.Conversions : Prop :=
  ∀ (s : State) (v : View), Alone s v → ∀ (dty src : Ty) (hi : Bool) (rm : Rnd) (o : R2),
    let one (t : Nat) (b : Src) : Nat × BitVec 7 × Trust :=
      let x := v.cvtSrc t src b
      cvtOne dty src (modeOf rm (v.fmtr t)) ((v.fmtr t).getLsbD 3) (cvtRead src hi v.nbv (halfFmt (v.fmtr t)).p x.1 x.2)
    let out (t : Nat) (b : Src) : FOut := ⟨(one t b).1, (one t b).2.2, (one t b).2.1⟩
    (dty.packed = true → FloatsHalf (.cvt dty src hi rm o) s v o.g o.d (fun t => out t (.reg o.a)) (fun t => out t o.b)) ∧
    (dty = .f32 → Floats32 (.cvt dty src hi rm o) s v o.g o.d (fun t => out t (.reg o.a))) ∧
    (dty = .f64 → Floats64 (.cvt dty src hi rm o) s v o.g o.d (fun t => out t (.reg o.a))) ∧
    (dty = .i64 ∨ dty = .u64 → Computes (.cvt dty src hi rm o) s v (v.lanes o.g o.d)
      (double v o.g o.d (fun t => (BitVec.ofNat 64 (one t (.reg o.a)).1, 0xFE, 0xFE))) (fun t => (one t (.reg o.a)).2.1) (fun _ => false)) ∧
    (dty = .i8 → FloatsInt (.cvt dty src hi rm o) s v o.g o.d
      (fun t => BitVec.signExtend 32 (BitVec.ofNat 8 (one t (.reg o.a)).1)) (fun t => (one t (.reg o.a)).2.1)) ∧
    (dty.packed = false → dty ∉ [Ty.f32, .f64, .i64, .u64, .i8] → FloatsInt (.cvt dty src hi rm o) s v o.g o.d
      (fun t => BitVec.ofNat 32 (one t (.reg o.a)).1) (fun t => (one t (.reg o.a)).2.1))

/-- R116, R117, R118, R119, R365: what the arithmetic of the floating members delivers for finite operands: the exact result rounded once under the mode, the overflow result of the table, the
sign of a zero, and the conditions; conversions to a float and to an integer, and the rounding to an integral value. FEXP2 and FLOG2 are not among them (log entry 13). -/
def Obligations.RoundingIsCorrect : Prop :=
  ∀ (f : Fmt), f ∈ [fp64, fp32, fp16, bf16, e5m2, e4m3, e2m1] → ∀ (mode : Mode) (sat na nb nc : Bool) (ma mb mc : Nat) (ea eb ec : Int),
    let a : FVal := .fin na ma ea
    let b : FVal := .fin nb mb eb
    let c : FVal := .fin nc mc ec
    let zero (neg : Bool) : FRes := ⟨if neg then 2 ^ (f.bits - 1) else 0, false, 0⟩
    (ratOf a + ratOf b ≠ 0 → RoundsTo f mode false (.of (ratOf a + ratOf b)) (f.add mode a b)) ∧
    (ratOf a + ratOf b = 0 → f.add mode a b = zero (if ma = 0 ∧ mb = 0 ∧ na = nb then na else mode == .down)) ∧
    (ma ≠ 0 → mb ≠ 0 → RoundsTo f mode false (.of (ratOf a * ratOf b)) (f.mul mode a b) ∧ RoundsTo f mode false (.of (ratOf a / ratOf b)) (f.div mode a b)) ∧
    (ma = 0 ∨ mb = 0 → f.mul mode a b = zero (na != nb)) ∧ (ma = 0 → mb ≠ 0 → f.div mode a b = zero (na != nb)) ∧
    (ratOf a * ratOf b + ratOf c ≠ 0 → RoundsTo f mode false (.of (ratOf a * ratOf b + ratOf c)) (f.fma mode a b c)) ∧
    (ratOf a * ratOf b + ratOf c = 0 → f.fma mode a b c = zero (if (ma = 0 ∨ mb = 0) ∧ mc = 0 ∧ (na != nb) = nc then nc else mode == .down)) ∧
    (ma ≠ 0 → RoundsTo f mode false (.sqrt (ratOf (.fin false ma ea))) (f.sqrt mode (.fin false ma ea)) ∧ RoundsTo f mode false (.rsqrt (ratOf (.fin false ma ea))) (f.rsqrt mode (.fin false ma ea))) ∧
    (ma = 0 → f.sqrt mode a = zero na) ∧
    (ma ≠ 0 → RoundsTo f mode sat (.of (ratOf a)) (f.convert mode sat a)) ∧ (ma = 0 → f.convert mode sat a = zero na) ∧
    (∀ x : Int, x ≠ 0 → RoundsTo f mode sat (.of x) (f.ofInt mode sat x)) ∧
    (∀ (signed : Bool) (w : Nat), 8 ≤ w →
      let hi : Int := if signed then 2 ^ (w - 1) - 1 else 2 ^ w - 1
      let lo : Int := if signed then -(2 ^ (w - 1)) else 0
      ∃ k : Int, Chosen mode (fun y => ∃ i : Int, y = i) (fun _ => k % 2 = 0) (.of (ratOf a)) k ∧
        toInt mode signed w a = if hi < k then (hi, condNV) else if k < lo then (lo, condNV) else (k, if (k : Rat) = ratOf a then 0 else condNX)) ∧
    (∀ x n m e, f = fp32 → f.value x = .fin n m e → x < 2 ^ 32 → ∃ k : Int, Chosen mode (fun y => ∃ i : Int, y = i) (fun _ => k % 2 = 0) (.of (ratOf (.fin n m e))) k ∧
      Encodes f (f.rint mode x).bits k ∧ bitAt (f.rint mode x).bits 31 = n ∧ (f.rint mode x).conds = 0)

/-- R122, R123, R420: REDX combines the participating threads by the tree of R122, and an integer sum is the sum of all of them; SCANX writes to each participating thread the inclusive
value of its position, or, under EX, that of the position below it. That both round under the mode of the lowest participating thread's path is the model's choice (log entry 14). -/
def Obligations.ReductionAndScan : Prop :=
  (∀ (s : State) (v : View), Alone s v → (∀ t ∈ v.active, t < 32) → ∀ (op : RedOp) (rm : Rnd) (ty : Ty) (u : R1),
      let mode : Mode := modeOf rm (v.fmtr ((v.acting u.g).headD 0))
      let value := tree (redCombine op ty mode) (position v u.g ty u.a)
      (v.acting u.g = [] → Writes (.redx op rm ty u) s v (fun _ => none)) ∧
      (∀ e, value = some e → Computes (.redx op rm ty u) s v (v.acting u.g) (elemWrites v u.g ty u.d (fun _ => e)) (fun _ => e.conds)
        (fun t => decide (t ∈ v.lanes u.g u.d) && elemFalls v ty e)) ∧
      (v.acting u.g ≠ [] → Writes (.redx .add rm .u32 u) s v (single v u.g u.d (fun _ =>
        (BitVec.ofNat 32 ((v.acting u.g).map (fun t => (v.val t u.a).toNat)).sum, 0xFE))))) ∧
  (∀ (s : State) (v : View), Alone s v → (∀ t ∈ v.active, t < 32) → ∀ (op : RedOp) (rm : Rnd) (ty : Ty) (u : R1), u.d.isCrew = false →
      let mode : Mode := modeOf rm (v.fmtr ((v.acting u.g).headD 0))
      let value (t : Nat) : Elem := (scan (redCombine op ty mode) (position v u.g ty u.a) t).getD (redIdentity op ty)
      let below (t : Nat) : Elem := if t = 0 then redIdentity op ty else value (t - 1)
      let raised : BitVec 7 := ((List.range 32).map (fun t => (value t).conds)).foldl (· ||| ·) 0
      Computes (.scanx op false rm ty u) s v (v.acting u.g) (elemWrites v u.g ty u.d value) (fun _ => raised) (fun t => elemFalls v ty (value t)) ∧
      Computes (.scanx op true rm ty u) s v (v.acting u.g) (elemWrites v u.g ty u.d below) (fun _ => raised) (fun t => elemFalls v ty (below t)))

/-- R427, R439, R407, R347: SHFL reads the value and tag of another thread of its segment, or the thread's own where that one takes no part; VOTE, MRGK and BXCH over the participating
threads. That a thread of BXCH keeps its own pair where key and index tie is the model's choice (log entry 14). -/
def Obligations.ShuffleVoteSort : Prop :=
  (∀ (s : State) (v : View), Alone s v → ∀ (ty : Ty) (seg : Fin 8) (o : R2), o.d.isCrew = false →
      let w : Nat := 2 ^ seg.val
      let k (t : Nat) : Nat := (v.src t o.b).1.toNat % 32
      let base (t : Nat) : Nat := t / w * w
      let moves (from_ : Nat → Nat) (valid : Nat → Bool) (t : Nat) : Nat := if valid t = true ∧ from_ t ∈ v.acting o.g then from_ t else t
      let into (q : Nat → Nat) : Nat → Option (Word × Tag) :=
        if ty.wide then double v o.g o.d (fun t => (v.pair (q t) o.a, v.tag (q t) o.a, v.tag (q t) (regPlus o.a 1))) else single v o.g o.d (fun t => v.reg (q t) o.a)
      Writes (.shfl ty seg .idx o) s v (into (moves (fun t => base t + k t % w) (fun _ => true))) ∧
      Writes (.shfl ty seg .up o) s v (into (moves (fun t => t - k t) (fun t => decide (base t + k t ≤ t)))) ∧
      Writes (.shfl ty seg .down o) s v (into (moves (fun t => t + k t) (fun t => decide (t + k t < base t + w)))) ∧
      Writes (.shfl ty seg .xor o) s v (into (moves (fun t => t ^^^ (k t % w)) (fun _ => true)))) ∧
  (∀ (s : State) (v : View), Alone s v → ∀ (ty : Ty) (lk l : Fin 8) (u : R1),
      let on (t : Nat) : Prop := (v.val t u.a).getLsbD 0 = true
      let put (x : Word) : Nat → Option (Word × Tag) := single v u.g u.d (fun _ => (x, 0xFE))
      let pairOf (t : Nat) : Word × Word := (v.val t u.a, v.val t (regPlus u.a 1))
      let comes (x y : Nat) : Bool := pairBefore ty (pairOf x) (pairOf y)
      let partner (i : Nat) : Nat := i ^^^ 2 ^ l.val
      let first (i : Nat) : Nat := if comes (max i (partner i)) (min i (partner i)) then max i (partner i) else min i (partner i)
      let other (i : Nat) : Nat := if comes (max i (partner i)) (min i (partner i)) then min i (partner i) else max i (partner i)
      let kept (i : Nat) : Nat := if partner i ∉ v.acting u.g then i else if (i < partner i ↔ i &&& 2 ^ lk.val = 0) then first i else other i
      ((∀ t ∈ v.acting u.g, on t) → Writes (.vote .all u) s v (put 1)) ∧
      ((∃ t ∈ v.acting u.g, ¬ on t) → Writes (.vote .all u) s v (put 0)) ∧
      ((∃ t ∈ v.acting u.g, on t) → Writes (.vote .any u) s v (put 1)) ∧
      ((∀ t ∈ v.acting u.g, ¬ on t) → Writes (.vote .any u) s v (put 0)) ∧
      ((∀ t ∈ v.acting u.g, ∀ q ∈ v.acting u.g, v.val t u.a = v.val q u.a) → Writes (.vote .eq u) s v (put 1)) ∧
      ((∃ t ∈ v.acting u.g, ∃ q ∈ v.acting u.g, v.val t u.a ≠ v.val q u.a) → Writes (.vote .eq u) s v (put 0)) ∧
      (∀ m : Word, (∀ t, t < 32 → (m.getLsbD t = true ↔ t ∈ v.acting u.g ∧ on t)) → (∀ t ∈ v.active, t < 32) → Writes (.vote .ballot u) s v (put m)) ∧
      (∀ w ∈ v.acting u.g, (∀ q ∈ v.acting u.g, q < w → comes w q = true) → (∀ q ∈ v.acting u.g, w < q → comes q w = false) →
        Writes (.mrgk ty u) s v (put (BitVec.ofNat 32 w))) ∧
      Writes (.bxch ty lk l u) s v (double v u.g u.d (fun t => (v.pair (kept t) u.a, v.tag (kept t) u.a, v.tag (kept t) (regPlus u.a 1)))))

/-- R264, R357, R358: the ten rounds of NOISE, and the FP32 value made of 23 of their bits; CSACC adds to its own pair, and a CSCHK that finds nothing wrong writes nothing. -/
def Obligations.NoiseAndChecksums : Prop :=
  (∀ (s : State) (v : View), Alone s v → ∀ (o : R3),
      let a0 (t : Nat) : Nat := (v.val t o.c).toNat
      let b0 (t : Nat) : Nat := (v.val t (regPlus o.c 1)).toNat
      let key0 (t r : Nat) : Nat := ((v.val t o.a).toNat + r * 0x9E3779B9) % 2 ^ 32
      let key1 (t r : Nat) : Nat := ((v.val t (regPlus o.a 1)).toNat + r * 0xBB67AE85) % 2 ^ 32
      let round (t : Nat) (x : Nat × Nat × Nat × Nat) (r : Nat) : Nat × Nat × Nat × Nat :=
        let p := x.1 * 0xB5AD4ECF
        let q := x.2.2.1 * 0xE6E96ED3
        (q / 2 ^ 32 ^^^ x.2.1 ^^^ key0 t r, q % 2 ^ 32, p / 2 ^ 32 ^^^ x.2.2.2 ^^^ key1 t r, p % 2 ^ 32)
      let result (t : Nat) : Nat := ((List.range 10).foldl (round t) (a0 t, b0 t, (v.src t o.b).1.toNat, 0x9E3779B9)).1
      Writes (.noise .u32 o) s v (single v o.g o.d (fun t => (BitVec.ofNat 32 (result t), 0xFE))) ∧
      ∃ x : Nat → Word,
        (∀ t, fp32.value (x t).toNat = .fin false (2 * (result t / 512) + 1) (-24) ∨
          cmpVal (fp32.value (x t).toNat) (.fin false (2 * (result t / 512) + 1) (-24)) = 0) ∧
        Writes (.noise .f32 o) s v (single v o.g o.d (fun t => (x t, 0x60)))) ∧
  (∀ (s : State) (v : View), Alone s v → ∀ (ty : Ty) (k : Fin 64) (g : Guard) (a b : Reg) (u : R1),
      let acc (t : Nat) : FVal := fp64.value (v.pair t u.d).toNat
      let plus (x y : FVal) : Nat := (fp64.add .near x y).bits
      let into (f : Nat → DWord) : Nat → Option (Word × Tag) := double v u.g u.d (fun t => (f t, 0xFE, 0xFE))
      let low (t : Nat) : Nat := (v.val t u.a).toNat % 2 ^ 16
      let high (t : Nat) : Nat := (v.val t u.a).toNat / 2 ^ 16
      Writes (.csacc .u32 u) s v (into (fun t => v.pair t u.d + BitVec.ofNat 64 (v.val t u.a).toNat)) ∧
      Writes (.csacc .u64 u) s v (into (fun t => v.pair t u.d + v.pair t u.a)) ∧
      Writes (.csacc .f32 u) s v (into (fun t => BitVec.ofNat 64 (plus (acc t) (fp32.value (v.val t u.a).toNat)))) ∧
      Writes (.csacc .f64 u) s v (into (fun t => BitVec.ofNat 64 (plus (acc t) (fp64.value (v.pair t u.a).toNat)))) ∧
      Writes (.csacc .bf16x2 u) s v (into (fun t => BitVec.ofNat 64 (plus (fp64.value (plus (acc t) (bf16.value (low t)))) (bf16.value (high t))))) ∧
      Writes (.csacc .f16x2 u) s v (into (fun t => BitVec.ofNat 64 (plus (fp64.value (plus (acc t) (fp16.value (low t)))) (fp16.value (high t))))) ∧
      (ty ≠ .f64 → (∀ t ∈ v.acting g, v.pair t a = v.pair t b) → Writes (.cschk ty k g a b) s v (fun _ => none)) ∧
      ((∀ t ∈ v.acting g, (fp64.value (v.pair t a).toNat).isNan = false ∧ (fp64.value (v.pair t b).toNat).isNan = false ∧
          cmpVal (fp64.value (v.pair t a).toNat) (fp64.value (v.pair t b).toNat) = 0) →
        Writes (.cschk .f64 k g a b) s v (fun _ => none)))

/-- R46 to R48, R338, R344, R345, R348, R422, R108: where each thread goes after a control transfer whose target can be entered; a thread
that does not take it goes on to the next instruction. -/
def Obligations.ControlTransfer : Prop :=
  ∀ (s : State) (v : View), Alone s v → Runs v → ∀ (g : Guard) (imm : Word) (a d : Reg) (kind : SigKind) (n : Fin 64),
    let direct : DWord := BitVec.ofInt 64 ((v.iss.pc.toNat / 64 * 64 : Int) + imm.toInt / 8 * 64 + imm.toNat % 8)
    let enters (x : DWord) : Prop := s.badTarget v.iss.unit v.grp.ctx x.toNat = none
    let moved (who : Nat → Bool) (x : Nat → DWord) (j : Nat) : DWord := if j ∈ v.acting g ∧ who j = true then x j else v.iss.next
    let low (t : Nat) : Bool :=
      match kind with
      | .f32 => decide ((readTag 24 (v.tag t a)).t < n.val)
      | .f64 => decide ((readTag 53 (v.tag t a)).t < n.val)
      | .h2 => decide ((readHalf (halfFmt (v.fmtr t)).p false (v.tag t a)).t < n.val ∨ (readHalf (halfFmt (v.fmtr t)).p true (v.tag t a)).t < n.val)
    ((v.acting g ≠ [] → enters direct) → Goes (.bra g imm) s v (moved (fun _ => true) (fun _ => direct)) (fun _ => none)) ∧
    ((∀ t ∈ v.acting g, v.val t a ≠ 1 → enters direct) →
      Goes (.brd g a imm) s v (moved (fun t => v.val t a != 1) (fun _ => direct)) (single v g a (fun t => (v.val t a - 1, 0xFE)))) ∧
    ((∀ t ∈ v.acting g, enters (v.pair t a)) → Goes (.brx g a) s v (moved (fun _ => true) (fun t => v.pair t a)) (fun _ => none)) ∧
    ((v.acting g ≠ [] → enters direct) →
      Goes (.call g d (.direct imm)) s v (moved (fun _ => true) (fun _ => direct)) (double v g d (fun _ => (v.iss.next, 0xFE, 0xFE)))) ∧
    ((∀ t ∈ v.acting g, enters (v.pair t a)) →
      Goes (.call g d (.indirect a)) s v (moved (fun _ => true) (fun t => v.pair t a)) (double v g d (fun _ => (v.iss.next, 0xFE, 0xFE)))) ∧
    ((∀ t ∈ v.acting g, (v.pair t a).toNat < 2 ^ 56 ∧ (v.pair t a).toNat / 8 % 8 = 0 ∧ (v.pair t a).toNat % 8 < 5) →
      Goes (.ret g a) s v (moved (fun _ => true) (fun t => v.pair t a)) (fun _ => none)) ∧
    ((∀ t ∈ v.acting g, low t = true → enters direct) → Goes (.bsig kind n g a imm) s v (moved low (fun _ => direct)) (fun _ => none))

/-- R46, R47, R108, R345, R348, R422: what makes a target one that cannot be entered, and the cause that each control transfer to it raises in place of the transfer; RET checks the form of
its target alone. -/
def Obligations.BadTargetsTrap : Prop :=
  ∀ (s : State) (v : View), Alone s v → v.crew.enm = false → ∀ (g : Guard) (a d : Reg) (imm : Word) (kind : SigKind) (n : Fin 64) (c sub : Nat),
    let pc (t : Nat) : Nat := (v.pair t a).toNat
    let direct : DWord := BitVec.ofInt 64 ((v.iss.pc.toNat / 64 * 64 : Int) + imm.toInt / 8 * 64 + imm.toNat % 8)
    let formed (x : Nat) : Prop := x < 2 ^ 56 ∧ x / 8 % 8 = 0 ∧ x % 8 < 5
    let form (x : Nat) : Prop := (2 ^ 56 ≤ x ∧ c = 0x12 ∧ sub = 0) ∨ (x < 2 ^ 56 ∧ (x / 8 % 8 ≠ 0 ∨ x % 8 ≥ 5) ∧ c = 0x03 ∧ sub = 2)
    let fails (x : Nat) : Prop := form x ∨ (formed x ∧ ∃ line, s.codeLine v.iss.unit v.grp.ctx (x / 64 * 64) = .ok line ∧
      let word : Nat := natOfBytes (line.take 4)
      ((word.testBit (x % 8) = false ∧ c = 0x03 ∧ sub = 0) ∨ (word.testBit (x % 8) = true ∧ x % 8 > 0 ∧ word.testBit (5 + x % 8 - 1) = true ∧ c = 0x03 ∧ sub = 1)))
    let low (t : Nat) : Bool :=
      match kind with
      | .f32 => decide ((readTag 24 (v.tag t a)).t < n.val)
      | .f64 => decide ((readTag 53 (v.tag t a)).t < n.val)
      | .h2 => decide ((readHalf (halfFmt (v.fmtr t)).p false (v.tag t a)).t < n.val ∨ (readHalf (halfFmt (v.fmtr t)).p true (v.tag t a)).t < n.val)
    let at_ (x : Nat → Nat) (t : Nat) : AFault := (c, sub, x t)
    ((∀ t ∈ v.acting g, fails (pc t)) → Traps (.brx g a) s v (v.acting g) (at_ pc) false ∧ Traps (.call g d (.indirect a)) s v (v.acting g) (at_ pc) false) ∧
    ((∀ t ∈ v.acting g, form (pc t)) → Traps (.ret g a) s v (v.acting g) (at_ pc) false) ∧
    (fails direct.toNat →
      Traps (.bra g imm) s v (v.acting g) (at_ (fun _ => direct.toNat)) false ∧ Traps (.call g d (.direct imm)) s v (v.acting g) (at_ (fun _ => direct.toNat)) false ∧
      ((∀ t ∈ v.acting g, v.val t a ≠ 1) → Traps (.brd g a imm) s v (v.acting g) (at_ (fun _ => direct.toNat)) false) ∧
      Traps (.bsig kind n g a imm) s v ((v.acting g).filter low) (at_ (fun _ => direct.toNat)) false)

/-- R78, R142, R173, R196, R284, R339, R409, R418, R435, R371, R442: instructions that find nothing to do go on; EXIT ends its threads; YIELD keeps its candidate from issuing for the n cycles
of the core that follow, or until another has issued. -/
def Obligations.GoesOnOrLeaves : Prop :=
  (∀ (s : State) (v : View), Alone s v → Runs v → ∀ (g : Guard) (mask : BitVec 12) (n : Word) (id : BitVec 24) (sc : Scope) (pred succ : BitVec 8)
        (lvl : Fin 7) (d : Reg),
      Passes (.nop g) s v ∧
      (v.crew.converged = true → Passes .regang s v) ∧
      ((∀ k ∈ v.iss.parts, ∀ f, f < 12 → mask.getLsbD f = true → (v.crew.scull k).cf.getD f 0 = 0) → Passes (.recv mask) s v) ∧
      ((s.ctx v.grp.ctx).cut = none → Passes (.catch g n) s v) ∧
      (v.crew.dbgctl.getLsbD 9 = false → Passes (.mark g id) s v) ∧
      ((∀ e ∈ v.core.queues.getD 0 [], e.who ≠ v.iss.who) → (∀ t ∈ v.active, tfenceBits (v.crew.scull (t / 4)).fstat (v.fmtr t) = 0) → Passes .tfence s v) ∧
      ((∀ p ∈ v.core.loads, p.2.who ≠ v.iss.who) → (∀ e ∈ (s.origin v.iss.unit).pend, e.who ≠ some v.iss.who) →
        (∀ q ∈ v.core.queues, ∀ e ∈ q, e.who ≠ v.iss.who) → (∀ b ∈ v.core.l1, b.2.dirty = []) →
        Issues (.fence sc g pred succ) s v (fun t => Landed s t v (fun _ => none) ∧ (t.origin v.iss.unit).pend = (s.origin v.iss.unit).pend ∧ (t.origin v.iss.unit).cnt = (s.origin v.iss.unit).cnt)) ∧
      (v.acting g = [] → Passes (.bar g lvl d) s v ∧ Passes (.bara g lvl d) s v ∧ Passes (.barw g lvl d) s v ∧ Passes (.give g n) s v ∧ Passes (.claim g n) s v)) ∧
  (∀ (s : State) (v : View), Alone s v → Runs v → ∀ (k : Nat), v.iss.who = .crew k → ∀ (g : Guard) (n : BitVec 16),
      Completes (.exit g) s (fun t => Landed s t v (fun _ => none) ∧ FlagsKept t v ∧
        (∀ j ∈ v.acting g, ∃ w, t.crew? v.iss.unit k = some w ∧ (w.thread j).live = false ∧ pathOfThread (w.scull (j / 4)) (j % 4) = none) ∧
        (∀ j ∈ v.active, j ∉ v.acting g → Stands t v j v.iss.next) ∧
        (v.crew.enm = false → v.crew.recOk = false → t.mem = s.mem ∧ t.origins = s.origins)) ∧
      Completes (.yield n) s (fun t => Landed s t v (fun _ => none) ∧ FlagsKept t v ∧ (∀ j ∈ v.active, Stands t v j v.iss.next) ∧
        (v.crew.recOk = false → Quiet s t v) ∧
        ∃ w, t.crew? v.iss.unit k = some w ∧
          let until_ : Option Nat := some (if n = 0 then 0 else v.core.ccyc + n.toNat + 1)
          (v.crew.parted = false → w.yielded = until_) ∧ (v.crew.parted = true → ∀ j ∈ v.iss.parts, (w.scull j).yielded = until_)))

/-- R342, R436, R237, R358, R67, R380, R350: instructions that trap, with the cause, the subcode and the return address of each. -/
def Obligations.SoftwareTraps : Prop :=
  ∀ (s : State) (v : View), Alone s v → ∀ (g : Guard) (code n : Word) (bk : BitVec 24) (k : Fin 64) (a b d : Reg) (lvl : Fin 7),
    let fails (ty : Ty) (t : Nat) : Option Nat :=
      if ty ≠ .f64 then (if v.pair t a ≠ v.pair t b then some 0 else none)
      else
        match fp64.value (v.pair t a).toNat, fp64.value (v.pair t b).toNat with
        | .fin nx mx ex, .fin ny my ey =>
          let x : Int := (if nx then -1 else 1) * (mx * 2 ^ (ex - min ex ey).toNat)
          let y : Int := (if ny then -1 else 1) * (my * 2 ^ (ey - min ex ey).toNat)
          if (x - y).natAbs * 2 ^ k.val > max x.natAbs y.natAbs then some 1 else none
        | x, y => if x.isNan ∨ y.isNan then some 2 else none
    Traps (.trap g code) s v (v.acting g) (fun _ => (0x33, code.toNat, 0)) true ∧
    Traps (.bkpt g bk) s v (v.acting g) (fun _ => (0x30, 8, 0)) true ∧
    ((∀ e ∈ v.core.queues.getD 0 [], e.who ≠ v.iss.who) → ∀ ts : List Nat, ts = v.active.filter (fun t => tfenceBits (v.crew.scull (t / 4)).fstat (v.fmtr t) ≠ 0) →
      Traps .tfence s v ts (fun t => (0x20, (v.crew.scull (t / 4)).fstat.toNat &&& ((v.fmtr t).toNat / 2 ^ 9 % 2 ^ 7), 0)) true) ∧
    (∀ ty, Traps (.cschk ty k g a b) s v ((v.acting g).filter (fun t => (fails ty t).isSome)) (fun t => (0x28, (fails ty t).getD 0, 0)) true) ∧
    ((hdrBound v.grp.hdr lvl.val < 5 ∨ hdrBG v.grp.hdr < hdrBound v.grp.hdr lvl.val) →
      Traps (.bar g lvl d) s v (v.acting g) (fun _ => (0x02, 34, 0)) false ∧ Traps (.bara g lvl d) s v (v.acting g) (fun _ => (0x02, 34, 0)) false ∧
      Traps (.barw g lvl d) s v (v.acting g) (fun _ => (0x02, 34, 0)) false) ∧
    ((n.toNat % 8 ≠ 0 ∨ n = 0 ∨ v.crew.count < n.toNat + 8) → Traps (.give g n) s v (v.acting g) (fun _ => (0x02, 64, 0)) false) ∧
    ((n.toNat % 8 ≠ 0 ∨ n = 0 ∨ 224 < v.crew.count + n.toNat) → Traps (.claim g n) s v (v.acting g) (fun _ => (0x02, 64, 0)) false)

/-- R78, R167, R173, R339, R350, R408, R418, R44, R158: what holds an instruction back, and the reason its paths wait with. -/
def Obligations.HeldBack : Prop :=
  ∀ (s : State) (v : View), Alone s v → ∀ (k : Nat), v.iss.who = .crew k →
    ∀ (g : Guard) (mask : BitVec 12) (n : Word) (lvl : Fin 7) (d a after wit : Reg) (sc : Scope) (ty : Ty) (m : MAddr) (fsel : Bool) (sig : BitVec 8),
    ((∃ j ∈ v.iss.parts, ∃ f, f < 12 ∧ mask.getLsbD f = true ∧ (v.crew.scull j).cf.getD f 0 ≠ 0) → Waits (.recv mask) s v (.flags mask.toNat)) ∧
    (v.crew.converged = false → Waits .regang s v .regang) ∧
    (v.acting g ≠ [] → n.toNat % 8 = 0 → n ≠ 0 → v.crew.count + n.toNat ≤ 224 → Waits (.claim g n) s v (.claim n.toNat)) ∧
    (v.acting g ≠ [] → (∀ t ∈ v.acting g, s.monitorDone v.iss.unit k t = false) →
      Waits (.mwait g n d) s v (.mwait (if n = 0 then none else some (v.crew.ctime.toNat + n.toNat)) d (maskOf (v.acting g)))) ∧
    (v.acting g ≠ [] → 5 ≤ hdrBound v.grp.hdr lvl.val → hdrBound v.grp.hdr lvl.val ≤ hdrBG v.grp.hdr →
      (∀ t ∈ v.acting g, t ∈ v.fresh (v.acting g) ∨ 32 * k + t ∈ (v.barrier lvl.val).arrived) →
      Waits (.bar g lvl d) s v (.bar (v.barrier lvl.val).bnd (v.barrier lvl.val).key (v.barrier lvl.val).phase d (maskOf (v.acting g)) (if v.crew.abandoned then 1 else 0))) ∧
    (∀ t, v.lanes g a = [t] → v.witCheck s (v.pair t a) sc.code = none → s.satisfied (v.pair t a) sc.code = false →
      Waits (.wwait sc g a) s v (.wit [(v.pair t a, sc.code)] false)) ∧
    (v.acting m.g ≠ [] → v.flagFull fsel = true →
      Waits (.ld ty m fsel sig d after) s v (.full (if fsel then v.iss.setB else v.iss.setA)) ∧ Waits (.fill m fsel d) s v (.full (if fsel then v.iss.setB else v.iss.setA))) ∧
    (v.acting m.g ≠ [] → v.crew.enm = false → (s.origin v.iss.unit).stalls = true →
      Waits (.st ty m after d wit) s v .stall ∧ Waits (.spill m d wit) s v .stall)

/-- R403, R404: what MOVC reads from each control register; a number at or above TILES traps (R405). -/
def Obligations.ControlReads : Prop :=
  ∀ (s : State) (v : View), Alone s v → ∀ (g : Guard) (num : BitVec 12) (d : Reg),
    let n : Nat := num.toNat
    let narrow (f : Nat → Word) : Prop := Writes (.movc g false num d) s v (single v g d (fun t => (f t, 0xFE)))
    let pairOf (f : Nat → DWord) : Prop := Writes (.movc g false num d) s v (double v g d (fun t => (f t, 0xFE, 0xFE)))
    let seat (m : Nat) : Nat := (v.core.seats.getD (m / 16) Seat.reset).ctr.getD (m % 16) 0
    (n = 0x000 → narrow (fun t => v.fmtr t)) ∧ (n = 0x001 → narrow (fun _ => v.crew.sigfloor)) ∧
    (n = 0x002 → narrow (fun _ => BitVec.ofNat 32 v.nbv)) ∧ (n = 0x003 → narrow (fun _ => BitVec.ofNat 32 (hdrWords v.grp.hdr))) ∧
    (n = 0x004 → narrow (fun _ => BitVec.ofNat 32 (s.ctx v.grp.ctx).sel)) ∧ (n = 0x005 → narrow (fun _ => v.crew.logctl)) ∧
    (n = 0x006 → narrow (fun t => BitVec.ofNat 32 (v.crew.scull (t / 4)).fstat.toNat)) ∧ (n = 0x007 → narrow (fun _ => v.crew.dbgctl)) ∧
    (n = 0x008 → pairOf (fun _ => BitVec.ofNat 64 (hdrW v.grp.hdr 5))) ∧ (n = 0x009 → pairOf (fun t => (v.crew.scull (t / 4)).losspc)) ∧
    (n = 0x00A → pairOf (fun _ => v.crew.tbase)) ∧
    (n = 0x00B → pairOf (fun _ => BitVec.ofNat 64 (hdrPriv v.grp.hdr + 160 * hdrWords v.grp.hdr * hdrNC v.grp.hdr + 256 * v.crew.pos))) ∧
    (n = 0x00C → pairOf (fun _ => v.crew.tcmp)) ∧ (n = 0x00D → pairOf (fun _ => v.crew.ctime)) ∧
    (n = 0x00E → pairOf (fun _ => BitVec.ofNat 64 v.core.ccyc)) ∧ (n = 0x00F → pairOf (fun _ => v.crew.recbase)) ∧
    (n = 0x010 → narrow (fun _ => v.crew.dbgsel)) ∧ (n = 0x011 → pairOf (fun _ => v.crew.dbgdata)) ∧ (n = 0x012 → narrow (fun _ => 0)) ∧
    (n = 0x013 → ∀ k w, v.sibling (v.crew.dbgsel.toNat % 32) = some (k, w) → pairOf (fun _ => BitVec.ofNat 64
      (w.piece * 2 ^ 32 + w.stroke % 2 ^ 24 * 2 ^ 8 + (if w.halt = .halted then 2 ^ 7 else 0) + (if w.replay.isSome then 2 ^ 6 else 0)))) ∧
    (n = 0x013 → v.sibling (v.crew.dbgsel.toNat % 32) = none → pairOf (fun _ => 0)) ∧
    (n = 0x014 → pairOf (fun _ => v.core.trbase)) ∧ (n = 0x015 → pairOf (fun _ => v.core.trhead)) ∧ (n = 0x016 → pairOf (fun _ => v.core.trtail)) ∧
    (∀ m, m < 16 → n = 0x020 + m → m < hdrTiles v.grp.hdr → narrow (fun _ => (v.core.tiles.get Tile.reset (v.grp.tiles.getD m 0)).tf)) ∧
    (∀ m, m < 16 → n = 0x020 + m → hdrTiles v.grp.hdr ≤ m → Traps (.movc g false num d) s v (v.acting g) (fun _ => (0x02, 131, 0)) false) ∧
    (∀ m, m < 8 → n = 0x030 + m → pairOf (fun _ => (s.ctx v.grp.ctx).brk.getD m 0)) ∧
    (∀ m, m < 4 → n = 0x038 + m → pairOf (fun _ => (s.ctx v.grp.ctx).watch.getD m 0)) ∧
    (∀ m, m < 64 → n = 0x040 + m → narrow (fun _ => s.iod.dmb.getD m 0)) ∧
    (∀ m, m < 64 → n = 0x080 + m → pairOf (fun _ => BitVec.ofNat 64 (seat m)))

/-- R404, R403, R75, R103, R241, R245, R282, R286, R292: a MOVC write takes the value of the lowest acting thread and sets its register alone; a
value that the register's rules reject traps and sets nothing (R405). A write of DBGCMD waits for the end of the cycle, at which its command applies (R293). -/
def Obligations.ControlWrites : Prop :=
  ∀ (s : State) (v : View), Alone s v → Runs v → ∀ (k : Nat), v.iss.who = .crew k → ∀ (g : Guard) (num : BitVec 12) (r : Reg) (j : Nat),
    (v.acting g).head? = some j →
    let x : DWord := v.pair j r
    let y : Word := v.val j r
    let at_ (n : Nat) (f : Crew → Crew) : Prop := num.toNat = n →
      Issues (.movc g true num r) s v (fun t => Landed s t v (fun _ => none) ∧ Controls t v f ∧ t.contexts = s.contexts ∧ t.iod = s.iod)
    let bad (n sub : Nat) : Prop := num.toNat = n → Traps (.movc g true num r) s v (v.acting g) (fun _ => (0x02, sub, 0)) false
    (y &&& 0xC0E0F0FF#32 = 0 → y.toNat / 2 ^ 24 % 64 ≤ 53 → y.toNat / 2 ^ 16 % 32 ≤ 24 → y.toNat / 2 ^ 8 % 16 ≤ 11 → at_ 0x001 (fun w => { w with sigfloor := y })) ∧
    ((y &&& 0xC0E0F0FF#32 ≠ 0 ∨ y.toNat / 2 ^ 24 % 64 > 53 ∨ y.toNat / 2 ^ 16 % 32 > 24 ∨ y.toNat / 2 ^ 8 % 16 > 11) → bad 0x001 18) ∧
    (v.crew.enm = false → at_ 0x005 (fun w => { w with logctl := y })) ∧ (v.crew.enm = true → bad 0x005 97) ∧
    (y &&& 0xFFFF017F#32 = 0 → 16 ≤ y.toNat / 2 ^ 11 → y.toNat / 2 ^ 11 ≤ 24 → v.crew.recOk = false → at_ 0x007 (fun w => { w with dbgctl := y })) ∧
    (y &&& 0xFFFF007F#32 = 0 → y.getLsbD 8 = true → 16 ≤ y.toNat / 2 ^ 11 → y.toNat / 2 ^ 11 ≤ 24 → v.crew.recOk = false → num.toNat = 0x007 →
      Completes (.movc g true num r) s (fun t => Landed s t v (fun _ => none) ∧ FlagsKept t v ∧ Calm s t v ∧ Controls t v (fun w => { w with dbgctl := y }) ∧
        ∀ i ∈ v.active, ((v.crew.thread i).hlvl = 0 → ∃ w p, t.crew? v.iss.unit k = some w ∧ (w.thread i).pend = some p ∧ p.cause = 0x32 ∧ p.sub = 0 ∧ p.pc = v.iss.pc ∧ p.rpc = v.iss.next) ∧
          ((v.crew.thread i).hlvl ≠ 0 → Stands t v i v.iss.next))) ∧
    ((y &&& 0xFFFF007F#32 ≠ 0 ∨ y.toNat / 2 ^ 11 % 32 < 16 ∨ y.toNat / 2 ^ 11 % 32 > 24) → bad 0x007 18) ∧
    (x.toNat < 2 ^ 56 → x.toNat / 8 % 8 = 0 → x.toNat % 8 < 5 → at_ 0x00A (fun w => { w with tbase := x })) ∧
    ((x.toNat ≥ 2 ^ 56 ∨ x.toNat / 8 % 8 ≠ 0 ∨ x.toNat % 8 ≥ 5) → bad 0x00A 18) ∧
    at_ 0x00C (fun w => { w with tcmp := x }) ∧
    (x.toNat < 2 ^ 56 → at_ 0x00F (fun w => { w with recbase := x })) ∧ (x.toNat ≥ 2 ^ 56 → bad 0x00F 18) ∧
    (y &&& 0x00E0FFE0#32 = 0 → at_ 0x010 (fun w => { w with dbgsel := y })) ∧ (y &&& 0x00E0FFE0#32 ≠ 0 → bad 0x010 18) ∧
    at_ 0x011 (fun w => { w with dbgdata := x }) ∧
    (∀ f, f < 8 → num.toNat = 0x030 + f → x.getLsbD 61 = false → x.toNat / 8 % 8 = 0 → x.toNat % 8 < 5 →
      Issues (.movc g true num r) s v (fun t => Landed s t v (fun _ => none) ∧ Controls t v id ∧
        t.ctx v.grp.ctx = { s.ctx v.grp.ctx with brk := setNth (s.ctx v.grp.ctx).brk f x } ∧ ∀ c, c ≠ v.grp.ctx → t.ctx c = s.ctx c)) ∧
    (∀ f, f < 4 → num.toNat = 0x038 + f → x.getLsbD 60 = false →
      Issues (.movc g true num r) s v (fun t => Landed s t v (fun _ => none) ∧ Controls t v id ∧
        t.ctx v.grp.ctx = { s.ctx v.grp.ctx with watch := setNth (s.ctx v.grp.ctx).watch f x } ∧ ∀ c, c ≠ v.grp.ctx → t.ctx c = s.ctx c)) ∧
    (num.toNat = 0x000 → y &&& 0x7FFF01F0#32 = 0 →
      Issues (.movc g true num r) s v (fun t => Landed s t v (fun _ => none) ∧ Controls t v (fun w => if r.isCrew then { w with fmtr := y } else w) ∧
        ∀ i ∈ v.active, ∃ w p, t.crew? v.iss.unit k = some w ∧ pathOfThread (w.scull (i / 4)) (i % 4) = some p ∧ p.fmtr = y)) ∧
    (∀ c kk w, num.toNat = 0x012 → y.toNat % 8 = c → c ≠ 0 → v.sibling (v.crew.dbgsel.toNat % 32) = some (kk, w) → kk ≠ k →
      (4 ≤ c → w.halt = .halted) → (c = 4 ∨ c = 5 → v.crew.dbgsel.toNat / 2 ^ 24 < w.count) → (c = 7 → w.replayBad v.crew.dbgdata = false) →
      Waits (.movc g true num r) s v .command ∧ Completes (.movc g true num r) s (fun t => Controls t v id ∧ (v.crew.recOk = false → Calm s t v) ∧
        (t.core v.iss.unit).dbg = v.core.dbg ++ [(v.crew.cnum, dbgInstr c v.iss.unit kk v.iss.unit k (v.crew.dbgsel.toNat / 2 ^ 24) (v.crew.dbgsel.toNat / 2 ^ 16 % 32) v.crew.dbgdata)])) ∧
    (num.toNat = 0x012 → y.toNat % 8 = 0 → Passes (.movc g true num r) s v) ∧
    (∀ c w, num.toNat = 0x012 → y.toNat % 8 = c → c ≠ 0 → v.sibling (v.crew.dbgsel.toNat % 32) = some (k, w) → bad 0x012 100) ∧
    (∀ c kk w, num.toNat = 0x012 → y.toNat % 8 = c → v.sibling (v.crew.dbgsel.toNat % 32) = some (kk, w) → kk ≠ k → w.halt = .halted →
      (c = 4 ∨ c = 5 → w.count ≤ v.crew.dbgsel.toNat / 2 ^ 24 → bad 0x012 101) ∧ (c = 7 → w.replayBad v.crew.dbgdata = true → bad 0x012 102)) ∧
    (y &&& 0x7FFF01F0#32 ≠ 0 → bad 0x000 18) ∧
    (∀ f, f < 8 → x.getLsbD 61 = true ∨ x.toNat / 8 % 8 ≠ 0 ∨ x.toNat % 8 ≥ 5 → bad (0x030 + f) 18) ∧ (∀ f, f < 4 → x.getLsbD 60 = true → bad (0x038 + f) 18) ∧
    (∀ c, num.toNat = 0x012 → y.toNat % 8 = c → c ≠ 0 → v.sibling (v.crew.dbgsel.toNat % 32) = none → bad 0x012 100) ∧
    (∀ c kk w, num.toNat = 0x012 → y.toNat % 8 = c → 4 ≤ c → v.sibling (v.crew.dbgsel.toNat % 32) = some (kk, w) → kk ≠ k → w.halt ≠ .halted → bad 0x012 101)

/-- R58, R220, R236, R281, R285, R294, R405: the control registers whose write has a row of its own, and who may write them. -/
def Obligations.PrivilegedWrites : Prop :=
  ∀ (s : State) (v : View), Alone s v → Runs v → ∀ (k : Nat), v.iss.who = .crew k → ∀ (g : Guard) (a : Reg) (n : Fin 64) (tail : Bool) (j : Nat),
    (v.acting g).head? = some j →
    let x : DWord := v.pair j a
    let y : Word := v.val j a
    let u : Nat := v.iss.unit
    let sets (i : Instr) (P : State → Prop) : Prop := Issues i s v (fun t => Landed s t v (fun _ => none) ∧ Controls t v id ∧ P t)
    let priv (i : Instr) : Prop := Traps i s v (v.acting g) (fun _ => (0x05, 0, 0)) false
    let length : Nat := 65536 * (v.core.trbase.toNat % 2 ^ 16)
    (n.val < 47 → sets (.dmbWrite g n a) (fun t => t.iod = { s.iod with dmb := setNth s.iod.dmb n.val y })) ∧ (n.val ≥ 48 → priv (.dmbWrite g n a)) ∧
    sets (.dmbDoorbell g a) (fun t => t.iod = { s.iod with dmb := setNth s.iod.dmb 47 y, dbgIrq := s.iod.dbgIrq + 1 }) ∧
    (v.grp.ctx = 0 → x.toNat < 2 ^ 56 → sets (.trbaseWrite g a) (fun t => (t.core u).trbase = x ∧ (t.core u).trhead = 0 ∧ (t.core u).trtail = 0)) ∧
    (v.grp.ctx = 0 → x.toNat % 8 = 0 → x.toNat < length → x.toNat < 2 ^ 32 →
      sets (.tracePointerWrite g true a) (fun t => (t.core u).trtail = x ∧ (t.core u).trhead = v.core.trhead) ∧
      sets (.tracePointerWrite g false a) (fun t => (t.core u).trhead = x ∧ (t.core u).trtail = v.core.trtail)) ∧
    (v.grp.ctx = 0 → (x.toNat % 8 ≠ 0 ∨ length ≤ x.toNat % 2 ^ 32) → Traps (.tracePointerWrite g tail a) s v (v.acting g) (fun _ => (0x02, 18, 0)) false) ∧
    (v.grp.ctx = 0 → x = 0 → n.val / 16 < v.core.seats.length → n.val % 16 < ((v.core.seats.getD (n.val / 16) Seat.reset).ctr).length →
      n.val / 16 ≠ k / 12 → sets (.sctrClear g n a) (fun t => ((t.core u).seats.getD (n.val / 16) Seat.reset).ctr.getD (n.val % 16) 0 = 0)) ∧
    (x ≠ 0 → priv (.sctrClear g n a)) ∧
    (v.grp.ctx = 0 → y.toNat < 4 → sets (.dtblWrite g a) (fun t => (t.ctx 0).sel = y.toNat ∧ ∀ c, c ≠ 0 → t.ctx c = s.ctx c)) ∧
    (v.grp.ctx = 0 → y.toNat ≥ 4 → Traps (.dtblWrite g a) s v (v.acting g) (fun _ => (0x02, 18, 0)) false) ∧
    (v.grp.ctx ≠ 0 → priv (.trbaseWrite g a) ∧ priv (.tracePointerWrite g tail a) ∧ priv (.sctrClear g n a) ∧ priv (.dtblWrite g a)) ∧
    (y.toNat < 2 ^ 7 → Completes (.fstatWrite g a) s (fun t => Landed s t v (fun _ => none) ∧ Controls t v id ∧ (∀ i ∈ v.active, Stands t v i v.iss.next) ∧
      (v.crew.recOk = false → Calm s t v) ∧
      ∀ w q, t.crew? u k = some w → q < 8 → a.isCrew = true ∨ q = j / 4 →
        (w.scull q).fstat &&& ~~~condSHD = BitVec.ofNat 7 y.toNat &&& ~~~condSHD ∧
        (w.scull q).losspc = if y.getLsbD 5 then (v.crew.scull q).losspc else 0)) ∧
    (y.toNat ≥ 2 ^ 7 → Traps (.fstatWrite g a) s v (v.acting g) (fun _ => (0x02, 18, 0)) false)

/-- R242, R369: ERET takes each thread back to the frame's RPC under its RFMTR, with the frame's STICKY as FSTAT and one handler level less;
outside a handler, or with an RPC or an RFMTR that is not legal, it traps; it waits for its handler's own stores to the frame, and poison in the frame kills its crew (R304). That the frame is
read inside ERET's issue, in one step, is the model's choice (log entry 36). -/
def Obligations.HandlerReturn : Prop :=
  ∀ (s : State) (v : View), Alone s v → Runs v → ∀ (k : Nat), v.iss.who = .crew k → ∀ (g : Guard) (f : Nat → FrameRead) (lines : Nat → List Nat),
    let legal (j : Nat) : Prop := (f j).rpc.toNat < 2 ^ 56 ∧ (f j).rpc.toNat / 8 % 8 = 0 ∧ (f j).rpc.toNat % 8 < 5 ∧ (f j).rfmtr &&& 0x7FFF01F0#32 = 0
    let reads (j : Nat) : Except ReadStop (FrameRead × List Nat) := v.readFrame s (maskOf (v.acting g)) j
    let calm (t : State) : Prop := v.crew.recOk = false → (∀ j ∈ v.acting g, ∀ a ∈ lines j, a < 2 ^ 57 ∧ s.l1Valid v.iss.unit a 1 = true) → Calm s t v
    ((∀ j ∈ v.acting g, 0 < (v.crew.thread j).hlvl ∧ reads j = .ok (f j, lines j) ∧ legal j) →
      (∀ i ∈ v.acting g, ∀ j ∈ v.acting g, i / 4 = j / 4 → (f i).sticky = (f j).sticky) →
      Completes (.eret g) s (fun t => Landed s t v (fun _ => none) ∧ calm t ∧
        (∀ j ∈ v.active, j ∉ v.acting g → Stands t v j v.iss.next) ∧
        ∀ j ∈ v.acting g, ∃ w p, t.crew? v.iss.unit k = some w ∧ pathOfThread (w.scull (j / 4)) (j % 4) = some p ∧
          p.pc = (f j).rpc ∧ p.fmtr = (f j).rfmtr ∧ p.wait = .none ∧ (w.thread j).hlvl = (v.crew.thread j).hlvl - 1 ∧
          (w.scull (j / 4)).fstat = (f j).sticky)) ∧
    ((∀ j ∈ v.acting g, (v.crew.thread j).hlvl = 0 ∨ (reads j = .ok (f j, lines j) ∧ ¬ legal j)) →
      Completes (.eret g) s (fun t => (∀ j ∈ v.acting g, Holds t v j 0x02 99 0 false) ∧ Landed s t v (fun _ => none) ∧ calm t)) ∧
    (∀ j ∈ v.acting g, 0 < (v.crew.thread j).hlvl → reads j = .error .busy → Waits (.eret g) s v .read) ∧
    (v.crew.killed = false → v.crew.exited = false → (s.origin v.iss.unit).stalls = false → (∀ j ∈ v.acting g, reads j ≠ .error .busy) → ∀ j ∈ v.acting g, 0 < (v.crew.thread j).hlvl → ∀ array va home,
      reads j = .error (.poison array va home) → Completes (.eret g) s (fun t => t.issue = none ∧ ∃ w, t.crew? v.iss.unit k = some w ∧ w.killed = true))

/-- R240: the layout of a trap frame, sixteen little-endian doublewords with their reserved fields zero. -/
def Obligations.FrameLayout : Prop :=
  ∀ (u slot : Nat) (w : Crew) (p : Pend) (ts : List Nat) (fmtr : Word) (n : Nat) (waited : Bool),
    u < 2 ^ 12 → slot < 48 → w.cnum < 2 ^ 5 → ts ≠ [] → (∀ t ∈ ts, t < 32) → ts.Pairwise (· < ·) → p.sub < 2 ^ 32 → p.cause < 2 ^ 8 → p.faddr < 2 ^ 64 → p.stroke < 2 ^ 32 → n < 2 →
    let b := frameBytes u slot w p ts fmtr n waited
    let at_ (off : Nat) : Nat := natOfBytes ((b.drop off).take 8)
    let k : Nat := ts.headD 0 / 4
    let bit (x : Bool) (i : Nat) : Nat := if x then 2 ^ i else 0
    b.length = 128 ∧ at_ 0 = p.sub * 2 ^ 32 + p.cause ∧ (∀ t ∈ ts, k ≤ t / 4) ∧
    (∀ t, t < 32 → ((at_ 8 / 2 ^ 32).testBit t = true ↔ t ∈ ts)) ∧
    at_ 8 % 2 ^ 32 = u * 2 ^ 20 + (if p.cox then 15 else k) * 2 ^ 16 + slot * 2 ^ 8 + w.cnum ∧ at_ 16 = p.pc.toNat ∧ at_ 24 = p.instr.toNat % 2 ^ 64 ∧ at_ 32 = p.instr.toNat / 2 ^ 64 ∧
    at_ 40 = p.faddr ∧ at_ 48 = (w.scull k).losspc.toNat ∧ at_ 56 = p.stroke ∧
    at_ 64 = bit w.parted 15 + bit p.grp 14 + bit waited 10 + n * 2 ^ 9 + bit p.cox 8 + (w.scull k).fstat.toNat ∧
    at_ 72 = p.rpc.toNat ∧ at_ 80 = fmtr.toNat ∧ ∀ i, 11 ≤ i → i < 16 → at_ (8 * i) = 0

/-- R240, R241, R243, R246, R247, R288: the delivery of a cause to the threads of one scull order and one level: the frame goes to the crew's save slot, the
threads stand at TBASE one handler level up, and the registers, the other threads' levels and the sculls' FSTAT stand; a delivery at level 2, with no handler, with one that cannot be entered, or whose frame cannot be written, kills the
crew; in the system context the frame is written all the same and the crew halts, or once parted its sculls stop. That a delivery that cannot be made there kills
as elsewhere (log entry 52), and that the frame's bytes are at their homes with the delivery is the model's choice (log entry 27). -/
def Obligations.TrapDelivery : Prop :=
  ∀ (s : State) (u k : Nat) (w : Crew) (t : Nat) (p : Pend) (g : Group) (ha : Nat) (dest : Dest) (host : Bool),
    s.crew? u k = some w → s.group? u w.gid = some g → w.threads.length = 32 → w.sculls.length = 8 → (∀ q, (w.scull q).stack.length ≤ 12) →
    w.killed = false → w.exited = false → w.halt ≠ .halted → (s.origin u).stallsBy 2 = false → w.markWaited.nextDelivery = some t → (w.markWaited.thread t).pend = some p →
    let h : Nat := (w.thread t).hlvl
    let ts : List Nat := w.markWaited.sameCause p h
    let addr : Nat := frbase g.hdr w.pos + 128 * h
    let frame : List Byte := frameBytes u k w.markWaited (w.markWaited.causeFor p ts) ts (match pathOfThread (w.scull (ts.headD 0 / 4)) (ts.headD 0 % 4) with | some q => q.fmtr | none => w.fmtr) h p.waited
    let page : Prop := (dest = .home ∨ dest = .l1) ∧ s.locChunks (clusterOf u) g.ctx addr .store 16 = .ok ((List.range 16).map (fun i => ⟨ha + 8 * i, 8, 0, addr + 8 * i, dest, host⟩))
    let held : Prop := ((s.core u).icache.find? (lineKey g.ctx w.tbase.toNat)).isSome = true
    let killed : Prop := Completes (.trapDelivery u k) s (fun r => ∃ w', r.crew? u k = some w' ∧ w'.killed = true ∧ ∀ j, (w'.thread j).live = false)
    (g.ctx ≠ 0 → h < 2 → page → held → w.tbase ≠ 0 → s.badTarget u g.ctx w.tbase.toNat = none → Completes (.trapDelivery u k) s (fun r => ∃ w', r.crew? u k = some w' ∧ w'.regs = w.regs ∧
      (h = 0 → w'.slot0 = maskOf ts ∧ w'.slot1 = w.slot1) ∧ (h = 1 → w'.slot1 = maskOf ts ∧ w'.slot0 = w.slot0) ∧
      (∀ j ∈ ts, (w'.thread j).pend = none ∧ (w'.thread j).hlvl = h + 1 ∧
        ∃ q, pathOfThread (w'.scull (j / 4)) (j % 4) = some q ∧ q.pc = w.tbase ∧ q.wait = .none) ∧
      (∀ j, j ∉ ts → (w'.thread j).hlvl = (w.thread j).hlvl) ∧ (∀ q, (w'.scull q).fstat = (w.scull q).fstat) ∧
      (w.replay = none → ∀ i, i < 128 → r.byte (ha + i) = frame.getD i 0) ∧
      (w.replay = none → (dest = .home ∨ ∀ e ∈ (s.core u).l1, e.2.dirty = []) → ∀ a, a < ha ∨ ha + 128 ≤ a → r.byte a = s.byte a) ∧
      (w.replay ≠ none → r.mem = s.mem))) ∧
    (2 ≤ h ∨ (g.ctx ≠ 0 ∧ w.tbase = 0) → killed) ∧ (∀ f, s.locChunks (clusterOf u) g.ctx addr .store 16 = .error f → killed) ∧
    (g.ctx ≠ 0 → h < 2 → page → held → (s.badTarget u g.ctx w.tbase.toNat).isSome = true → killed) ∧
    (g.ctx = 0 → h < 2 → ∀ ps, s.locChunks (clusterOf u) g.ctx addr .store 16 = .ok ps → Completes (.trapDelivery u k) s (fun r => ∃ w', r.crew? u k = some w' ∧
      w'.regs = w.regs ∧ (∀ j ∈ ts, (w'.thread j).pend = none ∧ (w'.thread j).hlvl = h ∧ (w'.thread j).resume = some p.rpc) ∧
      (h = 0 → w'.slot0 = maskOf ts ∧ w'.slot1 = w.slot1) ∧ (h = 1 → w'.slot1 = maskOf ts ∧ w'.slot0 = w.slot0) ∧
      (page → w.replay = none → ∀ i, i < 128 → r.byte (ha + i) = frame.getD i 0) ∧
      (p.ganged = true → w'.halt = .requested ∧ Instr.haltComplete u k ∈ r.agenda) ∧
      (p.ganged = false → w'.halt = w.halt ∧ ∀ j ∈ ts, (w'.scull (j / 4)).stopped = true)))

/-- R129, R130, R131, R133, R144, R145, R146, R312: the checks of an access in their order, and where its bytes lie, in each address space. What another module's
own checks answer is a free value of the model (log entry 7). -/
def Obligations.AddressRules : Prop :=
  ∀ (s : State) (v : View) (t e n : Nat) (p : Perm), n = 1 ∨ n = 2 ∨ n = 4 ∨ n = 8 ∨ n = 16 →
    let x : Trans := s.trans v.cluster v.grp.ctx e
    let pa : Nat := x.pa + e % 2 ^ x.bits
    let own : Prop := e / 2 ^ 46 = s.modnum
    let hostPage : Prop := 15 * 2 ^ 36 ≤ pa ∧ pa < 2 ^ 40
    let global : Except AFault (List Piece) := v.locate s t .global e n p
    let priv : Except AFault (List Piece) := v.locate s t .priv e n p
    let vault : Except AFault (List Piece) := v.locate s t .vault e n p
    let W : Nat := hdrWords v.grp.hdr
    let granted : Prop := 4096 * hdrVbase v.grp.hdr ≤ e ∧ e + n ≤ 4096 * (hdrVbase v.grp.hdr + hdrVlen v.grp.hdr)
    let reached : Prop := e < 2 ^ 56 ∧ e % n = 0 ∧ own ∧ x.fault = none ∧ s.hbmGone pa = false ∧ p.ok x.flags = true
    (2 ^ 56 ≤ e → global = .error (0x12, 0, e)) ∧
    (e < 2 ^ 56 → e % n ≠ 0 → global = .error (0x13, 0, e)) ∧
    (e < 2 ^ 56 → e % n = 0 → ¬ own → s.routes.find? (e / 2 ^ 46) = none → global = .error (0x10, 3, e)) ∧
    (e < 2 ^ 56 → e % n = 0 → ¬ own → (s.routes.find? (e / 2 ^ 46)).isSome = true → global =
      match Config.remoteFault s.free e with | some f => .error (f.1, f.2, e) | none => .ok [⟨2 ^ 56 + e, n, 0, e, .remote, false⟩]) ∧
    (e < 2 ^ 56 → e % n = 0 → own → ∀ f, x.fault = some f → global = .error (f.1, f.2, e)) ∧
    (e < 2 ^ 56 → e % n = 0 → own → x.fault = none → s.hbmGone pa = true → global = .error (0x10, 4, e)) ∧
    (e < 2 ^ 56 → e % n = 0 → own → x.fault = none → s.hbmGone pa = false → p.ok x.flags = false → global = .error (0x11, 0, e)) ∧
    (reached → p = .atomic → x.flags.testBit 6 = true → global = .error (0x11, 2, e)) ∧
    (reached → p = .atomic → x.flags.testBit 6 = false → hostPage → global = .error (0x11, 3, e)) ∧
    (reached → (p = .atomic → x.flags.testBit 6 = false ∧ ¬ hostPage) → ∃ d h, global = .ok [⟨pa, n, 0, e, d, h⟩] ∧
      (d = .repl ↔ x.flags.testBit 6 = true) ∧ (d = .l1 ↔ x.flags.testBit 6 = false ∧ x.flags.testBit 7 = false ∧ ¬ hostPage) ∧ d ≠ .remote ∧ (h = true ↔ hostPage)) ∧
    (e % n ≠ 0 → priv = .error (0x13, 0, e) ∧ vault = .error (0x13, 0, e)) ∧
    (e % n = 0 → W < e / 4 + (n + 3) / 4 → priv = .error (0x14, max (e / 4) W % 2 ^ 32, e)) ∧
    (e % n = 0 → e / 4 + (n + 3) / 4 ≤ W → n ≤ 4 → priv = v.locate s t .global
      (((hdrPriv v.grp.hdr + 160 * W * v.crew.pos) % 2 ^ 64 + (32 * (e / 4) + t) * 4 + e % 4) % 2 ^ 64) n p) ∧
    (e % n = 0 → e < 0x6000000 → ¬ granted → vault = .error (0x15, 0, e)) ∧
    (e % n = 0 → e < 0x6000000 → granted → e / 0x200000 ∈ (s.cluster v.cluster).retiredVaults → vault = .error (0x15, 3, e)) ∧
    (e % n = 0 → e < 0x6000000 → granted → e / 0x200000 ∉ (s.cluster v.cluster).retiredVaults →
      vault = .ok [⟨vaultKey v.cluster e, n, 0, e, .home, false⟩]) ∧
    (e % n = 0 → 0x6000000 ≤ e → ∀ unit, v.grp.nscr[(e - 0x6000000) / 0x10000]? = some unit →
      vault = .ok [⟨scratchKey v.iss.unit unit (e % 0x10000), n, 0, e, .home, false⟩]) ∧
    (e % n = 0 → 0x6000000 + 0x10000 * v.grp.nscr.length ≤ e → vault = .error (0x15, 0, e))

/-- R129, R392, R388, R376, R393, R428 to R433, R156, R162, R44: a load whose accesses pass is one more operation in flight, with the bytes of each thread and the register they go to, and its
completion flag rises; a store whose accesses pass takes its origin's next sequence number and waits there with its bytes, and the registers of WIT take its witness; memory does not change yet. -/
def Obligations.LoadsAndStoresIssue : Prop :=
  (∀ (s : State) (v : View), Alone s v → Runs v → ∀ (k : Nat), v.iss.who = .crew k → ∀ (ty : Ty) (m : MAddr) (fsel : Bool) (sig : BitVec 8) (d after : Reg)
        (ps qs : Nat → List Piece),
      let u : Nat := v.iss.unit
      let ea (t : Nat) : Nat := ((v.pair t m.base).toNat + (match m.off with | .reg r => (v.val t r).toInt | .imm w => w.toInt) % 2 ^ 64).toNat % 2 ^ 64
      let enters (i : Instr) (scope : Nat) (forced : Bool) (elems : List LElem) : Prop :=
        Issues i s v (fun t => Landed s t v (fun _ => none) ∧ Controls t v id ∧ t.origins = s.origins ∧ (t.core u).nextGid = v.core.nextGid + 1 ∧
          (∀ n, n ≠ v.core.nextGid → (t.core u).loads.find? n = v.core.loads.find? n) ∧
          (∃ l, (t.core u).loads.find? v.core.nextGid = some l ∧ l.who = v.iss.who ∧ l.scope = scope ∧ l.forced = forced ∧ l.flag = v.flag fsel ∧ l.elems = elems) ∧
          ∀ f, v.flag fsel = some f → ∀ w, t.crew? u k = some w → ∀ j ∈ v.sculls, (w.scull j).cf.getD f 0 = (v.crew.scull j).cf.getD f 0 + 1)
      (∀ q ∈ v.iss.parts, ((v.crew.scull q).cf).length = 12) → v.iss.parts.Nodup → v.flagFull fsel = false →
      (v.lanes m.g d ≠ [] → (∀ t ∈ v.lanes m.g d, v.witFault s t after m.scope.code = none ∧ v.access s t 2 m.space (ea t) m.width.bytes .load = .ok (ps t)) →
        enters (.ld ty m fsel sig d after) m.scope.code (decide (after ≠ .vz ∧ 1 ≤ m.scope.code))
          ((v.lanes m.g d).map (fun t => ⟨t, ea t, (ps t).flatMap (v.loadParts t ty sig d), if (ps t).any (·.host) then 4 else 1, if after = .vz then 0 else v.pair t after⟩))) ∧
      (v.acting m.g ≠ [] → (∀ t ∈ v.acting m.g, v.privPieces s t 2 m .load = .ok (ps t, qs t)) →
        enters (.fill m fsel d) 0 false ((v.acting m.g).map (fun t => ⟨t, ea t,
          ((ps t).zip (qs t)).map (fun x => ⟨x.1.ha, 4, x.1.dest, v.key t (regPlus d x.2.off), false, 0xFE, some (x.2.ha, x.2.dest), false, none⟩),
          if (ps t).any (·.host) then 4 else 1, 0⟩)))) ∧
  (∀ (s : State) (v : View), Alone s v → Runs v → ∀ (k : Nat), v.iss.who = .crew k → ∀ (ty : Ty) (m : MAddr) (d after wit : Reg) (ps qs : Nat → List Piece),
      let u : Nat := v.iss.unit
      let seq : Nat := ((s.origin u).cnt + 1) % 2 ^ 30
      let value (t i : Nat) : Byte := BitVec.ofNat 8 ((v.val t (regPlus d (i / 4))).toNat / 2 ^ (8 * (i % 4)))
      let stored (t : Nat) : List (Nat × Byte) := (ps t).flatMap (fun p => (List.range p.n).map (fun i => (p.ha + i, value t (p.off + i))))
      let tags (t : Nat) : List (Nat × Byte) := (qs t).map (fun q => (q.ha, v.tag t (regPlus d q.off)))
      let ordered (ts : List Nat) (f : Nat → List (Nat × Byte)) (a : Nat) : Option Byte := ((ts.flatMap f).reverse.find? (fun x => x.1 == a)).map (·.2)
      let near : Prop := ∀ t, ∀ p ∈ ps t ++ qs t, p.dest ≠ .remote
      let enters (i : Instr) (ts : List Nat) (f : Nat → List (Nat × Byte)) : Prop :=
        Issues i s v (fun r =>
          Landed s r v (match wit with
            | .vz => fun _ => none
            | w => (fun key => if key ∈ ts.filterMap (fun t => v.key t w) then some (loWord (mkWit m.scope.code 1 s.modnum u (s.origin u).inc seq), 0xFE)
                else if key ∈ ts.filterMap (fun t => v.key t (regPlus w 1)) then some (hiWord (mkWit m.scope.code 1 s.modnum u (s.origin u).inc seq), 0xFE) else none)) ∧
          Controls r v id ∧ (r.core u).loads = v.core.loads ∧ (r.origin u).cnt = seq ∧ (r.origin u).inc = (s.origin u).inc ∧
          ∃ e, (r.origin u).pend = (s.origin u).pend ++ [e] ∧ e.seq = seq ∧ e.who = some v.iss.who ∧ e.scope = m.scope.code ∧ e.await = m.scope.code ∧ e.held = false ∧ e.entered = false ∧
            (∀ a, ((e.bytes.find? (fun b => b.ha == a)).map (·.val)) = ordered ts f a))
      (s.origin u).stalls = false → v.crew.enm = false → near → (∀ t, ∀ p ∈ ps t, p.off + p.n ≤ m.width.bytes) →
      (wit = .vz ∨ (∃ n : Fin 224, wit = .v n ∧ n.val % 2 = 0) ∨ ∃ n : Fin 24, wit = .k n ∧ n.val % 2 = 0) →
      (v.lanes m.g d ≠ [] → (∀ t ∈ v.lanes m.g d, v.witFault s t after m.scope.code = none ∧ v.access s t 1 m.space (v.ea t m) m.width.bytes .store = .ok (ps t)) →
        enters (.st ty m after d wit) (v.lanes m.g d) stored) ∧
      (v.acting m.g ≠ [] → (∀ t ∈ v.acting m.g, v.privPieces s t 1 m .store = .ok (ps t, qs t)) →
        enters (.spill m d wit) (v.acting m.g) (fun t => stored t ++ tags t)))

/-- R136, R163, R164, R171, R176: a store event enters the core's L1, is swept behind its witness, and goes through to its homes; each step changes the
bytes of the event and no other, but for a line whose way the event's lines take, and for what lies behind a Sweep that has begun. An event of the host goes
through by one line at a time, and where copies of the line are held its bytes first become those of a replicated line. Which line gives
up its way, and that an after-witness is awaited at the scope that the instruction names, are the model's choices (log entries 48, 51). -/
def Obligations.StorePath : Prop :=
  ∀ (s : State) (u seq : Nat) (e : StoreEv), s.event? u seq = some e → (e.bytes.map (·.ha)).Nodup → ((s.core u).l1).Pairwise (fun a b => a.1 < b.1) →
    let old : SMap L1Byte := (s.core u).l1
    let cnt : Nat := (s.origin u).cnt
    let mine (a : Nat) : Prop := ∃ b ∈ e.bytes, b.dest = .l1 ∧ b.ha = a
    let here : Prop := ∀ b ∈ e.bytes, b.dest = .l1 → HasWay s u b.ha
    let behind : Prop := ∃ q, (s.origin u).behind = some q ∧ seqLe cnt seq q = true
    (s.eventHeld u e = false → e.entered = false → e.inL1 = true → s.needOver u e.waits = true → (∀ w ∈ e.after, s.satisfied w e.await = true) →
      Completes (.storeEnter u seq) s (fun t =>
        (∀ b ∈ e.bytes, b.dest = .l1 → seen t u b.ha = b.val ∧ (behind → t.byte b.ha = b.val) ∧
          (here → ∃ x, (t.core u).l1.find? b.ha = some x ∧ (behind → x.dirty = []) ∧
            (¬ behind → x.dirty = (match old.find? b.ha with | some y => y.dirty | none => []) ++ [seq]))) ∧
        (∀ a, ¬ mine a → Spared s t u a (¬ here) behind) ∧ (here → ¬ behind → t.mem = s.mem) ∧
        (e.scope = 0 ∧ (∀ b ∈ e.bytes, b.dest = .l1) → t.event? u seq = none) ∧
        (¬ (e.scope = 0 ∧ ∀ b ∈ e.bytes, b.dest = .l1) → ∃ e', t.event? u seq = some e' ∧ e'.entered = true ∧ e'.bytes = e.bytes))) ∧
    (e.held = false → e.wit = true → 1 ≤ e.scope → e.swept = false → (e.inL1 = true → e.entered = true) → Completes (.storeSweep u seq) s (fun t =>
        let due (b : L1Byte) : Prop := ∃ d ∈ b.dirty, seqLe cnt d ((seq + 2 ^ 30 - 1) % 2 ^ 30) = true
        (∀ a b, old.find? a = some b → due b → t.byte a = b.val ∧ (t.core u).l1.find? a = some { b with dirty := [] }) ∧
        (∀ a, (∀ b, old.find? a = some b → ¬ due b) → t.byte a = s.byte a ∧ (t.core u).l1.find? a = old.find? a) ∧
        ∃ e', t.event? u seq = some e' ∧ e'.swept = true ∧ e'.bytes = e.bytes)) ∧
    (u < 4032 → s.mayGo u e = true → Completes (.storeThrough u seq) s (fun t =>
        let owed (b : SByte) (x : L1Byte) : Prop := b.dest = .l1 ∧ 1 ≤ e.scope ∧ old.find? b.ha = some x ∧ seq ∈ x.dirty
        (∀ b ∈ e.bytes, b.dest = .home → t.byte b.ha = b.val) ∧
        (∀ b ∈ e.bytes, ∀ x, owed b x → t.byte b.ha = b.val ∧ ∀ before since, x.dirty = before ++ seq :: since → seq ∉ before →
          (t.core u).l1.find? b.ha = some { x with dirty := since }) ∧
        (∀ a, (∀ b ∈ e.bytes, b.ha = a → ∀ x, ¬ owed b x) → (t.core u).l1.find? a = old.find? a ∧
          ((∀ b ∈ e.bytes, b.dest = .home → b.ha ≠ a) → t.byte a = s.byte a)) ∧
        ((∀ b ∈ e.bytes, b.dest ≠ .repl ∧ b.dest ≠ .remote) → t.event? u seq = none) ∧
        ((∃ b ∈ e.bytes, b.dest = .repl ∨ b.dest = .remote) → ∃ e', t.event? u seq = some e' ∧ ∀ b, b ∈ e'.bytes ↔ b ∈ e.bytes ∧ (b.dest = .repl ∨ b.dest = .remote)))) ∧
    (4032 ≤ u → u < 4064 → (s.origin u).pend.head? = some e → (∀ b ∈ e.bytes, b.dest ≠ .repl) →
      let lowest (b : SByte) : Prop := ∀ c ∈ e.bytes, b.ha / 128 ≤ c.ha / 128
      ((∀ b ∈ e.bytes, lowest b → s.lineCopied (b.ha / 128) = false) → Completes (.storeThrough u seq) s (fun t =>
        (∀ b ∈ e.bytes, lowest b → t.byte b.ha = b.val) ∧ (∀ a, (∀ b ∈ e.bytes, lowest b → b.ha ≠ a) → t.byte a = s.byte a) ∧
        ((∀ b ∈ e.bytes, lowest b) → t.event? u seq = none) ∧
        ((∃ b ∈ e.bytes, ¬ lowest b) → ∃ e', t.event? u seq = some e' ∧ ∀ b, b ∈ e'.bytes ↔ b ∈ e.bytes ∧ ¬ lowest b))) ∧
      ((∃ b ∈ e.bytes, lowest b ∧ s.lineCopied (b.ha / 128) = true) → Completes (.storeThrough u seq) s (fun t => t.mem = s.mem ∧
        ∃ e', t.event? u seq = some e' ∧ e'.bytes.map (fun b => (b.ha, b.val)) = e.bytes.map (fun b => (b.ha, b.val)) ∧ e'.line.isSome = true)))

/-- R136, R144, R147, R151, R152, R171: the L1 writes back, drops and fetches bytes without changing what they hold, one masked write for the dirty bytes of a
line; a store to a replicated line takes the twelve copies in ascending order and then changes all of them and the home at once. That one byte may go back
alone, and which line gives up its way to a fetched one, are the model's choices (log entries 25, 48). -/
def Obligations.CacheSteps : Prop :=
  ∀ (s : State) (u a cl line seq : Nat) (e : StoreEv) (ctx va : Nat) (x : L1Byte), (s.core u).l1.Pairwise (fun a b => a.1 < b.1) →
    let old (b : Nat) : Option L1Byte := (s.core u).l1.find? b
    let wrote (picked : Nat → Prop) (t : State) : Prop := ∀ b,
      (∀ y, picked b → old b = some y → y.dirty ≠ [] → t.byte b = y.val ∧ (t.core u).l1.find? b = some { y with dirty := [] }) ∧
      (¬ picked b ∨ (∀ y, old b = some y → y.dirty = []) → t.byte b = s.byte b ∧ (t.core u).l1.find? b = old b)
    Completes (.l1WriteBack u a) s (wrote (fun b => b / 128 = a / 128)) ∧
    Completes (.l1WriteByte u a) s (wrote (fun b => if s.isPoisoned a 1 then b / 8 = a / 8 else b = a)) ∧
    (old a = some x → Completes (.l1Drop u a) s (fun t => t.mem = s.mem ∧
      (t.core u).l1.find? a = (if x.dirty ≠ [] then some x else none) ∧ ∀ b, b ≠ a → (t.core u).l1.find? b = old b)) ∧
    (s.misses u a = true → Completes (.l1Fetch u a) s (fun t => HasWay t u a ∧
      (∀ b, b / 128 = a / 128 → t.byte b = s.byte b ∧ ∃ y, (t.core u).l1.find? b = some y ∧
        match old b with | some z => if z.dirty ≠ [] then y = z else y.val = s.byte b ∧ y.dirty = [] | none => y.val = s.byte b ∧ y.dirty = []) ∧
      ∀ b, b / 128 ≠ a / 128 → Spared s t u b (¬ HasWay s u a) False)) ∧
    (cl < 12 → Completes (.translationWalk cl ctx va) s (fun t => t.mem = s.mem ∧ (t.cluster cl).tc.find? (tcKey ctx va) = some (s.walk ctx va) ∧
      ∀ n, n ≠ cl → t.cluster n = s.cluster n)) ∧
    (s.event? u seq = some e → e.line = some line → s.mayGo u e = true → e.locks < 12 → s.copyLocked e.locks line = false →
      Completes (.replicaLock u seq) s (fun t => t.mem = s.mem ∧ t.copyLocked e.locks line = true ∧ (t.copyOf e.locks line).bytes = (s.copyOf e.locks line).bytes ∧
        ∃ e', t.event? u seq = some e' ∧ e'.locks = e.locks + 1)) ∧
    (s.event? u seq = some e → e.line = some line → e.locks = 12 → (e.bytes.map (·.ha)).Nodup → line < 2 ^ 40 →
      Completes (.replicaUpdate u seq) s (fun t =>
        (∀ b ∈ e.bytes, b.dest = .repl → b.ha / 128 = line → t.byte b.ha = b.val ∧
          ∀ n c, n < 12 → s.copies.find? (n * 2 ^ 40 + line) = some c → c.bytes.length = 128 →
            ∃ c', t.copies.find? (n * 2 ^ 40 + line) = some c' ∧ c'.lock = none ∧ c'.bytes.getD (b.ha % 128) 0 = b.val) ∧
        (∀ a, (∀ b ∈ e.bytes, b.dest = .repl → b.ha / 128 = line → b.ha ≠ a) → t.byte a = s.byte a) ∧
        ((∀ b ∈ e.bytes, b.dest = .repl ∧ b.ha / 128 = line) → t.event? u seq = none))) ∧
    (s.copyLocked cl line = false → Completes (.replicaCopyEvict cl line) s (fun t => t.mem = s.mem ∧ t.copies.find? (copyKey cl line) = none))

/-- R171, R270, R392, R376, R393: a load binds the bytes its core sees (its L1 where valid, else the home; a load at a wider scope with an after-witness sees
the home where the L1 byte is clean), extended to the register, and no other register changes. A load that awaits no witness, follows no other operation of its group
and takes its address from no load that bound later may bind to bytes of its address that its thread read before it issued: which loads do, and when what was read is dropped, is
the model's reading (log entry 36). -/
def Obligations.LoadBinds : Prop :=
  (∀ (s : State) (u id t k : Nat) (l : Load) (e : LElem) (w : Crew), (s.core u).loads.find? id = some l → l.elems.find? (fun x => x.t == t) = some e →
    l.who = .crew k → s.crew? u k = some w → (e.parts.filterMap (·.dst)).Nodup →
    let binds (i : Instr) (value : LPart → Word) (still : Prop) (P : State → Prop) : Prop := s.recStalls u w = false →
      Completes i s (fun r => (w.recOk = false → still → r.mem = s.mem) ∧ P r ∧
        (∀ p ∈ e.parts, ∀ key, p.dst = some key → regOf r u (.crew k) key = some (value p, p.tag)) ∧
        (∀ key, (∀ p ∈ e.parts, p.dst ≠ some key) → regOf r u (.crew k) key = regOf s u (.crew k) key) ∧
        (l.elems.filter (fun x => x.t != t) = [] → (r.core u).loads.find? id = none) ∧
        (l.elems.filter (fun x => x.t != t) ≠ [] → ∃ l', (r.core u).loads.find? id = some l' ∧ l'.elems = l.elems.filter (fun x => x.t != t)))
    let number (p : LPart) (f : Nat → Byte) : Word :=
      let raw : Nat := ((List.range p.n).map (fun i => (f (p.ha + i)).toNat * 256 ^ i)).sum
      if p.sx = true ∧ 2 ^ (8 * p.n - 1) ≤ raw then BitVec.ofInt 32 ((raw : Int) - 2 ^ (8 * p.n)) else BitVec.ofNat 32 raw
    let now (d : Dest) (a : Nat) : Byte :=
      match d with
      | .l1 => (match (s.core u).l1.find? a with | some b => if l.forced = true ∧ b.dirty = [] then s.byte a else b.val | none => s.byte a)
      | .repl => (s.copyOf (clusterOf u) (a / 128)).bytes.getD (a % 128) 0
      | _ => s.byte a
    ((∀ p ∈ e.parts, p.tagAt = none ∧ ((p.known.isSome = true ∧ p.n = 0 ∧ p.dest = .home) ∨ (p.known = none ∧ 1 ≤ p.n ∧ p.n ≤ 4 ∧ p.ha % 128 + p.n ≤ 128 ∧ p.dest ≠ .remote))) → ((s.core u).l1).Pairwise (fun a b => a.1 < b.1) →
      s.satisfied e.after l.scope = true → s.needOver u l.need = true → (∀ p ∈ e.parts, s.partReady u l.forced p = true) →
      (∀ p ∈ e.parts, ∀ i, i < p.n → s.isPoisoned (p.ha + i) 1 = false ∧ (p.ha + i) / 8 ∉ (s.core u).l1poison ∧
        ∀ c, p.dest = .repl → s.copies.find? (clusterOf u * 2 ^ 40 + (p.ha + i) / 128) = some c → (p.ha + i) / 8 % 16 ∉ c.marks) →
      binds (.loadBind u id t []) (fun p => p.known.getD (number p (now p.dest))) (l.forced = true → ∀ p ∈ e.parts, p.dest = .l1 → HasWay s u p.ha) (fun _ => True)) ∧
    (∀ x, w.early.find? (fun y => y.binds id l e) = some x → (∀ p ∈ e.parts, 1 ≤ p.n ∧ p.n ≤ 4) →
      binds (.loadBindEarly u id t) (fun p => number p (fun a => ((x.bytes.find? (fun b => b.1 == a)).map (·.2)).getD 0)) True
        (fun r => ∀ w', r.crew? u k = some w' → ∀ y ∈ w'.early, ∃ z ∈ w.early, z ≠ x ∧ y.t = z.t ∧ y.bytes = z.bytes ∧ y.bars = z.bars))) ∧
  (∀ (s : State) (u k t va : Nat) (w : Crew) (x : Loc),
    let a : Nat := va / 16 * 16
    let part (i : Nat) : LPart := ⟨x.ha + i, 1, x.dest, some 0, false, intTag, none, false, none⟩
    let readable (i : Nat) : Bool := s.partReady u false (part i) && (s.partDead u false (part i)).isNone
    let bytes : List (Nat × Byte) := ((List.range 16).filter readable).map (fun i => (x.ha + i, s.l1Byte u x.dest (x.ha + i)))
    s.crew? u k = some w → (w.thread t).live = true → (w.thread t).pend = none → w.halt = .none → w.replay = none → va < 2 ^ 56 → x.dest ≠ .remote →
    (∀ l ∈ (s.core u).loads, l.2.who = .crew k → ∀ e ∈ l.2.elems, e.t = t → (w.thread t).mark ≤ l.1) → s.poisonAhead u (.crew k) (fun _ => true) = false →
    s.xlate (clusterOf u) ((s.core u).groups.get Group.blank w.gid).ctx a .load = .ok x → bytes ≠ [] →
    Completes (.loadEarly u k t va) s (fun r => r.mem = s.mem ∧ r.crew? u k = some { w with early := w.early ++ [⟨t, bytes, [], []⟩] }))

/-- R335 to R337, R143, R168, R277: an atomic operation's lines leave the L1; then the operations of its threads perform one after the other, in ascending order, each
reading its word and writing the new value as one step at the home; the halves of a packed pair are atomics of their own; the old values return once every
thread's has performed. That the lines leave in a step before the first operation, and that Config.highFirst picks the half that goes first, are the model's
choices (log entry 26). -/
def Obligations.AtomicsPerform : Prop :=
  ∀ (s : State) (u id k : Nat) (a : Atom) (e : AElem) (more : List AElem) (w : Crew) (q : Nat), (s.core u).atoms.find? id = some a → a.seq = some q → a.op ≤ 7 → a.elems = e :: more →
    a.who = .crew k → s.crew? u k = some w → s.atomReady u a = true → (s.dropEvent u q).recHolds u (.crew k) = false →
    let line (b : Nat) : Prop := ∃ x ∈ a.elems, x.remote = false ∧ x.ha / 128 = b / 128
    let left (r : State) (a' : Atom) : Prop := (r.core u).atoms.find? id = some a'
    let ends (r : State) (old : List (Nat × Nat)) : Prop := (r.core u).atoms.find? id = none ∧ r.event? u q = none ∧
      (∀ d : Fin 224, a.dst = some (.v d) → a.ty.wide = false → ∀ p ∈ old, ∃ g, regOf r u (.crew k) (32 * d.val + p.1) = some (BitVec.ofNat 32 p.2, g)) ∧
      (∀ d : Fin 224, a.dst = some (.v d) → a.ty.wide = true → d.val < 223 → ∀ p ∈ old, ∃ g h,
        regOf r u (.crew k) (32 * d.val + p.1) = some (BitVec.ofNat 32 (p.2 % 2 ^ 32), g) ∧
        regOf r u (.crew k) (32 * (d.val + 1) + p.1) = some (BitVec.ofNat 32 (p.2 / 2 ^ 32), h))
    (a.flushed = false → ((s.core u).l1).Pairwise (fun a b => a.1 < b.1) → Completes (.atomApply u id []) s (fun r =>
      left r { a with flushed := true } ∧ ∀ b,
        (line b → (r.core u).l1.find? b = none ∧ r.byte b = match (s.core u).l1.find? b with | some x => if x.dirty ≠ [] then x.val else s.byte b | none => s.byte b) ∧
        (¬ line b → Spared s r u b False (a.wit = true ∧ 1 ≤ s.atomScope u q a)))) ∧
    (a.flushed = true → s.atomApplies u a q = true → (∀ x ∈ a.elems, x.remote = false) → s.poison = [] → w.recOk = false → (a.got.map (·.1) ++ [e.t]).Nodup → (∀ t ∈ a.got.map (·.1) ++ [e.t], t < 32) →
      (a.half = none → a.ty ∈ [Ty.i32, .u32, .i64, .u64, .f32] →
        let n : Nat := if a.ty.wide then 8 else 4
        let old : Nat := s.num e.ha n
        let x : Nat := e.operand.toNat % 2 ^ (8 * n)
        let y : Nat := e.swap.toNat % 2 ^ (8 * n)
        let signed (z : Nat) : Int := if (a.ty = .i32 ∨ a.ty = .i64) ∧ 2 ^ (8 * n - 1) ≤ z then (z : Int) - 2 ^ (8 * n) else z
        let new : Nat :=
          match a.op with
          | 0 => if a.ty = .f32 then (fp32.add .near (fp32.value old) (fp32.value x)).bits else (old + x) % 2 ^ (8 * n)
          | 1 => if a.ty = .f32 then (outPick fp32 false old x ⟨fp32.value old, ⟨0, 0⟩⟩ ⟨fp32.value x, ⟨0, 0⟩⟩).bits else if signed x < signed old then x else old
          | 2 => if a.ty = .f32 then (outPick fp32 true old x ⟨fp32.value old, ⟨0, 0⟩⟩ ⟨fp32.value x, ⟨0, 0⟩⟩).bits else if signed old < signed x then x else old
          | 3 => old &&& x
          | 4 => old ||| x
          | 5 => old ^^^ x
          | 6 => x
          | _ => if old = x then y else old
        e.operand.toNat < 2 ^ (8 * n) → e.swap.toNat < 2 ^ (8 * n) →
        Completes (.atomApply u id []) s (fun r => r.num e.ha n = new ∧ (∀ b, b < e.ha ∨ e.ha + n ≤ b → r.byte b = s.byte b) ∧
          (more = [] → ends r (a.got ++ [(e.t, old)])) ∧ (more ≠ [] → left r { a with elems := more, got := a.got ++ [(e.t, old)] }))) ∧
      (a.op ≤ 2 ∨ a.op = 6 → ∀ f, (a.ty = .bf16x2 ∧ f = bf16) ∨ (a.ty = .f16x2 ∧ f = fp16) →
        let first : Nat := if Config.highFirst s.free then 1 else 0
        let half (r : State) (h : Nat) : Prop :=
          let o : Nat := s.num (e.ha + 2 * h) 2
          let x : Nat := e.operand.toNat / 2 ^ (16 * h) % 2 ^ 16
          r.num (e.ha + 2 * h) 2 = (if a.op = 6 then x else if a.op = 0 then (f.add .near (f.value o) (f.value x)).bits else (outPick f (a.op == 2) o x ⟨f.value o, ⟨0, 0⟩⟩ ⟨f.value x, ⟨0, 0⟩⟩).bits) ∧
          ∀ b, b < e.ha + 2 * h ∨ e.ha + 2 * h + 2 ≤ b → r.byte b = s.byte b
        (a.half = none → Completes (.atomApply u id []) s (fun r => half r first ∧ left r { a with half := some (first, s.num (e.ha + 2 * first) 2) })) ∧
        (∀ h x, h < 2 → a.half = some (h, x) →
          let old : Nat := x * 2 ^ (16 * h) + s.num (e.ha + 2 * (1 - h)) 2 * 2 ^ (16 * (1 - h))
          Completes (.atomApply u id []) s (fun r => half r (1 - h) ∧ (more = [] → ends r (a.got ++ [(e.t, old)])) ∧
            (more ≠ [] → left r { a with elems := more, got := a.got ++ [(e.t, old)], half := none })))))

/-- R160, R161, R166, R167, R440: WMERGE joins two witnesses, WWAIT goes on once its witness is satisfied, WTEST writes whether it is; a witness that
reaches less far than the scope asked of it, or whose ORIGIN is malformed (R155), traps. That a merge of two witnesses of different origins carries this
module's number is the model's choice (log entry 26). -/
def Obligations.WitnessInstructions : Prop :=
  ∀ (s : State) (v : View), Alone s v → Runs v → ∀ (k : Nat), v.iss.who = .crew k → ∀ (sc : Scope) (g : Guard) (d a b : Reg) (o : R1),
    let counts (w : DWord) : Prop := witKind w ≠ 0 ∧ s.expired w = false
    let one (t : Nat) : DWord := v.pair t a
    let two (t : Nat) : DWord := v.pair t b
    let low (t : Nat) (x : Nat) : Prop := x ≤ sc.code ∧ (counts (one t) → x ≤ witScope (one t)) ∧ (counts (two t) → x ≤ witScope (two t)) ∧
      (x = sc.code ∨ (counts (one t) ∧ x = witScope (one t)) ∨ (counts (two t) ∧ x = witScope (two t)))
    let same (t : Nat) : Prop := (witKind (one t) = 1 ∧ witKind (two t) = 1 ∨ witKind (one t) = 3 ∧ witKind (two t) = 3) ∧
      witOrigin (one t) = witOrigin (two t) ∧ witMod (one t) = witMod (two t) ∧ witInc (one t) = witInc (two t)
    let ahead (t : Nat) : Nat := (witSeq (two t) + 2 ^ 30 - witSeq (one t)) % 2 ^ 30
    let merged (t : Nat) (x : DWord) : Prop :=
      (¬ counts (one t) ∧ x = two t) ∨ (counts (one t) ∧ ¬ counts (two t) ∧ x = one t) ∨
      (counts (one t) ∧ counts (two t) ∧ same t ∧ x = mkWit (min (witScope (one t)) (witScope (two t))) (witKind (one t)) (witMod (one t)) (witOrigin (one t))
        (witInc (one t)) (if 1 ≤ ahead t ∧ ahead t < 2 ^ 29 then witSeq (two t) else witSeq (one t))) ∨
      (counts (one t) ∧ counts (two t) ∧ ¬ same t ∧ ∃ z, low t z ∧ x = mkWit z 2 s.modnum v.iss.unit 0 0 ∧
        ((witKind (one t) = 2 ∧ witKind (two t) = 2) ∨ (s.satisfied (one t) z = true ∧ s.satisfied (two t) z = true)))
    let passes (t : Nat) : Prop := ∃ z, low t z ∧ s.witBad v.iss.unit (one t) z = none ∧ s.witBad v.iss.unit (two t) z = none
    (∀ x : Nat → DWord, (∀ t ∈ v.lanes g d, passes t ∧ merged t (x t)) →
      Issues (.wmerge sc g d a b) s v (fun r => Landed s r v (double v g d (fun t => (x t, 0xFE, 0xFE))) ∧ Controls r v id)) ∧
    ((∀ t ∈ v.lanes g a, s.witBad v.iss.unit (one t) sc.code = none ∧ s.satisfied (one t) sc.code = true) →
      Issues (.wwait sc g a) s v (fun r => Landed s r v (fun _ => none) ∧ Controls r v id ∧
        ∀ t ∈ v.lanes g a, ∃ w, r.crew? v.iss.unit k = some w ∧ (w.thread t).mark = v.core.nextGid)) ∧
    ((∀ t ∈ v.lanes o.g o.d, s.witBad v.iss.unit (v.pair t o.a) sc.code = none) →
      Writes (.wtest sc o) s v (single v o.g o.d (fun t => (truth (s.satisfied (v.pair t o.a) sc.code = true), 0xFE)))) ∧
    (v.crew.enm = false → a.isCrew = false → (∀ t ∈ v.acting g, witKind (one t) = 2 ∧ isOrigin (witOrigin (one t)) = true ∧ witScope (one t) < sc.code ∧ witScope (one t) ≤ 4) →
      Traps (.wwait sc g a) s v (v.acting g) (fun t => (0x16, 1, (one t).toNat % 2 ^ 32)) false) ∧
    (v.crew.enm = false → a.isCrew = false → (∀ t ∈ v.acting g, witKind (one t) ≠ 0 ∧ isOrigin (witOrigin (one t)) = false) →
      Traps (.wwait sc g a) s v (v.acting g) (fun t => (0x17, 1, (one t).toNat % 2 ^ 32)) false)

/-- R335, R336, R168, R192, R430: an atomic or an SLPUT takes a sequence number and waits in flight with the home, operands and result register of each thread;
memory does not change yet, and the registers of WIT take its witness. -/
def Obligations.AtomicsIssue : Prop :=
  ∀ (s : State) (v : View), Alone s v → Runs v → ∀ (k : Nat), v.iss.who = .crew k → ∀ (ty : Ty) (m : MAddr) (fsel : Bool) (e d after wit : Reg) (p : Nat → Piece) (op : Nat) (i : Instr),
    (op, i) ∈ [(0, Instr.atomAdd ty m fsel e d wit), (1, .atomMin ty m fsel e d wit), (2, .atomMax ty m fsel e d wit), (3, .atomAnd ty m fsel e d wit),
      (4, .atomOr ty m fsel e d wit), (5, .atomXor ty m fsel e d wit), (6, .atomXchg ty m fsel e d wit), (7, .atomCas ty m fsel e d wit)] →
    let u : Nat := v.iss.unit
    let seq : Nat := ((s.origin u).cnt + 1) % 2 ^ 30
    let value (t : Nat) (r : Reg) : DWord := if ty.wide then v.pair t r else BitVec.ofNat 64 (v.val t r).toNat
    let witness : DWord := mkWit m.scope.code 1 s.modnum u (s.origin u).inc seq
    let enters (i : Instr) (f : Atom → Prop) : Prop := Issues i s v (fun r =>
      Landed s r v (match wit with
        | .vz => fun _ => none
        | w => fun key => if key ∈ (v.lanes m.g d).filterMap (fun t => v.key t w) then some (loWord witness, 0xFE)
            else if key ∈ (v.lanes m.g d).filterMap (fun t => v.key t (regPlus w 1)) then some (hiWord witness, 0xFE) else none) ∧
      Controls r v id ∧ (r.origin u).cnt = seq ∧ (∃ x, (r.origin u).pend = (s.origin u).pend ++ [x] ∧ x.seq = seq ∧ x.held = true) ∧
      (r.core u).nextGid = v.core.nextGid + 1 ∧
      ∃ a, (r.core u).atoms.find? v.core.nextGid = some a ∧ a.who = v.iss.who ∧ a.seq = some seq ∧ a.scope = m.scope.code ∧ f a)
    v.lanes m.g d ≠ [] → v.crew.enm = false → v.flagFull fsel = false → (s.origin u).stalls = false →
    (wit = .vz ∨ (∃ n : Fin 224, wit = .v n ∧ n.val % 2 = 0) ∨ ∃ n : Fin 24, wit = .k n ∧ n.val % 2 = 0) →
    (∀ t, (p t).dest ≠ .remote) →
    ((∀ t ∈ v.lanes m.g d, v.access s t 3 m.space (v.ea t m) m.width.bytes .atomic = .ok [p t]) →
      enters i (fun a => a.op = op ∧ a.ty = ty ∧ a.dst = (if e = .vz then none else some e) ∧ a.flag = v.flag fsel ∧
        a.elems = (v.lanes m.g d).map (fun t => ⟨t, v.ea t m, (p t).ha, false, value t d, value t (regPlus d (if ty.wide then 2 else 1))⟩))) ∧
    ((∀ t ∈ v.lanes m.g d, v.witFault s t after m.scope.code = none ∧ v.locate s t m.space (v.ea t m) 8 .load = .ok [p t] ∧
        v.access s t 3 m.space (v.ea t m) 8 .atomic = .ok [p t]) →
      enters (.slput m after d wit) (fun a => a.op = 10 ∧ a.dst = none ∧
        a.elems = (v.lanes m.g d).map (fun t => ⟨t, v.ea t m, (p t).ha, false, BitVec.ofNat 64 (v.val t d).toNat, 0⟩)))

/-- R388 to R391, R399, R400, R408, R416: PREF fills a line of the L1, L1WB writes dirty bytes home, L1INV drops clean ones, MONITOR arms a line and MWAIT answers
whether its thread's line was written. That L1WB moves all its bytes in one step, that a crew register in D makes L1WB or L1INV act once, and which line gives up
its way to a fetched one are the model's choices (log entries 25, 26, 48). -/
def Obligations.LinesAndMonitors : Prop :=
  ∀ (s : State) (v : View), Alone s v → Runs v → ∀ (k : Nat), v.iss.who = .crew k → ∀ (m : MAddr) (d : Reg) (g : Guard) (n : Word) (p : Nat → Piece) (rs : Nat → List (Nat × Nat)),
    (v.core.l1).Pairwise (fun a b => a.1 < b.1) →
    let u : Nat := v.iss.unit
    let inside (a : Nat) : Prop := ∃ t ∈ v.lanes m.g d, ∃ r ∈ rs t, r.1 ≤ a ∧ a < r.2
    let goesOn (i : Instr) (P : State → Prop) : Prop := Completes i s (fun t => Landed s t v (fun _ => none) ∧ FlagsKept t v ∧ Controls t v id ∧
      (∀ j ∈ v.active, Stands t v j v.iss.next) ∧ (v.crew.recOk = false → P t))
    ((∀ t ∈ v.acting m.g, v.locate s t m.space (v.ea t m) 1 .load = .ok [p t]) →
      let line (b : Nat) : Prop := ∃ j ∈ v.acting m.g, (p j).dest = .l1 ∧ b / 128 = (p j).ha / 128
      let here : Prop := ∀ b, line b → HasWay s u b
      goesOn (.pref false m) (fun t => (here → Calm s t v) ∧
        (here ∨ (∀ a b, line a → line b → a / 128 = b / 128) → ∀ b, line b → t.byte b = s.byte b ∧ ∃ y, (t.core u).l1.find? b = some y ∧
          match v.core.l1.find? b with
          | some z => (z.dirty ≠ [] → y = z) ∧ (z.dirty = [] → y.val = s.byte b ∧ y.dirty = [])
          | none => y.val = s.byte b ∧ y.dirty = []) ∧
        (∀ b, line b → (∀ y, (t.core u).l1.find? b = some y → v.core.l1.find? b = some y ∨ (y.val = t.byte b ∧ y.dirty = [])) ∧
          ∀ z, v.core.l1.find? b = some z → z.dirty ≠ [] → seen t u b = z.val) ∧
        ∀ b, ¬ line b → Spared s t u b (¬ here) False)) ∧
    goesOn (.pref true m) (fun t => Calm s t v ∧ (t.core u).l1 = v.core.l1) ∧
    ((∀ t ∈ v.lanes m.g d, v.l1Range s m d t = .ok (rs t)) →
      goesOn (.l1wb m d) (fun t =>
        (∀ a x, v.core.l1.find? a = some x → x.dirty ≠ [] → inside a → t.byte a = x.val ∧ (t.core u).l1.find? a = some { x with dirty := [] }) ∧
        ∀ a, (¬ inside a ∨ ∀ x, v.core.l1.find? a = some x → x.dirty = []) → t.byte a = s.byte a ∧ (t.core u).l1.find? a = v.core.l1.find? a) ∧
      goesOn (.l1inv m d) (fun t => Calm s t v ∧
        (∀ a x, v.core.l1.find? a = some x → x.dirty = [] → inside a → (t.core u).l1.find? a = none) ∧
        ∀ a, (¬ inside a ∨ ∀ x, v.core.l1.find? a = some x → x.dirty ≠ []) → (t.core u).l1.find? a = v.core.l1.find? a)) ∧
    ((∀ t ∈ v.acting m.g, v.locate s t m.space (v.ea t m) 1 .load = .ok [p t]) →
      goesOn (.monitor m) (fun t => t.mem = s.mem ∧ (∀ j ∈ v.acting m.g, ∃ x ∈ t.monitors, x.unit = u ∧ x.slot = k ∧ x.thread = j ∧ x.home = (p j).ha / 128 ∧ x.triggered = false) ∧
        (∀ x ∈ t.monitors, x.unit = u → x.slot = k → x.thread ∈ v.acting m.g → x.home = (p x.thread).ha / 128) ∧
        ∀ j ∈ v.acting m.g, (p j).dest = .l1 → ∀ a x, a / 128 = (p j).ha / 128 → v.core.l1.find? a = some x → x.dirty = [] → (t.core u).l1.find? a = none)) ∧
    (d.isCrew = false → (∃ t ∈ v.acting g, s.monitorDone u k t = true) →
      Issues (.mwait g n d) s v (fun t => Landed s t v (single v g d (fun j => (truth (s.monitorDone u k j = true), 0xFE))) ∧ Controls t v id ∧
        t.monitors = s.monitors.filter (fun x => !(x.unit == u && x.slot == k && decide (x.thread ∈ v.acting g)))))

/-- What ends each wait, and what its paths do then (R45, R78, R81, R166, R193, R223, R339, R408, R429, R442). A wait of a halted crew, or of one
released for one issue that is not this one, is over without a step of its paths. That a barrier's phase and a REGANG complete for a halted crew too is the model's choice
(log entry 45). -/
def Obligations.WaitsEnd : Prop :=
  ∀ (s : State) (u k j : Nat) (w : Crew) (p : Path), Parked s u k j w p → (∀ q, q ≠ j → (w.scull q).run = none) → (∀ q, (w.scull q).stack = []) → s.recStalls u w = false →
    let go (i : Instr) (P : State → Prop) : Prop := Completes i s (fun t => Resumed t u k j p ∧ t.issue = s.issue ∧ (w.recOk = false → w.dbgctl.getLsbD 10 = false → t.mem = s.mem) ∧
      (∀ w' i, t.crew? u k = some w' → i < 4 → p.mask.testBit i = true → (w'.thread (4 * j + i)).noMatch = false) ∧ P t)
    let retry (i : Instr) : Prop := Completes i s (fun t => Retried t u k j p ∧ t.mem = s.mem)
    let has (t : State) (i : Nat) (d : Fin 224) (x : Word) : Prop := regOf t u (.crew k) (32 * d.val + i) = some (x, 0xFE)
    ((w.halt = .none ∨ w.halt = .requested) →
    (∀ dl (d : Fin 224) mask n, p.wait = .mwait (some dl) (.v d) mask → dl ≤ w.ctime.toNat →
      go (.mwaitTimeout u k) (fun t => ∀ i, n = 4 * j + i → i < 4 → p.mask.testBit i = true → mask.testBit n = true → has t n d (truth (s.monitorDone u k n = true)))) ∧
    (∀ x dl d mask, s.monitors.find? (fun y => y.id == x.id && y.hit && !y.triggered) = some x → x.unit = u → x.slot = k → x.thread < 32 →
      p.wait = .mwait dl d mask → mask.testBit x.thread = true → (∀ y ∈ s.monitors, y.unit = u → y.slot = k → y.thread = x.thread → y.id = x.id) →
      go (.monitorTrigger x.id) (fun t => ∀ y ∈ t.monitors, y.id = x.id → y.triggered = true)) ∧
    (p.wait = .regang → go (.regangGang u k) (fun t => ∀ w', t.crew? u k = some w' → w'.parted = false)) ∧
    (∀ n rest g, p.wait = .claim n → n ≠ 0 → (s.core u).claims = k :: rest → s.group? u w.gid = some g → 32 * n ≤ g.regxFree + (s.core u).pool →
      go (.claimGrant u) (fun t => (∀ w', t.crew? u k = some w' → w'.count = w.count + n) ∧ (t.core u).claims = rest ∧
        (t.core u).pool = (s.core u).pool - (32 * n - min g.regxFree (32 * n)))) ∧
    (∀ g b (d : Fin 224) mask st, s.group? u w.gid = some g → g.barrier b.bnd b.key = b → b.arrived ≠ [] → s.barrierFull u w.gid b = true → g.slots = [k] →
      p.wait = .bar b.bnd b.key b.phase (.v d) mask st →
      go (.barrierPhaseComplete u w.gid b.bnd b.key) (fun t => (∃ g', t.group? u w.gid = some g' ∧ g'.barrier b.bnd b.key = { b with phase := b.phase + 1, arrived := [] }) ∧
        ∀ i n, n = 4 * j + i → i < 4 → p.mask.testBit i = true → mask.testBit n = true → has t n d (BitVec.ofNat 32 ((w.thread n).barst.getD st)))) ∧
    (∀ g b, s.group? u w.gid = some g → g.barrier b.bnd b.key = b → b.arrived ≠ [] → s.barrierFull u w.gid b = true → g.slots = [k] → p.wait = .bara b.bnd b.key b.phase →
      retry (.barrierPhaseComplete u w.gid b.bnd b.key)) ∧
    (∀ n a e (d : Fin 224), p.wait = .sltake (.v d) → (s.core u).atoms.find? n = some a → a.op = 9 → a.who = .crew k → a.elems = [e] → e.remote = false → a.dst = some (.v d) →
      a.ty = .u64 → (s.core u).atomBefore a = false → s.atomHeld u a = false → (∀ b ∈ (s.core u).atoms, b.1 ≠ n → b.2.who ≠ .crew k ∨ b.2.op ≠ 9) → s.takesBefore a e = false → s.poison = [] → (∀ b ∈ (s.core u).l1, b.2.dirty = []) →
      s.num e.ha 8 % 2 ^ 32 ≠ 0 → w.recOk = false → w.dbgctl.getLsbD 10 = false → Completes (.sltakeGrant u n []) s (fun t => Resumed t u k j p ∧ has t e.t d (BitVec.ofNat 32 (s.num e.ha 8 / 2 ^ 32)) ∧
        t.num e.ha 8 = (s.num e.ha 8 / 2 ^ 32 + 1) % 2 ^ 32 * 2 ^ 32 + (s.num e.ha 8 % 2 ^ 32 - 1) ∧ ∀ b, b < e.ha ∨ e.ha + 8 ≤ b → t.byte b = s.byte b)) ∧
    (k < 48 → p.wait = .queue 0 k → w.dq ≠ [] → retry (.queueWaitResume u k)) ∧
    (k < 48 → ∀ x, p.wait = .queue 1 x → (s.core u).evq ≠ [] → retry (.queueWaitResume u k)) ∧
    (∀ ws merge, p.wait = .wit ws merge → (∀ x ∈ ws, s.satisfied x.1 x.2 = true) → retry (.witnessWaitResume u k)) ∧
    (∀ n, w.yielded = some n → 0 < n → n ≤ (s.core u).ccyc → Completes (.yieldExpiry u k) s (fun t => t.mem = s.mem ∧ ∃ w', t.crew? u k = some w' ∧ w'.yielded = none ∧ w'.regs = w.regs))) ∧
    (∀ g b d mask st, w.halt = .halted ∨ w.halt = .step → s.group? u w.gid = some g → g.barrier b.bnd b.key = b → b.arrived ≠ [] → s.barrierFull u w.gid b = true → g.slots = [k] →
      p.wait = .bar b.bnd b.key b.phase d mask st → Completes (.barrierPhaseComplete u w.gid b.bnd b.key) s (fun t => t.mem = s.mem ∧
        (∃ g', t.group? u w.gid = some g' ∧ g'.barrier b.bnd b.key = { b with phase := b.phase + 1, arrived := [] }) ∧
        ∃ w' q ws, t.crew? u k = some w' ∧ w'.regs = w.regs ∧ (w'.scull j).run = some q ∧ q.pc = p.pc ∧ q.mask = p.mask ∧ q.wait = .over p.wait ws))

/-- R80, R81, R193, R232, R233, R343, R350, R367, R368, R370, R380: EVPOP takes the oldest completion record, DQPUSH appends a value with its tag to a crew's decision queue, DQPOP takes the oldest of its
own; an empty or full queue holds the instruction back, and a push to an exited crew is dropped. BLTAKE gives the token to the crew's group when it is free or already the group's, and waits otherwise;
BLGIVE frees the token the group holds, at once for the group that has waited longest; GIVE lowers the register count and returns the top registers to the extension units and the pool; CLAIM waits and
raises the count by registers that read zero. -/
def Obligations.QueuesAndTokens : Prop :=
  (∀ (s : State) (v : View), Alone s v → Runs v → ∀ (g : Guard) (nb : Bool) (a d : Reg) (b : Src) (t kk : Nat) (w : Crew) (r : List DWord) (rest : List (List DWord))
      (x : Word × Tag) (dq : List (Word × Tag)), (v.acting g).head? = some t →
    let u : Nat := v.iss.unit
    let word (i : Nat) : Word := BitVec.ofNat 32 ((r.getD (i / 2) 0).toNat / 2 ^ (32 * (i % 2)))
    let n : Nat := (v.src t b).1.toNat
    let member : Prop := n ∈ v.grp.cnums ∧ v.sibling n = some (kk, w) ∧ v.crew.enm = false
    (v.core.evq = r :: rest → r.length = 4 → Issues (.evpop g nb d) s v (fun q => Landed s q v (several v g d 8 (fun _ i => (word i, 0xFE))) ∧ (q.core u).evq = rest)) ∧
    (v.core.evq = [] → Issues (.evpop g true d) s v (fun q =>
      Landed s q v (several v g d 8 (fun _ i => (if i = 0 then 0xFF00 else 0, 0xFE))) ∧ (q.core u).evq = [])) ∧
    (v.core.evq = [] → v.isCox = false → Waits (.evpop g false d) s v (.queue 1 0)) ∧
    (member → w.dq.length < 16 → Completes (.dqpush g a b) s (fun q => Landed s q v (fun _ => none) ∧ FlagsKept q v ∧ (∀ j ∈ v.active, Stands q v j v.iss.next) ∧
      (∃ w', q.crew? u kk = some w' ∧ w'.dq = w.dq ++ [v.reg t a] ∧ w'.regs = w.regs) ∧
      (∀ k, k ≠ kk → (q.crew? u k).map (·.dq) = (s.crew? u k).map (·.dq)) ∧ (v.crew.recOk = false → q.mem = s.mem ∧ q.origins = s.origins))) ∧
    (member → 16 ≤ w.dq.length → v.isCox = false → Waits (.dqpush g a b) s v (.queue 7 kk)) ∧
    (n ∈ v.grp.cnums → v.sibling n = none → v.crew.enm = false → Passes (.dqpush g a b) s v) ∧
    (n ∉ v.grp.cnums → v.crew.enm = false → Traps (.dqpush g a b) s v (v.acting g) (fun _ => (0x02, 26, 0)) false) ∧
    (v.isCox = false → v.crew.dq = x :: dq → Issues (.dqpop g d) s v (fun q => Landed s q v (single v g d (fun _ => x)) ∧ Controls q v (fun c => { c with dq := dq }))) ∧
    (v.isCox = false → v.crew.dq = [] → Waits (.dqpop g d) s v (.queue 0 v.slot))) ∧
  (∀ (s : State) (v : View), Alone s v → Runs v → ∀ (k : Nat), v.iss.who = .crew k → ∀ (g : Guard), v.acting g ≠ [] →
      let u : Nat := v.iss.unit
      (v.core.blade = none ∨ v.core.blade = some v.crew.gid → Issues (.bltake g) s v (fun r => Landed s r v (fun _ => none) ∧ Controls r v id ∧
        (r.core u).blade = some v.crew.gid ∧ (r.core u).bladeWait = v.core.bladeWait)) ∧
      (∀ x, v.core.blade = some x → x ≠ v.crew.gid → Waits (.bltake g) s v .bltake ∧
        Completes (.bltake g) s (fun r => (r.core u).bladeWait = v.core.bladeWait ++ [k] ∧ (r.core u).blade = some x)) ∧
      (v.core.blade ≠ some v.crew.gid → Passes (.blgive g) s v) ∧
      (v.core.blade = some v.crew.gid → v.core.bladeWait = [] → Issues (.blgive g) s v (fun r => Landed s r v (fun _ => none) ∧ Controls r v id ∧ (r.core u).blade = none)) ∧
      (∀ n rest w, v.core.blade = some v.crew.gid → v.core.bladeWait = n :: rest → s.crew? u n = some w → n ≠ k →
        Completes (.blgive g) s (fun r => (r.core u).blade = some w.gid ∧ n ∉ (r.core u).bladeWait ∧ (∀ j ∈ v.active, Stands r v j v.iss.next) ∧
          ∀ j p, j < 8 → w.dbgctl.getLsbD 8 = false → (w.halt = .none ∨ w.halt = .requested) → w.dbgctl.getLsbD 10 = false → w.replay = none → (w.scull j).run = some p → p.wait = .bltake → Resumed r u n j p))) ∧
  (∀ (s : State) (v : View), Alone s v → Runs v → ∀ (k : Nat), v.iss.who = .crew k → ∀ (g : Guard) (n : Word), v.acting g ≠ [] → n.toNat % 8 = 0 → n ≠ 0 →
      let u : Nat := v.iss.unit
      let left : Nat := v.crew.count - n.toNat
      let room : Nat := 12288 * v.grp.regx.length - v.grp.regxFree
      let high (key : Nat) : Prop := 32 * left ≤ key ∧ key < 7168
      (n.toNat + 8 ≤ v.crew.count → (∀ x ∈ v.core.pendingKeys v.iss.who, ¬ high x) → s.group? u v.crew.gid = some v.grp →
        Issues (.give g n) s v (fun r => Landed s r v (fun key => if 32 * left ≤ key ∧ key < 7168 then some (0, 0xFE) else none) ∧
          Controls r v (fun w => { w with count := left }) ∧ (r.core u).pool = v.core.pool + (32 * n.toNat - min (32 * n.toNat) room) ∧
          ∃ y, r.group? u v.crew.gid = some y ∧ y.regxFree = v.grp.regxFree + min (32 * n.toNat) room)) ∧
      (n.toNat + 8 ≤ v.crew.count → (∃ x ∈ v.core.pendingKeys v.iss.who, high x) →
        Waits (.give g n) s v (.regs ((v.core.pendingKeys v.iss.who).filter (fun x => decide (32 * left ≤ x ∧ x < 7168))))) ∧
      (v.crew.count + n.toNat ≤ 224 → v.crew.recOk = false → v.crew.dbgctl.getLsbD 10 = false → v.core.claims = [] → 32 * n.toNat ≤ v.grp.regxFree + v.core.pool → (∀ j, (v.crew.scull j).stack = []) →
        (∀ j, j ∉ v.iss.parts → (v.crew.scull j).run = none) → (∀ j ∈ v.iss.parts, j < 8) → s.group? u v.crew.gid = some v.grp →
        v.crew.halt = .none → Completes (.claim g n) s (fun t => Completes (.claimGrant u) t (fun r => r.mem = s.mem ∧ (r.core u).claims = [] ∧
          (r.core u).pool = v.core.pool - (32 * n.toNat - min v.grp.regxFree (32 * n.toNat)) ∧ (∀ key, regOf r u (.crew k) key = regOf s u (.crew k) key) ∧
          (∃ w, r.crew? u k = some w ∧ w.count = v.crew.count + n.toNat) ∧ ∀ j ∈ v.iss.parts, ∀ p, (v.crew.scull j).run = some p → Resumed r u k j p))))

/-- R191, R331 to R333, R411: AESTART starts the engine on the loops and streams of its descriptor; each step of the engine loads the element its streams have come to;
32 elements are an entry, which OQPOP takes; an element that faulted raises its fault in the thread that receives it. -/
def Obligations.AffineEngine : Prop :=
  (∀ (s : State) (v : View), Alone s v → Runs v → ∀ (g : Guard) (a d : Reg) (off : Word) (q : Fin 4) (t : Nat) (hd bs : List Byte) (xs ys : List Nat) (x : List OqElem) (rest : List (List OqElem)),
    (v.acting g).head? = some t →
    let u : Nat := v.iss.unit
    let e : Nat := directTarget v.iss.pc.toNat off
    let L : Nat := field hd 0 1
    let S : Nat := field hd 1 1
    let all : List Byte := hd ++ bs
    let known : Prop := v.desc s t e 64 8 = .ok (hd, xs) ∧ v.readChunks s t 2 true .global (e + 64) (8 * S) = .ok (bs, ys) ∧ hd.length = 64 ∧ bs.length = 64 * S
    let good : Prop := L ≤ 6 ∧ 1 ≤ S ∧ S ≤ 8 ∧ field hd 2 2 = 0 ∧ field hd 28 36 = 0 ∧ (∀ i, L ≤ i → i < 6 → field hd (4 + 4 * i) 4 = 0) ∧
      ∀ n, n < S → field all (64 * (n + 1) + 8) 1 ≤ 3 ∧ field all (64 * (n + 1) + 9) 1 ∈ [1, 2, 4] ∧ field all (64 * (n + 1) + 10) 6 = 0 ∧
        ∀ i, L ≤ i → i < 6 → field all (64 * (n + 1) + 16 + 8 * i) 8 = 0
    let popped (r : State) : Prop := ∃ y, r.group? u v.gid = some y ∧ y.oq.getD q.val [] = rest ∧ ∀ n, n ≠ q.val → y.oq.getD n [] = v.grp.oq.getD n []
    let elem (t : Nat) : OqElem := x.getD t ⟨0, 0, 0, 0, 0⟩
    (s.group? u v.gid = some v.grp → v.grp.ae = none → known → good → IssuesReading (.aestart g a off) s v (xs ++ ys) (fun r => Landed s r v (fun _ => none) ∧
      ∃ y run, r.group? u v.gid = some y ∧ y.aeStarted = true ∧ y.ae = some run ∧ run.base = v.pair t a ∧ run.need = (s.origin u).pend.map (·.seq) ∧
        run.counts = (List.range L).map (fun i => field hd (4 + 4 * i) 4 + 1) ∧ run.index = List.replicate L 0 ∧ run.stream = 0 ∧ run.streams.length = S ∧
        ∀ n st, run.streams[n]? = some st → st.base = BitVec.ofNat 64 (field all (64 * (n + 1)) 8) ∧ st.queue = field all (64 * (n + 1) + 8) 1 ∧
          st.size = field all (64 * (n + 1) + 9) 1 ∧ ∀ i, i < 6 → st.strides.getD i 0 = BitVec.ofNat 64 (field all (64 * (n + 1) + 16 + 8 * i) 8))) ∧
    (v.grp.ae.isSome → v.isCox = false → v.aeWatch s t e = none → Waits (.aestart g a off) s v (.queue 6 v.gid)) ∧
    (v.grp.ae.isSome → ∀ x, v.aeWatch s t e = some x → Traps (.aestart g a off) s v (v.acting g) (fun _ => x) false) ∧
    (v.grp.ae = none → known → ¬ good → TrapsReading (.aestart g a off) s v (xs ++ ys) (v.acting g) (fun _ => (0x02, 128, 0))) ∧
    (v.grp.aeStarted = true → v.grp.oq.getD q.val [] = x :: rest → d.isCrew = false → (∀ j ∈ v.acting g, (elem j).cause = 0) →
      Issues (.oqpop g q d) s v (fun r => Landed s r v (single v g d (fun j => ((elem j).val, 0xFE))) ∧ popped r)) ∧
    (v.grp.aeStarted = true → v.crew.enm = false → v.grp.oq.getD q.val [] = x :: rest → (∀ j ∈ v.acting g, (elem j).cause ≠ 0 ∧ (elem j).cause ≠ 0x18) →
      Completes (.oqpop g q d) s (fun r => Landed s r v (fun _ => none) ∧ popped r ∧ ∀ j ∈ v.acting g, Holds r v j (elem j).cause (elem j).sub (elem j).addr false)) ∧
    (v.grp.aeStarted = true → v.grp.oq.getD q.val [] = [] → v.isCox = false → Waits (.oqpop g q d) s v (.queue (2 + q.val) v.gid)) ∧
    (v.grp.aeStarted = false → Traps (.oqpop g q d) s v (v.acting g) (fun _ => (0x02, 26, 0)) false)) ∧
  (∀ (s : State) (u gid : Nat) (g : Group) (run : AeRun) (st : Stream) (p : Piece), s.group? u gid = some g → g.ae = some run → run.streams[run.stream]? = some st →
    (g.oq.getD st.queue []).length < 16 → st.queue < 4 → g.oq.length = 4 → run.partials.length = 4 → run.index.length = run.counts.length →
    let at_ : DWord := (List.range run.index.length).foldl (fun (a : DWord) i => a + BitVec.ofNat 64 (run.index.getD i 0) * st.strides.getD i 0) (run.base + st.base)
    let part : List OqElem := run.partials.getD st.queue []
    let taken (x : OqElem) (r : State) : Prop := ∃ g', r.group? u gid = some g' ∧
      (run.stream + 1 < run.streams.length ∨ (∃ i, i < run.counts.length ∧ run.index.getD i 0 + 1 < run.counts.getD i 0) → ∃ run', g'.ae = some run' ∧
        (part.length + 1 < 32 → g'.oq = g.oq ∧ run'.partials.getD st.queue [] = part ++ [x]) ∧
        (31 ≤ part.length → g'.oq.getD st.queue [] = g.oq.getD st.queue [] ++ [part ++ [x]] ∧ run'.partials.getD st.queue [] = []) ∧
        (run.stream + 1 < run.streams.length → run'.index = run.index ∧ run'.stream = run.stream + 1) ∧
        (run.streams.length ≤ run.stream + 1 → run'.stream = 0 ∧ ∃ i, i < run.counts.length ∧ run.index.getD i 0 + 1 < run.counts.getD i 0 ∧
          (∀ j, i < j → j < run.counts.length → run.counts.getD j 0 ≤ run.index.getD j 0 + 1 ∧ run'.index.getD j 0 = 0) ∧
          run'.index.getD i 0 = run.index.getD i 0 + 1 ∧ ∀ j, j < i → run'.index.getD j 0 = run.index.getD j 0)) ∧
      (run.streams.length ≤ run.stream + 1 → (∀ i, i < run.counts.length → run.counts.getD i 0 ≤ run.index.getD i 0 + 1) → g'.ae = none ∧
        (part.length < 31 → g'.oq.getD st.queue [] = g.oq.getD st.queue [] ++ [part ++ [x] ++ List.replicate (31 - part.length) ⟨0, 0, 0, 0, 0⟩]))
    st.strides.length = 6 → run.index.length ≤ 6 →
    let valid : Prop := ∀ i, i < p.n → ((s.core u).l1.find? (p.ha + i)).isSome
    let now (a : Nat) : Byte :=
      match p.dest with
      | .l1 => (match (s.core u).l1.find? a with | some b => if b.dirty ≠ [] ∨ valid then b.val else s.byte a | none => s.byte a)
      | d => s.l1Byte u d a
    s.needOver u run.need = true →
    (s.locGlobal (clusterOf u) g.ctx at_.toNat st.size .load = .ok [p] → p.dest ≠ .remote → (p.dest = .repl → s.copyLocked (clusterOf u) (p.ha / 128) = false) →
      (∀ i, i < p.n → s.isPoisoned (p.ha + i) 1 = false ∧ (p.ha + i) / 8 ∉ (s.core u).l1poison ∧
        ∀ c, p.dest = .repl → s.copies.find? (clusterOf u * 2 ^ 40 + (p.ha + i) / 128) = some c → (p.ha + i) / 8 % 16 ∉ c.marks) →
      p.n = st.size → 1 ≤ p.n → p.n ≤ 4 → p.ha % 128 + p.n ≤ 128 →
      Completes (.aeElementLoad u gid) s (fun r => (p.dest = .l1 → ¬ valid → HasWay s u p.ha) → r.mem = s.mem) ∧
      Completes (.aeElementLoad u gid) s (taken ⟨BitVec.ofNat 32 (((List.range p.n).map (fun i => (now (p.ha + i)).toNat * 256 ^ i)).sum), 0, 0, 0, 0⟩)) ∧
    (∀ f, s.locGlobal (clusterOf u) g.ctx at_.toNat st.size .load = .error f → Completes (.aeElementLoad u gid) s (fun r => r.mem = s.mem ∧ taken ⟨0, f.1, f.2.1, f.2.2, 0⟩ r)))

/-- R219 to R223, R231, R434, R437, R438: TCFG and a write of TFn configure a tile, TZERO clears it, TTOV and VTOT move a window between a tile and registers; a
tile that an entry of the matrix queue still uses holds the instruction back. -/
def Obligations.Tiles : Prop :=
  ∀ (s : State) (v : View), Alone s v → Runs v → ∀ (g : Guard) (qd : Bool) (d : Fin 16) (a : Reg) (m : Fin 224) (n : Fin 8) (row0 col0 : BitVec 8),
    let u : Nat := v.iss.unit
    let ts (q : Nat) : List Nat := (v.acting g).filter (fun t => t / 8 == q)
    let low (q : Nat) : Nat := (ts q).headD 0
    let parts : List Nat := [0, 1, 2, 3].filter (fun q => decide (ts q ≠ []))
    let eff (q : Nat) : Nat := d.val + if qd then q else 0
    let phys (x : Nat) : Nat := v.grp.tiles.getD x 0
    let tile (r : State) (n : Nat) : Tile := (r.core u).tiles.get Tile.reset n
    let here (x : Nat) : Prop := x < hdrTiles v.grp.hdr ∧ x < v.grp.tiles.length
    let idle (x : Nat) : Prop := ∀ e ∈ v.core.queues.getD 0 [], phys x ∉ e.kind.writes ∧ phys x ∉ e.kind.reads
    let fresh (x : Word) : Tile := ⟨x, [], tfPrec x, [], false⟩
    let x : Tile := tile s (phys d.val)
    let k : Nat := n.val + 1
    let w : Nat := tfBits x.tf
    let bits (y : Tile) (r c : Nat) : Nat := y.bitsAt (elemBit x.tf r c) w
    let window : Prop := here d.val ∧ tfFmt x.tf ∈ [0, 4, 5, 8, 9] ∧ m.val + k ≤ v.crew.count ∧ (tfFmt x.tf = 5 → m.val % 2 = 0 ∧ k % 2 = 0) ∧
      (∀ t ∈ v.acting g, row0.toNat + t % 8 < tfRows x.tf) ∧ col0.toNat + (if w = 64 then k / 2 else if w = 16 then 2 * k else k) ≤ tfCols x.tf
    let trust : Nat := min x.tag (tfPrec x.tf)
    let word (t j : Nat) : Nat :=
      let E (c : Nat) : Nat := bits x (row0.toNat + t % 8) (col0.toNat + c)
      if w = 64 then E (j / 2) / 2 ^ (32 * (j % 2)) % 2 ^ 32 else if w = 16 then E (2 * j + 1) * 2 ^ 16 + E (2 * j) else E j
    let tag (j : Nat) : Tag :=
      if tfFmt x.tf = 0 then 0xFE
      else if tfFmt x.tf = 5 then (if j % 2 = 0 then BitVec.ofNat 8 (4 * trust) else 0xFF)
      else if tfFmt x.tf = 4 then BitVec.ofNat 8 (4 * trust) else BitVec.ofNat 8 (16 * trust + trust)
    let fell : Bool := decide (if tfFmt x.tf = 0 then False else if tfFmt x.tf = 5 then trust < v.crew.sigfloor.toNat / 2 ^ 24 % 64
      else if tfFmt x.tf = 4 then trust < v.crew.sigfloor.toNat / 2 ^ 16 % 32 else trust < v.crew.sigfloor.toNat / 2 ^ 8 % 16)
    let reg (t i : Nat) : Nat := (v.val t (regPlus (.v m) i)).toNat
    let moved (t c : Nat) : Nat :=
      if w = 64 then reg t (2 * c + 1) * 2 ^ 32 + reg t (2 * c) else if w = 16 then reg t (c / 2) / 2 ^ (16 * (c % 2)) % 2 ^ 16 else reg t c
    let trusts : List Nat := (v.acting g).flatMap (fun t => (List.range k).flatMap (fun j =>
      let y : Tag := v.tag t (regPlus (.v m) j)
      if tfFmt x.tf = 0 then []
      else if tfFmt x.tf = 5 then (if j % 2 = 0 then [(readTag 53 y).t] else [])
      else if tfFmt x.tf = 4 then [(readTag 24 y).t]
      else [min (tfPrec x.tf) (readHalf (halfFmt (v.fmtr t)).p false y).t, min (tfPrec x.tf) (readHalf (halfFmt (v.fmtr t)).p true y).t]))
    ((∀ q ∈ parts, here (eff q) ∧ idle (eff q) ∧ tfBad (v.val (low q) a) = false) → Issues (.tcfg g qd d a) s v (fun r => Landed s r v (fun _ => none) ∧
      Controls r v id ∧ ∀ n, tile r n = match parts.reverse.find? (fun q => phys (eff q) == n) with | some q => fresh (v.val (low q) a) | none => tile s n)) ∧
    (∀ t, (v.acting g).head? = some t → here d.val → idle d.val → tfBad (v.val t a) = false → Issues (.tfWrite g d a) s v (fun r => Landed s r v (fun _ => none) ∧
      Controls r v id ∧ ∀ n, tile r n = if n = phys d.val then fresh (v.val t a) else tile s n)) ∧
    ((∀ q ∈ parts, here (eff q) ∧ idle (eff q) ∧ tfFmt (tile s (phys (eff q))).tf ≠ 15) → Issues (.tzero g qd d) s v (fun r => Landed s r v (fun _ => none) ∧
      Controls r v id ∧ ∀ n, tile r n = if n ∈ parts.map (fun q => phys (eff q)) then { tile s n with data := [], tag := tfPrec (tile s n).tf, poisoned := false } else tile s n)) ∧
    (window → idle d.val → x.poisoned = false → Computes (.ttov g n row0 col0 (.v m) d) s v (v.acting g)
      (several v g (.v m) k (fun t j => (BitVec.ofNat 32 (word t j), tag j))) (fun _ => 0) (fun _ => fell)) ∧
    (window → idle d.val → Issues (.vtot g n row0 col0 d (.v m)) s v (fun r => Landed s r v (fun _ => none) ∧ Controls r v id ∧ (∀ n, n ≠ phys d.val → tile r n = tile s n) ∧
      (∀ i c, i < tfRows x.tf → c < tfCols x.tf → bits (tile r (phys d.val)) i c =
        match (v.acting g).reverse.find? (fun t => row0.toNat + t % 8 == i) with
        | some t => if col0.toNat ≤ c ∧ c < col0.toNat + (if w = 64 then k / 2 else if w = 16 then 2 * k else k) then moved t (c - col0.toNat) else bits x i c
        | none => bits x i c) ∧
      (tile r (phys d.val)).tf = x.tf ∧ (tile r (phys d.val)).scale = x.scale ∧ (tile r (phys d.val)).poisoned = x.poisoned ∧
      (trusts = [] → (tile r (phys d.val)).tag = x.tag) ∧ (trusts ≠ [] → (tile r (phys d.val)).tag ∈ trusts ∧ ∀ z ∈ trusts, (tile r (phys d.val)).tag ≤ z))) ∧
    (∀ q ids, parts = [q] → v.isCox = false → here (eff q) → ids ≠ [] →
      ids = ((v.core.queues.getD 0 []).filter (fun e => decide (phys (eff q) ∈ e.kind.writes ∨ phys (eff q) ∈ e.kind.reads))).map (·.id) →
      Waits (.tzero g qd d) s v (.tile ids) ∧ Waits (.tcfg g qd d a) s v (.tile ids))

/-- R174, R222, R225, R226, R396 to R398, R424, R425: TLD, TST, SCLD, MMA and MMAS place one entry of the matrix queue for each quarter that takes part, in ascending order,
with its tiles, its checked lines and its after-witness; the issue raises its completion flag once (R44), and a TST takes the numbers of its events. -/
def Obligations.MatrixEntriesIssue : Prop :=
  ∀ (s : State) (v : View), Alone s v → Runs v → v.core.queues.length = 3 → v.iss.parts.Nodup → (∀ j ∈ v.iss.parts, ((v.crew.scull j).cf).length = 12) →
    ∀ (g : Guard) (fsel sc nc : Bool) (sp : Space) (scope : Scope) (sig : BitVec 8) (qm : QMods) (d a b c : Fin 16) (ra rb after wit : Reg) (ka kb : Fin 24)
      (lines : Nat → List (List Seg)) (scale : Nat → List Seg), v.flagFull fsel = false →
    let u : Nat := v.iss.unit
    let ts (q : Nat) : List Nat := (v.acting g).filter (fun t => t / 8 == q)
    let low (q : Nat) : Nat := (ts q).headD 0
    let parts : List Nat := [0, 1, 2, 3].filter (fun q => decide (ts q ≠ []))
    let eff (x : Fin 16) (off : Bool) (q : Nat) : Nat := x.val + if off then q else 0
    let phys (x : Fin 16) (off : Bool) (q : Nat) : Nat := v.grp.tiles.getD (eff x off q) 0
    let tf (x : Fin 16) (off : Bool) (q : Nat) : Word := (v.core.tiles.get Tile.reset (phys x off q)).tf
    let usable (x : Fin 16) (off : Bool) (q : Nat) : Prop := eff x off q < hdrTiles v.grp.hdr ∧ eff x off q < v.grp.tiles.length ∧ tfFmt (tf x off q) ≠ 15
    let afterOf (q : Nat) : DWord := if after = .vz then 0 else v.pair (low q) after
    let placed (r : State) (sco : Nat) (aft : Nat → DWord) (kind : Nat → EKind) : Prop := ∃ es, (r.core u).queues.getD 0 [] = v.core.queues.getD 0 [] ++ es ∧
      es.map (fun e => (e.quarter, e.kind)) = parts.map (fun q => (q, kind q)) ∧ (r.core u).nextGid = v.core.nextGid + parts.length ∧
      (∀ q, q ≠ 0 → (r.core u).queues.getD q [] = v.core.queues.getD q []) ∧
      (∀ e ∈ es, e.who = v.iss.who ∧ e.scope = sco ∧ e.after = aft e.quarter ∧ e.begun = false ∧ e.finished = false ∧ e.pos = 0 ∧ e.drop = false ∧ e.origin = u) ∧
      ∀ f k, v.flag fsel = some f → v.iss.who = .crew k → parts ≠ [] → ∀ w, r.crew? u k = some w → ∀ j ∈ v.sculls, (w.scull j).cf.getD f 0 = (v.crew.scull j).cf.getD f 0 + 1
    let enters (i : Instr) (sco : Nat) (aft : Nat → DWord) (kind : Nat → EKind) : Prop :=
      Issues i s v (fun r => Landed s r v (fun _ => none) ∧ Controls r v id ∧ r.origins = s.origins ∧ placed r sco aft kind)
    let tldTag (q : Nat) : Nat := if sig = 0 then tfPrec (tf d qm.qd q) else sig.toNat - 1
    let before (q : Nat) : Nat := ((parts.filter (· < q)).map (fun p => (lines p).length)).sum
    let seqs (q : Nat) : List Nat := (List.range (lines q).length).map (fun i => ((s.origin u).cnt + before q + 1 + i) % 2 ^ 30)
    let witness (q : Nat) : DWord := mkWit scope.code 1 s.modnum u (s.origin u).inc (((s.origin u).cnt + before q + (lines q).length) % 2 ^ 30)
    let fits (scaled : Bool) (q : Nat) : Prop := usable d qm.qd q ∧ usable a qm.qa q ∧ usable b qm.qb q ∧ (nc = false → usable c qm.qc q) ∧
      eff d qm.qd q ≠ eff a qm.qa q ∧ eff d qm.qd q ≠ eff b qm.qb q ∧
      mmaFits scaled (tf d qm.qd q) (tf a qm.qa q) (tf b qm.qb q) (if nc then none else some (tf c qm.qc q)) = true
    let pc (q : Nat) : Nat := if nc then phys d qm.qd q else phys c qm.qc q
    let free : Prop := ∀ x, v.core.blade = some x → x = v.crew.gid
    ((∀ q ∈ parts, usable d qm.qd q ∧ sigBad (tf d qm.qd q) sig = false ∧ v.witFault s (low q) after scope.code = none ∧
        v.tileXfer s sp .load (low q) ra rb (tf d qm.qd q) = .ok (lines q) ∧
        (if sc then v.scaleXfer s sp (v.pair (low q) (regPlus ra 2)).toNat (tf d qm.qd q) = .ok (scale q) else scale q = [])) →
      enters (.tld g fsel sc qm.qd sp scope sig d ra rb after) scope.code afterOf (fun q => .tld (phys d qm.qd q) (lines q) (scale q) (tldTag q))) ∧
    ((∀ q ∈ parts, usable d qm.qd q ∧ v.witFault s (low q) after scope.code = none ∧ v.scaleXfer s sp (v.pair (low q) ra).toNat (tf d qm.qd q) = .ok (scale q)) →
      enters (.scld g fsel qm.qd sp scope d ra after) scope.code afterOf (fun q => .scld (phys d qm.qd q) (scale q))) ∧
    (v.crew.enm = false → (s.origin u).stallsBy ((parts.map (fun q => (lines q).length)).sum) = false →
      (wit = .vz ∨ (∃ n : Fin 224, wit = .v n ∧ n.val % 2 = 0) ∨ ∃ n : Fin 24, wit = .k n ∧ n.val % 2 = 0) →
      (∀ q ∈ parts, usable d qm.qd q ∧ v.witFault s (low q) after scope.code = none ∧ v.tileXfer s sp .store (low q) ra rb (tf d qm.qd q) = .ok (lines q) ∧
        ∀ l ∈ lines q, ∀ x ∈ l, x.dest ≠ .remote) →
      Issues (.tst g fsel qm.qd sp scope d ra rb after wit) s v (fun r =>
        Landed s r v (match wit with
          | .vz => fun _ => none
          | w => fun key =>
            match parts.reverse.find? (fun q => decide (key ∈ (ts q).filterMap (fun t => v.key t w) ∨ key ∈ (ts q).filterMap (fun t => v.key t (regPlus w 1)))) with
            | some q => some (if key ∈ (ts q).filterMap (fun t => v.key t w) then loWord (witness q) else hiWord (witness q), 0xFE)
            | none => none) ∧
        Controls r v id ∧ placed r scope.code afterOf (fun q => .tst (phys d qm.qd q) (lines q) (seqs q)) ∧
        (r.origin u).cnt % 2 ^ 30 = ((s.origin u).cnt + ((parts.map (fun q => (lines q).length)).sum)) % 2 ^ 30 ∧
        ∃ evs, (r.origin u).pend = (s.origin u).pend ++ evs ∧ evs.map (·.seq) = parts.flatMap seqs ∧ ∀ e ∈ evs, e.held = true ∧ e.scope = scope.code)) ∧
    (free → (∀ q ∈ parts, fits false q) →
      enters (.mma g fsel qm nc d a b c) 0 (fun _ => 0) (fun q => .mma (phys d qm.qd q) (phys a qm.qa q) (phys b qm.qb q) (pc q) nc false 0 0 ((v.fmtr (low q)).toNat % 4) v.nbv)) ∧
    (free → (∀ q ∈ parts, fits true q) →
      enters (.mmas g fsel qm nc d a b c ka kb) 0 (fun _ => 0) (fun q =>
        .mma (phys d qm.qd q) (phys a qm.qa q) (phys b qm.qb q) (pc q) nc true (v.val (low q) (.k ka)) (v.val (low q) (.k kb)) ((v.fmtr (low q)).toNat % 4) v.nbv)) ∧
    (v.isCox = false → parts ≠ [] → (∃ x, v.core.blade = some x ∧ x ≠ v.crew.gid) → Waits (.mma g fsel qm nc d a b c) s v .blade)

/-- R354, R355, R377 to R379, R351 to R353, R175: CPY, GATH and COLL read their descriptor and place one entry of their queue; QFENCE places one join entry in each queue it names; a
descriptor that is malformed traps. -/
def Obligations.EngineCommands : Prop :=
  ∀ (s : State) (v : View), Alone s v → Runs v → v.core.queues.length = 3 → ∀ (g : Guard) (fsel : Bool) (sc : Scope) (src dst : Space) (a after : Reg) (mask : BitVec 3)
      (t : Nat) (bs : List Byte) (xs : List Nat), (v.acting g).head? = some t → v.flagFull fsel = false → v.crew.enm = false →
    let u : Nat := v.iss.unit
    let reads (align n : Nat) : Prop := v.witFault s t after sc.code = none ∧ v.desc s t (v.pair t a).toNat align n = .ok (bs, xs)
    let enters (i : Instr) (q origin : Nat) (kind : EKind) (tag : DWord) : Prop := IssuesReading i s v xs (fun r => Landed s r v (fun _ => none) ∧ Controls r v id ∧
      (∃ e, (r.core u).queues.getD q [] = v.core.queues.getD q [] ++ [e] ∧ e.kind = kind ∧ e.tag = tag ∧ e.who = v.iss.who ∧ e.scope = sc.code ∧ e.flag = v.flag fsel ∧
        e.after = (if after = .vz then 0 else v.pair t after) ∧ e.origin = origin ∧ e.begun = false ∧ e.finished = false ∧ e.pos = 0 ∧ e.status = 0 ∧ e.drop = false) ∧
      ∀ p, p ≠ q → (r.core u).queues.getD p [] = v.core.queues.getD p [])
    let malformed (i : Instr) : Prop := TrapsReading i s v xs (v.acting g) (fun _ => (0x02, 128, 0))
    let long (o : Nat) : Nat := field bs o 8
    let index : Nat := if field bs 29 1 = 0 then 4 else 8
    let gathers : Prop := field bs 28 1 ≤ 4 ∧ field bs 29 1 ≤ 1 ∧ field bs 24 4 ≤ 2 ^ 24 ∧ field bs 30 2 = 0 ∧ field bs 40 24 = 0 ∧ long 0 % 2 ^ field bs 28 1 = 0 ∧ long 16 % index = 0
    let types (op : Nat) : List Nat := if op ≤ 2 then [0, 1, 2, 3, 4, 5, 8, 9] else if op = 3 then [4] else if op ≤ 5 then [0, 1, 2, 3, 4, 5, 6, 7, 8, 9, 10, 11, 13] else []
    let collects : Prop := field bs 1 1 ∈ types (field bs 0 1) ∧ field bs 4 2 < field bs 2 2
    (reads 32 4 → long 16 ≤ 2 ^ 32 → enters (.cpy g fsel sc src dst a after) 1 (2304 + 32 * (u / 192) + u % 192 / 12)
      (.cpy (long 0) (long 8) (long 16) (dst == .vault) (src == .vault)) (BitVec.ofNat 64 (long 24))) ∧
    (reads 32 4 → 2 ^ 32 < long 16 → malformed (.cpy g fsel sc src dst a after)) ∧
    (reads 64 8 → gathers → enters (.gath g fsel sc src dst a after) 1 (2304 + 32 * (u / 192) + u % 192 / 12)
      (.gath (long 0) (long 8) (long 16) (field bs 24 4) (field bs 28 1) index (dst == .vault) (src == .vault)) (BitVec.ofNat 64 (long 32))) ∧
    (reads 64 8 → ¬ gathers → malformed (.gath g fsel sc src dst a after)) ∧
    (reads 64 8 → collects → enters (.coll g fsel sc a after) 2 2688 (.coll bs) (BitVec.ofNat 64 (long 40))) ∧
    (reads 64 8 → ¬ collects → malformed (.coll g fsel sc a after)) ∧
    Issues (.qfence g mask) s v (fun r => Landed s r v (fun _ => none) ∧ Controls r v id ∧ ∃ id, ∀ q, q < 3 →
      (mask.getLsbD q = true → ∃ e, (r.core u).queues.getD q [] = v.core.queues.getD q [] ++ [e] ∧ e.kind = .fence id mask.toNat ∧ e.begun = false) ∧
      (mask.getLsbD q = false → (r.core u).queues.getD q [] = v.core.queues.getD q []))

/-- R198 to R200, R206 to R209: ENUM gives each thread its entry state, parks the absent ones, zeroes the log headers and sets the mode; COMPOSE and MAPAT look states up in a map; SMERGE parks each
active thread whose state a lower one has and links its log; SMERGE.join gives every run the exit of its leader and releases the parked. -/
def Obligations.EnumerationAndMerge : Prop :=
  (∀ (s : State) (v : View), Alone s v → Runs v → ∀ (k : Nat), v.iss.who = .crew k → ∀ (cert list : Bool) (d a b : Reg) (src : Src),
      let mk (leader fol miss valid exit_ entry_ : Nat) : Word := BitVec.ofNat 32 (leader * 2 ^ 27 + fol * 2 ^ 26 + miss * 2 ^ 25 + valid * 2 ^ 24 + exit_ * 2 ^ 12 + entry_)
      let live (t : Nat) : Bool := decide (t < 32) && (v.crew.thread t).live
      let on (ts : List Nat) (f : Nat → Word) (key : Nat) : Option (Word × Tag) := (ts.find? (fun t => v.key t d == some key)).map (fun t => (f t, 0xFE))
      let all : List Nat := (List.range 32).filter live
      let first (t : Nat) : Nat := (v.val t a).toNat
      let entry_ (t : Nat) : Option Nat :=
        if list then (if (first t).testBit 15 then none else some (first t % 4096))
        else if t < min (v.src t src).1.toNat 32 ∧ first t + t ≤ 4095 then some (first t + t) else none
      let nent : Nat := v.crew.logctl.toNat / 2 ^ 23
      let base : Nat := 16 * (v.crew.logctl.toNat % 2 ^ 23)
      let lo : Nat := 4096 * hdrVbase v.grp.hdr
      let head (t i : Nat) : Nat := vaultKey v.cluster (base + 16 * (nent + 2) * t + i)
      let sound : Prop := ∀ x, base ≤ x → x < base + 512 * (nent + 2) → x / 0x200000 ∉ (s.cluster v.cluster).retiredVaults
      let field (r : Reg) (t n w : Nat) : Nat := (v.val t r).toNat / 2 ^ n % 2 ^ w
      let match_ (r : Reg) (st : Nat) : Option Nat := all.find? (fun j => decide (field r j 24 1 = 1 ∧ field r j 0 12 = st))
      (v.crew.enm = false → sound → lo ≤ base → base + 512 * (nent + 2) ≤ lo + 4096 * hdrVlen v.grp.hdr → (∀ t, t < 32 → (live t = true ↔ t ∈ v.active)) →
        (∃ t ∈ v.active, (entry_ t).isSome) → d.isCrew = false →
        Completes (.enum cert list d a src) s (fun r =>
          Landed s r v (on all (fun t => match entry_ t with | some st => mk t 0 0 1 st st | none => mk t 0 0 0 0 0)) ∧ FlagsKept r v ∧
          (∃ w, r.crew? v.iss.unit k = some w ∧ w.enm = true ∧ w.cert = cert ∧
            ∀ t ∈ v.active, entry_ t = none → (w.scull (t / 4)).pkmask.testBit (t % 4) = true ∧ pathOfThread (w.scull (t / 4)) (t % 4) = none) ∧
          (∀ t ∈ v.active, (entry_ t).isSome → Stands r v t v.iss.next) ∧
          (v.crew.recOk = false → (∀ t ∈ v.active, ∀ i, i < 32 → r.byte (head t i) = 0) ∧ ∀ x, (∀ t ∈ v.active, ∀ i, i < 32 → head t i ≠ x) → r.byte x = s.byte x))) ∧
      (d.isCrew = false → Writes (.compose d a b) s v (on all (fun i =>
        let valid : Nat := field a i 24 1
        if valid = 0 ∨ field a i 25 1 = 1 then mk i 0 (field a i 25 1) valid 0 (field a i 0 12)
        else match match_ b (field a i 12 12) with
          | none => mk i 0 1 valid 0 (field a i 0 12)
          | some j => if field b j 25 1 = 1 then mk i 0 1 valid 0 (field a i 0 12) else mk i 0 0 valid (field b j 12 12) (field a i 0 12)))) ∧
      Writes (.mapat d a b) s v (on (if d.isCrew then v.active.take 1 else all) (fun t =>
        let st : Nat := field a t 0 12
        match match_ b st with
        | some j => mk 0 0 (field b j 25 1) 1 (field b j 12 12) st
        | none => mk 0 0 1 1 0 st))) ∧
  (∀ (s : State) (v : View), Alone s v → Runs v → ∀ (k : Nat), v.iss.who = .crew k → v.crew.enm = true → ∀ (d a b : Reg) (leader : Nat → Nat), d.isCrew = false →
      (∀ q, (v.crew.scull q).stack = []) → (∀ q p, (v.crew.scull q).run = some p → ∀ j, j < 4 → (p.mask.testBit j = true ↔ 4 * q + j ∈ v.active)) →
      let live (t : Nat) : Bool := decide (t < 32) && (v.crew.thread t).live
      let on (ts : List Nat) (f : Nat → Word) (key : Nat) : Option (Word × Tag) := (ts.find? (fun t => v.key t d == some key)).map (fun t => (f t, 0xFE))
      let nent : Nat := v.crew.logctl.toNat / 2 ^ 23
      let base : Nat := 16 * (v.crew.logctl.toNat % 2 ^ 23)
      let at_ (t : Nat) : Nat := vaultKey v.cluster (base + 16 * (nent + 2) * t)
      (∀ x, base ≤ x → x < base + 512 * (nent + 2) → x / 0x200000 ∉ (s.cluster v.cluster).retiredVaults) →
      let H (r : State) (t lo n : Nat) : Nat := r.num (at_ t) 16 / 2 ^ lo % 2 ^ n
      let st (t : Nat) : Nat := (v.val t a).toNat % 4096
      let low (t : Nat) : Nat := (v.active.find? (fun u => decide (st u = st t))).getD t
      let m (t : Nat) : Nat := (v.val t b).toNat
      let merged (t x l : Nat) : Nat :=
        if l = t then m t / 2 ^ 24 * 2 ^ 24 + x * 2 ^ 12 + m t % 2 ^ 12 else l * 2 ^ 27 + 2 ^ 26 + m t / 2 ^ 24 % 4 * 2 ^ 24 + x * 2 ^ 12 + m t % 2 ^ 12
      let exit_ (t : Nat) : Nat := (v.val (leader t) a).toNat % 4096
      (Completes (.smerge false d a b) s (fun r => Landed s r v (on v.active (fun t => BitVec.ofNat 32 (merged t (st t) (low t)))) ∧ FlagsKept r v ∧
        (∃ w, r.crew? v.iss.unit k = some w ∧ w.enm = true ∧
          ∀ t ∈ v.active, low t ≠ t → (w.scull (t / 4)).pkmask.testBit (t % 4) = true ∧ pathOfThread (w.scull (t / 4)) (t % 4) = none) ∧
        (∀ t ∈ v.active, low t = t → Stands r v t v.iss.next) ∧
        (v.crew.recOk = false → (∀ t ∈ v.active, low t ≠ t → H r t 0 16 = H s t 0 16 ∧ H r t 16 1 = 1 ∧ H r t 17 5 = low t ∧ H r t 22 10 = H s t 22 10 ∧
            H r t 32 16 = H s (low t) 0 16 ∧ H r t 48 80 = H s t 48 80) ∧
          ∀ x, (∀ t ∈ v.active, low t ≠ t → x < at_ t ∨ at_ t + 16 ≤ x) → r.byte x = s.byte x))) ∧
      ((∀ t, t < 32 → (H s t 16 1 = 1 → H s t 17 5 < t ∧ leader t = leader (H s t 17 5)) ∧ (H s t 16 1 = 0 → leader t = t)) →
        Completes (.smerge true d a b) s (fun r =>
          Landed s r v (on ((List.range 32).filter live) (fun t =>
            let x : Nat := merged t (exit_ t) (leader t)
            BitVec.ofNat 32 (if H s (leader t) 24 8 ≠ 0 ∨ H s t 24 8 ≠ 0 then x - x / 2 ^ 24 % 2 * 2 ^ 24 else x))) ∧ FlagsKept r v ∧
          (∃ w, r.crew? v.iss.unit k = some w ∧ w.enm = true ∧ ∀ q, (w.scull q).pkmask = 0) ∧
          (∀ t, t < 32 → t ∈ v.active ∨ ((v.crew.scull (t / 4)).pkmask.testBit (t % 4) = true ∧ t / 4 < 8) → Stands r v t v.iss.next) ∧
          (v.crew.recOk = false → r.mem = s.mem))))

/-- R204, R210 to R212: LOGST appends one entry to the log of each thread; LOGCMT issues the entries of the run that proved true as store events in replay order and gives the witness of the
last; LOGDROP issues none; both zero the headers, release the parked threads and clear the mode. A log header in a retired vault cannot be reached (R312). -/
def Obligations.TentativeLog : Prop :=
  ∀ (s : State) (v : View), Alone s v → Runs v → ∀ (k : Nat), v.iss.who = .crew k → v.crew.enm = true →
    ∀ (m : MAddr) (d a b : Reg) (sc : Scope) (n : Fin 24) (t : Nat) (todo : List (Nat × Nat)) (ps : Nat → List Piece),
    let u : Nat := v.iss.unit
    let nent : Nat := v.crew.logctl.toNat / 2 ^ 23
    let off (t i : Nat) : Nat := 16 * (v.crew.logctl.toNat % 2 ^ 23) + 16 * (nent + 2) * t + 16 * i
    let at_ (t i : Nat) : Nat := vaultKey v.cluster (off t i)
    let lost (t i : Nat) : Prop := off t i < 0x6000000 ∧ off t i / 0x200000 ∈ (s.cluster v.cluster).retiredVaults
    let sound : Prop := ∀ t, t < 32 → ¬ lost t 0 ∧ ¬ lost t 1
    let slot (r : State) (t i lo n : Nat) : Nat := r.num (at_ t i) 16 / 2 ^ lo % 2 ^ n
    let count (t : Nat) : Nat := slot s t 0 0 16
    let seq (i : Nat) : Nat := ((s.origin u).cnt + 1 + i) % 2 ^ 30
    let entry_ (i : Nat) : Nat × Nat := todo.getD i (0, 0)
    let e (i lo n : Nat) : Nat := slot s (entry_ i).1 (2 + (entry_ i).2) lo n
    let finished (r : State) : Prop := (∃ w, r.crew? u k = some w ∧ w.enm = false ∧ ∀ q, (w.scull q).pkmask = 0) ∧ FlagsKept r v ∧
      (∀ j, j < 32 → j ∈ v.active ∨ ((v.crew.scull (j / 4)).pkmask.testBit (j % 4) = true) → Stands r v j v.iss.next) ∧
      (v.crew.recOk = false → (∀ j i, j < 32 → i < 32 → r.byte (at_ j 0 + i) = 0) ∧ ∀ x, (∀ j, j < 32 → x < at_ j 0 ∨ at_ j 0 + 32 ≤ x) → r.byte x = s.byte x)
    let gone (r : State) (w : DWord) : Prop := Landed s r v (match d with
      | .k n => fun key => if key = crewKey n.val then some (loWord w, 0xFE) else if key = crewKey (n.val + 1) then some (hiWord w, 0xFE) else none
      | _ => fun _ => none)
    (sound → (∀ t ∈ v.lanes m.g d, ¬ lost t (2 + count t) ∧ v.logTarget s m.space (v.ea t m) m.width.bytes = none ∧ count t < nent ∧ t < 32) → m.width.bytes ≤ 8 → m.space ≠ .priv →
      Completes (.logst m d) s (fun r => Landed s r v (fun _ => none) ∧ FlagsKept r v ∧ (∀ j ∈ v.active, Stands r v j v.iss.next) ∧ r.origins = s.origins ∧
        (v.crew.recOk = false → (∀ t ∈ v.lanes m.g d, slot r t 0 0 16 = count t + 1 ∧ slot r t 0 16 112 = slot s t 0 16 112 ∧
            slot r t (2 + count t) 0 56 = v.ea t m % 2 ^ 56 ∧ 2 ^ slot r t (2 + count t) 58 2 = m.width.bytes ∧ slot r t (2 + count t) 60 2 = m.space.code ∧
            slot r t (2 + count t) 62 2 = 0 ∧ slot r t (2 + count t) 56 2 = 0 ∧
            slot r t (2 + count t) 64 64 = ((v.val t d).toNat + 2 ^ 32 * (v.val t (regPlus d 1)).toNat) % 2 ^ (8 * m.width.bytes)) ∧
          ∀ x, (∀ t ∈ v.lanes m.g d, (x < at_ t 0 ∨ at_ t 0 + 16 ≤ x) ∧ (x < at_ t (2 + count t) ∨ at_ t (2 + count t) + 16 ≤ x)) → r.byte x = s.byte x))) ∧
    (∀ x, v.lost s (v.headers v.present) = some x → Traps .logdrop s v v.active (fun _ => (0x15, 3, x)) false) ∧
    (sound → (∀ q, (v.crew.scull q).stack = []) → (∀ q p, (v.crew.scull q).run = some p → ∀ j, j < 4 → (p.mask.testBit j = true ↔ 4 * q + j ∈ v.active)) → v.active ≠ [] →
      Completes .logdrop s (fun r => finished r ∧ Landed s r v (fun _ => none) ∧ r.origins = s.origins) ∧
      (v.mapFind b ((v.val (v.active.headD 0) a).toNat % 4096) = none → (d = .vz ∨ (d = .k n ∧ n.val % 2 = 0)) →
        Completes (.logcmt sc d a b) s (fun r => finished r ∧ gone r 0 ∧ r.origins = s.origins)) ∧
      (v.mapFind b ((v.val (v.active.headD 0) a).toNat % 4096) = some t → todo = (s.logPlaces v 33 t 0).drop (slot s t 0 48 16) → todo ≠ [] → todo.length < 2 ^ 20 →
        (s.origin u).pend = [] → (d = .vz ∨ (d = .k n ∧ n.val % 2 = 0)) →
        (∀ i, i < todo.length → ¬ lost (entry_ i).1 (2 + (entry_ i).2) ∧ e i 60 1 = 0 ∧ e i 62 2 = 0 ∧ e i 56 2 = 0 ∧
          v.access s (v.active.headD 0) 1 (if e i 60 2 = 2 then .vault else .global) (e i 0 56) (2 ^ e i 58 2) .store = .ok (ps i) ∧ ∀ p ∈ ps i, p.dest ≠ .remote) →
        Completes (.logcmt sc d a b) s (fun r => finished r ∧ gone r (mkWit sc.code 1 s.modnum u (s.origin u).inc (seq (todo.length - 1))) ∧
          ((r.origin u).pend.map (·.seq)) = (List.range todo.length).map seq ∧
          ∀ i x, (r.origin u).pend[i]? = some x → x.scope = sc.code ∧ x.held = false ∧
            ∀ p ∈ ps i, ∀ j, j < p.n → (x.bytes.find? (fun y => y.ha == p.ha + j)).map (·.val) = some (BitVec.ofNat 8 (e i 64 64 / 2 ^ (8 * (p.off + j)))))))

/-- R257 to R260, R44: HPROBE walks the probe sequence of the key's hash and finds the token of the first entry that has the key, or 0xFFFFFFFF at an empty entry or after eight buckets, or
0xFFFFFFFE where the table is malformed; its result stays in flight as a load's, with its completion flag, until it binds (LoadBinds). That the reads bind in the issue itself is the model's
choice (log entry 36). -/
def Obligations.HashProbe : Prop :=
  ∀ (s : State) (v : View), Alone s v → ∀ (m : MAddr) (fsel : Bool) (n : Fin 32) (d b : Reg) (hd : Nat → List Byte) (ls : Nat → List Nat) (x : Nat → Word),
    let base (t : Nat) : Nat := (v.pair t m.base).toNat
    let key (t : Nat) : List Byte := ((List.range 16).map (fun i => BitVec.ofNat 8 ((v.val t (regPlus b (i / 4))).toNat / 2 ^ (8 * (i % 4))))).take n.val
    let L (t : Nat) : Nat := natOfBytes ((hd t).drop 8) % 32
    let h0 (t : Nat) : Nat := (key t).foldl (fun h c => ((h ^^^ c.toNat) * 0x00000100000001B3) % 2 ^ 64) (0xCBF29CE484222325 ^^^ natOfBytes ((hd t).take 8))
    let h (t : Nat) : Nat := h0 t ^^^ (h0 t / 2 ^ 29)
    let read (t i : Nat) : Except ReadStop (List Byte × List Nat) := v.readChunks s t 2 (d != .vz) m.space (base t + 64 + 64 * ((h t / 2 ^ (64 - L t) + i / 4) % 2 ^ L t) + 16 * (i % 4)) 2
    let E (bs : List Byte) (lo w : Nat) : Nat := natOfBytes bs / 2 ^ lo % 2 ^ w
    let hash (t : Nat) (bs : List Byte) : Prop := E bs 64 16 = h t % 2 ^ 16 ∧ E bs 80 8 = n.val
    let good (bs : List Byte) : Prop := E bs 0 32 ≠ 0xFFFFFFFF ∧ 1 ≤ E bs 80 8 ∧ E bs 80 8 ≤ 16
    let keyAt (t : Nat) (bs : List Byte) : Except ReadStop (List Byte × List Nat) := v.readKey s t (d != .vz) m.space (base t + E bs 32 32) n.val
    let passes (t i : Nat) : Prop := ∃ bs us, read t i = .ok (bs, us) ∧ good bs ∧ (¬ hash t bs ∨ ∃ c ks, keyAt t bs = .ok (c, ks) ∧ c ≠ key t)
    let ends (t i : Nat) (r : Word) : Prop := (∀ j, j < i → passes t j) ∧ ∃ bs us, read t i = .ok (bs, us) ∧
      ((E bs 0 32 = 0xFFFFFFFF ∧ r = 0xFFFFFFFF) ∨ (E bs 0 32 ≠ 0xFFFFFFFF ∧ ¬ good bs ∧ r = 0xFFFFFFFE) ∨
       (good bs ∧ hash t bs ∧ (∃ ks, keyAt t bs = .ok (key t, ks)) ∧ r = BitVec.ofNat 32 (E bs 0 32)))
    let valid (as : List Nat) : Prop := ∀ a ∈ as, a < 2 ^ 57 ∧ (v.core.l1.find? a).isSome
    let lines (x : Except ReadStop (List Byte × List Nat)) : List Nat := match x with | .ok y => y.2 | .error _ => []
    let held : Prop := ∀ t ∈ v.lanes m.g d, valid (ls t) ∧ ∀ i, i < 32 → valid (lines (read t i)) ∧ ∀ bs us, read t i = .ok (bs, us) → valid (lines (keyAt t bs))
    v.flagFull fsel = false →
    (∀ t ∈ v.lanes m.g d, v.readChunks s t 2 (d != .vz) m.space (base t) 2 = .ok (hd t, ls t) ∧
      (((L t = 0 ∨ 24 < L t) ∧ x t = 0xFFFFFFFE) ∨
       (1 ≤ L t ∧ L t ≤ 24 ∧ (((∀ i, i < 32 → passes t i) ∧ x t = 0xFFFFFFFF) ∨ ∃ i, i < 32 ∧ ends t i (x t))))) →
    Completes (.hprobe m fsel n d b) s (fun r => Landed s r v (fun _ => none) ∧ FlagsKept r v ∧ (v.crew.recOk = false → held → Calm s r v) ∧
      (v.lanes m.g d ≠ [] → ∃ l, (r.core v.iss.unit).loads.find? v.core.nextGid = some l ∧ l.who = v.iss.who ∧ l.flag = v.flag fsel ∧
        l.elems = (v.lanes m.g d).map (fun t => ⟨t, base t, [⟨0, 0, .home, v.key t d, false, 0xFE, none, false, some (x t)⟩], 1, 0⟩)))

/-- R67, R338 to R340: BARA arrives and goes on in the threads that have no arrival at the phase outstanding, and waits for the others; BARW of an arrival whose phase is over writes its status and goes on; BAR, once every thread of its set has arrived, writes its status and goes on
in the next phase. The status is 1 in the first barrier instruction that issues after a kill of a sibling crew, and stands while it waits. -/
def Obligations.Barriers : Prop :=
  ∀ (s : State) (v : View), Alone s v → Runs v → ∀ (k : Nat), v.iss.who = .crew k → ∀ (g : Guard) (lvl : Fin 7) (d : Reg), v.acting g ≠ [] → d.isCrew = false →
    s.group? v.iss.unit v.crew.gid = some v.grp → 5 ≤ hdrBound v.grp.hdr lvl.val → hdrBound v.grp.hdr lvl.val ≤ hdrBG v.grp.hdr →
    let u : Nat := v.iss.unit
    let bnd : Nat := hdrBound v.grp.hdr lvl.val
    let key : Nat := (hdrBase v.grp.hdr + 32 * v.crew.pos) % 2 ^ 64 / 2 ^ bnd
    let b : Barrier := v.grp.barrier bnd key
    let status (t : Nat) : Word := if t ∈ v.fresh (v.acting g) then (if v.crew.abandoned then 1 else 0) else BitVec.ofNat 32 ((v.crew.thread t).barst.getD 0)
    let mine (t : Nat) : List Nat := ((v.crew.thread t).bara.filter (fun p => p.1 == bnd)).map (·.2)
    let bars (r : State) (c h : Nat) : Option Barrier := (r.group? u v.crew.gid).map (fun y => y.barrier c h)
    let out (t : Nat) : Prop := (mine t).head? = some b.phase
    let fresh : List Nat := (v.acting g).filter (fun t => decide ((mine t).head? ≠ some b.phase))
    (fresh ≠ [] → Completes (.bara g lvl d) s (fun r =>
      Landed s r v (fun x => (fresh.find? (fun t => v.key t d == some x)).map (fun t => (status t, 0xFE))) ∧ FlagsKept r v ∧
      (∀ j ∈ v.active, Stands r v j (if j ∈ v.acting g ∧ j ∉ fresh then v.iss.pc else v.iss.next)) ∧ (v.crew.recOk = false → r.mem = s.mem) ∧
      Instr.barrierPhaseComplete u v.crew.gid bnd key ∈ r.agenda ∧
      (∃ x, bars r bnd key = some x ∧ x.phase = b.phase ∧ ∀ y, y ∈ x.arrived ↔ y ∈ b.arrived ∨ ∃ t ∈ fresh, y = 32 * k + t) ∧
      (∀ c h, c ≠ bnd ∨ h ≠ key → bars r c h = some (v.grp.barrier c h)) ∧
      ∃ w, r.crew? u k = some w ∧ (v.fresh (v.acting g) ≠ [] → w.abandoned = false) ∧ (v.fresh (v.acting g) = [] → w.abandoned = v.crew.abandoned) ∧ (∀ t ∈ fresh, (w.thread t).bara.filter (fun p => p.1 == bnd) = [(bnd, b.phase)]) ∧
        ∀ t, t ∉ fresh → (w.thread t).bara = (v.crew.thread t).bara)) ∧
    ((∀ t ∈ v.acting g, out t) → Waits (.bara g lvl d) s v (.bara bnd key b.phase)) ∧
    ((∀ t ∈ v.acting g, ∃ p, (mine t).head? = some p ∧ p < b.phase) → 0 < b.phase → Completes (.barw g lvl d) s (fun r =>
      Landed s r v (single v g d (fun t => (status t, 0xFE))) ∧ FlagsKept r v ∧ (∀ j ∈ v.active, Stands r v j v.iss.next) ∧ (v.crew.recOk = false → r.mem = s.mem) ∧
      (∀ c h, (bars r c h).map (·.phase) = some (v.grp.barrier c h).phase) ∧
      ∃ w, r.crew? u k = some w ∧ ∀ t ∈ v.acting g, (w.thread t).bara.filter (fun p => p.1 == bnd) = [])) ∧
    (v.grp.slots = [k] → v.crew.recOk = false → v.crew.dbgctl.getLsbD 10 = false → v.crew.halt = .none → v.fresh (v.acting g) = v.acting g → (∀ t, t < 32 → (v.crew.thread t).live = true → t ∈ v.acting g) → (∀ j, (v.crew.scull j).stack = []) →
      (∀ j, j ∉ v.iss.parts → (v.crew.scull j).run = none) → (∀ j ∈ v.iss.parts, j < 8 ∧ ∃ p, (v.crew.scull j).run = some p ∧ ∀ i, i < 4 → (p.mask.testBit i = true ↔ 4 * j + i ∈ v.active)) →
      Completes (.bar g lvl d) s (fun t => Completes (.barrierPhaseComplete u v.crew.gid bnd key) t (fun r => r.mem = s.mem ∧
        (∃ x, bars r bnd key = some x ∧ x.phase = b.phase + 1 ∧ x.arrived = []) ∧
        (∀ j ∈ v.iss.parts, ∀ p, (v.crew.scull j).run = some p → Resumed r u k j p) ∧
        ∀ key, regOf r u (.crew k) key = match single v g d (fun t => (status t, 0xFE)) key with | some x => some x | none => regOf s u (.crew k) key)))

/-- R188, R190, R413, R414, R431, R179, R181, R381, R382: SPAWN adds a push of its record for each thread; PARK saves the record and the live registers in one store event, adds a push that
waits for it, and its threads are gone; GRTRIG submits its doubleword as a trigger once the core's stores are performed, and writes 0, or 4 where the graph's queue is full. -/
def Obligations.PushesAndTriggers : Prop :=
  (∀ (s : State) (v : View), Alone s v → Runs v → ∀ (k : Nat), v.iss.who = .crew k → v.crew.enm = false → v.crew.recOk = false → ∀ (g : Guard) (a after : Reg) (live : BitVec 16) (base : BitVec 8)
        (t : Nat) (segs : List Seg),
      let u : Nat := v.iss.unit
      let push (va : Nat) (w : DWord) (seq : Option Nat) (p : Push) : Prop := p.va = va ∧ p.ctx = v.grp.ctx ∧ p.graph = v.grp.graph ∧ p.run = v.grp.run ∧ p.node = v.grp.node ∧
        p.cluster = u / 192 ∧ p.unit = u ∧ p.after = w ∧ p.seq = seq
      let afterOf (t : Nat) : DWord := if after = .vz then 0 else v.pair t after
      let regs : List Nat := ((List.range 16).filter (fun i => live.getLsbD i)).map (fun i => base.toNat + i)
      let va : Nat := (v.pair t a).toNat
      let n : Nat := regs.length
      let wid : Nat := (hdrBase v.grp.hdr + 32 * v.crew.pos) % 2 ^ 64
      let word (i : Nat) : Nat :=
        match i with
        | 0 => v.iss.next.toNat | 1 => (va + 64) % 2 ^ 64 | 2 => 0 | 3 => wid | 4 => 32 + live.toNat * 2 ^ 32 + base.toNat * 2 ^ 48 + v.grp.prio * 2 ^ 56
        | 5 => v.crew.count | 6 => v.grp.hdrva.toNat | _ => v.crew.ctime.toNat
      let content (i : Nat) : Byte :=
        if i < 64 then BitVec.ofNat 8 (word (i / 8) / 2 ^ (8 * (i % 8)))
        else if i - 64 < 128 * n then
          BitVec.ofNat 8 ((v.crew.get (32 * regs.getD ((i - 64) / 128) 0 + (i - 64) / 4 % 32)).1.toNat / 2 ^ (8 * ((i - 64) % 4)))
        else (v.crew.get (32 * regs.getD ((i - 64 - 128 * n) / 32) 0 + (i - 64 - 128 * n) % 32)).2
      let homes : List Nat := segs.flatMap (fun x => (List.range x.n).map (x.ha + ·))
      ((∀ t ∈ v.acting g, v.witFault s t after 2 = none ∧ ∃ l, v.checkAt s (v.pair t a).toNat 64 .load = .ok l) → Completes (.spawn g a after) s (fun r =>
        Landed s r v (fun _ => none) ∧ FlagsKept r v ∧ Controls r v id ∧ (∀ j ∈ v.active, Stands r v j v.iss.next) ∧ r.mem = s.mem ∧ r.origins = s.origins ∧
        ∃ ids : List Nat, ids.length = (v.acting g).length ∧ ids.Nodup ∧ (∀ i ∈ ids, s.pushes.find? i = none ∧ Instr.recordPush i ∈ r.agenda) ∧
          (∀ i, i ∉ ids → r.pushes.find? i = s.pushes.find? i) ∧
          ∀ j i t : Nat, ids[j]? = some i → (v.acting g)[j]? = some t → ∃ p, r.pushes.find? i = some p ∧ push (v.pair t a).toNat (afterOf t) none p)) ∧
      ((v.acting g).head? = some t → (∀ x ∈ regs, x < v.crew.count) → (∀ j ∈ v.active, (v.crew.thread j).hlvl = 0) → v.witFault s t after 2 = none → va < 2 ^ 56 → va % 64 = 0 →
        s.span u v.grp .global .store ((64 + 160 * n) / 128 + 2) va (64 + 160 * n) = .ok segs → (∀ x ∈ segs, x.dest ≠ .remote) → homes.Nodup →
        (∀ x ∈ v.core.pendingKeys v.iss.who, x / 32 ∉ regs ∨ 7168 ≤ x) → (s.origin u).stalls = false → (∀ x ∈ v.core.l1, x.2.dirty = []) → v.grp.prio < 8 → v.crew.count < 2 ^ 64 →
        Completes (.park g a after live base) s (fun r => r.mem = s.mem ∧
          (∃ e, (r.origin u).pend = (s.origin u).pend ++ [e] ∧ e.seq = (r.origin u).cnt ∧ e.seq = ((s.origin u).cnt + 1) % 2 ^ 30 ∧ e.scope = 2 ∧ e.held = false ∧
            (∀ i, i < 64 + 160 * n → ∃ x, homes[i]? = some x ∧ (e.bytes.find? (fun y => y.ha == x)).map (·.val) = some (content i)) ∧
            ∃ i p, s.pushes.find? i = none ∧ r.pushes.find? i = some p ∧ push va (afterOf t) (some e.seq) p) ∧
          (∀ m ∈ r.monitors, m.unit = u → m.slot ≠ k) ∧
          ∃ w, r.crew? u k = some w ∧ (∀ j ∈ v.active, (w.thread j).live = false ∧ pathOfThread (w.scull (j / 4)) (j % 4) = none) ∧ w.regs = v.crew.regs))) ∧
  (∀ (s : State) (v : View), Alone s v → Runs v → ∀ (k : Nat), v.iss.who = .crew k → v.crew.enm = false → ∀ (g : Guard) (d a : Reg) (t : Nat), (v.acting g).head? = some t →
      (∀ x ∈ v.core.l1, x.2.dirty = []) →
      let x : DWord := v.pair t a
      let gr : Nat := x.toNat / 2 ^ 56
      let G : Graph := s.graph gr
      let ok : Prop := x.toNat % 8 = 0 ∧ G.installed = true ∧ G.ctx = v.grp.ctx
      let done (n : Word) (P : State → Prop) : Prop := Completes (.grtrig g d a) s (fun r => Landed s r v (single v g d (fun _ => (n, 0xFE))) ∧ FlagsKept r v ∧ Controls r v id ∧
        (∀ j ∈ v.active, Stands r v j v.iss.next) ∧ (∀ n, n ≠ gr → r.graph n = s.graph n) ∧ P r)
      (ok → (s.origin v.iss.unit).pend = [] → G.run = none → G.waiting = [] → done 0 (fun r => Instr.runBegin gr ∈ r.agenda ∧ (r.graph gr).seq = (G.seq + 1) % 2 ^ 32 ∧
        ∃ y, (r.graph gr).run = some y ∧ y.seq = (G.seq + 1) % 2 ^ 32 ∧ y.plist = x.toNat / 8 % 2 ^ 53 ∧ y.begun = false ∧ y.status = 0 ∧
          y.nodes = G.nodes.map (fun n => ⟨n.npred, 0, false, false⟩))) ∧
      (ok → (s.origin v.iss.unit).pend = [] → (G.run.isSome ∨ G.waiting ≠ []) → G.waiting.length < 4 → done 0 (fun r => r.graph gr = { G with waiting := G.waiting ++ [x] })) ∧
      (ok → (s.origin v.iss.unit).pend = [] → G.run.isSome → 4 ≤ G.waiting.length → (∀ ps, s.locGlobal ioDie G.ctx G.doneaddr 8 .store = .ok ps → ∀ p ∈ ps, p.dest ≠ .repl) → done 4 (fun r => r.graph gr = { G with lastDone := 4 })) ∧
      (ok → (s.origin v.iss.unit).pend ≠ [] → v.iss.resume = .none → Waits (.grtrig g d a) s v (.ops 5 [] (((s.origin v.iss.unit).pend).map (fun e => 2 * e.seq + 1)) [] [])) ∧
      (¬ ok → Traps (.grtrig g d a) s v (v.acting g) (fun _ => (0x02, 18, 0)) false))

/-- R189, R192, R386, R387, R429: JOIN and SLTAKE of one thread issue their operation and wait; the operation decrements the counter, or takes a slot, at its home, and the path goes on with the result; the
thread that leaves zero pushes the record after the counter. That the lines leave the L1 in a step before the decrement is the model's choice (log entry 26). -/
def Obligations.JoinsAndSlots : Prop :=
  ∀ (s : State) (v : View), Alone s v → Runs v → ∀ (k : Nat), v.iss.who = .crew k → v.crew.enm = false → ∀ (g : Guard) (a : Reg) (d : Fin 224) (m : MAddr) (t ha : Nat) (dest : Dest) (host : Bool),
    let u : Nat := v.iss.unit
    let va : Nat := (v.pair t a).toNat
    let old : Nat := s.num ha 4
    let slots : Nat := s.num ha 8
    let mine : Prop := (∀ j, (v.crew.scull j).stack = []) ∧ (∀ j, j ∉ v.iss.parts → (v.crew.scull j).run = none) ∧
      (∀ j ∈ v.iss.parts, j < 8 ∧ ∃ p, (v.crew.scull j).run = some p ∧ ∀ i, i < 4 → (p.mask.testBit i = true ↔ 4 * j + i ∈ v.active))
    let has (r : State) (x : Nat) : Prop := regOf r u (.crew k) (32 * d.val + t) = some (BitVec.ofNat 32 x, 0xFE) ∧
      ∀ key, key ≠ 32 * d.val + t → regOf r u (.crew k) key = regOf s u (.crew k) key
    let goesOn (r : State) : Prop := ∀ j ∈ v.iss.parts, ∀ p, (v.crew.scull j).run = some p → Resumed r u k j p
    v.crew.recOk = false → v.crew.dbgctl.getLsbD 10 = false → s.poison = [] → (∀ x ∈ v.core.l1, x.2.dirty = []) → (s.origin u).pend = [] → v.core.atoms = [] → (∀ c ∈ s.cores, c.2.atoms = []) → v.core.loads = [] → (∀ q ∈ v.core.queues, q = []) →
    v.crew.halt = .none → mine → dest ≠ .remote →
    (v.acting g = [t] → v.fresh [t] = [t] → v.checkAt s va 64 .atomic = .ok ⟨ha, dest, host⟩ → v.watched s t 3 .global [⟨ha, 4, 0, va, dest, host⟩] = none →
      Completes (.join g (.v d) a) s (fun r => (∃ x, (r.core u).atoms.find? v.core.nextGid = some x ∧ x.op = 8 ∧ x.who = v.iss.who ∧ x.elems.map (fun e => (e.t, e.ha)) = [(t, ha)]) ∧
        (r.origin u).cnt = ((s.origin u).cnt + 1) % 2 ^ 30 ∧ r.mem = s.mem ∧
        Completes (.atomApply u v.core.nextGid []) r (fun r' => r'.mem = s.mem ∧ Completes (.atomApply u v.core.nextGid []) r' (fun q => goesOn q ∧ q.num ha 4 = (old + 2 ^ 32 - 1) % 2 ^ 32 ∧ (∀ b, b < ha ∨ ha + 4 ≤ b → q.byte b = s.byte b) ∧
          has q (if old = 1 then 1 else 0) ∧
          (old ≠ 1 → q.pushes = s.pushes) ∧
          (old = 1 → ∃ i p, s.pushes.find? i = none ∧ q.pushes.find? i = some p ∧ p.va = (va + 64) % 2 ^ 64 ∧ p.ctx = v.grp.ctx ∧ p.graph = v.grp.graph ∧ p.run = v.grp.run ∧ p.node = v.grp.node))))) ∧
    (v.acting m.g = [t] → v.fresh [t] = [t] → v.counterElem s m (fun _ => 0) t = .ok ⟨t, v.ea t m, ha, false, 0, 0⟩ → slots % 2 ^ 32 ≠ 0 →
      Completes (.sltake m (.v d)) s (fun r => r.mem = s.mem ∧
        Completes (.sltakeGrant u v.core.nextGid []) r (fun q => goesOn q ∧ q.num ha 8 = (slots / 2 ^ 32 + 1) % 2 ^ 32 * 2 ^ 32 + (slots % 2 ^ 32 - 1) ∧
          (∀ b, b < ha ∨ ha + 8 ≤ b → q.byte b = s.byte b) ∧ has q (slots / 2 ^ 32))))

/-- R284, R285: while the crew traces, MARK writes a record of eight bytes at NEXT of the core's ring and moves NEXT on, or counts a drop where the ring is full; the count of instructions since the
last record starts again where one is written. The umpire cores write TRBASE, TRHEAD and TRTAIL of any core. That the ring's addresses are those of context 0, and that the record is home
at once, are the model's choices (log entries 15, 27). -/
def Obligations.TraceMarks : Prop :=
  (∀ (s : State) (v : View), Alone s v → Runs v → ∀ (k : Nat), v.iss.who = .crew k → v.crew.dbgctl.getLsbD 9 = true → v.crew.recOk = false → ∀ (g : Guard) (id : BitVec 24) (ha : Nat) (dest : Dest) (host : Bool),
    v.acting g ≠ [] → (s.origin v.iss.unit).stalls = false →
    let u : Nat := v.iss.unit
    let len : Nat := 65536 * (v.core.trbase.toNat % 2 ^ 16)
    let next : Nat := v.core.trhead.toNat % 2 ^ 32
    let drops : Nat := v.core.trhead.toNat / 2 ^ 48
    let at_ : Nat := (v.core.trbase.toNat / 2 ^ 16 % 2 ^ 40 * 2 ^ 16 + next) % 2 ^ 64
    let rec_ : Nat := id.toNat * 2 ^ 40 + k * 2 ^ 34 + min v.crew.sinceMark (2 ^ 34 - 1)
    let goesOn (since : Nat) (P : State → Prop) : Prop := Completes (.mark g id) s (fun r => Landed s r v (fun _ => none) ∧ FlagsKept r v ∧ Controls r v (fun w => w) ∧ (∀ j ∈ v.active, Stands r v j v.iss.next) ∧
      (∃ w, r.crew? u k = some w ∧ w.sinceMark = since) ∧ P r)
    (len = 0 → goesOn (v.crew.sinceMark + 1) (fun r => r.mem = s.mem ∧ (r.core u).trhead = v.core.trhead)) ∧
    (len ≠ 0 → (next + 8) % len = v.core.trtail.toNat % 2 ^ 32 →
      goesOn (v.crew.sinceMark + 1) (fun r => r.mem = s.mem ∧ (r.core u).trhead = BitVec.ofNat 64 (min (drops + 1) 0xFFFF * 2 ^ 48 + next))) ∧
    (len ≠ 0 → (next + 8) % len ≠ v.core.trtail.toNat % 2 ^ 32 → s.locGlobal v.cluster 0 at_ 8 .store = .ok [⟨ha, 8, 0, at_, dest, host⟩] →
      goesOn 1 (fun r => (r.core u).trhead = BitVec.ofNat 64 (drops * 2 ^ 48 + (next + 8) % len) ∧ (r.origin u).cnt = (s.origin u).next ∧
        (dest = .home ∨ dest = .l1 → (∀ i, i < 8 → r.byte (ha + i) = BitVec.ofNat 8 (rec_ / 2 ^ (8 * i))) ∧
          (∀ i, i < 8 → dest = .l1 → seen r u (ha + i) = BitVec.ofNat 8 (rec_ / 2 ^ (8 * i))) ∧
          (dest = .l1 → (v.core.l1).Pairwise (fun a b => a.1 < b.1) ∧ ha % 8 = 0) → ∀ b, b < ha ∨ ha + 8 ≤ b → Spared s r u b (dest = .l1 ∧ ¬ HasWay s u ha) False) ∧
        (dest = .repl ∨ dest = .remote → r.mem = s.mem ∧ ∃ e, (r.origin u).pend = (s.origin u).pend ++ [e] ∧ e.seq = (s.origin u).next ∧
          ∀ i, i < 8 → (e.bytes.find? (fun y => y.ha == ha + i)).map (·.val) = some (BitVec.ofNat 8 (rec_ / 2 ^ (8 * i))))))) ∧
  (∀ (s : State) (u : Nat) (x : DWord) (tail : Bool), u < 2304 →
    (x.toNat < 2 ^ 56 → Completes (.umpireTraceBase u x) s (fun r => (r.core u).trbase = x ∧ (r.core u).trhead = 0 ∧ (r.core u).trtail = 0 ∧ r.mem = s.mem ∧ (r.core u).crews = (s.core u).crews)) ∧
    (x.toNat % 8 = 0 → x.toNat % 2 ^ 32 < 65536 * ((s.core u).trbase.toNat % 2 ^ 16) → (if tail then x.toNat < 2 ^ 32 else x.toNat / 2 ^ 32 % 2 ^ 16 = 0) →
      Completes (.umpireTracePointer u tail x) s (fun r => (if tail then (r.core u).trtail = x ∧ (r.core u).trhead = (s.core u).trhead else (r.core u).trhead = x ∧
        (r.core u).trtail = (s.core u).trtail) ∧ r.mem = s.mem ∧ (r.core u).crews = (s.core u).crews)))

/-- R102, R118, R124, R174, R175, R193, R223 to R225, R303, R353, R355: the head entry of an engine queue begins once its after-witness is satisfied and works line by line; a load
fills a tile line, a store writes one at its homes, MMA multiplies exactly, CPY copies a chunk, a fence leaves every queue that it heads; a completed entry leaves its
queue, places its record and lowers its flag; a collective combines its ranks; a tile whose entries are over lets its waiting paths go on. That a step moves one tile
line or runs one whole pass, that the first line of a TLD clears the poison mark, and that entries of the matrix queue place no record are the model's choices (log
entries 29, 30). -/
def Obligations.EngineSteps : Prop :=
  (∀ (s : State) (u q : Nat) (e : Entry) (rest : List Entry), (s.core u).queues.length = 3 → q < 3 → (s.core u).queues.getD q [] = e :: rest →
    let tile (r : State) (n : Nat) : Tile := (r.core u).tiles.get Tile.reset n
    let x (n : Nat) : Tile := tile s n
    let begins : Prop := e.finished = false ∧ s.writeOver e = true ∧
      (e.begun = true ∨ (s.satisfied e.after e.scope = true ∧ s.needOver u e.need = true ∧ s.poisonAhead u e.who (fun x => decide (x.ord < e.src.ord)) = false))
    let head (r : State) (pos : Nat) (finished : Bool) : Prop := ∃ f, (r.core u).queues.getD q [] = f :: rest ∧ f.begun = true ∧ f.pos = pos ∧ f.finished = finished ∧
      f.kind = e.kind ∧ f.id = e.id
    (e.finished = false → e.begun = false → s.satisfied e.after e.scope = false → Completes (.engineEntryBegin u q) s (fun r => r = s)) ∧
    (∀ n lines scale tag, begins → e.kind = .tld n lines scale tag →
      let segs : List Seg := lines.getD e.pos []
      let w : Nat := tfLineBytes (x n).tf
      let bytes (gs : List Seg) : List Byte := gs.flatMap (fun g => s.bytes g.ha g.n)
      let last : Bool := decide (lines.length ≤ e.pos + 1)
      (∀ g ∈ segs ++ scale, g.dest ≠ .remote ∧ ∀ i, i < g.n → s.isPoisoned (g.ha + i) 1 = false) → (segs.map (·.n)).sum = w →
      Completes (.engineEntryBegin u q) s (fun r => head r (e.pos + 1) last ∧ r.mem = s.mem ∧ (∀ k, k ≠ n → tile r k = x k) ∧ (tile r n).tf = (x n).tf ∧
        (∀ i, (tile r n).data.get 0 i = if e.pos * w ≤ i ∧ i < e.pos * w + w then (bytes segs).getD (i - e.pos * w) 0 else (x n).data.get 0 i) ∧
        (tile r n).tag = (if last then tag else (x n).tag) ∧ (e.pos = 0 → (tile r n).poisoned = false) ∧
        ∀ i, (tile r n).scale.get 0 i = if last = true ∧ i < (bytes scale).length then (bytes scale).getD i 0 else (x n).scale.get 0 i)) ∧
    (∀ n lines seqs, begins → e.kind = .tst n lines seqs → (x n).poisoned = false → (e.pos = 0 ∨ s.event? u (seqs.getD (e.pos - 1) 0) = none) →
      let keys : List Nat := (lines.getD e.pos []).flatMap (fun g => (List.range g.n).map (g.ha + ·))
      let owes : Prop := ∃ ev, s.event? u (seqs.getD e.pos 0) = some ev ∧ ev.wit = true ∧ 1 ≤ ev.scope
      (∀ g ∈ lines.getD e.pos [], g.dest = .home) → keys.Nodup → keys.length = tfLineBytes (x n).tf → ((s.core u).l1).Pairwise (fun a b => a.1 < b.1) →
      Completes (.engineEntryBegin u q) s (fun r => head r (e.pos + 1) (decide (lines.length ≤ e.pos + 1)) ∧ r.event? u (seqs.getD e.pos 0) = none ∧ (r.core u).tiles = (s.core u).tiles ∧
        (∀ i a, keys[i]? = some a → r.byte a = (x n).data.get 0 (e.pos * keys.length + i)) ∧ ∀ a, a ∉ keys → Spared s r u a False owes)) ∧
    (begins → (∃ d a b c nc scaled sa sb rm nbv, e.kind = .mma d a b c nc scaled sa sb rm nbv) → (((s.core u).queues.getD q []).map (·.id)).Nodup →
      let pass : List Entry := s.passOf u q
      (∀ f ∈ pass, ∀ g ∈ pass, f.id ≠ g.id → ∀ n ∈ f.kind.writes, n ∉ g.kind.writes ∧ n ∉ g.kind.reads) → (∀ f ∈ pass, ∀ n ∈ f.kind.reads, (x n).poisoned = false) →
      Completes (.engineEntryBegin u q) s (fun r => r.mem = s.mem ∧ (∀ k, (∀ f ∈ pass, k ∉ f.kind.writes) → tile r k = x k) ∧
        ((r.core u).queues.getD q []).map (·.id) = ((s.core u).queues.getD q []).map (·.id) ∧
        ∀ f ∈ pass, (∃ y ∈ (r.core u).queues.getD q [], y.id = f.id ∧ y.begun = true ∧ y.finished = true ∧ y.kind = f.kind) ∧
          ∀ d a b c nc scaled sa sb rm nbv, f.kind = .mma d a b c nc scaled sa sb rm nbv →
            mmaFits scaled (x d).tf (x a).tf (x b).tf (if nc then none else some (x c).tf) = true → tfBad (x d).tf = false →
            let n : Nat := tfCols (x a).tf
            let trust : Nat := min (x a).tag (x b).tag - n.log2 / 2
            let byte (y : Tile) (i j : Nat) : Int := toSigned 8 (y.bitsAt (elemBit y.tf i j) 8)
            (tile r d).tf = (x d).tf ∧ (tile r d).poisoned = false ∧ (tile r d).tag = min (if nc then trust else min trust (x c).tag) (tfPrec (x d).tf) ∧
            (tfFmt (x a).tf = 13 → ∀ i j, i < tfRows (x a).tf → j < tfCols (x b).tf → (tile r d).bitsAt (elemBit (x d).tf i j) 32 =
              wrapNat 32 (((List.range n).map (fun k => byte (x a) i k * byte (x b) k j)).sum + if nc then 0 else toSigned 32 ((x c).bitsAt (elemBit (x c).tf i j) 32))))) ∧
    (∀ dst src len dv sv, begins → e.kind = .cpy dst src len dv sv →
      let n : Nat := min (len - e.pos) (128 - (dst + e.pos) % 128)
      (len ≤ e.pos → Completes (.engineEntryBegin u q) s (fun r => head r e.pos true ∧ r.mem = s.mem)) ∧
      (e.pos < len → ∀ f, s.engSpan u e sv .load (src + e.pos) n = .error f → Completes (.engineEntryBegin u q) s (fun r =>
        (∃ y, (r.core u).queues.getD q [] = y :: rest ∧ y.status = f.1 ∧ y.finished = true ∧ y.pos = e.pos) ∧ r.mem = s.mem)) ∧
      (e.pos < len → ∀ g h, s.engSpan u e sv .load (src + e.pos) n = .ok [g] → s.engSpan u e dv .store (dst + e.pos) n = .ok [h] → g.n = n → h.n = n → g.dest = .home → h.dest = .home →
        (∀ i, i < n → s.isPoisoned (g.ha + i) 1 = false) → (s.origin e.origin).stalls = false →
        Completes (.engineEntryBegin u q) s (fun r => head r (e.pos + n) (decide (len ≤ e.pos + n)) ∧ (r.origin e.origin).cnt = (s.origin e.origin).next ∧
          ∀ a, r.byte a = if h.ha ≤ a ∧ a < h.ha + n then s.byte (g.ha + (a - h.ha)) else s.byte a))) ∧
    (∀ id qs, begins → e.kind = .fence id qs →
      let heads : Prop := ∀ p, p < 3 → bitAt qs p = true → ∃ y ys k, (s.core u).queues.getD p [] = y :: ys ∧ y.kind = .fence id k
      (heads → Completes (.engineEntryBegin u q) s (fun r => r.mem = s.mem ∧
        ∀ p, p < 3 → (r.core u).queues.getD p [] = if bitAt qs p then ((s.core u).queues.getD p []).tail else (s.core u).queues.getD p [])) ∧
      (¬ heads → Completes (.engineEntryBegin u q) s (fun r => r = s))) ∧
    (∀ slot w, e.finished = true → s.tstOver u e = true → s.writeOver e = true → (s.passOf u q).takeWhile (·.finished) = [e] → (q ≠ 0 → e.drop = false → (s.core u).evq.length < 64) → e.who = .crew slot → s.crew? u slot = some w → w.sculls.length = 8 →
      e.sculls.Nodup → Completes (.engineEntryComplete u q) s (fun r => (r.core u).queues.getD q [] = rest ∧ (∀ p, p ≠ q → (r.core u).queues.getD p [] = (s.core u).queues.getD p []) ∧
        r.mem = s.mem ∧
        (q ≠ 0 → e.drop = false → (r.core u).evq = (s.core u).evq ++ [[BitVec.ofNat 64 (slot + (q - 1) * 2 ^ 8 + e.status * 2 ^ 16), e.tag, BitVec.ofNat 64 e.doneCount, e.wit]]) ∧
        (q = 0 ∨ e.drop = true → (r.core u).evq = (s.core u).evq) ∧
        (e.drop = false → ∃ w', r.crew? u slot = some w' ∧ w'.regs = w.regs ∧ ∀ j, j < 8 →
          (w'.scull j).fstat = (w.scull j).fstat ||| (if j / 2 = e.quarter then e.conds else 0) ∧
          ∀ f, f < (w.scull j).cf.length → (w'.scull j).cf.getD f 0 = if e.flag = some f ∧ j ∈ e.sculls then (w.scull j).cf.getD f 0 - 1 else (w.scull j).cf.getD f 0))) ∧
    (e.finished = true → s.tstOver u e = true → s.writeOver e = true → q = 0 ∨ (s.core u).evq.length < 64 → Completes (.engineEntryComplete u q) s (fun r => r.mem = s.mem ∧
      (r.core u).queues.getD q [] = ((s.core u).queues.getD q []).drop ((s.passOf u q).takeWhile (·.finished)).length)) ∧
    (e.finished = true → q ≠ 0 → e.drop = false → 64 ≤ (s.core u).evq.length → Completes (.engineEntryComplete u q) s (fun r => r = s))) ∧
  (∀ (s : State) (group : DWord) (m : Nat) (r : Round) (c : Contrib) (more : List Contrib), s.rounds.find? (fun x => x.group == group && x.round == m) = some r → r.parts = c :: more →
    (∀ p ∈ r.parts, (s.core p.unit).queues.length = 3) → c.nrank ≤ 1024 →
    let data (k : Nat) : List Byte := match r.parts.find? (fun p => p.rank == k) with | some p => p.data | none => []
    let entry (t : State) (p : Contrib) (e : Entry) : Prop := e ∈ (t.core p.unit).queues.getD 2 [] ∧ e.id = p.entry
    ((∀ p ∈ r.parts, ∃ k, k < p.nrank ∧ Config.remoteRank group k = false ∧ ∀ y ∈ r.parts, y.rank ≠ k) → Completes (.collRoundComplete group m) s (fun t => t = s)) ∧
    (r.full = true → r.agrees = true → c.op = 0 → c.ty = 1 → (∀ k, k < c.nrank → ∃ p ∈ r.parts, p.rank = k) →
      Completes (.collRoundComplete group m) s (fun t => t.rounds.find? (fun x => x.group == group && x.round == m) = some { r with parts := [], closed := true } ∧ t.mem = s.mem ∧ ∃ res marks, res.length = 4 * c.count ∧
        (∀ i, i < c.count → field res (4 * i) 4 = (((List.range c.nrank).map (fun k => field (data k) (4 * i) 4)).sum) % 2 ^ 32) ∧
        ∀ p ∈ r.parts, ∀ e d, entry s p e → e.kind = .coll d → ∃ f, entry t p f ∧ f.kind = .deliver (field d 24 8) 4 res marks)) ∧
    (r.full = true → r.agrees = false → Completes (.collRoundComplete group m) s (fun t => t.rounds.find? (fun x => x.group == group && x.round == m) = some { r with parts := [], closed := true } ∧ t.mem = s.mem ∧
      ∀ p ∈ r.parts, ∀ e d, entry s p e → e.kind = .coll d → ∃ f, entry t p f ∧ f.finished = true ∧ f.status = 2))) ∧
  (∀ (s : State) (u slot k : Nat) (w : Crew) (p : Path) (ids : List Nat), Parked s u slot k w p → p.wait = .tile ids →
    ((∀ e ∈ (s.core u).queues.getD 0 [], e.id ∉ ids) → Completes (.tileInterlockRelease u slot) s (fun r => Retried r u slot k p)) ∧
    ((∃ e ∈ (s.core u).queues.getD 0 [], e.id ∈ ids) → Completes (.tileInterlockRelease u slot) s (fun r => ∃ w', r.crew? u slot = some w' ∧ (w'.scull k).run = some p)))

/-- R36 to R42, R45, R74, R87, R245, R283, R286, R244: a seat's cycle starts the issue group at the PC of its ready crew, unless the line is not held or a WAIT flag stands; the cycle counter
goes on at the cycle's end, where timers that are reached and debug commands are due; a piece ends after 2^PLOG strokes; a line comes in with good parity; TIMER becomes pending at CMP; a halt
completes once nothing is on its way. The order of the turns in a cycle, the cox first (log entries 10, 19), the order of the checks before an issue (log entry 18), and that a line comes
unasked and may push another out (log entry 20) are the model's choice. -/
def Obligations.CoreEvents : Prop :=
  (∀ (s : State) (u seat slot : Nat) (w : Crew) (g : Group) (pc : DWord) (bs : List Byte), u < 2304 → (s.core u).seatPtr = seat → seat < 4 → slot / 12 = seat →
    (s.core u).crews = [(slot, w)] → s.group? u w.gid = some g → w.killed = false → w.replay = none → w.halt = .none → w.parted = false → w.timer = false → w.yielded = none → w.stroke < 2 ^ w.plog → s.recStalls u w = false →
    (∃ x ∈ w.threads, x.live = true) → w.sculls.length = 8 → (∀ k, k < 8 → (w.scull k).stack = [] ∧ ∃ p, (w.scull k).run = some p ∧ p.pc = pc ∧ p.wait = .none ∧ p.inLine = false) →
    (∀ k, ((s.core u).seats.getD seat Seat.reset).lanes.getD k [] = []) → (∀ c, g.cox = some c → c.trap = none) → (∀ b ∈ (s.ctx g.ctx).brk, b.getLsbD 63 = false) →
    s.badTarget u g.ctx pc.toNat = none → (s.core u).pendingKeys (.crew slot) = [] → (∀ k, k < 8 → (w.scull k).stopped = false) → s.poisonAhead u (.crew slot) (fun _ => true) = false →
    let turn : Nat := if seat = 3 then 5 else seat + 1
    let line : Option (List Byte) := (s.core u).icache.find? (lineKey g.ctx pc.toNat)
    let first : Nat := pc.toNat % 8
    let last : Nat := groupLast (bitsAt (lineWord bs) 5 4) first
    let words : List Slot := ((List.range 5).filter (fun i => decide (first ≤ i ∧ i ≤ last))).map (fun i => BitVec.ofNat 96 (natOfBytes ((bs.drop (4 + 12 * i)).take 12)))
    let flags : Prop := ∃ f k, f < 12 ∧ k < 8 ∧ bitAt (lineWord bs) (9 + f) = true ∧ (w.scull k).cf.getD f 0 ≠ 0
    let held (r : State) (x : Wait) : Prop := r.issue = s.issue ∧ r.mem = s.mem ∧ (r.core u).seatPtr = turn ∧ ∃ w', r.crew? u slot = some w' ∧ w'.regs = w.regs ∧ w'.stroke = w.stroke ∧
      ∀ k, k < 8 → ∃ p, (w'.scull k).run = some p ∧ p.pc = pc ∧ p.wait = x
    (line = some bs → lineBad bs = false → ¬ flags → groupBad (s.ctx g.ctx) words = false → Completes (.seatIssue u seat) s (fun r => (r.core u).seatPtr = turn ∧ r.mem = s.mem ∧
      ∃ iss, r.issue = some iss ∧ iss.unit = u ∧ iss.who = .crew slot ∧ iss.pc = pc ∧ iss.words = words ∧ iss.parts = List.range 8 ∧ iss.idx = 0 ∧ iss.fx = Fx.empty ∧
        iss.next.toNat = (if last = 4 then pc.toNat / 64 * 64 + 64 else pc.toNat / 64 * 64 + last + 1) % 2 ^ 64 ∧
        iss.mask = ((List.range 8).map (fun k => match (w.scull k).run with | some p => p.mask * 2 ^ (4 * k) | none => 0)).sum)) ∧
    (line = some bs → lineBad bs = false → flags → Completes (.seatIssue u seat) s (fun r => held r .none)) ∧
    (line = none → pc.toNat < 2 ^ 56 → (∃ l, s.xlate (clusterOf u) g.ctx (pc.toNat / 64 * 64) .fetch = .ok l) → Completes (.seatIssue u seat) s (fun r => held r (.fetch (lineKey g.ctx pc.toNat))))) ∧
  (∀ (s : State) (u seat : Nat), u < 2304 → (s.core u).seatPtr = seat →
    (seat < 4 → (s.core u).crews = [] → Completes (.seatIssue u seat) s (fun r => r.issue = s.issue ∧ r.mem = s.mem ∧ (r.core u).seatPtr = (if seat = 3 then 5 else seat + 1) ∧
      (r.core u).ccyc = (s.core u).ccyc)) ∧
    (seat = 4 → (s.core u).groups = [] → Completes (.seatIssue u seat) s (fun r => r.issue = s.issue ∧ r.mem = s.mem ∧ (r.core u).seatPtr = 0 ∧ (r.core u).ccyc = (s.core u).ccyc)) ∧
    (seat = 5 → Completes (.seatIssue u seat) s (fun r => r.issue = s.issue ∧ r.mem = s.mem ∧ (r.core u).seatPtr = 4 ∧ (r.core u).ccyc = ((s.core u).ccyc + 1) % 2 ^ 64 ∧ (r.core u).dbg = [] ∧
      (∀ n i, (n, i) ∈ (s.core u).dbg → n < 33 → i ∈ r.agenda) ∧
      ∀ k w, s.crew? u k = some w → r.crew? u k = some { w with ctime := w.ctime + 1 } ∧ (w.tcmp ≠ 0 → w.tcmp.toNat ≤ (w.ctime + 1).toNat → Instr.timerExpiry u k ∈ r.agenda)))) ∧
  (∀ (s : State) (u slot : Nat) (w : Crew), s.crew? u slot = some w →
    (2 ^ w.plog ≤ w.stroke → w.dbgctl.getLsbD 10 = false → Completes (.pieceBoundary u slot) s (fun r => r.mem = s.mem ∧
      r.crew? u slot = some { w with stroke := w.stroke - 2 ^ w.plog, piece := (w.piece + 1) % 2 ^ 32, plog := w.dbgctl.toNat / 2 ^ 11 % 32 })) ∧
    (w.stroke < 2 ^ w.plog → Completes (.pieceBoundary u slot) s (fun r => r = s)) ∧
    (w.tcmp ≠ 0 → w.tcmp.toNat ≤ w.ctime.toNat → Completes (.timerExpiry u slot) s (fun r => r.mem = s.mem ∧ r.crew? u slot = some { w with timer := true, tcmp := 0 })) ∧
    (w.tcmp = 0 ∨ w.ctime.toNat < w.tcmp.toNat → Completes (.timerExpiry u slot) s (fun r => r = s)) ∧
    (w.halt = .requested → (∀ l ∈ (s.core u).loads, l.2.who ≠ .crew slot) → (∀ a ∈ (s.core u).atoms, a.2.who ≠ .crew slot) → (∀ t, t < 32 → (w.thread t).pend = none) →
      Completes (.haltComplete u slot) s (fun r => r.mem = s.mem ∧ r.crew? u slot = some { w with halt := .halted } ∧ ∀ m ∈ r.monitors, m.unit = u → m.slot = slot → m.hit = true)) ∧
    (w.halt = .requested → (∃ l ∈ (s.core u).loads, l.2.who = .crew slot) → Completes (.haltComplete u slot) s (fun r => r = s))) ∧
  (∀ (s : State) (u line : Nat) (l : Loc) (bad1 bad2 : Bool),
    let ctx : Nat := line / 2 ^ 56
    let va : Nat := line % 2 ^ 56 / 64 * 64
    let bs : List Byte := s.bytes l.ha 64
    s.xlate (clusterOf u) ctx va .fetch = .ok l → l.dest = .home → s.isPoisoned l.ha 64 = false → s.tornLine (l.ha / 64) = false →
    (parityBad bs = false → bad1 = false ∨ bad2 = false → Completes (.icacheFill u line bad1 bad2) s (fun r => r.mem = s.mem ∧ (r.core u).icache.find? (ctx * 2 ^ 56 + va) = some bs ∧
      ∀ k, k ≠ ctx * 2 ^ 56 + va → (r.core u).icache.find? k = (s.core u).icache.find? k ∨
        ((r.core u).icache.find? k = none ∧ 512 ≤ (s.core u).icache.length ∧ (s.core u).icache.find? (ctx * 2 ^ 56 + va) = none))) ∧
    (parityBad bs = true ∨ bad1 = true ∧ bad2 = true → s.fetchers u (ctx * 2 ^ 56 + va) = [] → Completes (.icacheFill u line bad1 bad2) s (fun r => r = s)))

/-- R63, R147, R179 to R190, R194 to R197, R318, R322: a trigger starts a run or queues it; a run begins with its patches and its ready nodes; a push becomes a record;
a starter places the record at the head of a queue on a core that has room, with the registers that the record keeps; a group whose crews are gone ends; a deadline takes a context's groups off a cluster; a job cut lets slower crews go on, completes, or fails. That these are steps of
their own is the model's choice (log entries 1, 31, 32). -/
def Obligations.SchedulerEvents : Prop :=
  (∀ (s : State) (w : DWord),
    let gr : Nat := w.toNat / 2 ^ 56
    let g : Graph := s.graph gr
    let good : Prop := w.toNat % 8 = 0 ∧ g.installed = true ∧ bitAt s.iod.ready 26 = true
    let cleared (r : State) : Prop := (∀ u, (r.core u).icache = []) ∧ (∀ c, (r.cluster c).tc = []) ∧ ∀ k, k ≠ gr → r.graph k = s.graph k
    (¬ good → Completes (.trigger w) s (fun r => cleared r ∧ r.graph gr = g ∧ r.mem = s.mem ∧ r.iod.trigErr = min (s.iod.trigErr + 1) (2 ^ 64 - 1))) ∧
    (good → g.run = none → g.waiting = [] → Completes (.trigger w) s (fun r => cleared r ∧ r.mem = s.mem ∧ r.iod = s.iod ∧ Instr.runBegin gr ∈ r.agenda ∧
      (r.graph gr).seq = (g.seq + 1) % 2 ^ 32 ∧ ∃ run, (r.graph gr).run = some run ∧ run.seq = (g.seq + 1) % 2 ^ 32 ∧ run.begun = false ∧ run.status = 0 ∧
        run.plist = w.toNat / 8 % 2 ^ 53 ∧ run.nodes = g.nodes.map (fun n => ⟨n.npred, 0, false, false⟩))) ∧
    (good → g.run ≠ none ∨ g.waiting ≠ [] → g.waiting.length < 4 → Completes (.trigger w) s (fun r => cleared r ∧ r.mem = s.mem ∧ r.graph gr = { g with waiting := g.waiting ++ [w] })) ∧
    (good → 4 ≤ g.waiting.length → (∀ ps, s.emptyCaches.locGlobal ioDie g.ctx g.doneaddr 8 .store = .ok ps → ∀ p ∈ ps, p.dest ≠ .repl) → Completes (.trigger w) s (fun r => cleared r ∧ r.graph gr = { g with lastDone := 4 } ∧ r.iod.msix.get 0 g.vector = s.iod.msix.get 0 g.vector + 1)) ∧
    (good → 4 ≤ g.waiting.length → ∀ ha host, s.emptyCaches.locGlobal ioDie g.ctx g.doneaddr 8 .store = .ok [⟨ha, 8, 0, g.doneaddr, .repl, host⟩] →
      Completes (.trigger w) s (fun r => cleared r ∧ r.graph gr = g ∧ r.mem = s.mem ∧ r.iod = s.iod ∧ ∃ e, (r.origin (9216 + gr)).pend = (s.origin (9216 + gr)).pend ++ [e] ∧
        e.bytes.map (fun b => (b.ha, b.val)) = (List.range 8).map (fun i => (ha + i, if i = 0 then 4 else 0)))) ∧
    Completes .triggerErrorClear s (fun r => r = { s with iod := { s.iod with trigErr := 0 } })) ∧
  (∀ (s : State) (gr c : Nat) (g : Graph) (h : List DWord) (more : List Nat), s.graph gr = g → g.nodes = [⟨h, 0, []⟩] → launchRejected h = false → hdrCount h ≠ 0 → hdrCount h < 2 ^ 32 →
    hdrBase h / 2 ^ hdrBG h = (hdrBase h + hdrCount h - 1) / 2 ^ hdrBG h → s.eligible h = c :: more → (s.cluster c).queues.length = 8 →
    let launched (r : State) (n : Nat) : Prop :=
      (∃ run, (r.graph gr).run = some run ∧ run.seq = n ∧ run.begun = true ∧ run.status = 0 ∧ run.nodes = [⟨0, 1, true, false⟩]) ∧
      ∃ q, (r.cluster c).queues.getD (hdrPrio h) [] = (s.cluster c).queues.getD (hdrPrio h) [] ++ [q] ∧ q.hdr = h ∧ q.ctx = g.ctx ∧ q.graph = gr ∧ q.run = n ∧ q.node = 0 ∧ q.bypass = 0 ∧
        recCode q.words = hdrW h 0 ∧ recWbase q.words = hdrBase h ∧ recWcount q.words = hdrCount h ∧ recJoin q.words = 0 ∧ recLive q.words = 0 ∧ recPrio q.words = hdrPrio h
    (∀ run, g.run = some run → run.begun = false → run.status = 0 → run.nodes = [⟨0, 0, false, false⟩] →
      (run.plist = 0 → Completes (.runBegin gr) s (fun r => launched r run.seq ∧ r.mem = s.mem)) ∧
      (∀ off val, run.plist ≠ 0 → (s.setGraph gr { g with run := some { run with begun := true } }).patchPairs g (8 * run.plist) = some [(off, val)] →
        Completes (.runBegin gr) s (fun r => launched r run.seq ∧ ∀ i, i < 8 → r.byte ((g.pblock + off + i) % 2 ^ 40) = BitVec.ofNat 8 (val.toNat / 2 ^ (8 * i))))) ∧
    (∀ v ws, g.run = none → g.waiting = v :: ws → v.toNat / 8 % 2 ^ 53 = 0 → Completes (.queuedRunBegin gr) s (fun r => launched r ((g.seq + 1) % 2 ^ 32) ∧ (r.graph gr).waiting = ws ∧ r.mem = s.mem)) ∧
    (g.run ≠ none → Completes (.queuedRunBegin gr) s (fun r => r = s))) ∧
  (∀ (s : State) (id : Nat) (p : Push) (bs : List Byte) (h : List DWord), s.pushes.find? id = some p →
    let t : State := { s with pushes := s.pushes.drop id }
    let r : List DWord := dwordsOf 8 bs
    let ready : Prop := s.pushHeld p = false ∧ s.satisfied p.after 2 = true ∧ ∀ q, p.seq = some q → s.performed p.unit q 2 = true
    let cl : Nat := if hdrClmask h = 0 ∨ bitAt (hdrClmask h) p.cluster = true then p.cluster else (bitsOf 12 (hdrClmask h)).headD p.cluster
    (¬ ready → Completes (.recordPush id) s (fun x => x = s)) ∧
    (ready → s.runOpen p.graph p.run = true → t.fetchVa p.cluster p.ctx p.va 64 = some bs → t.readHeader p.cluster p.ctx p.graph p.node (recHdr r) = some h → recBad r h = false →
      hdrRejected h = false → hdrFits h (recCrews r) (recCount r h) = true → (s.cluster cl).queues.length = 8 → Completes (.recordPush id) s (fun x => x.pushes.find? id = none ∧ x.mem = s.mem ∧
        ∃ q, (x.cluster cl).queues.getD (recPrio r) [] = (s.cluster cl).queues.getD (recPrio r) [] ++ [q] ∧ q.words = r ∧ q.hdr = h ∧ q.ctx = p.ctx ∧ q.graph = p.graph ∧ q.run = p.run ∧
          q.node = p.node ∧ q.park = p.seq.isSome))) ∧
  (∀ (s : State) (cl u l : Nat) (q : QRec) (rest : List QRec) (room : Room) (frame : List Byte), Placing s cl u l q rest room frame →
    let n : Nat := recCount q.words q.hdr
    let gid : Nat := (s.core u).nextGid
    let live : List Nat := liveRegs (recLive q.words) (recLivebase q.words)
    Completes (.recordPlace cl u) s (fun r => (r.core u).nextGid = gid + 1 ∧ (r.cluster cl).queues.getD l [] = rest.map (fun x => { x with bypass := 0 }) ∧
      (∀ k, k < l → (r.cluster cl).queues.getD k [] = ((s.cluster cl).queues.getD k []).map (fun x => { x with bypass := 0 })) ∧ (∀ k, l < k → (r.cluster cl).queues.getD k [] = []) ∧
      (r.core u).pool = (s.core u).pool - (32 * n * recCrews q.words - min (32 * n * recCrews q.words) (12288 * room.regx.length)) ∧
      (∃ g, r.group? u gid = some g ∧ g.ctx = q.ctx ∧ g.graph = q.graph ∧ g.run = q.run ∧ g.node = q.node ∧ g.hdr = q.hdr ∧ g.slots = room.slots ∧ g.tiles = room.tiles ∧
        g.join = recJoin q.words ∧ (g.cox.isSome = true ↔ hdrCoxEntry q.hdr ≠ 0)) ∧
      ∀ i k, room.slots[i]? = some k → ∃ w, r.crew? u k = some w ∧ w.gid = gid ∧ w.count = n ∧ w.fmtr = hdrFmtr q.hdr ∧ w.ctime = recCtime q.words ∧ w.parted = false ∧ w.entered = q.park ∧
        (∀ j t reg, live[j]? = some reg → t < 32 → w.get (32 * reg + t) =
          (BitVec.ofNat 32 (natOfBytes ((frame.drop (160 * live.length * i + 4 * (32 * j + t))).take 4)), frame.getD (160 * live.length * i + 128 * live.length + 32 * j + t) 0)) ∧
        (∀ key, (∀ reg ∈ live, key / 32 ≠ reg) → w.get key = (0, 0xFE)) ∧
        (∀ t, t < 32 → (w.thread t).live = decide (32 * i + t < recWcount q.words) ∧ (w.thread t).hlvl = 0 ∧ (w.thread t).pend = none) ∧
        ∀ j p, j < 8 → (w.scull j).run = some p → p.pc = BitVec.ofNat 64 (recCode q.words) ∧ p.fmtr = hdrFmtr q.hdr ∧ p.wait = .none)) ∧
  (∀ (s : State) (u gid : Nat) (g : Group), s.group? u gid = some g →
    (s.liveCrews u gid ≠ 0 → Completes (.groupEnd u gid) s (fun r => r = s)) ∧
    (s.liveCrews u gid = 0 → g.join = 0 → g.joined = false → g.lastSeq = none → (∀ q ∈ (s.core u).queues, ∀ e ∈ q, e.gid ≠ gid) → Completes (.groupEnd u gid) s (fun r =>
      r.group? u gid = none ∧ (∀ k ∈ g.slots, r.crew? u k = none) ∧ (r.core u).pool = (s.core u).pool ∧ (∀ i, (r.core u).flex.getD i .free ≠ .regx gid ∧ (r.core u).flex.getD i .free ≠ .nscr gid) ∧
        ∀ k, k ≠ gid → r.group? u k = s.group? u k)) ∧
    (s.liveCrews u gid = 0 → g.join ≠ 0 → g.joined = false → ((s.sweepAll u).origin u).stalls = true → Completes (.groupEnd u gid) s (fun r => r = s.sweepAll u)) ∧
    (s.liveCrews u gid = 0 → g.join ≠ 0 → g.joined = false → ((s.sweepAll u).origin u).stalls = false → Completes (.groupEnd u gid) s (fun r => (∃ x, r.group? u gid = some x ∧ x.joined = true ∧ x.lastSeq = some (s.origin u).next) ∧
      (r.origin u).cnt = (s.origin u).next ∧ Instr.groupEnd u gid ∈ r.agenda))) ∧
  (∀ (s : State) (ctx cl limit : Nat) (m : SMap Nat), (s.ctx ctx).draining = some m → s.pushes.Pairwise (fun a b => a.1 < b.1) →
    (m.find? cl = some limit → Completes (.preemptDeadlineExpiry ctx cl) s (fun r => limit ≤ (r.cluster cl).cyc ∧ (∀ x, (r.ctx ctx).draining = some x → x.find? cl = none) ∧
      (∀ c, (s.ctx ctx).cut = some c → (r.ctx ctx).cut = some { c with failed := c.failed || !c.completed }) ∧ (∀ u n g, u / 192 = cl → r.group? u n = some g → g.ctx ≠ ctx) ∧
      ∀ id p, s.pushes.find? id = some p →
        let mine : Prop := ∃ g, s.group? p.unit p.gid = some g ∧ g.ctx = ctx ∧ p.unit / 192 = cl
        (¬ mine → r.pushes.find? id = some p) ∧ (mine → r.satisfied p.after 2 = true → r.pushes.find? id = some p) ∧ (mine → r.satisfied p.after 2 = false → r.pushes.find? id = none))) ∧
    (m.find? cl = none → Completes (.preemptDeadlineExpiry ctx cl) s (fun r => r = s))) ∧
  (∀ (s : State) (ctx m : Nat) (c : Cut), (s.ctx ctx).cut = some c → c.failed = false → c.completed = false →
    (c.step = some m → (∀ p ∈ s.ctxCrews ctx, ∃ w, s.crew? p.1 p.2 = some w ∧ w.caughtAt m = true) → Completes (.jobCutRelease ctx) s (fun r => r.mem = s.mem ∧ r.cores = s.cores ∧
      (r.ctx ctx).cut = some { c with completed := true })) ∧
    (∀ u slot k w p n, c.step = some m → Parked s u slot k w p → p.wait = .catch n → n < m → (w.halt = .none ∨ w.halt = .requested) → w.dbgctl.getLsbD 10 = false → w.replay = none → w.exited = false → ((s.core u).groups.get Group.blank w.gid).ctx = ctx →
      Completes (.jobCutRelease ctx) s (fun r => Resumed r u slot k p)) ∧
    (∀ u slot k w p, Parked s u slot k w p → w.exited = false → ((s.core u).groups.get Group.blank w.gid).ctx = ctx → 
      ((∃ b key ph d mask st, p.wait = .bar b key ph d mask st) ∨ p.wait = .regang ∨ (∃ ws, p.wait = .wit ws false) ∨ (∃ d, p.wait = .sltake d) ∨ ∃ dl d mask, p.wait = .mwait dl d mask) →
      p.since + 2 ^ 20 ≤ (s.core u).ccyc → c.starts.get 0 u + 2 ^ 20 ≤ (s.core u).ccyc → Completes (.jobCutTimeout ctx) s (fun r => (r.ctx ctx).cut = some { c with failed := true })) ∧
    (s.ctxCrews ctx = [] → Completes (.jobCutTimeout ctx) s (fun r => r = s)))

/-- R176, R303, R316 to R319, R322: a host write of device memory is one event of its stream; the host's own writes fill the memory behind its window; BAR0 registers are written whole; a read
answers from the homes with the poison indication; the witness register of a stream names its last event. That stream 32
is BAR0, stream 33 the host's own memory, and replies are a list is the model's choice (log entry 37). -/
def Obligations.HostAccess : Prop :=
  (∀ (s : State) (n a : Nat) (data : List Byte), n < 32 → data ≠ [] →
    let o : Nat := 4032 + n
    let x : Origin := s.origin o
    (s.unsupported a data.length = false → x.stalls = false → Completes (.hostWrite n a data) s (fun r => r.mem = s.mem ∧ r.iod = s.iod ∧ (∀ k, k ≠ o → r.origin k = s.origin k) ∧
      (r.origin o).cnt = (x.cnt + 1) % 2 ^ 30 ∧ ∃ e, (r.origin o).pend = x.pend ++ [e] ∧ e.seq = (x.cnt + 1) % 2 ^ 30 ∧ e.scope = 4 ∧ e.after = [] ∧ e.entered = false ∧
        e.bytes.map (fun b => (b.ha, b.val)) = (List.range data.length).map (fun i => (a + i, data.getD i 0)) ∧ ∀ b ∈ e.bytes, b.dest = .home)) ∧
    (s.unsupported a data.length = true → Completes (.hostWrite n a data) s (fun r => r = s)) ∧
    (s.unsupported a data.length = false → Completes (.hostRead n a data.length) s (fun r => r.iod.sent = s.iod.sent ++ [(n, s.bytes a data.length, s.isPoisoned a data.length)] ∧ r.mem = s.mem)) ∧
    (s.unsupported a data.length = true → Completes (.hostRead n a data.length) s (fun r => r.iod.sent = s.iod.sent ++ [(n, [], false)] ∧ r.mem = s.mem)) ∧
    Completes (.hostWitnessRead n) s (fun r => r.iod.sent = s.iod.sent ++ [(32, bytesOf 8 (mkWit 4 3 s.modnum o x.inc x.cnt).toNat, false)] ∧ r.mem = s.mem) ∧
    (a + data.length ≤ 2 ^ 36 → Completes (.hostWrite 33 a data) s (fun r => (∀ i, i < data.length → r.byte (hostKey (a + i)) = data.getD i 0) ∧
      ∀ k, (∀ i, i < data.length → k ≠ hostKey (a + i)) → r.byte k = s.byte k))) ∧
  (∀ (s : State) (i : Nat) (x : Word) (y : DWord), i < 64 → s.iod.mailbox.length = 64 →
    let four : List Byte := bytesOf 4 x.toNat
    let eight : List Byte := bytesOf 8 y.toNat
    let counted (r : State) : Prop := r.iod.trigErr = min (s.iod.trigErr + 1) (2 ^ 64 - 1) ∧ r.mem = s.mem ∧ r.iod.doorbell = s.iod.doorbell ∧ r.graphs = s.graphs
    Completes (.hostWrite 32 (0x2000 + 4 * i) four) s (fun r => r.mem = s.mem ∧ ∀ k, r.iod.mailbox.getD k 0 = if k = i then x else s.iod.mailbox.getD k 0) ∧
    (bitAt s.iod.ready 26 = true → s.iod.doorbell = 0 → Completes (.hostWrite 32 0x2100 four) s (fun r => r.mem = s.mem ∧ r.iod = { s.iod with doorbell := x })) ∧
    (bitAt s.iod.ready 26 = false ∨ s.iod.doorbell ≠ 0 → Completes (.hostWrite 32 0x2100 four) s counted) ∧
    Completes (.hostWrite 32 0 eight) s (fun r => exec (.trigger y) s = .next r) ∧
    Completes (.hostWrite 32 0 four) s counted ∧
    Completes (.hostWrite 32 8 (bytesOf 8 0)) s (fun r => r = { s with iod := { s.iod with trigErr := 0 } }) ∧
    Completes (.hostRead 32 (0x2000 + 4 * i) 4) s (fun r => r.iod.sent = s.iod.sent ++ [(32, bytesOf 4 (s.iod.mailbox.getD i 0).toNat, false)]) ∧
    Completes (.hostRead 32 8 8) s (fun r => r.iod.sent = s.iod.sent ++ [(32, bytesOf 8 s.iod.trigErr, false)]))

/-- R58, R147, R177, R178, R194, R196, R292, R319 to R325: what U0 does for each mailbox command, and its reply: the words, a zero doorbell and vector 0. A command whose reserved words are
set answers 3 and does nothing else. The order in which errors are found, error 3 for context 0 and where error 9 arises (log entry 38), error 8 for want of scheduler memory (log entry 9), and that
command 5 lets a context at a completed cut go on (log entry 32) are the model's choice. -/
def Obligations.MailboxCommands : Prop :=
  ∀ (s : State), s.iod.cmd = none →
    let word (i : Nat) : Nat := (s.iod.mailbox.getD i 0).toNat
    let long (i : Nat) : Nat := word i + word (i + 1) * 2 ^ 32
    let n : Nat := word 1
    let rung (code : Nat) : Prop := s.iod.doorbell.toNat = code
    let clean (used : List Nat) : Prop := ∀ i, 1 ≤ i → i < 64 → i ∉ used → word i = 0
    let answers (r : State) (code arg : Nat) (reply : List Nat) : Prop :=
      r.iod.cmd = some ⟨code, arg, reply.map (BitVec.ofNat 32), []⟩ ∧ Instr.mailboxReply ∈ r.agenda ∧ r.iod.doorbell = s.iod.doorbell ∧ r.iod.mailbox = s.iod.mailbox
    let ctx : Prop := 1 ≤ n ∧ n ≤ 15
    (∀ img g, rung 1 → clean [1, 2, 3, 4] → n < 256 → long 2 % 64 = 0 → word 4 ≤ 2 ^ 23 → img.length = word 4 →
      (graphOfImage img = some g → g.ctx = 0 → (s.graph n).installed = false → Completes (.mbxInstallGraph img true) s (fun r => answers r 1 0 [3] ∧ r.graphs = s.graphs)) ∧
      (graphOfImage img = some g → g.ctx ≠ 0 → pblockOk g = false → (s.graph n).installed = false → Completes (.mbxInstallGraph img true) s (fun r => answers r 1 0 [7] ∧ r.graphs = s.graphs)) ∧
      (graphOfImage img = some g → g.ctx ≠ 0 → pblockOk g = true → (s.graph n).installed = false → Completes (.mbxInstallGraph img true) s (fun r => r.mem = s.mem ∧ (∀ k, k ≠ n → r.graph k = s.graph k) ∧
        if Config.schedulerFull s.free img.length then answers r 1 0 [8] ∧ r.graphs = s.graphs
        else answers r 1 0 [0, g.nodes.length] ∧ r.graph n = { g with lastDone := (s.graph n).lastDone })) ∧
      ((s.graph n).installed = true → Completes (.mbxInstallGraph img true) s (fun r => answers r 1 0 [4] ∧ r.graphs = s.graphs)) ∧
      (graphOfImage img = none → (s.graph n).installed = false → Completes (.mbxInstallGraph img true) s (fun r => answers r 1 0 [7] ∧ r.graphs = s.graphs)) ∧
      Completes (.mbxInstallGraph img false) s (fun r => answers r 1 0 [6] ∧ r.graphs = s.graphs)) ∧
    (rung 2 → clean [1] → n < 256 →
      ((s.graph n).installed = true → (s.graph n).run = none → (s.graph n).waiting = [] → Completes .mbxRemoveGraph s (fun r => answers r 2 0 [0] ∧ (r.graph n).installed = false ∧
        (r.graph n).lastDone = (s.graph n).lastDone ∧ ∀ k, k ≠ n → r.graph k = s.graph k)) ∧
      ((s.graph n).installed = true → (s.graph n).run ≠ none ∨ (s.graph n).waiting ≠ [] → Completes .mbxRemoveGraph s (fun r => answers r 2 0 [5] ∧ r.graphs = s.graphs))) ∧
    (rung 2 → ¬ clean [1] → Completes .mbxRemoveGraph s (fun r => answers r 2 0 [3] ∧ r.graphs = s.graphs)) ∧
    (let d : Nat := long 2 + long 4 * 2 ^ 64 + long 6 * 2 ^ 128 + long 8 * 2 ^ 192
     rung 3 → clean [1, 2, 3, 4, 5, 6, 7, 8, 9] → ctx → d % 8 = 0 → d / 2 ^ 6 % 2 ^ 26 = 0 → long 8 % 2 ^ 26 = 0 → long 8 < 12 * 2 ^ 36 → long 4 % 2 ^ 19 = 0 → long 4 < 12 * 2 ^ 36 →
      let down : Prop := long 6 / 2 ^ 36 < 12 ∧ bitAt s.iod.ready (long 6 / 2 ^ 36) = false
      let readable : Prop := s.unsupported (long 6) 2048 = false ∧ s.isPoisoned (long 6) 2048 = false
      (d / 16 % 4 = 3 → long 6 % 2048 = 0 → down → Completes .mbxWriteDescriptor s (fun r => answers r 3 0 [9] ∧ r.contexts = s.contexts)) ∧
      (d / 16 % 4 = 3 → long 6 % 2048 ≠ 0 ∨ ¬ readable ∧ ¬ down → Completes .mbxWriteDescriptor s (fun r => answers r 3 0 [3] ∧ r.contexts = s.contexts)) ∧
      (d / 16 % 4 = 3 → long 6 % 2048 = 0 → ¬ down → readable → s.ctxIdle n = true → Completes .mbxWriteDescriptor s (fun r => answers r 3 0 [0] ∧ (r.ctx n).sel = 3 ∧
        (r.ctx n).held = (List.range 1024).map (fun i => s.num (long 6 + 2 * i) 2) ∧ ∀ k, k ≠ n → r.ctx k = s.ctx k)) ∧
      (d / 16 % 4 ≠ 3 → s.ctxIdle n = true → Completes .mbxWriteDescriptor s (fun r => answers r 3 0 [0] ∧ r.ctx n = { s.ctx n with
        qbase := BitVec.ofNat 64 (long 8), dtaddr := BitVec.ofNat 64 (long 6), root := BitVec.ofNat 64 (long 4), deadline := BitVec.ofNat 32 (word 3), shadow := decide (d / 8 % 2 = 1), sel := d / 16 % 4, held := [] } ∧
        ∀ k, k ≠ n → r.ctx k = s.ctx k)) ∧
      (d / 16 % 4 ≠ 3 → s.ctxIdle n = false → Completes .mbxWriteDescriptor s (fun r => answers r 3 0 [5] ∧ r.contexts = s.contexts))) ∧
    (rung 4 → clean [1] → ctx → Completes .mbxPreempt s (fun r => answers r 4 n [0] ∧ r.mem = s.mem ∧ (r.ctx n).preempted = true ∧
      (s.groupsOf (fun g => g.ctx == n) = [] → (r.ctx n).draining = none) ∧
      (s.groupsOf (fun g => g.ctx == n) ≠ [] → ∃ m, (r.ctx n).draining = some m ∧ ∀ c, c < 12 → m.find? c = some ((s.cluster c).cyc + 1024 * max 1 (s.ctx n).deadline.toNat)))) ∧
    (rung 5 → clean [1] → ctx → Completes .mbxResume s (fun r => (∃ c, r.iod.cmd = some c ∧ c.code = 5 ∧ c.reply = [0]) ∧ (r.ctx n).preempted = false ∧ (r.ctx n).cut = none)) ∧
    (rung 6 → clean [1] → ctx → Completes .mbxJobCut s (fun r => answers r 6 n [0] ∧ Instr.jobCutRelease n ∈ r.agenda ∧ r.mem = s.mem ∧ ∃ c, (r.ctx n).cut = some c ∧ c.failed = false ∧ c.completed = false ∧
      c.step = s.caughtStep n ∧ ∀ p ∈ s.cores, ∃ k, c.starts.find? p.1 = some k)) ∧
    (rung 7 → clean [1] → (ctx ∨ n = 2 ^ 32 - 1) → Completes .mbxTranslationInvalidate s (fun r => answers r 7 0 [0] ∧ r.mem = s.mem ∧ ∀ cl k,
      (ctx → (r.cluster cl).tc.find? k = if k / 2 ^ 30 = n then none else (s.cluster cl).tc.find? k) ∧
      (n = 2 ^ 32 - 1 → (r.cluster cl).tc.find? k = if k / 2 ^ 30 = 0 then (s.cluster cl).tc.find? k else none))) ∧
    (let u : Nat := word 2 % 2 ^ 12
     let slot : Nat := word 2 / 2 ^ 16 % 64
     let data : DWord := BitVec.ofNat 64 (long 4)
     let apart (w : Crew) (y : Nat) : Prop := ((s.group? u w.gid).getD Group.blank).ctx = y
     rung 8 → clean (if n = 5 ∨ n = 7 then [1, 2, 3, 4, 5] else [1, 2, 3]) → n < 8 → word 2 / 2 ^ 12 % 16 = 0 → word 2 / 2 ^ 22 = 0 → u < 2304 → slot < 48 → word 3 % 2 ^ 16 = 0 → word 3 / 2 ^ 21 % 8 = 0 →
      (∀ w, s.crew? u slot = some w → ¬ apart w 0 → w.exited = false → w.killed = false → w.dbgRefused n (word 3 / 2 ^ 24) data = none → Completes .mbxDebugCommand s (fun r =>
        answers r 8 (64 * u + slot) [0, word 4, word 5] ∧ (r.core u).dbg = (s.core u).dbg ++ [(32, dbgInstr n u slot 4064 0 (word 3 / 2 ^ 24) (word 3 / 2 ^ 16 % 32) data)] ∧
        r.crew? u slot = some w)) ∧
      (∀ w, s.crew? u slot = some w → apart w 0 → Completes .mbxDebugCommand s (fun r => answers r 8 0 [3] ∧ r.cores = s.cores)) ∧
      (∀ w, s.crew? u slot = some w → ¬ apart w 0 → w.exited = true ∨ w.killed = true ∨ (w.dbgRefused n (word 3 / 2 ^ 24) data).isSome = true →
        Completes .mbxDebugCommand s (fun r => answers r 8 0 [10] ∧ r.cores = s.cores)) ∧
      (s.crew? u slot = none → Completes .mbxDebugCommand s (fun r => answers r 8 0 [10]))) ∧
    (rung 9 → clean [1, 2, 3, 4, 5, 6, 7, 8, 9, 10] → bitAt s.iod.ready 27 = false → ∀ ok, Completes (.mbxAttestation ok) s (fun r => answers r 9 0 [9] ∧ r.mem = s.mem)) ∧
    (rung 9 → clean [1, 2, 3, 4, 5, 6, 7, 8, 9, 10] → bitAt s.iod.ready 27 = true →
      let report : List Byte := s.report ((List.range 8).flatMap (fun i => bytesOf 4 (word (1 + i))))
      Completes (.mbxAttestation true) s (fun r => answers r 9 0 [0, report.length] ∧ (r.origin 4064).cnt = ((s.origin 4064).cnt + 1) % 2 ^ 30 ∧
        (long 9 + report.length ≤ 2 ^ 36 → ∀ i, i < report.length → r.byte (hostKey (long 9 + i)) = report.getD i 0)) ∧
      Completes (.mbxAttestation false) s (fun r => answers r 9 0 [6] ∧ r.mem = s.mem)) ∧
    (∀ img, rung 10 → clean [1, 2, 3, 4] → n < 8 → img.length = word 4 →
      let log : List (List Byte) := s.iod.log ++ [(img.drop 32).take 64 ++ (img.drop 104).take 4]
      let done : List Nat := [0, natOfBytes ((img.drop 32).take 4)]
      Completes (.mbxLoadFirmware img false) s (fun r => answers r 10 0 [6] ∧ r.mem = s.mem ∧ r.iod.log = s.iod.log) ∧
      (n = 0 → Completes (.mbxLoadFirmware img true) s (fun r =>
        if fwOk img then r.iod.cmd = some ⟨10, 0, done.map (BitVec.ofNat 32), img⟩ ∧ r.iod.log = log ∧ r.mem = s.mem
        else answers r 10 0 [2] ∧ r.mem = s.mem ∧ r.iod.log = s.iod.log)) ∧
      (1 ≤ n → Completes (.mbxLoadFirmware img true) s (fun r =>
        if fwOk img then answers r 10 n done ∧ r.iod.log = log ∧
          r.iod.umpire.get [] n = img ∧ (s.iod.umpire.find? n = none → r.origin (4064 + n) = s.origin (4064 + n)) ∧
          (s.iod.umpire.find? n ≠ none → (r.origin (4064 + n)).inc = ((s.origin (4064 + n)).inc + 1) % 16 ∧ (r.origin (4064 + n)).cnt = 0) ∧
          ∀ i, i < (fwBody img).length → r.byte (tcmKey n (fwLoad img + i)) = (fwBody img).getD i 0
        else answers r 10 0 [2] ∧ r.mem = s.mem ∧ r.iod.umpire = s.iod.umpire))) ∧
    (10 < s.iod.doorbell.toNat → Completes .mbxUnknownCommand s (fun r => answers r s.iod.doorbell.toNat 0 [1] ∧ r.mem = s.mem)) ∧
    (∀ (t : State) (c : Cmd), t.iod.cmd = some c →
      let replies (w : List Word) : Prop := Completes .mailboxReply t (fun r => r.iod.cmd = none ∧ r.iod.doorbell = 0 ∧ r.iod.msix.get 0 0 = t.iod.msix.get 0 0 + 1 ∧
        ∀ i, i < 64 → r.iod.mailbox.getD i 0 = w.getD i 0)
      (c.reply.getD 0 0 ≠ 0 ∨ c.code ∉ [4, 6, 8] → replies c.reply) ∧
      (c.reply.getD 0 0 = 0 → c.code = 4 → (t.ctx c.arg).draining = none → replies c.reply) ∧
      (c.reply.getD 0 0 = 0 → c.code = 4 → (t.ctx c.arg).draining ≠ none → Completes .mailboxReply t (fun r => r = t)) ∧
      (∀ x, c.reply.getD 0 0 = 0 → c.code = 6 → (t.ctx c.arg).cut = some x → (x.failed = true → replies [11] ∧ Completes .mailboxReply t (fun r => (r.ctx c.arg).cut = none)) ∧
        (∀ m, x.failed = false → x.completed = true → x.step = some m → replies [0, BitVec.ofNat 32 m]) ∧
        (x.failed = false → x.completed = false → Completes .mailboxReply t (fun r => r = t))) ∧
      (c.image ≠ [] → c.code = 10 → Completes .mailboxReply t (fun r => r.iod.umpire.find? 0 = some c.image ∧ (r.origin 4064).inc = ((t.origin 4064).inc + 1) % 16 ∧ (r.origin 4064).cnt = 0 ∧
        ∀ i, i < (fwBody c.image).length → r.byte (tcmKey 0 (fwLoad c.image + i)) = (fwBody c.image).getD i 0)) ∧
      (c.reply.getD 0 0 = 0 → c.code = 8 → (∃ p ∈ (t.core (c.arg / 64)).dbg, p.1 = 32) → Completes .mailboxReply t (fun r => r = t)) ∧
      (∀ w, c.reply.getD 0 0 = 0 → c.code = 8 → (∀ p ∈ (t.core (c.arg / 64)).dbg, p.1 ≠ 32) → t.crew? (c.arg / 64) (c.arg % 64) = some w → w.exited = false → replies (c.reply ++ [loWord w.dbgstat, hiWord w.dbgstat])))

/-- R244, R287, R288, R292, R293, R295: what each debug command does to a crew, when its commanding MOVC ends, and what becomes of one that no longer applies; and that a host write of zero to
DMB63 takes the stop report. A release lets threads that a stop in the system context held go on at their resume PC (log entry 52). A replay starts from the snapshot of the recording, its registers
as there, and is to stop at the asked position (log entries 16, 45). -/
def Obligations.DebugCommands : Prop :=
  (∀ (s : State) (u slot cu ck : Nat) (w : Crew), s.crew? u slot = some w → ¬ (cu = u ∧ ck = slot) → w.exited = false → w.killed = false →
    let calm (c : Crew) : Prop := c.recOk = false ∧ c.dbgctl.getLsbD 10 = false
    let ends (r : State) : Prop := ∀ c j p, cu < 2304 → Parked s cu ck j c p → p.wait = .command → (c.halt = .none ∨ c.halt = .requested) → calm c → c.replay = none → Resumed r cu ck j p
    let only (r : State) : Prop := ends r ∧ ((cu < 2304 → ∀ c, s.crew? cu ck = some c → calm c) → r.mem = s.mem) ∧
      ∀ n k, ¬ (n = u ∧ k = slot) → ¬ (n = cu ∧ k = ck ∧ cu < 2304) → r.crew? n k = s.crew? n k
    let answers (i : Instr) (x : DWord) : Prop :=
      (∀ c, cu < 2304 → s.crew? cu ck = some c → Completes i s (fun r => (∃ y, r.crew? cu ck = some y ∧ y.dbgdata = x) ∧ r.crew? u slot = some w ∧ only r)) ∧
      (∀ c, 2304 ≤ cu → s.iod.cmd = some c → c.reply.length = 3 → Completes i s (fun r => (∃ d, r.iod.cmd = some d ∧ d.reply = [c.reply.getD 0 0, loWord x, hiWord x] ∧ d.code = c.code) ∧
        r.crew? u slot = some w ∧ r.mem = s.mem))
    let goes (i : Instr) (h : Halt) : Prop := (h = .none → ∀ k, k < 8 → ∀ p ∈ (w.scull k).paths, p.isOver = false) →
      Completes i s (fun r => only r ∧ Instr.trapDelivery u slot ∈ r.agenda ∧ ∃ x, r.crew? u slot = some x ∧ x.halt = h ∧ x.regs = w.regs ∧ x.replay = none ∧
        (∀ k, k < 8 → (x.scull k).stopped = false) ∧ ((∀ y ∈ w.threads, y.resume = none) → x.threads = w.threads ∧ x.slot0 = w.slot0 ∧ x.slot1 = w.slot1) ∧
        ∀ k p, k < 8 → (w.scull k).run = some p → p.mask < 16 →
          ((p.wait ≠ .trap ∨ ∀ y ∈ w.threads, y.resume = none) → ∃ q, (x.scull k).run = some q ∧ q.pc = p.pc ∧ q.mask = p.mask ∧ q.wait = p.wait) ∧
          (∀ pc, p.wait = .trap → p.mask ≠ 0 → (∀ t ∈ p.threads k, (w.thread t).pend = none ∧ (w.thread t).resume = some pc) →
            ∃ q, (x.scull k).run = some q ∧ q.pc = pc ∧ q.mask = p.mask ∧ q.wait = .none))
    let refused (i : Instr) : Prop := ∀ c j p, cu < 2304 → Parked s cu ck j c p → p.wait = .command → Completes i s (fun r => Retried r cu ck j p ∧ r.mem = s.mem ∧ r.crew? u slot = some w)
    Completes (.dbgNone u slot cu ck) s (fun r => r = s) ∧
    Completes (.dbgHaltRequest u slot cu ck) s (fun r => only r ∧ Instr.haltComplete u slot ∈ r.agenda ∧
      r.crew? u slot = some { w with halt := if w.halt = .halted then .halted else .requested }) ∧
    (w.replay = none → goes (.dbgRelease u slot cu ck) .none ∧ goes (.dbgStep u slot cu ck) .step) ∧
    (∀ n t, w.halt ≠ .halted ∨ w.count ≤ n → refused (.dbgReadRegister u slot cu ck n t) ∧ ∀ x, refused (.dbgWriteRegister u slot cu ck n t x)) ∧
    (w.halt ≠ .halted → (∀ t, refused (.dbgReadPc u slot cu ck t)) ∧ ∀ pos, refused (.dbgReplay u slot cu ck pos)) ∧
    (w.halt = .halted → (∀ n t, n < w.count → answers (.dbgReadRegister u slot cu ck n t) (BitVec.ofNat 64 (w.get (32 * n + t)).1.toNat)) ∧
      (∀ n t x, n < w.count → Completes (.dbgWriteRegister u slot cu ck n t x) s (fun r => only r ∧ ∃ y, r.crew? u slot = some y ∧ controls y = controls w ∧ y.sculls = w.sculls ∧ y.threads = w.threads ∧
        ∀ k, y.get k = if k = 32 * n + t then (x, 0xFE) else w.get k)) ∧
      (∀ t p, (w.scull (t / 4)).run = some p → answers (.dbgReadPc u slot cu ck t) (BitVec.ofNat 64 (p.mask * 2 ^ 60 + p.pc.toNat))) ∧
      (∀ t, (w.scull (t / 4)).run = none → answers (.dbgReadPc u slot cu ck t) 0) ∧
      (∀ pos bs g, s.group? u w.gid = some g → s.fetchVa (clusterOf u) g.ctx (recBase w) w.recPos = some bs → imageNum bs 4 1 ≤ 224 → w.replay = none → w.replayBad pos = false →
        (imageNum bs 8 4 < pos.toNat / 2 ^ 24 % 2 ^ 32 ∨ imageNum bs 8 4 = pos.toNat / 2 ^ 24 % 2 ^ 32 ∧ pos.toNat % 2 ^ 24 ≠ 0) →
        Completes (.dbgReplay u slot cu ck pos) s (fun r => only r ∧ ∃ x y, r.crew? u slot = some x ∧ x.replay = some y ∧ x.halt = .none ∧ x.stroke = 0 ∧ x.piece = imageNum bs 8 4 ∧
          x.count = imageNum bs 4 1 ∧ x.ctime = BitVec.ofNat 64 (imageNum bs 0x30 8) ∧ (y.toPiece, y.toStroke) = (pos.toNat / 2 ^ 24 % 2 ^ 32, pos.toNat % 2 ^ 24) ∧
          (∀ i, i < 32 * x.count → x.get i = (BitVec.ofNat 32 (imageNum bs (0x1100 + 4 * i) 4), BitVec.ofNat 8 (imageNum bs (0x1100 + 128 * x.count + i) 1))) ∧
          ∀ k, k < 8 → imageNum bs (0x100 + 512 * k + 0x10C) 1 % 16 ≠ 0 → ∃ p, (x.scull k).run = some p ∧ p.pc = BitVec.ofNat 64 (imageNum bs (0x100 + 512 * k + 0x100) 8) ∧
            p.mask = imageNum bs (0x100 + 512 * k + 0x10C) 1 % 16)))) ∧
  (∀ (s : State) (x : DWord) (y : Word) (more : List (DWord × Word)), s.iod.dmb.length = 64 →
    (s.iod.reports = [] → Completes .dmb63Ack s (fun r => r.mem = s.mem ∧ r.iod.dbgIrq = s.iod.dbgIrq ∧ ∀ i, r.iod.dmb.getD i 0 = if i = 63 then 0 else s.iod.dmb.getD i 0)) ∧
    (s.iod.reports = (x, y) :: more → Completes .dmb63Ack s (fun r => r.iod.reports = more ∧ r.iod.dbgIrq = s.iod.dbgIrq + 1 ∧
      ∀ i, r.iod.dmb.getD i 0 = if i = 63 then 1 else if i = 48 then loWord x else if i = 49 then hiWord x else if i = 50 then y else s.iod.dmb.getD i 0)))

/-- R142, R156, R157, R302, R303, R308 to R313, R322: errors charge their unit or mark a word; scores are halved; a tested unit returns or is retired; ways, slices, regions, rows and lanes are replaced by what is
left, and the REPLACE register keeps the first reason. The kinds and places of the events (log entries 40, 41), and that the scores of units other than seats and cores are halved by dividers of their
own (log entry 44), are the model's choice. -/
def Obligations.RasEvents : Prop :=
  (∀ (s : State) (kind i n : Nat), i < [9216, 2304, 576, 768, 768, 24].getD kind 0 →
    let key : Nat := 2 ^ 20 * kind + i
    let charged (r : State) (n : Nat) : Prop := r.mem = s.mem ∧ r.poison = s.poison ∧ r.ras.score.get 0 key = min 127 (s.ras.score.get 0 key + n) ∧
      (∀ k, k ≠ key → r.ras.score.get 0 k = s.ras.score.get 0 k) ∧ (64 ≤ s.ras.score.get 0 key + n → key ∈ r.ras.suspect)
    let back (r : State) : Prop := r.ras.score.get 0 key = 0 ∧ key ∉ r.ras.suspect
    (kind ≠ 4 → 0 < n → Completes (.correctableError kind i n) s (fun r => charged r n ∧ r.ras.rowErrs = s.ras.rowErrs)) ∧
    (kind = 4 → Completes (.correctableError kind i n) s (fun r => charged r 1 ∧ r.ras.rowErrs.get 0 (i / 64 * 2 ^ 32 + n) = s.ras.rowErrs.get 0 (i / 64 * 2 ^ 32 + n) + 1)) ∧
    (2 ≤ kind ∨ key ∈ s.ras.due → SMap.wf 0 s.ras.score = true → Completes (.scoreHalving kind i) s (fun r => key ∉ r.ras.due ∧
      ∀ k, r.ras.score.get 0 k = if k = key then s.ras.score.get 0 k / 2 else s.ras.score.get 0 k)) ∧
    (key ∈ s.ras.suspect → (kind = 0 → s.coreIdle (i / 4) = true) → (kind = 1 → s.coreIdle i = true ∧ s.vaultGone i = false) →
      (kind = 3 → s.sliceLocked (i / 64) (i % 64) = false) → Completes (.unitTestOutcome kind i true) s (fun r => back r ∧ r.mem = s.mem ∧ r.iod = s.iod)) ∧
    (key ∉ s.ras.suspect → ∀ p, Completes (.unitTestOutcome kind i p) s (fun r => r = s)) ∧
    (∀ u, (kind = 0 ∧ u = i / 4) ∨ (kind = 1 ∧ u = i) → key ∈ s.ras.suspect → s.coreIdle u = true → u ∉ s.ras.retiredCores → 2 ^ 32 ≤ s.iod.ready → Completes (.unitTestOutcome kind i false) s (fun r =>
      back r ∧ u ∈ r.ras.retiredCores ∧ r.iod.ready = s.iod.ready - 2 ^ 32 ∧ r.mem = s.mem)) ∧
    (kind = 2 → key ∈ s.ras.suspect → Completes (.unitTestOutcome kind i false) s (fun r => back r ∧ i % 48 ∈ (r.cluster (i / 48)).retiredVaults ∧ r.iod.replace.getLsbD 3 = true ∧ r.iod.replace.getLsbD 31 = true ∧
      ∀ k, k < 4 → 192 * (i / 48) + 4 * (i % 48) + k ∈ r.ras.retiredCores ∨ 2 ^ 20 + (192 * (i / 48) + 4 * (i % 48) + k) ∈ r.ras.suspect)) ∧
    (kind = 3 → key ∈ s.ras.suspect → s.sliceLocked (i / 64) (i % 64) = false → Completes (.unitTestOutcome kind i false) s (fun r => back r ∧ Instr.l2SliceRetire (i / 64) (i % 64) ∈ r.agenda)) ∧
    (kind = 3 → s.sliceLocked (i / 64) (i % 64) = true → ∀ p, Completes (.unitTestOutcome kind i p) s (fun r => r = s)) ∧
    (kind = 4 → key ∈ s.ras.suspect → Completes (.unitTestOutcome kind i false) s (fun r => back r ∧ r.iod.replace.getLsbD 4 = true ∧ r.mem = s.mem ∧
      ∀ a, a / 2 ^ 36 = i / 64 → Config.channelOf a % 64 = i % 64 → r.hbmGone a = true)) ∧
    (kind = 5 → key ∈ s.ras.suspect → Completes (.unitTestOutcome kind i false) s (fun r => back r ∧ (r.ras.ports.get Port.reset i).lost = 3 ∧ r.iod.replace.getLsbD 1 = true))) ∧
  (∀ (s : State) (owner a : Nat),
    let marked (i : Instr) : Prop := Completes i s (fun r => r.mem = s.mem ∧ a / 8 ∈ r.poison ∧ ∀ w ∈ s.poison, w ∈ r.poison)
    (a < 16 → Completes (.uncorrectableError 2 owner a) s (fun r => ((r.core owner).tile a) = { (s.core owner).tile a with poisoned := true } ∧ r.mem = s.mem)) ∧
    ((s.core owner).inFlex a = false → (∀ b ∈ (s.core owner).l1, b.2.dirty = []) → (∃ b ∈ (s.core owner).l1, b.1 / 8 = a / 8) → Completes (.uncorrectableError 3 owner a) s (fun r => r.mem = s.mem ∧ (∀ b ∈ (r.core owner).l1, b.1 / 8 ≠ a / 8) ∧
      r.ras.score.get 0 (2 ^ 20 + owner) = min 127 (s.ras.score.get 0 (2 ^ 20 + owner) + 1))) ∧
    ((s.core owner).inFlex a = true → (∃ b ∈ (s.core owner).l1, b.1 / 8 = a / 8) → Completes (.uncorrectableError 5 owner (a + 2 ^ 42)) s (fun r => r.mem = s.mem ∧ a / 8 ∈ (r.core owner).l1poison)) ∧
    ((s.core owner).inFlex a = false → (∃ b ∈ (s.core owner).l1, b.1 / 8 = a / 8 ∧ b.2.dirty ≠ []) → Completes (.uncorrectableError 3 owner a) s (fun r => r.mem = s.mem ∧ a / 8 ∈ (r.core owner).l1poison)) ∧
    Completes (.uncorrectableError 4 owner a) s (fun r => (r.core owner).icache.find? a = none ∧ r.mem = s.mem ∧ r.ras.score.get 0 (2 ^ 20 + owner) = min 127 (s.ras.score.get 0 (2 ^ 20 + owner) + 1)) ∧
    (2 ^ 41 ≤ a → a < 2 ^ 42 → marked (.uncorrectableError 5 owner a)) ∧ (2 ^ 40 ≤ a → a < 2 ^ 41 → marked (.uncorrectableError 6 owner a)) ∧
    (a < 12 * 2 ^ 36 → marked (.uncorrectableError 8 owner a)) ∧
    (a < 12 * 2 ^ 36 → s.copies.find? (copyKey (owner / 64) (a / 128)) = none → owner / 64 = homeCluster a → marked (.uncorrectableError 7 owner a)) ∧
    (a < 12 * 2 ^ 36 → (s.copies.find? (copyKey (owner / 64) (a / 128)) = none → owner / 64 ≠ homeCluster a) → Completes (.uncorrectableError 7 owner a) s (fun r => r.mem = s.mem ∧ r.poison = s.poison ∧
      ∃ d, r.copies.find? (copyKey (owner / 64) (a / 128)) = some d ∧ a / 8 % 16 ∈ d.marks)) ∧
    (owner < 8 → s.iod.umpire.find? owner = none → Completes (.uncorrectableError 10 owner a) s (fun r => r = s)) ∧
    (∀ img, owner < 8 → s.iod.umpire.find? owner = some img → Completes (.uncorrectableError 10 owner a) s (fun r => r.mem = s.mem ∧ (r.origin (4064 + owner)).cnt = 0 ∧
      (r.origin (4064 + owner)).inc = ((s.origin (4064 + owner)).inc + 1) % 16 ∧ r.iod.ucyc.get 0 owner = 0 ∧ (a < 2 ^ 20 → r.iod.umpire = s.iod.umpire ∧ r.iod.replace = s.iod.replace) ∧
      (2 ^ 20 ≤ a → r.iod.umpire.find? owner = none ∧ r.iod.replace.getLsbD 6 = true)))) ∧
  (∀ (s : State) (cl slice set way n : Nat), cl < 12 → slice < 64 →
    (set < 256 → way < 16 → Completes (.l2WayRetire cl slice set way) s (fun r => r.mem = s.mem ∧ 4096 * slice + 16 * set + way ∈ (r.cluster cl).retiredWays)) ∧
    (slice ∉ (s.cluster cl).retiredSlices → s.sliceLocked cl slice = false → 1 ≤ n → n < 64 → (slice + n) % 64 ∉ (s.cluster cl).retiredSlices →
      (∀ k, 1 ≤ k → k < n → (slice + k) % 64 ∈ (s.cluster cl).retiredSlices) → Completes (.l2SliceRetire cl slice) s (fun r => r.mem = s.mem ∧ slice ∈ (r.cluster cl).retiredSlices ∧
        (r.cluster cl).slices = (s.cluster cl).slices.map (fun x => if x = slice then (slice + n) % 64 else x) ∧ r.iod.replace.getLsbD 5 = true ∧ ∀ m ∈ r.monitors, m.place = 64 * cl + slice → m.hit = true)) ∧
    (slice ∉ (s.cluster cl).retiredSlices → (∀ k, k < 64 → k ≠ slice → k ∈ (s.cluster cl).retiredSlices) → bitAt s.iod.ready cl = true → Completes (.l2SliceRetire cl slice) s (fun r =>
      r.mem = s.mem ∧ (cl * 2 ^ 36, 2 ^ 36) ∈ r.ras.hbmRetired ∧ bitAt r.iod.ready cl = false ∧ r.iod.replace.getLsbD 4 = true ∧
      ((∀ n, n < 12 → n ≠ cl → bitAt s.iod.ready n = true → r.ras.stackGone n = false) → r.iod.ready = s.iod.ready - 2 ^ cl)))) ∧
  (∀ (s : State) (lo len stack row port lane n : Nat),
    let p : Port := s.ras.ports.get Port.reset port
    let left : Nat := s.ras.spareRows.get 1024 stack
    (len ≠ 0 → lo + len ≤ 12 * 2 ^ 36 → Completes (.hbmRegionRetire lo len) s (fun r => r.mem = s.mem ∧ (lo, len) ∈ r.ras.hbmRetired ∧ r.iod.replace.getLsbD 4 = true ∧
      (s.iod.replace.getLsbD 31 = true → r.iod.replace.toNat / 2 ^ 16 = s.iod.replace.toNat / 2 ^ 16))) ∧
    (stack < 12 → 0 < left → 2 ≤ s.ras.rowErrs.get 0 (stack * 2 ^ 32 + row) → Completes (.hbmRowRepair stack row) s (fun r => r.mem = s.mem ∧ r.poison = s.poison ∧
      r.ras.spareRows.get 1024 stack = left - 1 ∧ r.ras.rowErrs.get 0 (stack * 2 ^ 32 + row) = 0 ∧ (left ≤ 64 → r.iod.replace.getLsbD 0 = true) ∧ (64 < left → r.iod = s.iod))) ∧
    (stack < 12 → s.ras.rowErrs.get 0 (stack * 2 ^ 32 + row) < 2 ∨ left = 0 → Completes (.hbmRowRepair stack row) s (fun r => r = s)) ∧
    (port < 24 → lane < 9 → n ≤ 8 → n = 1 ∨ n = p.retries.get 0 lane + 1 → p.retries.get 0 1000 + 1 < 64 → Completes (.linkFlitRetry port lane n) s (fun r => r.mem = s.mem ∧ r.iod = s.iod ∧
      (r.ras.ports.get Port.reset port).retries.get 0 lane = n ∧ (n = 8 → Instr.laneSpareSwap port lane ∈ r.agenda) ∧ r.ras.score = s.ras.score)) ∧
    (24 ≤ port → port < 28 → lane < 9 → p.retries.get 0 lane = 7 → Completes (.linkFlitRetry port lane 8) s (fun r => r.mem = s.mem ∧ r.iod = s.iod ∧
      (r.ras.ports.get Port.reset port).retries.get 0 lane = 0 ∧ (r.ras.ports.get Port.reset port).lost = p.lost + 1)) ∧
    (port < 24 → lane < 9 → 8 ≤ p.retries.get 0 lane → Completes (.laneSpareSwap port lane) s (fun r => r.mem = s.mem ∧
      (r.ras.ports.get Port.reset port).retries.get 0 lane = 0 ∧ (r.ras.ports.get Port.reset port).lost = p.lost + 1 ∧ (r.ras.ports.get Port.reset port).spareUsed = true ∧
      (p.spareUsed = false → (r.ras.ports.get Port.reset port).retraining = true) ∧ (1 ≤ p.lost → r.iod.replace.getLsbD 1 = true) ∧ (p.lost = 0 → r.iod = s.iod))))

/-- R14, R19, R149, R156, R157, R160, R303, R311, R312, R322, R323, R327, R328: a request of another module is answered from the homes; an acknowledgement performs remote bytes; a port comes back, a route table is taken,
a clock moves by 50 MHz within its range, firmware boots after its checks, functions come up, and a unit alone, a retired core or the whole module comes out of reset. The kinds of request and the stream numbers are the
model's (log entries 7, 37, 42, 43). -/
def Obligations.FabricEvents : Prop :=
  (∀ (s : State) (src ctx va : Nat) (wit : DWord) (data : List Byte) (l : Loc), src < 1024 → src ≠ s.modnum → ctx < 16 → s.portHeld src = false → data ≠ [] → va % 128 + data.length ≤ 128 →
    let full : Nat := s.modnum * 2 ^ 46 + va % 2 ^ 46
    let replies (cause sub : Nat) (bs : List Byte) (bad : Bool) (r : State) : Prop := r.iod.sent = s.iod.sent ++ [(64 + src, bytesOf 8 (cause + sub * 2 ^ 32) ++ bs, bad)]
    (s.xlate ioDie ctx full .load = .ok l → Completes (.zwinenRequest src ctx va 0 wit data) s (fun r => replies 0 0 (s.bytes l.ha data.length) (s.isPoisoned l.ha data.length) r ∧ r.mem = s.mem)) ∧
    (s.xlate ioDie ctx full .store = .ok l → l.dest = .repl → Completes (.zwinenRequest src ctx va 1 wit data) s (fun r => r.mem = s.mem ∧ r.iod = s.iod ∧
      ∃ e, (r.origin (8192 + src)).pend = (s.origin (8192 + src)).pend ++ [e] ∧ e.bytes.map (fun b => (b.ha, b.val, b.dest)) = (List.range data.length).map (fun i => (l.ha + i, data.getD i 0, .repl)))) ∧
    (s.xlate ioDie ctx full .store = .ok l → l.dest ≠ .repl → s.copies = [] → Completes (.zwinenRequest src ctx va 1 wit data) s (fun r => replies 0 0 [] false r ∧
      (∀ i, i < data.length → r.byte (l.ha + i) = data.getD i 0) ∧ ∀ a, a < l.ha ∨ l.ha + data.length ≤ a → r.byte a = s.byte a)) ∧
    (∀ f, s.xlate ioDie ctx full .load = .error f → Completes (.zwinenRequest src ctx va 0 wit data) s (fun r => replies f.1 f.2 [] false r ∧ r.mem = s.mem)) ∧
    Completes (.zwinenRequest src ctx va 2 wit data) s (fun r => r.mem = s.mem ∧ replies 0 0 (bytesOf 8 (
      if isOrigin (witOrigin wit) = false ∨ witInc wit ≠ (s.origin (witOrigin wit)).inc then 2 else if s.expired wit = true then 3
      else if s.satisfied wit (field data 0 1) = true then 0 else 1)) false r) ∧
    (∀ kind at_ e, 3 ≤ kind → reqAtom kind data l.ha = some (at_, e) → s.xlate ioDie ctx full .atomic = .ok l →
      (at_.op = 9 → s.num l.ha 8 % 2 ^ 32 = 0 → Completes (.zwinenRequest src ctx va kind wit data) s (fun r => r = s)) ∧
      (at_.op ≠ 9 → s.isPoisoned l.ha at_.size = true → kind < 4096 → Completes (.zwinenRequest src ctx va kind wit data) s (fun r => replies 0 0 (bytesOf 8 0) true r ∧ r.mem = s.mem)) ∧
      (s.isPoisoned l.ha at_.size = false → at_.halves = none → (at_.op = 9 → s.num l.ha 8 % 2 ^ 32 ≠ 0) → Completes (.zwinenRequest src ctx va kind wit data) s (fun r =>
        replies 0 0 (bytesOf 8 (s.num l.ha at_.size)) false r ∧ r.num l.ha at_.size = at_.newOf e (s.num l.ha at_.size) % 2 ^ (8 * at_.size) ∧
        ∀ x, x < l.ha ∨ l.ha + at_.size ≤ x → r.byte x = s.byte x)) ∧
      (∀ f, s.isPoisoned l.ha at_.size = false → at_.halves = some f → Completes (.zwinenRequest src ctx va kind wit data) s (fun r =>
        let at2 : Nat := l.ha + 2 * (kind / 8192)
        replies 0 0 (bytesOf 8 (s.num at2 2)) false r ∧ (at_.op = 6 → r.num at2 2 = e.operand.toNat / 2 ^ (16 * (kind / 8192)) % 2 ^ 16) ∧
        ∀ x, x < at2 ∨ at2 + 2 ≤ x → r.byte x = s.byte x)))) ∧
  (∀ (s : State) (u q : Nat) (e : StoreEv), s.event? u q = some e → s.mayGo u e = true → (∃ b ∈ e.bytes, b.dest = .remote) → (∀ b ∈ e.bytes, s.portHeld (bitsAt b.ha 46 10) = false) →
    Completes (.zwinenAck u q) s (fun r => r.mem = s.mem ∧ ((∀ b ∈ e.bytes, b.dest = .remote) → r.event? u q = none) ∧
      ((∃ b ∈ e.bytes, b.dest ≠ .remote) → ∃ f, r.event? u q = some f ∧ f.bytes = e.bytes.filter (fun b => b.dest ≠ .remote)))) ∧
  (∀ (s : State) (m p die u bit val : Nat) (up : Bool) (img : List Byte),
    let f : Nat := s.ras.clock.get 1900 die
    let x : Origin := s.origin u
    (m < 1024 → p < 24 → Completes (.routeRewrite [(m, p)]) s (fun r => r.routes.find? m = some p ∧ (∀ k, k ≠ m → r.routes.find? k = none) ∧ r.mem = s.mem ∧ r.iod = s.iod)) ∧
    (∀ y, s.ras.ports.find? p = some y → Completes (.portRetrained p) s (fun r => r.ras.ports.find? p = some { y with retraining := false } ∧ r.mem = s.mem)) ∧
    (die < 5 → Completes (.clockAdjust die up) s (fun r => r.ras.clock.get 1900 die = (if up then min 1900 (f + 50) else max 1200 (f - 50)) ∧ r.mem = s.mem)) ∧
    Completes .moduleReset s (fun r => r.mem = s.mem ∧ r.poison = s.poison ∧ r.cores = State.reset.cores ∧ r.origins = State.reset.origins ∧ r.contexts = State.reset.contexts ∧ r.graphs = State.reset.graphs ∧
      r.iod = State.reset.iod ∧ r.issue = none ∧ r.ras.retiredCores = []) ∧
    (s.iod.umpire.find? 0 = none → s.iod.bootFailed = false → Completes (.firmwareBoot img) s (fun r =>
      if fwOk img then r.iod.umpire.find? 0 = some img ∧ r.origins = s.origins ∧ r.iod.log = s.iod.log ++ [(img.drop 32).take 64 ++ (img.drop 104).take 4] ∧ ∀ i, i < (fwBody img).length → r.byte (tcmKey 0 (fwLoad img + i)) = (fwBody img).getD i 0
      else r.iod.bootFailed = true ∧ r.iod.umpire = s.iod.umpire ∧ r.mem = s.mem)) ∧
    (bit < 28 → bitAt s.iod.ready bit = false → (bit < 12 → s.ras.stackGone bit = false) → s.graphs = [] → Completes (.readyBitSet bit val) s (fun r => r.iod.ready = s.iod.ready + 2 ^ bit ∧ r.mem = s.mem ∧
      r.modnum = if bit = 25 then val % 1024 else s.modnum)) ∧
    (bit < 12 → s.ras.stackGone bit = true → Completes (.readyBitSet bit val) s (fun r => r = s)) ∧
    (s.iod.ready < 2 ^ 32 → s.graphs = [] → Completes (.readyBitSet 32 val) s (fun r => r.iod.ready = s.iod.ready + (2304 - s.ras.retiredCores.length) * 2 ^ 32 ∧ r.modnum = s.modnum)) ∧
    (u < 2304 → x.pend = [] → s.coreIdle u = true → Completes (.unitReset u) s (fun r => r.mem = s.mem ∧ (r.origin u).cnt = 0 ∧ (r.origin u).inc = (x.inc + 1) % 16 ∧ (r.core u).crews = [] ∧ (r.core u).ccyc = 0 ∧
      ∀ k, k ≠ u → r.core k = s.core k ∧ r.origin k = s.origin k)) ∧
    (∀ k, u = 4064 + k → k < 8 → x.pend = [] → Completes (.unitReset u) s (fun r => r.mem = s.mem ∧ (r.origin u).cnt = 0 ∧ (r.origin u).inc = (x.inc + 1) % 16 ∧ r.iod.ucyc.get 0 k = 0 ∧ r.cores = s.cores)) ∧
    (∀ k, u = 2304 + 32 * k + 16 → k < 12 → x.pend = [] → (∀ q ∈ (s.cluster k).queues, q = []) → Completes (.unitReset u) s (fun r => r.mem = s.mem ∧ (r.origin u).cnt = 0 ∧
      (r.origin u).inc = (x.inc + 1) % 16 ∧ (r.cluster k).cyc = 0 ∧ r.cores = s.cores)) ∧
    (u ∈ s.ras.retiredCores → s.vaultGone u = false → Completes (.returnToService u) s (fun r => r.mem = s.mem ∧ u ∉ r.ras.retiredCores ∧ (r.origin u).inc = (x.inc + 1) % 16 ∧ (r.origin u).cnt = x.cnt ∧
      r.iod.ready = (if s.iod.ready < 2 ^ 32 then s.iod.ready else s.iod.ready + 2 ^ 32) ∧ r.ras.score.get 0 (2 ^ 20 + u) = 0 ∧ 2 ^ 20 + u ∉ r.ras.suspect)))

/-- R37, R42, R62, R171: a step executes the next member of the group in flight as its word decodes; a word that does not decode raises ILLEGAL_OP, ILLEGAL_FIELD or UNIFORM_DIVERGED in every active thread; between
groups a step is the first of the pending steps, else one that the open order of the agents brings. That the pending steps
are a list taken from its head, and the order open, is the model's choice (log entries 1, 2, 3). -/
def Obligations.StepRunsDecoded : Prop :=
  (∀ (s : State) (iss : Issue) (w : Slot) (ws : List Slot), s.issue = some iss → iss.words = w :: ws →
    let now : Issue := { iss with cur := w, words := ws, idx := iss.nmem - ws.length - 1 }
    let t : State := { s with free := s.free + 1, issue := some now }
    (∀ i, t.decode now w = .ok i → step s = exec i t) ∧
    (∀ v d, ws = [] → t.decode now w = .error d → t.view = some v → Alone t v → ∃ r, step s = .next r ∧ r.issue = none ∧ Landed t r v (fun _ => none) ∧ ∀ j, j < 32 → bitAt iss.mask j = true →
      match d with
      | .illegalOp => Holds r v j 1 (w.toNat % 1024) 0 false
      | .illegalField sub => Holds r v j 2 sub 0 false
      | .diverged => Holds r v j 4 0 0 false)) ∧
  (∀ (s : State), (s.issue = none ∨ ∃ iss, s.issue = some iss ∧ iss.words = []) →
    (∀ i rest, s.agenda = i :: rest → step s = exec i { s with free := s.free + 1, agenda := rest }) ∧
    (s.agenda = [] → step s =
      if (Config.schedule (s.free + 1)).isEvent then exec (Config.schedule (s.free + 1)) { s with free := s.free + 1 } else .next { s with free := s.free + 1 }))

/-- R50 to R62, R82, R350, R380, R425: every well-formed instruction that a slot holds has an encoding, and it decodes from it to itself, with every operand, for every agent that holds the registers it
names; every other slot is refused, ILLEGAL_OP where its operation is unassigned; a crew that is not converged takes UNIFORM_DIVERGED only where no field offends. Decode table 1 and a loaded table give
the operations of other opcodes, and a cox program may hold a part of them. Steps of the machine and debug commands have no encoding. -/
def Obligations.DecodeEncode : Prop :=
  let command (i : Instr) : Bool :=
    match i with
    | .dbgNone .. | .dbgHaltRequest .. | .dbgRelease .. | .dbgStep .. | .dbgReadRegister .. | .dbgWriteRegister .. | .dbgReadPc .. | .dbgReplay .. => true
    | _ => false
  let holds (regs : Nat) (i : Instr) : Prop := (∀ u ∈ i.uses, ∀ n, u.r = .v n → n.val + u.n ≤ regs) ∧ ∀ p ∈ i.reach, p.2 ≤ regs
  let suits (env : DecEnv) (i : Instr) : Prop :=
    match i with
    | .tst _ _ _ _ _ _ _ _ _ wit => wit.isCrew = true → env.parted = false
    | .give _ n => n.toNat + 8 ≤ env.regs
    | .claim _ n => env.regs + n.toNat ≤ 224
    | _ => True
  let opcode (w : Slot) : Nat := w.toNat % 1024
  let withOpc (w : Slot) (o : Nat) : Slot := BitVec.ofNat 96 (w.toNat / 1024 * 1024 + o)
  let assigned (o : Nat) : Prop := o ≤ 0x1A ∨ (0x40 ≤ o ∧ o ≤ 0x4D) ∨ (0x80 ≤ o ∧ o ≤ 0x86) ∨ (0x88 ≤ o ∧ o ≤ 0x8C) ∨ o = 0x90 ∨ (0xC0 ≤ o ∧ o ≤ 0xC3) ∨ (0xC8 ≤ o ∧ o ≤ 0xCD) ∨
    (0x100 ≤ o ∧ o ≤ 0x108) ∨ (0x110 ≤ o ∧ o ≤ 0x112) ∨ o = 0x118 ∨ o = 0x119 ∨ (0x140 ≤ o ∧ o ≤ 0x147) ∨ (0x180 ≤ o ∧ o ≤ 0x18A) ∨ (0x1C0 ≤ o ∧ o ≤ 0x1CB) ∨ o = 0x1D0 ∨ o = 0x1D1 ∨
    (0x1D8 ≤ o ∧ o ≤ 0x1DC) ∨ (0x200 ≤ o ∧ o ≤ 0x206) ∨ (0x240 ≤ o ∧ o ≤ 0x247) ∨ (0x250 ≤ o ∧ o ≤ 0x253) ∨ o = 0x280 ∨ o = 0x281 ∨ (0x288 ≤ o ∧ o ≤ 0x28C) ∨ o = 0x290 ∨ o = 0x291
  let coxHas (w : Slot) : Prop := opcode w ≤ 0x1A ∨ opcode w ∈ [0x1C0, 0x1C2, 0x1C3, 0x1C4, 0x1C7, 0x1C8] ∨ (opcode w ∈ [0x100, 0x101] ∧ w.toNat / 2 ^ 52 % 4 = 0) ∨
    (0x240 ≤ opcode w ∧ opcode w ≤ 0x253 ∧ opcode w ≠ 0x245 ∧ opcode w ≠ 0x252 ∧ assigned (opcode w))
  let coxReg (u : Use) : Prop := match u.r with | .v n => n.val + u.n ≤ 64 | .vz => True | _ => False
  (∀ (i : Instr), i.isEvent = false → command i = false → i.wf = true → ∃ w, encode i = some w ∧ ∀ env, env.cox = false → env.converged = true ∨ i.needsConverged = false → holds env.regs i →
    suits env i → decodeSlot env 2 [] w = .ok i) ∧
  (∀ (i : Instr), i.isEvent = true ∨ command i = true → encode i = none) ∧
  (∀ (env : DecEnv) (w : Slot) (i : Instr), env.cox = false → decodeSlot env 2 [] w = .ok i → i.wf = true ∧ encode i = some w ∧ holds env.regs i ∧ suits env i ∧
    (env.converged = true ∨ i.needsConverged = false)) ∧
  (∀ (env : DecEnv) (w : Slot), env.cox = false → (decodeSlot env 2 [] w = .error .illegalOp ↔ ¬ assigned (opcode w)) ∧
    decodeSlot { env with converged := false } 2 [] w = match decodeSlot { env with converged := true } 2 [] w with | .ok i => if i.needsConverged then .error .diverged else .ok i | e => e) ∧
  (∀ (env : DecEnv) (w : Slot) (i : Instr), env.cox = true → (decodeSlot env 2 [] w = .error .illegalOp ↔ ¬ coxHas w) ∧
    (decodeSlot env 2 [] w = .ok i ↔ coxHas w ∧ i.wf = true ∧ encode i = some w ∧ ∀ u ∈ i.uses, coxReg u)) ∧
  ∀ (env : DecEnv) (held : List Nat) (w : Slot),
    let o : Nat := opcode w
    let entry : Nat := held.getD o 0xFFFF
    decodeSlot env 0 held w = decodeSlot env 2 [] w ∧ decodeSlot env 2 held w = decodeSlot env 2 [] w ∧
    decodeSlot env 1 held w =
      (if 0x88 ≤ o ∧ o ≤ 0x8B then decodeSlot env 2 [] (withOpc w (o + 0x40))
       else if 0xC8 ≤ o ∧ o ≤ 0xCC then decodeSlot env 2 [] (withOpc w (o - 0x40))
       else if o = 0x8C ∨ o = 0xCD ∨ (0x200 ≤ o ∧ o ≤ 0x206) ∨ o = 0x280 ∨ o = 0x281 ∨ o = 0x290 ∨ o = 0x291 then .error .illegalOp
       else decodeSlot env 2 [] w) ∧
    decodeSlot env 3 held w = if entry < 1024 then decodeSlot env 2 [] (withOpc w entry) else .error .illegalOp

/-- R40, R42, R64, R243: a member of a group that is not its last only adds to what the group is to do; the last member commits every member's writes, so that two members write what each would
have written alone, and each reads the registers as they were before the group. A thread in which a member raised a cause takes part in none of them and takes its first cause; where it had taken part in an
earlier member, the group runs over its members again without it. That it does so in steps of its own is the model's choice (log entry 2). -/
def Obligations.GroupsOfMembers : Prop :=
  let lane (i : Instr) : Prop := ∃ w, encode i = some w ∧ w.toNat % 1024 < 0x100 ∧ w.toNat % 1024 ≠ 0xC3
  let apart (i1 i2 : Instr) : Prop := ∀ x ∈ i1.uses, ∀ y ∈ i2.uses, x.wr = true → y.wr = true → x.r = .vz ∨ y.r = .vz ∨ x.r.num + x.n ≤ y.r.num ∨ y.r.num + y.n ≤ x.r.num
  (∀ (s : State) (v : View) (i : Instr), s.view = some v → v.iss.words ≠ [] → lane i →
    ∃ fx : Fx, fx.raises = [] ∧ fx.ops = [] ∧ exec i s = .next { s with issue := some { v.iss with fx := v.iss.fx.append fx } }) ∧
  (∀ (s : State) (v : View) (k : Nat) (i1 i2 : Instr) (w2 : Slot), s.view = some v → v.iss.who = .crew k → v.crew.replay = none → v.iss.words = [w2] → v.iss.nmem = 2 → v.iss.fx = Fx.empty →
    v.iss.off = 0 → lane i1 → lane i2 → apart i1 i2 →
    let alone (w : Slot) : State := { s with issue := some { v.iss with cur := w, words := [], nmem := 1 } }
    let reg (r : State) (key : Nat) : Option (Word × Tag) := regOf r v.iss.unit (.crew k) key
    ∃ t1 t2 s1 j t, exec i1 (alone v.iss.cur) = .next t1 ∧ exec i2 (alone w2) = .next t2 ∧ exec i1 s = .next s1 ∧ s1.issue = some j ∧
      exec i2 { s1 with issue := some { j with cur := w2, words := [], idx := 1 } } = .next t ∧ t.issue = none ∧
      ∀ key, reg s1 key = reg s key ∧ reg t key = if reg t1 key = reg s key then reg t2 key else reg t1 key) ∧
  (∀ (s : State) (v : View) (k : Nat) (g : Guard), s.view = some v → v.iss.who = .crew k → v.crew.replay = none → v.crew.enm = false → v.crew.threads.length = 32 → v.iss.words = [] →
    v.iss.fx.ops = [] → v.iss.fx.gone = [] → v.iss.fx.parks = [] →
    let off : Nat := maskOf (v.iss.fx.raises.map (·.t))
    (v.iss.nmem ≤ 1 ∨ off = v.iss.off → Completes (.nop g) s (fun t => t.issue = none ∧
      (∀ key old, regOf s v.iss.unit (.crew k) key = some old → regOf t v.iss.unit (.crew k) key =
        some (match (v.iss.fx.wr.filter (fun x => !v.iss.fx.bad x.t)).reverse.find? (fun x => x.key == key) with | some x => (x.val, x.tag) | none => old)) ∧
      ∀ j r, j ∈ v.active → v.iss.fx.raises.find? (fun r => r.t == j) = some r →
        ∃ w p, t.crew? v.iss.unit k = some w ∧ (w.thread j).pend = some p ∧ p.cause = r.cause ∧ p.sub = r.sub ∧ p.faddr = r.faddr ∧ p.pc = v.iss.pc ∧ p.mem = r.mem)) ∧
    (2 ≤ v.iss.nmem → off ≠ v.iss.off → Completes (.nop g) s (fun t => t = { s with issue := some { v.iss with
      words := v.iss.group, cur := v.iss.group.headD 0, idx := 0, off := off, fx := { Fx.empty with raises := v.iss.fx.raises } } }))) ∧
  ∀ (v : View) (g : Guard) (j : Nat), (∃ r ∈ v.iss.fx.raises, r.t = j) → j ∉ v.acting g

/-- Every step keeps memory in its canonical form: addresses strictly rising, and no entry equal to what an unlisted address reads as (log entry 4). -/
def Obligations.StepKeepsMemory : Prop := ∀ (s t : State), Memory.wf s.mem = true → step s = .next t → Memory.wf t.mem = true

/-- The machine never stops: with a resident agent in the issue latch and steps of the machine pending, every step goes on, whatever the data, the encoding or the mode (R87, R187; log entries 1 to 3). -/
def Obligations.StepNeverStops : Prop :=
  ∀ (s : State), (∀ iss, s.issue = some iss → iss.words = [] ∨ s.view.isSome = true) → (∀ i ∈ s.agenda, encode i = none) → goesOn s

/-- R14, R156, R157, R220, R281, R285, R289, R308, R310, R313, R318, R322: the state right after reset: counters and incarnations at zero, no work, an empty ready bitmap, tiles not configured, and memory with nothing
listed, in its canonical form. That memory with nothing listed reads as zero (log entry 4), and the values that the spec gives no reset value for, here MODNUM and the context descriptors' SEL (log entry 5),
are the model's choice. -/
def Obligations.ResetState : Prop :=
  let s : State := State.reset
  s.issue = none ∧ s.agenda = [] ∧ Memory.wf s.mem = true ∧ s.mem = [] ∧ s.poison = [] ∧ s.modnum = 0 ∧
  (∀ o, (s.origin o).cnt = 0 ∧ (s.origin o).inc = 0 ∧ (s.origin o).pend = []) ∧
  (∀ u, (s.core u).ccyc = 0 ∧ (s.core u).crews = [] ∧ (s.core u).groups = [] ∧ (s.core u).icache = [] ∧ (s.core u).l1 = [] ∧ (s.core u).pool = 65536 ∧ (s.core u).trbase = 0 ∧
    (s.core u).trhead = 0 ∧ (s.core u).trtail = 0 ∧ (s.core u).ways = [] ∧ (s.core u).flex = [.free, .free, .free] ∧ (s.core u).seatPtr = 4 ∧ (∀ n k, n < 4 → k < 16 → ((s.core u).seats.getD n ⟨none, [], []⟩).ctr.getD k 1 = 0) ∧
    (∀ n, ((s.core u).tile n).tf = 0xF) ∧ ∀ q, (s.core u).queues.getD q [] = []) ∧
  (∀ n, (s.ctx n).sel = 2 ∧ (∀ k, k < 8 → (s.ctx n).brk.getD k 1 = 0) ∧ ∀ k, k < 4 → (s.ctx n).watch.getD k 1 = 0) ∧
  (∀ g, (s.graph g).installed = false ∧ (s.graph g).run = none) ∧
  readyWord s.iod.ready = 0 ∧ s.iod.trigErr = 0 ∧ s.iod.replace = 0 ∧ s.iod.doorbell = 0 ∧
  (∀ k, s.ras.score.get 0 k = 0) ∧ s.ras.suspect = [] ∧ s.ras.retiredCores = [] ∧ ∀ n, s.ras.spareRows.get 1024 n = 1024

/-- R50, R52, R54: slots written out bit by bit from their encodings decode to the instructions they stand for, among them IADD v10, v9, 64; a halfword load; an atomic add of packed halves; FENCE; MMA; BSIG. -/
def Obligations.DecodedWords : Prop :=
  let g : Guard := Guard.always
  let slot (imm low : Nat) : Option Instr := decodeTableWord 96 (imm * 2 ^ 64 + low)
  slot 0x40 0x0003E3E3FC242800 = some (.iadd .i32 ⟨g, .v 10, .v 9, .imm 64⟩) ∧
  slot 0x9C 0x0003E3E3FF838402 = some (.isub .i32 ⟨g, .k 1, .k 0, .imm 0x9C⟩) ∧
  slot 0x3F000000 0x4003E00FFC081043 = some (.ffma .fmtr ⟨g, .v 4, .v 2, .imm 0x3F000000, .v 3⟩) ∧
  slot 0 0x1443E3D017A81900 = some (.ld .u32 ⟨g, .global, .b2, .module, .k 10, .reg (.v 5)⟩ false 0 (.v 6) (.k 20)) ∧
  slot 0xF8000000 0x12A3E0481FE00901 = some (.st .u32 ⟨g, .vault, .b4, .cluster, .vz, .reg (.v 7)⟩ .vz (.v 2) (.v 18)) ∧
  slot 0xF8000000 0x6483E0281BA01140 = some (.atomAdd .bf16x2 ⟨g, .global, .b4, .module, .k 8, .reg (.v 6)⟩ false .vz (.v 4) (.v 10)) ∧
  slot 0x101 0x0023E3E3E3E3E118 = some (.fence .module g 1 1) ∧
  slot 0 0x00B3E01020001184 = some (.mma g false ⟨true, true, false, true⟩ false 4 0 8 4) ∧
  slot 3 0x0053E3E3E017E0C3 = some (.bsig .f32 5 g (.v 5) 3) ∧
  slot 0xA 0x0013E3E3E3B3E288 = some (.movc g true 0xA (.k 12)) ∧
  slot 0 0x0013E3E3E04BE111 = some (.wwait .cluster g (.v 18)) ∧
  slot 0 0x000017E383A01A04 = some (.logst ⟨⟨.v 5, false⟩, .global, .b1, .core, .k 8, .reg (.k 0)⟩ (.v 6))

/-- R39: the bits of TMPL join adjacent slots; joined slots are one issue group, and an unjoined slot is a group of one. -/
def Obligations.PairingTemplates : Prop :=
  (∀ tmpl i j, tmpl < 16 → i ≤ j → j ≤ 4 →
    (groupStart tmpl i = groupStart tmpl j ↔ ∀ b, i ≤ b → b < j → bitAt tmpl b = true) ∧ (groupLast tmpl i = groupLast tmpl j ↔ ∀ b, i ≤ b → b < j → bitAt tmpl b = true) ∧
    groupStart tmpl i ≤ i ∧ i ≤ groupLast tmpl i ∧ groupLast tmpl i ≤ 4 ∧ groupStart tmpl (groupLast tmpl i) = groupStart tmpl i) ∧
  (∀ i, i ≤ 4 → groupStart 0 i = i ∧ groupLast 0 i = i) ∧
  (∀ i, i ≤ 4 → groupStart 4 i = if i = 3 then 2 else i) ∧
  (∀ i, i ≤ 4 → groupStart 5 i = if i = 1 then 0 else if i = 3 then 2 else i) ∧
  ∀ i, i ≤ 4 → groupStart 15 i = 0 ∧ groupLast 15 i = 4

/-- R69, R184: every crew of a group that starts stands at the group's entry point with the FMTR of the header, zero registers with tag 0xFE, and the group's launch count of registers; the count that the
decoder checks is the issuing crew's own. A ready node's identifiers are cut into groups under R66, and group k goes to the starter of the (k mod m)-th eligible cluster, which takes one record of the
group at the header's priority. -/
def Obligations.GroupsStart : Prop :=
  (∀ (s : State) (cl u l : Nat) (q : QRec) (rest : List QRec) (room : Room) (frame : List Byte), Placing s cl u l q rest room frame →
    recLive q.words = 0 → recRregs q.words = 0 → recCode q.words = hdrW q.hdr 0 →
    Completes (.recordPlace cl u) s (fun r => ∀ k ∈ room.slots, ∃ w, r.crew? u k = some w ∧ w.count = hdrRegs q.hdr ∧ w.fmtr = hdrFmtr q.hdr ∧ (∀ key, w.get key = (0, 0xFE)) ∧
      ∀ j p, (w.scull j).run = some p → p.pc = BitVec.ofNat 64 (hdrW q.hdr 0) ∧ p.fmtr = hdrFmtr q.hdr)) ∧
  (∀ (s : State) (iss : Issue) (k : Nat) (w : Crew), iss.who = .crew k → s.crew? iss.unit k = some w →
    s.decode iss iss.cur = decodeSlot ⟨false, w.count, w.converged, w.parted⟩ (s.ctx (s.issueCtx iss)).sel (s.ctx (s.issueCtx iss)).held iss.cur) ∧
  (∀ (s : State) (gr node : Nat) (run : Run) (h : List DWord), (s.graph gr).run = some run → ((s.graph gr).nodes.getD node ⟨[], 0, []⟩).hdr = h → launchRejected h = false →
    hdrCount h ≠ 0 → hdrBase h + hdrCount h ≤ 2 ^ 64 → s.eligible h ≠ [] → (∀ c, (s.cluster c).queues.length = 8) →
    let size : Nat := 2 ^ hdrBG h
    let n : Nat := (hdrBase h + hdrCount h - 1) / size - hdrBase h / size + 1
    let to_ (k : Nat) : Nat := (s.eligible h).getD (k % (s.eligible h).length) 0
    let lo (k : Nat) : Nat := max (hdrBase h) ((hdrBase h / size + k) * size)
    let hi (k : Nat) : Nat := min (hdrBase h + hdrCount h) ((hdrBase h / size + k + 1) * size)
    let t : State := s.launchNode gr node run
    (∀ c, ∃ qs, (t.cluster c).queues.getD (hdrPrio h) [] = (s.cluster c).queues.getD (hdrPrio h) [] ++ qs ∧
      qs.map (fun q => (recWbase q.words, recWcount q.words)) = ((List.range n).filter (fun k => to_ k == c)).map (fun k => (lo k, hi k - lo k)) ∧
      (∀ q ∈ qs, q.hdr = h ∧ q.graph = gr ∧ q.run = run.seq ∧ q.node = node ∧ q.ctx = (s.graph gr).ctx ∧ recCode q.words = hdrW h 0 ∧ recPrio q.words = hdrPrio h) ∧
      ∀ p, p ≠ hdrPrio h → (t.cluster c).queues.getD p [] = (s.cluster c).queues.getD p []) ∧
    t.mem = s.mem ∧ t.cores = s.cores ∧ ∀ x, (t.graph gr).run = some x → x.seq = run.seq ∧ (node < x.nodes.length → (x.nodes.getD node ⟨0, 0, false, false⟩).left = n ∧
      (x.nodes.getD node ⟨0, 0, false, false⟩).launched = true))
end

