-- ==== Sys2Proof/Laws/State.lean ====
section
/-! SUPPORT. What each update of the state leaves alone, one lemma per field, and what the updates of parts read back. -/
namespace Sys2Proof.Machine

@[simp] theorem State.setCore_free (s : State) (u : Nat) (c : Core) : (s.setCore u c).free = s.free := rfl
@[simp] theorem State.setCore_agenda (s : State) (u : Nat) (c : Core) : (s.setCore u c).agenda = s.agenda := rfl
@[simp] theorem State.setCore_issue (s : State) (u : Nat) (c : Core) : (s.setCore u c).issue = s.issue := rfl
@[simp] theorem State.setCore_mem (s : State) (u : Nat) (c : Core) : (s.setCore u c).mem = s.mem := rfl
@[simp] theorem State.setCore_poison (s : State) (u : Nat) (c : Core) : (s.setCore u c).poison = s.poison := rfl
@[simp] theorem State.setCore_origins (s : State) (u : Nat) (c : Core) : (s.setCore u c).origins = s.origins := rfl
@[simp] theorem State.setCore_contexts (s : State) (u : Nat) (c : Core) : (s.setCore u c).contexts = s.contexts := rfl
@[simp] theorem State.setCore_graphs (s : State) (u : Nat) (c : Core) : (s.setCore u c).graphs = s.graphs := rfl
@[simp] theorem State.setCore_pushes (s : State) (u : Nat) (c : Core) : (s.setCore u c).pushes = s.pushes := rfl
@[simp] theorem State.setCore_rounds (s : State) (u : Nat) (c : Core) : (s.setCore u c).rounds = s.rounds := rfl
@[simp] theorem State.setCore_roundOf (s : State) (u : Nat) (c : Core) : (s.setCore u c).roundOf = s.roundOf := rfl
@[simp] theorem State.setCore_monitors (s : State) (u : Nat) (c : Core) : (s.setCore u c).monitors = s.monitors := rfl
@[simp] theorem State.setCore_clusters (s : State) (u : Nat) (c : Core) : (s.setCore u c).clusters = s.clusters := rfl
@[simp] theorem State.setCore_copies (s : State) (u : Nat) (c : Core) : (s.setCore u c).copies = s.copies := rfl
@[simp] theorem State.setCore_iod (s : State) (u : Nat) (c : Core) : (s.setCore u c).iod = s.iod := rfl
@[simp] theorem State.setCore_ras (s : State) (u : Nat) (c : Core) : (s.setCore u c).ras = s.ras := rfl
@[simp] theorem State.setCore_routes (s : State) (u : Nat) (c : Core) : (s.setCore u c).routes = s.routes := rfl
@[simp] theorem State.setCore_modnum (s : State) (u : Nat) (c : Core) : (s.setCore u c).modnum = s.modnum := rfl
@[simp] theorem State.setOrigin_free (s : State) (o : Nat) (x : Origin) : (s.setOrigin o x).free = s.free := rfl
@[simp] theorem State.setOrigin_agenda (s : State) (o : Nat) (x : Origin) : (s.setOrigin o x).agenda = s.agenda := rfl
@[simp] theorem State.setOrigin_issue (s : State) (o : Nat) (x : Origin) : (s.setOrigin o x).issue = s.issue := rfl
@[simp] theorem State.setOrigin_mem (s : State) (o : Nat) (x : Origin) : (s.setOrigin o x).mem = s.mem := rfl
@[simp] theorem State.setOrigin_poison (s : State) (o : Nat) (x : Origin) : (s.setOrigin o x).poison = s.poison := rfl
@[simp] theorem State.setOrigin_cores (s : State) (o : Nat) (x : Origin) : (s.setOrigin o x).cores = s.cores := rfl
@[simp] theorem State.setOrigin_contexts (s : State) (o : Nat) (x : Origin) : (s.setOrigin o x).contexts = s.contexts := rfl
@[simp] theorem State.setOrigin_graphs (s : State) (o : Nat) (x : Origin) : (s.setOrigin o x).graphs = s.graphs := rfl
@[simp] theorem State.setOrigin_pushes (s : State) (o : Nat) (x : Origin) : (s.setOrigin o x).pushes = s.pushes := rfl
@[simp] theorem State.setOrigin_rounds (s : State) (o : Nat) (x : Origin) : (s.setOrigin o x).rounds = s.rounds := rfl
@[simp] theorem State.setOrigin_roundOf (s : State) (o : Nat) (x : Origin) : (s.setOrigin o x).roundOf = s.roundOf := rfl
@[simp] theorem State.setOrigin_monitors (s : State) (o : Nat) (x : Origin) : (s.setOrigin o x).monitors = s.monitors := rfl
@[simp] theorem State.setOrigin_clusters (s : State) (o : Nat) (x : Origin) : (s.setOrigin o x).clusters = s.clusters := rfl
@[simp] theorem State.setOrigin_copies (s : State) (o : Nat) (x : Origin) : (s.setOrigin o x).copies = s.copies := rfl
@[simp] theorem State.setOrigin_iod (s : State) (o : Nat) (x : Origin) : (s.setOrigin o x).iod = s.iod := rfl
@[simp] theorem State.setOrigin_ras (s : State) (o : Nat) (x : Origin) : (s.setOrigin o x).ras = s.ras := rfl
@[simp] theorem State.setOrigin_routes (s : State) (o : Nat) (x : Origin) : (s.setOrigin o x).routes = s.routes := rfl
@[simp] theorem State.setOrigin_modnum (s : State) (o : Nat) (x : Origin) : (s.setOrigin o x).modnum = s.modnum := rfl
@[simp] theorem State.setCtx_free (s : State) (n : Nat) (x : Ctx) : (s.setCtx n x).free = s.free := rfl
@[simp] theorem State.setCtx_agenda (s : State) (n : Nat) (x : Ctx) : (s.setCtx n x).agenda = s.agenda := rfl
@[simp] theorem State.setCtx_issue (s : State) (n : Nat) (x : Ctx) : (s.setCtx n x).issue = s.issue := rfl
@[simp] theorem State.setCtx_mem (s : State) (n : Nat) (x : Ctx) : (s.setCtx n x).mem = s.mem := rfl
@[simp] theorem State.setCtx_poison (s : State) (n : Nat) (x : Ctx) : (s.setCtx n x).poison = s.poison := rfl
@[simp] theorem State.setCtx_cores (s : State) (n : Nat) (x : Ctx) : (s.setCtx n x).cores = s.cores := rfl
@[simp] theorem State.setCtx_origins (s : State) (n : Nat) (x : Ctx) : (s.setCtx n x).origins = s.origins := rfl
@[simp] theorem State.setCtx_graphs (s : State) (n : Nat) (x : Ctx) : (s.setCtx n x).graphs = s.graphs := rfl
@[simp] theorem State.setCtx_pushes (s : State) (n : Nat) (x : Ctx) : (s.setCtx n x).pushes = s.pushes := rfl
@[simp] theorem State.setCtx_rounds (s : State) (n : Nat) (x : Ctx) : (s.setCtx n x).rounds = s.rounds := rfl
@[simp] theorem State.setCtx_roundOf (s : State) (n : Nat) (x : Ctx) : (s.setCtx n x).roundOf = s.roundOf := rfl
@[simp] theorem State.setCtx_monitors (s : State) (n : Nat) (x : Ctx) : (s.setCtx n x).monitors = s.monitors := rfl
@[simp] theorem State.setCtx_clusters (s : State) (n : Nat) (x : Ctx) : (s.setCtx n x).clusters = s.clusters := rfl
@[simp] theorem State.setCtx_copies (s : State) (n : Nat) (x : Ctx) : (s.setCtx n x).copies = s.copies := rfl
@[simp] theorem State.setCtx_iod (s : State) (n : Nat) (x : Ctx) : (s.setCtx n x).iod = s.iod := rfl
@[simp] theorem State.setCtx_ras (s : State) (n : Nat) (x : Ctx) : (s.setCtx n x).ras = s.ras := rfl
@[simp] theorem State.setCtx_routes (s : State) (n : Nat) (x : Ctx) : (s.setCtx n x).routes = s.routes := rfl
@[simp] theorem State.setCtx_modnum (s : State) (n : Nat) (x : Ctx) : (s.setCtx n x).modnum = s.modnum := rfl
@[simp] theorem State.setGraph_free (s : State) (n : Nat) (x : Graph) : (s.setGraph n x).free = s.free := rfl
@[simp] theorem State.setGraph_agenda (s : State) (n : Nat) (x : Graph) : (s.setGraph n x).agenda = s.agenda := rfl
@[simp] theorem State.setGraph_issue (s : State) (n : Nat) (x : Graph) : (s.setGraph n x).issue = s.issue := rfl
@[simp] theorem State.setGraph_mem (s : State) (n : Nat) (x : Graph) : (s.setGraph n x).mem = s.mem := rfl
@[simp] theorem State.setGraph_poison (s : State) (n : Nat) (x : Graph) : (s.setGraph n x).poison = s.poison := rfl
@[simp] theorem State.setGraph_cores (s : State) (n : Nat) (x : Graph) : (s.setGraph n x).cores = s.cores := rfl
@[simp] theorem State.setGraph_origins (s : State) (n : Nat) (x : Graph) : (s.setGraph n x).origins = s.origins := rfl
@[simp] theorem State.setGraph_contexts (s : State) (n : Nat) (x : Graph) : (s.setGraph n x).contexts = s.contexts := rfl
@[simp] theorem State.setGraph_pushes (s : State) (n : Nat) (x : Graph) : (s.setGraph n x).pushes = s.pushes := rfl
@[simp] theorem State.setGraph_rounds (s : State) (n : Nat) (x : Graph) : (s.setGraph n x).rounds = s.rounds := rfl
@[simp] theorem State.setGraph_roundOf (s : State) (n : Nat) (x : Graph) : (s.setGraph n x).roundOf = s.roundOf := rfl
@[simp] theorem State.setGraph_monitors (s : State) (n : Nat) (x : Graph) : (s.setGraph n x).monitors = s.monitors := rfl
@[simp] theorem State.setGraph_clusters (s : State) (n : Nat) (x : Graph) : (s.setGraph n x).clusters = s.clusters := rfl
@[simp] theorem State.setGraph_copies (s : State) (n : Nat) (x : Graph) : (s.setGraph n x).copies = s.copies := rfl
@[simp] theorem State.setGraph_iod (s : State) (n : Nat) (x : Graph) : (s.setGraph n x).iod = s.iod := rfl
@[simp] theorem State.setGraph_ras (s : State) (n : Nat) (x : Graph) : (s.setGraph n x).ras = s.ras := rfl
@[simp] theorem State.setGraph_routes (s : State) (n : Nat) (x : Graph) : (s.setGraph n x).routes = s.routes := rfl
@[simp] theorem State.setGraph_modnum (s : State) (n : Nat) (x : Graph) : (s.setGraph n x).modnum = s.modnum := rfl
@[simp] theorem State.setCluster_free (s : State) (n : Nat) (x : Cluster) : (s.setCluster n x).free = s.free := rfl
@[simp] theorem State.setCluster_agenda (s : State) (n : Nat) (x : Cluster) : (s.setCluster n x).agenda = s.agenda := rfl
@[simp] theorem State.setCluster_issue (s : State) (n : Nat) (x : Cluster) : (s.setCluster n x).issue = s.issue := rfl
@[simp] theorem State.setCluster_mem (s : State) (n : Nat) (x : Cluster) : (s.setCluster n x).mem = s.mem := rfl
@[simp] theorem State.setCluster_poison (s : State) (n : Nat) (x : Cluster) : (s.setCluster n x).poison = s.poison := rfl
@[simp] theorem State.setCluster_cores (s : State) (n : Nat) (x : Cluster) : (s.setCluster n x).cores = s.cores := rfl
@[simp] theorem State.setCluster_origins (s : State) (n : Nat) (x : Cluster) : (s.setCluster n x).origins = s.origins := rfl
@[simp] theorem State.setCluster_contexts (s : State) (n : Nat) (x : Cluster) : (s.setCluster n x).contexts = s.contexts := rfl
@[simp] theorem State.setCluster_graphs (s : State) (n : Nat) (x : Cluster) : (s.setCluster n x).graphs = s.graphs := rfl
@[simp] theorem State.setCluster_pushes (s : State) (n : Nat) (x : Cluster) : (s.setCluster n x).pushes = s.pushes := rfl
@[simp] theorem State.setCluster_rounds (s : State) (n : Nat) (x : Cluster) : (s.setCluster n x).rounds = s.rounds := rfl
@[simp] theorem State.setCluster_roundOf (s : State) (n : Nat) (x : Cluster) : (s.setCluster n x).roundOf = s.roundOf := rfl
@[simp] theorem State.setCluster_monitors (s : State) (n : Nat) (x : Cluster) : (s.setCluster n x).monitors = s.monitors := rfl
@[simp] theorem State.setCluster_copies (s : State) (n : Nat) (x : Cluster) : (s.setCluster n x).copies = s.copies := rfl
@[simp] theorem State.setCluster_iod (s : State) (n : Nat) (x : Cluster) : (s.setCluster n x).iod = s.iod := rfl
@[simp] theorem State.setCluster_ras (s : State) (n : Nat) (x : Cluster) : (s.setCluster n x).ras = s.ras := rfl
@[simp] theorem State.setCluster_routes (s : State) (n : Nat) (x : Cluster) : (s.setCluster n x).routes = s.routes := rfl
@[simp] theorem State.setCluster_modnum (s : State) (n : Nat) (x : Cluster) : (s.setCluster n x).modnum = s.modnum := rfl
@[simp] theorem State.push_free (s : State) (i : Instr) : (s.push i).free = s.free := rfl
@[simp] theorem State.push_issue (s : State) (i : Instr) : (s.push i).issue = s.issue := rfl
@[simp] theorem State.push_mem (s : State) (i : Instr) : (s.push i).mem = s.mem := rfl
@[simp] theorem State.push_poison (s : State) (i : Instr) : (s.push i).poison = s.poison := rfl
@[simp] theorem State.push_cores (s : State) (i : Instr) : (s.push i).cores = s.cores := rfl
@[simp] theorem State.push_origins (s : State) (i : Instr) : (s.push i).origins = s.origins := rfl
@[simp] theorem State.push_contexts (s : State) (i : Instr) : (s.push i).contexts = s.contexts := rfl
@[simp] theorem State.push_graphs (s : State) (i : Instr) : (s.push i).graphs = s.graphs := rfl
@[simp] theorem State.push_pushes (s : State) (i : Instr) : (s.push i).pushes = s.pushes := rfl
@[simp] theorem State.push_rounds (s : State) (i : Instr) : (s.push i).rounds = s.rounds := rfl
@[simp] theorem State.push_roundOf (s : State) (i : Instr) : (s.push i).roundOf = s.roundOf := rfl
@[simp] theorem State.push_monitors (s : State) (i : Instr) : (s.push i).monitors = s.monitors := rfl
@[simp] theorem State.push_clusters (s : State) (i : Instr) : (s.push i).clusters = s.clusters := rfl
@[simp] theorem State.push_copies (s : State) (i : Instr) : (s.push i).copies = s.copies := rfl
@[simp] theorem State.push_iod (s : State) (i : Instr) : (s.push i).iod = s.iod := rfl
@[simp] theorem State.push_ras (s : State) (i : Instr) : (s.push i).ras = s.ras := rfl
@[simp] theorem State.push_routes (s : State) (i : Instr) : (s.push i).routes = s.routes := rfl
@[simp] theorem State.push_modnum (s : State) (i : Instr) : (s.push i).modnum = s.modnum := rfl
@[simp] theorem State.putByte_free (s : State) (a : Nat) (b : Byte) : (s.putByte a b).free = s.free := rfl
@[simp] theorem State.putByte_agenda (s : State) (a : Nat) (b : Byte) : (s.putByte a b).agenda = s.agenda := rfl
@[simp] theorem State.putByte_issue (s : State) (a : Nat) (b : Byte) : (s.putByte a b).issue = s.issue := rfl
@[simp] theorem State.putByte_poison (s : State) (a : Nat) (b : Byte) : (s.putByte a b).poison = s.poison := rfl
@[simp] theorem State.putByte_cores (s : State) (a : Nat) (b : Byte) : (s.putByte a b).cores = s.cores := rfl
@[simp] theorem State.putByte_origins (s : State) (a : Nat) (b : Byte) : (s.putByte a b).origins = s.origins := rfl
@[simp] theorem State.putByte_contexts (s : State) (a : Nat) (b : Byte) : (s.putByte a b).contexts = s.contexts := rfl
@[simp] theorem State.putByte_graphs (s : State) (a : Nat) (b : Byte) : (s.putByte a b).graphs = s.graphs := rfl
@[simp] theorem State.putByte_pushes (s : State) (a : Nat) (b : Byte) : (s.putByte a b).pushes = s.pushes := rfl
@[simp] theorem State.putByte_rounds (s : State) (a : Nat) (b : Byte) : (s.putByte a b).rounds = s.rounds := rfl
@[simp] theorem State.putByte_roundOf (s : State) (a : Nat) (b : Byte) : (s.putByte a b).roundOf = s.roundOf := rfl
@[simp] theorem State.putByte_monitors (s : State) (a : Nat) (b : Byte) : (s.putByte a b).monitors = s.monitors := rfl
@[simp] theorem State.putByte_clusters (s : State) (a : Nat) (b : Byte) : (s.putByte a b).clusters = s.clusters := rfl
@[simp] theorem State.putByte_copies (s : State) (a : Nat) (b : Byte) : (s.putByte a b).copies = s.copies := rfl
@[simp] theorem State.putByte_iod (s : State) (a : Nat) (b : Byte) : (s.putByte a b).iod = s.iod := rfl
@[simp] theorem State.putByte_ras (s : State) (a : Nat) (b : Byte) : (s.putByte a b).ras = s.ras := rfl
@[simp] theorem State.putByte_routes (s : State) (a : Nat) (b : Byte) : (s.putByte a b).routes = s.routes := rfl
@[simp] theorem State.putByte_modnum (s : State) (a : Nat) (b : Byte) : (s.putByte a b).modnum = s.modnum := rfl
@[simp] theorem State.setPoison_free (s : State) (a : Nat) (on : Bool) : (s.setPoison a on).free = s.free := rfl
@[simp] theorem State.setPoison_agenda (s : State) (a : Nat) (on : Bool) : (s.setPoison a on).agenda = s.agenda := rfl
@[simp] theorem State.setPoison_issue (s : State) (a : Nat) (on : Bool) : (s.setPoison a on).issue = s.issue := rfl
@[simp] theorem State.setPoison_mem (s : State) (a : Nat) (on : Bool) : (s.setPoison a on).mem = s.mem := rfl
@[simp] theorem State.setPoison_cores (s : State) (a : Nat) (on : Bool) : (s.setPoison a on).cores = s.cores := rfl
@[simp] theorem State.setPoison_origins (s : State) (a : Nat) (on : Bool) : (s.setPoison a on).origins = s.origins := rfl
@[simp] theorem State.setPoison_contexts (s : State) (a : Nat) (on : Bool) : (s.setPoison a on).contexts = s.contexts := rfl
@[simp] theorem State.setPoison_graphs (s : State) (a : Nat) (on : Bool) : (s.setPoison a on).graphs = s.graphs := rfl
@[simp] theorem State.setPoison_pushes (s : State) (a : Nat) (on : Bool) : (s.setPoison a on).pushes = s.pushes := rfl
@[simp] theorem State.setPoison_rounds (s : State) (a : Nat) (on : Bool) : (s.setPoison a on).rounds = s.rounds := rfl
@[simp] theorem State.setPoison_roundOf (s : State) (a : Nat) (on : Bool) : (s.setPoison a on).roundOf = s.roundOf := rfl
@[simp] theorem State.setPoison_monitors (s : State) (a : Nat) (on : Bool) : (s.setPoison a on).monitors = s.monitors := rfl
@[simp] theorem State.setPoison_clusters (s : State) (a : Nat) (on : Bool) : (s.setPoison a on).clusters = s.clusters := rfl
@[simp] theorem State.setPoison_copies (s : State) (a : Nat) (on : Bool) : (s.setPoison a on).copies = s.copies := rfl
@[simp] theorem State.setPoison_iod (s : State) (a : Nat) (on : Bool) : (s.setPoison a on).iod = s.iod := rfl
@[simp] theorem State.setPoison_ras (s : State) (a : Nat) (on : Bool) : (s.setPoison a on).ras = s.ras := rfl
@[simp] theorem State.setPoison_routes (s : State) (a : Nat) (on : Bool) : (s.setPoison a on).routes = s.routes := rfl
@[simp] theorem State.setPoison_modnum (s : State) (a : Nat) (on : Bool) : (s.setPoison a on).modnum = s.modnum := rfl
@[simp] theorem State.modCore_free (s : State) (u : Nat) (f : Core → Core) : (s.modCore u f).free = s.free := rfl
@[simp] theorem State.modCore_agenda (s : State) (u : Nat) (f : Core → Core) : (s.modCore u f).agenda = s.agenda := rfl
@[simp] theorem State.modCore_issue (s : State) (u : Nat) (f : Core → Core) : (s.modCore u f).issue = s.issue := rfl
@[simp] theorem State.modCore_mem (s : State) (u : Nat) (f : Core → Core) : (s.modCore u f).mem = s.mem := rfl
@[simp] theorem State.modCore_poison (s : State) (u : Nat) (f : Core → Core) : (s.modCore u f).poison = s.poison := rfl
@[simp] theorem State.modCore_origins (s : State) (u : Nat) (f : Core → Core) : (s.modCore u f).origins = s.origins := rfl
@[simp] theorem State.modCore_contexts (s : State) (u : Nat) (f : Core → Core) : (s.modCore u f).contexts = s.contexts := rfl
@[simp] theorem State.modCore_graphs (s : State) (u : Nat) (f : Core → Core) : (s.modCore u f).graphs = s.graphs := rfl
@[simp] theorem State.modCore_pushes (s : State) (u : Nat) (f : Core → Core) : (s.modCore u f).pushes = s.pushes := rfl
@[simp] theorem State.modCore_rounds (s : State) (u : Nat) (f : Core → Core) : (s.modCore u f).rounds = s.rounds := rfl
@[simp] theorem State.modCore_roundOf (s : State) (u : Nat) (f : Core → Core) : (s.modCore u f).roundOf = s.roundOf := rfl
@[simp] theorem State.modCore_monitors (s : State) (u : Nat) (f : Core → Core) : (s.modCore u f).monitors = s.monitors := rfl
@[simp] theorem State.modCore_clusters (s : State) (u : Nat) (f : Core → Core) : (s.modCore u f).clusters = s.clusters := rfl
@[simp] theorem State.modCore_copies (s : State) (u : Nat) (f : Core → Core) : (s.modCore u f).copies = s.copies := rfl
@[simp] theorem State.modCore_iod (s : State) (u : Nat) (f : Core → Core) : (s.modCore u f).iod = s.iod := rfl
@[simp] theorem State.modCore_ras (s : State) (u : Nat) (f : Core → Core) : (s.modCore u f).ras = s.ras := rfl
@[simp] theorem State.modCore_routes (s : State) (u : Nat) (f : Core → Core) : (s.modCore u f).routes = s.routes := rfl
@[simp] theorem State.modCore_modnum (s : State) (u : Nat) (f : Core → Core) : (s.modCore u f).modnum = s.modnum := rfl
@[simp] theorem State.modCrew_free (s : State) (u k : Nat) (f : Crew → Crew) : (s.modCrew u k f).free = s.free := rfl
@[simp] theorem State.modCrew_agenda (s : State) (u k : Nat) (f : Crew → Crew) : (s.modCrew u k f).agenda = s.agenda := rfl
@[simp] theorem State.modCrew_issue (s : State) (u k : Nat) (f : Crew → Crew) : (s.modCrew u k f).issue = s.issue := rfl
@[simp] theorem State.modCrew_mem (s : State) (u k : Nat) (f : Crew → Crew) : (s.modCrew u k f).mem = s.mem := rfl
@[simp] theorem State.modCrew_poison (s : State) (u k : Nat) (f : Crew → Crew) : (s.modCrew u k f).poison = s.poison := rfl
@[simp] theorem State.modCrew_origins (s : State) (u k : Nat) (f : Crew → Crew) : (s.modCrew u k f).origins = s.origins := rfl
@[simp] theorem State.modCrew_contexts (s : State) (u k : Nat) (f : Crew → Crew) : (s.modCrew u k f).contexts = s.contexts := rfl
@[simp] theorem State.modCrew_graphs (s : State) (u k : Nat) (f : Crew → Crew) : (s.modCrew u k f).graphs = s.graphs := rfl
@[simp] theorem State.modCrew_pushes (s : State) (u k : Nat) (f : Crew → Crew) : (s.modCrew u k f).pushes = s.pushes := rfl
@[simp] theorem State.modCrew_rounds (s : State) (u k : Nat) (f : Crew → Crew) : (s.modCrew u k f).rounds = s.rounds := rfl
@[simp] theorem State.modCrew_roundOf (s : State) (u k : Nat) (f : Crew → Crew) : (s.modCrew u k f).roundOf = s.roundOf := rfl
@[simp] theorem State.modCrew_monitors (s : State) (u k : Nat) (f : Crew → Crew) : (s.modCrew u k f).monitors = s.monitors := rfl
@[simp] theorem State.modCrew_clusters (s : State) (u k : Nat) (f : Crew → Crew) : (s.modCrew u k f).clusters = s.clusters := rfl
@[simp] theorem State.modCrew_copies (s : State) (u k : Nat) (f : Crew → Crew) : (s.modCrew u k f).copies = s.copies := rfl
@[simp] theorem State.modCrew_iod (s : State) (u k : Nat) (f : Crew → Crew) : (s.modCrew u k f).iod = s.iod := rfl
@[simp] theorem State.modCrew_ras (s : State) (u k : Nat) (f : Crew → Crew) : (s.modCrew u k f).ras = s.ras := rfl
@[simp] theorem State.modCrew_routes (s : State) (u k : Nat) (f : Crew → Crew) : (s.modCrew u k f).routes = s.routes := rfl
@[simp] theorem State.modCrew_modnum (s : State) (u k : Nat) (f : Crew → Crew) : (s.modCrew u k f).modnum = s.modnum := rfl
@[simp] theorem State.modGroup_free (s : State) (u gid : Nat) (f : Group → Group) : (s.modGroup u gid f).free = s.free := rfl
@[simp] theorem State.modGroup_agenda (s : State) (u gid : Nat) (f : Group → Group) : (s.modGroup u gid f).agenda = s.agenda := rfl
@[simp] theorem State.modGroup_issue (s : State) (u gid : Nat) (f : Group → Group) : (s.modGroup u gid f).issue = s.issue := rfl
@[simp] theorem State.modGroup_mem (s : State) (u gid : Nat) (f : Group → Group) : (s.modGroup u gid f).mem = s.mem := rfl
@[simp] theorem State.modGroup_poison (s : State) (u gid : Nat) (f : Group → Group) : (s.modGroup u gid f).poison = s.poison := rfl
@[simp] theorem State.modGroup_origins (s : State) (u gid : Nat) (f : Group → Group) : (s.modGroup u gid f).origins = s.origins := rfl
@[simp] theorem State.modGroup_contexts (s : State) (u gid : Nat) (f : Group → Group) : (s.modGroup u gid f).contexts = s.contexts := rfl
@[simp] theorem State.modGroup_graphs (s : State) (u gid : Nat) (f : Group → Group) : (s.modGroup u gid f).graphs = s.graphs := rfl
@[simp] theorem State.modGroup_pushes (s : State) (u gid : Nat) (f : Group → Group) : (s.modGroup u gid f).pushes = s.pushes := rfl
@[simp] theorem State.modGroup_rounds (s : State) (u gid : Nat) (f : Group → Group) : (s.modGroup u gid f).rounds = s.rounds := rfl
@[simp] theorem State.modGroup_roundOf (s : State) (u gid : Nat) (f : Group → Group) : (s.modGroup u gid f).roundOf = s.roundOf := rfl
@[simp] theorem State.modGroup_monitors (s : State) (u gid : Nat) (f : Group → Group) : (s.modGroup u gid f).monitors = s.monitors := rfl
@[simp] theorem State.modGroup_clusters (s : State) (u gid : Nat) (f : Group → Group) : (s.modGroup u gid f).clusters = s.clusters := rfl
@[simp] theorem State.modGroup_copies (s : State) (u gid : Nat) (f : Group → Group) : (s.modGroup u gid f).copies = s.copies := rfl
@[simp] theorem State.modGroup_iod (s : State) (u gid : Nat) (f : Group → Group) : (s.modGroup u gid f).iod = s.iod := rfl
@[simp] theorem State.modGroup_ras (s : State) (u gid : Nat) (f : Group → Group) : (s.modGroup u gid f).ras = s.ras := rfl
@[simp] theorem State.modGroup_routes (s : State) (u gid : Nat) (f : Group → Group) : (s.modGroup u gid f).routes = s.routes := rfl
@[simp] theorem State.modGroup_modnum (s : State) (u gid : Nat) (f : Group → Group) : (s.modGroup u gid f).modnum = s.modnum := rfl
@[simp] theorem State.tick_agenda (s : State) : s.tick.agenda = s.agenda := rfl
@[simp] theorem State.tick_issue (s : State) : s.tick.issue = s.issue := rfl
@[simp] theorem State.tick_mem (s : State) : s.tick.mem = s.mem := rfl
@[simp] theorem State.tick_poison (s : State) : s.tick.poison = s.poison := rfl
@[simp] theorem State.tick_cores (s : State) : s.tick.cores = s.cores := rfl
@[simp] theorem State.tick_origins (s : State) : s.tick.origins = s.origins := rfl
@[simp] theorem State.tick_contexts (s : State) : s.tick.contexts = s.contexts := rfl
@[simp] theorem State.tick_graphs (s : State) : s.tick.graphs = s.graphs := rfl
@[simp] theorem State.tick_pushes (s : State) : s.tick.pushes = s.pushes := rfl
@[simp] theorem State.tick_rounds (s : State) : s.tick.rounds = s.rounds := rfl
@[simp] theorem State.tick_roundOf (s : State) : s.tick.roundOf = s.roundOf := rfl
@[simp] theorem State.tick_monitors (s : State) : s.tick.monitors = s.monitors := rfl
@[simp] theorem State.tick_clusters (s : State) : s.tick.clusters = s.clusters := rfl
@[simp] theorem State.tick_copies (s : State) : s.tick.copies = s.copies := rfl
@[simp] theorem State.tick_iod (s : State) : s.tick.iod = s.iod := rfl
@[simp] theorem State.tick_ras (s : State) : s.tick.ras = s.ras := rfl
@[simp] theorem State.tick_routes (s : State) : s.tick.routes = s.routes := rfl
@[simp] theorem State.tick_modnum (s : State) : s.tick.modnum = s.modnum := rfl

@[simp] theorem State.tick_free (s : State) : s.tick.free = s.free + 1 := rfl
@[simp] theorem State.push_agenda (s : State) (i : Instr) : (s.push i).agenda = s.agenda ++ [i] := rfl
@[simp] theorem State.pushNext_free (s : State) (i : Instr) : (s.pushNext i).free = s.free := rfl
@[simp] theorem State.pushNext_issue (s : State) (i : Instr) : (s.pushNext i).issue = s.issue := rfl
@[simp] theorem State.pushNext_mem (s : State) (i : Instr) : (s.pushNext i).mem = s.mem := rfl
@[simp] theorem State.pushNext_poison (s : State) (i : Instr) : (s.pushNext i).poison = s.poison := rfl
@[simp] theorem State.pushNext_cores (s : State) (i : Instr) : (s.pushNext i).cores = s.cores := rfl
@[simp] theorem State.pushNext_origins (s : State) (i : Instr) : (s.pushNext i).origins = s.origins := rfl
@[simp] theorem State.pushNext_contexts (s : State) (i : Instr) : (s.pushNext i).contexts = s.contexts := rfl
@[simp] theorem State.pushNext_graphs (s : State) (i : Instr) : (s.pushNext i).graphs = s.graphs := rfl
@[simp] theorem State.pushNext_pushes (s : State) (i : Instr) : (s.pushNext i).pushes = s.pushes := rfl
@[simp] theorem State.pushNext_rounds (s : State) (i : Instr) : (s.pushNext i).rounds = s.rounds := rfl
@[simp] theorem State.pushNext_roundOf (s : State) (i : Instr) : (s.pushNext i).roundOf = s.roundOf := rfl
@[simp] theorem State.pushNext_monitors (s : State) (i : Instr) : (s.pushNext i).monitors = s.monitors := rfl
@[simp] theorem State.pushNext_clusters (s : State) (i : Instr) : (s.pushNext i).clusters = s.clusters := rfl
@[simp] theorem State.pushNext_copies (s : State) (i : Instr) : (s.pushNext i).copies = s.copies := rfl
@[simp] theorem State.pushNext_iod (s : State) (i : Instr) : (s.pushNext i).iod = s.iod := rfl
@[simp] theorem State.pushNext_ras (s : State) (i : Instr) : (s.pushNext i).ras = s.ras := rfl
@[simp] theorem State.pushNext_routes (s : State) (i : Instr) : (s.pushNext i).routes = s.routes := rfl
@[simp] theorem State.pushNext_modnum (s : State) (i : Instr) : (s.pushNext i).modnum = s.modnum := rfl
@[simp] theorem State.pushNext_agenda (s : State) (i : Instr) : (s.pushNext i).agenda = i :: s.agenda := rfl
@[simp] theorem State.putByte_mem (s : State) (a : Nat) (b : Byte) : (s.putByte a b).mem = SMap.set s.mem memDefault a b := rfl

end Sys2Proof.Machine
end

