-- ==== Sys2Proof/Laws/Memory.lean ====
section
/-! SUPPORT. Sparse maps and memory: a read after a write, and the canonical form, which every operation on memory keeps. -/
namespace Sys2Proof.Machine

/-! Sparse maps. -/

section
variable {α : Type}

theorem SMap.find?_put_same (m : SMap α) (i : Nat) (v : α) : (m.put i v).find? i = some v := by
  induction m with
  | nil => simp [SMap.put, SMap.find?]
  | cons p m ih =>
    obtain ⟨k, w⟩ := p
    by_cases h1 : i < k
    · simp [SMap.put, SMap.find?, h1]
    · by_cases h2 : i = k
      · simp [SMap.put, SMap.find?, h2]
      · have h3 : ¬ k = i := fun h => h2 h.symm
        simp [SMap.put, SMap.find?, h1, h2, h3, ih]

theorem SMap.find?_put_other (m : SMap α) {i j : Nat} (v : α) (h : j ≠ i) : (m.put i v).find? j = m.find? j := by
  have h' : ¬ i = j := fun e => h e.symm
  induction m with
  | nil => simp [SMap.put, SMap.find?, h']
  | cons p m ih =>
    obtain ⟨k, w⟩ := p
    by_cases h1 : i < k
    · simp [SMap.put, SMap.find?, h1, h']
    · by_cases h2 : i = k
      · subst h2; simp [SMap.put, SMap.find?, h']
      · simp [SMap.put, SMap.find?, h1, h2, ih]

theorem SMap.find?_drop_same (m : SMap α) (i : Nat) : (m.drop i).find? i = none := by
  induction m with
  | nil => rfl
  | cons p m ih =>
    obtain ⟨k, w⟩ := p
    by_cases h : k = i
    · simp [SMap.drop, h, ih]
    · simp [SMap.drop, SMap.find?, h, ih]

theorem SMap.find?_drop_other (m : SMap α) {i j : Nat} (h : j ≠ i) : (m.drop i).find? j = m.find? j := by
  induction m with
  | nil => rfl
  | cons p m ih =>
    obtain ⟨k, w⟩ := p
    by_cases h1 : k = i
    · have h2 : ¬ k = j := fun e => h (e.symm.trans h1)
      simp [SMap.drop, SMap.find?, h1, ih]
      intro e; exact absurd e.symm h
    · simp [SMap.drop, SMap.find?, h1, ih]

theorem SMap.find?_modify_same (m : SMap α) (i : Nat) (f : α → α) : (m.modify i f).find? i = (m.find? i).map f := by
  induction m with
  | nil => rfl
  | cons p m ih =>
    obtain ⟨k, w⟩ := p
    by_cases h : k = i <;> simp [SMap.modify, SMap.find?, h, ih]

theorem SMap.find?_modify_other (m : SMap α) {i j : Nat} (f : α → α) (h : j ≠ i) : (m.modify i f).find? j = m.find? j := by
  induction m with
  | nil => rfl
  | cons p m ih =>
    obtain ⟨k, w⟩ := p
    by_cases h1 : k = i
    · have h2 : ¬ i = j := fun e => h e.symm
      simp [SMap.modify, SMap.find?, h1, h2]
    · simp [SMap.modify, SMap.find?, h1, ih]

theorem SMap.find?_map (m : SMap α) (f : Nat → α → α) (i : Nat) :
    SMap.find? (List.map (fun p => (p.1, f p.1 p.2)) m) i = (SMap.find? m i).map (f i) := by
  induction m with
  | nil => rfl
  | cons p m ih =>
    obtain ⟨k, w⟩ := p
    by_cases h : k = i
    · subst h; simp [SMap.find?]
    · simp [SMap.find?, h, ih]

@[simp] theorem SMap.get_put_same (m : SMap α) (d : α) (i : Nat) (v : α) : (m.put i v).get d i = v := by
  simp [SMap.get, SMap.find?_put_same]

theorem SMap.get_put_other (m : SMap α) (d : α) {i j : Nat} (v : α) (h : j ≠ i) : (m.put i v).get d j = m.get d j := by
  simp [SMap.get, SMap.find?_put_other m v h]

/-! Rising keys. -/

theorem SMap.risesFrom_tail {k : Nat} {w : α} {m : SMap α} {lo : Option Nat} (h : SMap.risesFrom lo ((k, w) :: m)) : SMap.risesFrom (some k) m := by
  cases lo <;> simp_all [SMap.risesFrom]
theorem SMap.risesFrom_cons {k : Nat} {w u : α} {m n : SMap α} {lo : Option Nat} (h : SMap.risesFrom lo ((k, w) :: m))
    (hn : SMap.risesFrom (some k) n) : SMap.risesFrom lo ((k, u) :: n) := by
  cases lo <;> simp_all [SMap.risesFrom]
theorem SMap.risesFrom_mono {m : SMap α} {l : Nat} {lo : Option Nat} (h : ∀ x, lo = some x → x ≤ l) (hm : SMap.risesFrom (some l) m) :
    SMap.risesFrom lo m := by
  cases m with
  | nil => simp [SMap.risesFrom]
  | cons p m =>
    obtain ⟨k, w⟩ := p
    cases lo with
    | none => simp [SMap.risesFrom] at hm ⊢; exact hm.2
    | some x =>
      simp [SMap.risesFrom] at hm ⊢
      exact ⟨Nat.lt_of_le_of_lt (h x rfl) hm.1, hm.2⟩
theorem SMap.risesFrom_below {k : Nat} {w : α} {m n : SMap α} {lo : Option Nat} (h : SMap.risesFrom lo ((k, w) :: m))
    (hn : SMap.risesFrom (some k) n) : SMap.risesFrom lo n := by
  refine SMap.risesFrom_mono ?_ hn
  intro x hx; subst hx
  simp [SMap.risesFrom] at h; omega
theorem SMap.risesFrom_put (m : SMap α) (i : Nat) (v : α) (lo : Option Nat) (hlo : ∀ x, lo = some x → x < i) (h : SMap.risesFrom lo m) :
    SMap.risesFrom lo (m.put i v) := by
  induction m generalizing lo with
  | nil => cases lo <;> simp_all [SMap.put, SMap.risesFrom]
  | cons p m ih =>
    obtain ⟨k, w⟩ := p
    have hm := SMap.risesFrom_tail h
    rcases Nat.lt_trichotomy i k with h1 | h1 | h1
    · rw [show SMap.put ((k, w) :: m) i v = (i, v) :: (k, w) :: m by simp [SMap.put, h1]]
      cases lo <;> simp_all [SMap.risesFrom]
    · subst h1
      rw [show SMap.put ((i, w) :: m) i v = (i, v) :: m by simp [SMap.put]]
      exact SMap.risesFrom_cons h hm
    · rw [show SMap.put ((k, w) :: m) i v = (k, w) :: SMap.put m i v by
        simp [SMap.put, show ¬ i < k by omega, show ¬ i = k by omega]]
      exact SMap.risesFrom_cons h (ih (some k) (by simpa using h1) hm)
theorem SMap.risesFrom_drop (m : SMap α) (i : Nat) (lo : Option Nat) (h : SMap.risesFrom lo m) : SMap.risesFrom lo (m.drop i) := by
  induction m generalizing lo with
  | nil => simpa [SMap.drop] using h
  | cons p m ih =>
    obtain ⟨k, w⟩ := p
    have hk := ih (some k) (SMap.risesFrom_tail h)
    by_cases h1 : k = i
    · rw [show SMap.drop ((k, w) :: m) i = SMap.drop m i by simp [SMap.drop, h1]]
      exact SMap.risesFrom_below h hk
    · rw [show SMap.drop ((k, w) :: m) i = (k, w) :: SMap.drop m i by simp [SMap.drop, h1]]
      exact SMap.risesFrom_cons h hk
theorem SMap.all_put (m : SMap α) (i : Nat) (v : α) (P : Nat × α → Bool) (hv : P (i, v)) (h : m.all P) : (m.put i v).all P := by
  induction m with
  | nil => simp [SMap.put, hv]
  | cons p m ih =>
    obtain ⟨k, w⟩ := p
    rw [List.all_cons, Bool.and_eq_true] at h
    by_cases h1 : i < k
    · simp [SMap.put, h1, hv, h.1, -List.all_eq_true, h.2]
    · by_cases h2 : i = k
      · subst h2
        simp [SMap.put, -List.all_eq_true, h.2, hv]
      · simp [SMap.put, h1, h2, -List.all_eq_true, h.1, ih h.2]
theorem SMap.all_drop (m : SMap α) (i : Nat) (P : Nat × α → Bool) (h : m.all P) : (m.drop i).all P := by
  induction m with
  | nil => simp [SMap.drop]
  | cons p m ih =>
    obtain ⟨k, w⟩ := p
    rw [List.all_cons, Bool.and_eq_true] at h
    by_cases h1 : k = i
    · simp [SMap.drop, h1, -List.all_eq_true, ih h.2]
    · simp [SMap.drop, h1, -List.all_eq_true, h.1, ih h.2]
theorem SMap.risesFrom_filter (m : SMap α) (P : Nat × α → Bool) (lo : Option Nat) (h : SMap.risesFrom lo m) : SMap.risesFrom lo (m.filter P) := by
  induction m generalizing lo with
  | nil => simpa using h
  | cons p m ih =>
    obtain ⟨k, w⟩ := p
    have hk := ih (some k) (SMap.risesFrom_tail h)
    by_cases hp : P (k, w)
    · rw [List.filter_cons_of_pos hp]; exact SMap.risesFrom_cons h hk
    · rw [List.filter_cons_of_neg hp]; exact SMap.risesFrom_below h hk
variable [DecidableEq α]

@[simp] theorem SMap.get_set_same (m : SMap α) (d : α) (i : Nat) (v : α) : (m.set d i v).get d i = v := by
  by_cases h : v = d
  · simp [SMap.set, SMap.get, h, SMap.find?_drop_same]
  · simp [SMap.set, SMap.get, h, SMap.find?_put_same]

theorem SMap.get_set_other (m : SMap α) (d : α) {i j : Nat} (v : α) (h : j ≠ i) : (m.set d i v).get d j = m.get d j := by
  by_cases hv : v = d
  · simp [SMap.set, SMap.get, hv, SMap.find?_drop_other m h]
  · simp [SMap.set, SMap.get, hv, SMap.find?_put_other m v h]

/-! The canonical form. -/

theorem SMap.wf_set (m : SMap α) (d : α) (i : Nat) (v : α) (h : SMap.wf d m) : SMap.wf d (m.set d i v) := by
  simp only [SMap.wf, Bool.and_eq_true] at h ⊢
  by_cases hv : v = d
  · simp only [SMap.set, hv, if_true]
    exact ⟨SMap.risesFrom_drop m i none h.1, SMap.all_drop m i _ h.2⟩
  · simp only [SMap.set, hv, if_false]
    exact ⟨SMap.risesFrom_put m i v none (by simp) h.1, SMap.all_put m i v _ (by simpa using hv) h.2⟩

theorem SMap.wf_filter (m : SMap α) (d : α) (P : Nat × α → Bool) (h : SMap.wf d m) : SMap.wf d (m.filter P) := by
  simp only [SMap.wf, Bool.and_eq_true] at h ⊢
  refine ⟨SMap.risesFrom_filter m P none h.1, ?_⟩
  simp only [List.all_eq_true] at h ⊢
  intro x hx
  exact h.2 x (List.mem_filter.mp hx).1
end

/-! Memory. -/

@[simp] theorem State.byte_putByte_same (s : State) (a : Nat) (b : Byte) : (s.putByte a b).byte a = b := by simp [State.byte]
theorem State.byte_putByte_other (s : State) {a c : Nat} (b : Byte) (h : c ≠ a) : (s.putByte a b).byte c = s.byte c := by
  simp [State.byte, SMap.get_set_other s.mem memDefault b h]

/-- The state's memory is in its canonical form. -/
abbrev State.memWf (s : State) : Prop := Memory.wf s.mem = true

theorem State.memWf_putByte {s : State} (h : s.memWf) (a : Nat) (b : Byte) : (s.putByte a b).memWf := SMap.wf_set s.mem memDefault a b h
theorem State.memWf_putBytes {s : State} (h : s.memWf) (a : Nat) (bs : List Byte) : (s.putBytes a bs).memWf := by
  induction bs generalizing s a with
  | nil => exact h
  | cons b bs ih => exact ih (State.memWf_putByte h a b) (a + 1)
theorem State.memWf_reset : State.reset.memWf := rfl

@[simp] theorem State.hitMonitors_mem (s : State) (a : Nat) : (s.hitMonitors a).mem = s.mem := rfl
theorem foldl_hitMonitors_mem (ls : List Nat) (s : State) : (ls.foldl (fun s l => s.hitMonitors (128 * l)) s).mem = s.mem := by
  induction ls generalizing s with
  | nil => rfl
  | cons l ls ih => simp [ih]
theorem foldl_putByte_wf (bs : List (Nat × Byte)) {s : State} (h : s.memWf) : (bs.foldl (fun s p => s.putByte p.1 p.2) s).memWf := by
  induction bs generalizing s with
  | nil => exact h
  | cons b bs ih => exact ih (State.memWf_putByte h _ _)

/-- What `writeHome` does to memory: the bytes, one after another. -/
theorem State.writeHome_mem (s : State) (bs : List (Nat × Byte)) : (s.writeHome bs).mem = (bs.foldl (fun s p => s.putByte p.1 p.2) s).mem := by
  simp [State.writeHome, foldl_hitMonitors_mem]
theorem State.memWf_writeHome {s : State} (h : s.memWf) (bs : List (Nat × Byte)) : (s.writeHome bs).memWf := by
  have := foldl_putByte_wf bs h
  simpa [State.memWf, State.writeHome_mem] using this
theorem State.memWf_writeAll {s : State} (h : s.memWf) (bs : List (Nat × Byte)) : (s.writeAll bs).memWf := State.memWf_writeHome h bs

theorem foldl_putByte_other (bs : List (Nat × Byte)) (s : State) (a : Nat) (h : ∀ p ∈ bs, p.1 ≠ a) :
    (bs.foldl (fun s p => s.putByte p.1 p.2) s).byte a = s.byte a := by
  induction bs generalizing s with
  | nil => rfl
  | cons b bs ih =>
    have hb : a ≠ b.1 := fun e => h b (by simp) e.symm
    simp only [List.foldl_cons]
    rw [ih _ (fun p hp => h p (by simp [hp])), State.byte_putByte_other s b.2 hb]
/-- Bytes that are not written read as before. -/
theorem State.byte_writeHome_other (s : State) (bs : List (Nat × Byte)) (a : Nat) (h : ∀ p ∈ bs, p.1 ≠ a) : (s.writeHome bs).byte a = s.byte a := by
  have := foldl_putByte_other bs s a h
  simpa [State.byte, State.writeHome_mem] using this

end Sys2Proof.Machine
end

