-- ==== Sys2Proof/Laws/Commit.lean ====
section
/-! SUPPORT. What committing an issue group does: the registers that land, and what stays (R40 to R42). -/
namespace Sys2Proof.Machine
open Safety

/-! Lists. -/

theorem imapFrom_getD {α β : Type} (f : Nat → α → β) (xs : List α) (i j : Nat) (d : α) (e : β) :
    (imapFrom f i xs).getD j e = if j < xs.length then f (i + j) (xs.getD j d) else e := by
  induction xs generalizing i j with
  | nil => simp [imapFrom]
  | cons x xs ih =>
    cases j with
    | zero => simp [imapFrom]
    | succ j =>
      have := ih (i + 1) j
      simp only [imapFrom, List.getD_cons_succ, List.length_cons, Nat.add_lt_add_iff_right]
      rw [this]
      simp [Nat.add_comm, Nat.add_left_comm]
theorem imap_getD {α β : Type} (f : Nat → α → β) (xs : List α) (j : Nat) (d : α) (e : β) :
    (imap xs f).getD j e = if j < xs.length then f j (xs.getD j d) else e := by
  simpa [imap] using imapFrom_getD f xs 0 j d e
@[simp] theorem imapFrom_length {α β : Type} (f : Nat → α → β) (i : Nat) (xs : List α) : (imapFrom f i xs).length = xs.length := by
  induction xs generalizing i with
  | nil => rfl
  | cons x xs ih => simp [imapFrom, ih]
@[simp] theorem imap_length {α β : Type} (f : Nat → α → β) (xs : List α) : (imap xs f).length = xs.length := imapFrom_length f 0 xs
/-- A map over members that a change does not show. -/
theorem map_imap {α β : Type} (f : Nat → α → α) (g : α → β) (xs : List α) (h : ∀ k x, g (f k x) = g x) : (imap xs f).map g = xs.map g := by
  have : ∀ (i : Nat), (imapFrom f i xs).map g = xs.map g := by
    induction xs with
    | nil => intro i; rfl
    | cons x xs ih => intro i; simp [imapFrom, h, ih]
  exact this 0
theorem setNth_getD_same {α : Type} (xs : List α) (i : Nat) (v d : α) (h : i < xs.length) : (setNth xs i v).getD i d = v := by
  induction xs generalizing i with
  | nil => simp at h
  | cons x xs ih => cases i with
    | zero => rfl
    | succ i => simpa [setNth] using ih i (by simpa using h)
theorem setNth_getD_other {α : Type} (xs : List α) (i j : Nat) (v d : α) (h : j ≠ i) : (setNth xs i v).getD j d = xs.getD j d := by
  induction xs generalizing i j with
  | nil => rfl
  | cons x xs ih => cases i with
    | zero => cases j with
      | zero => exact absurd rfl h
      | succ j => rfl
    | succ i => cases j with
      | zero => rfl
      | succ j => simpa [setNth] using ih i j (by omega)
@[simp] theorem setNth_length {α : Type} (xs : List α) (i : Nat) (v : α) : (setNth xs i v).length = xs.length := by
  induction xs generalizing i with
  | nil => rfl
  | cons x xs ih => cases i <;> simp [setNth, ih]

theorem getD_beyond {α : Type} (xs : List α) {i : Nat} {d : α} (h : xs.length ≤ i) : xs.getD i d = d := by simp [List.getD, h]

/-! Register writes. -/

/-- The last of the writes to a key. -/
def lastWrite (ws : List RegW) (key : Nat) : Option (Word × Tag) := ws.foldl (fun o x => if x.key = key then some (x.val, x.tag) else o) none
theorem lastWrite_foldl (ws : List RegW) (key : Nat) (o : Option (Word × Tag)) :
    ws.foldl (fun o x => if x.key = key then some (x.val, x.tag) else o) o = (lastWrite ws key).or o := by
  induction ws generalizing o with
  | nil => simp [lastWrite]
  | cons x ws ih =>
    simp only [lastWrite, List.foldl_cons]
    rw [ih, ih]
    by_cases h : x.key = key <;> simp [h]
@[simp] theorem lastWrite_nil (key : Nat) : lastWrite [] key = none := rfl
theorem lastWrite_append (xs ys : List RegW) (key : Nat) : lastWrite (xs ++ ys) key = (lastWrite ys key).or (lastWrite xs key) := by
  rw [lastWrite, List.foldl_append, lastWrite_foldl]; rfl
theorem lastWrite_cons (x : RegW) (ws : List RegW) (key : Nat) :
    lastWrite (x :: ws) key = (lastWrite ws key).or (if x.key = key then some (x.val, x.tag) else none) := lastWrite_append [x] ws key
theorem get_foldl_set (ws : List RegW) (m : SMap (Word × Tag)) (d : Word × Tag) (key : Nat) :
    SMap.get (ws.foldl (fun m x => SMap.set m d x.key (x.val, x.tag)) m) d key = (lastWrite ws key).getD (SMap.get m d key) := by
  induction ws generalizing m with
  | nil => simp
  | cons x ws ih =>
    rw [List.foldl_cons, ih, lastWrite_cons]
    by_cases h : x.key = key
    · subst h; cases lastWrite ws x.key <;> simp
    · rw [SMap.get_set_other _ _ _ (Ne.symm h)]; simp [h]
/-- The value a crew's register has after writes. -/
@[simp] theorem Crew.get_writes (w : Crew) (ws : List RegW) (key : Nat) : (w.writes ws).get key = (lastWrite ws key).getD (w.get key) :=
  get_foldl_set ws w.regs regDefault key
theorem get_foldl_setc (ws : List RegW) (m : SMap Word) (key : Nat) :
    SMap.get (ws.foldl (fun m x => SMap.set m 0 x.key x.val) m) 0 key = ((lastWrite ws key).map (·.1)).getD (SMap.get m 0 key) := by
  induction ws generalizing m with
  | nil => simp
  | cons x ws ih =>
    rw [List.foldl_cons, ih, lastWrite_cons]
    by_cases h : x.key = key
    · subst h; cases lastWrite ws x.key <;> simp
    · rw [SMap.get_set_other _ _ _ (Ne.symm h)]; simp [h]

/-- Writes of distinct threads: the last is the only one. -/
theorem lastWrite_single (ts : List Nat) (key : Nat → Option Nat) (f : Nat → Word × Tag) (k : Nat)
    (inj : ∀ i ∈ ts, ∀ j ∈ ts, key i = some k → key j = some k → i = j) :
    lastWrite (ts.flatMap (fun t => match key t with | some k => [⟨t, k, (f t).1, (f t).2⟩] | none => [])) k =
      (ts.find? (fun i => key i == some k)).map f := by
  induction ts with
  | nil => rfl
  | cons t ts ih =>
    have ih := ih (fun i hi j hj => inj i (by simp [hi]) j (by simp [hj]))
    rw [List.flatMap_cons, lastWrite_append, ih]
    cases hk : key t with
    | none => simp [hk]
    | some q =>
      by_cases hq : q = k
      · subst hq
        simp only [lastWrite_cons, lastWrite_nil, if_true, List.find?_cons, hk, beq_self_eq_true, Option.map_some, Option.none_or]
        cases hf : ts.find? (fun i => key i == some q) with
        | none => rfl
        | some j =>
          have hj := List.find?_some hf
          have : t = j := inj t (by simp) j (by simp [List.mem_of_find?_eq_some hf]) hk (by simpa using hj)
          simp [this]
      · simp only [lastWrite_cons, lastWrite_nil, if_neg hq, List.find?_cons, hk]
        have : (some q == some k) = false := by simpa using hq
        simp [this]

/-! What the parts of a commit leave alone. -/

/-- `t` is `s` but for crew `k` of core `u`, yields and the seats of that core, the latch, the agenda and the reliability scores. -/
structure Beside (u k : Nat) (s t : State) : Prop where
  free : t.free = s.free
  mem : t.mem = s.mem
  poison : t.poison = s.poison
  origins : t.origins = s.origins
  contexts : t.contexts = s.contexts
  graphs : t.graphs = s.graphs
  pushes : t.pushes = s.pushes
  rounds : t.rounds = s.rounds
  roundOf : t.roundOf = s.roundOf
  monitors : t.monitors = s.monitors
  clusters : t.clusters = s.clusters
  copies : t.copies = s.copies
  iod : t.iod = s.iod
  routes : t.routes = s.routes
  modnum : t.modnum = s.modnum
  cores : ∀ n, n ≠ u → t.core n = s.core n
  core : uncore (t.core u) = uncore (s.core u)
  groups : (t.core u).groups = (s.core u).groups
  crews : ∀ j, j ≠ k → (t.crew? u j).map awake = (s.crew? u j).map awake

theorem Beside.refl (u k : Nat) (s : State) : Beside u k s s := by constructor <;> simp
theorem Beside.trans {u k : Nat} {a b c : State} (h : Beside u k a b) (g : Beside u k b c) : Beside u k a c where
  free := g.free.trans h.free
  mem := g.mem.trans h.mem
  poison := g.poison.trans h.poison
  origins := g.origins.trans h.origins
  contexts := g.contexts.trans h.contexts
  graphs := g.graphs.trans h.graphs
  pushes := g.pushes.trans h.pushes
  rounds := g.rounds.trans h.rounds
  roundOf := g.roundOf.trans h.roundOf
  monitors := g.monitors.trans h.monitors
  clusters := g.clusters.trans h.clusters
  copies := g.copies.trans h.copies
  iod := g.iod.trans h.iod
  routes := g.routes.trans h.routes
  modnum := g.modnum.trans h.modnum
  cores := fun n hn => (g.cores n hn).trans (h.cores n hn)
  core := g.core.trans h.core
  groups := g.groups.trans h.groups
  crews := fun j hj => (g.crews j hj).trans (h.crews j hj)

/-- A new core in place of the old one, whose crews are the old ones up to yields. -/
theorem Beside.of_setCore {u k : Nat} {s : State} {c : Core} (hc : uncore c = uncore (s.core u)) (hg : c.groups = (s.core u).groups)
    (hw : ∀ j, j ≠ k → (c.crews.find? j).map awake = ((s.core u).crews.find? j).map awake) : Beside u k s (s.setCore u c) := by
  constructor <;> try rfl
  · intro n hn; exact SMap.get_put_other _ _ _ hn
  · simpa [State.core, State.setCore] using hc
  · simpa [State.core, State.setCore] using hg
  · intro j hj
    have := hw j hj
    simpa [State.crew?, State.core, State.setCore] using this
@[simp] theorem State.core_setCore (s : State) (u : Nat) (c : Core) : (s.setCore u c).core u = c := by simp [State.core, State.setCore]
theorem State.core_setCore_other (s : State) {u n : Nat} (c : Core) (h : n ≠ u) : (s.setCore u c).core n = s.core n := SMap.get_put_other _ _ _ h
@[simp] theorem State.core_modCore (s : State) (u : Nat) (f : Core → Core) : (s.modCore u f).core u = f (s.core u) := by simp [State.modCore]
@[simp] theorem State.crew?_modCrew (s : State) (u k : Nat) (f : Crew → Crew) : (s.modCrew u k f).crew? u k = (s.crew? u k).map f := by
  simp [State.crew?, State.modCrew, SMap.find?_modify_same]
theorem State.crew?_modCrew_other (s : State) (u : Nat) {k j : Nat} (f : Crew → Crew) (h : j ≠ k) : (s.modCrew u k f).crew? u j = s.crew? u j := by
  simp [State.crew?, State.modCrew, SMap.find?_modify_other _ _ h]
theorem Beside.modCrew (u k : Nat) (s : State) (f : Crew → Crew) : Beside u k s (s.modCrew u k f) :=
  Beside.of_setCore rfl rfl (fun j hj => by simp [SMap.find?_modify_other _ _ hj])
theorem Beside.push (u k : Nat) (s : State) (i : Instr) : Beside u k s (s.push i) := by constructor <;> first | rfl | (intros; rfl)
theorem Beside.latch (u k : Nat) (s : State) (x : Option Issue) : Beside u k s { s with issue := x } := by constructor <;> first | rfl | (intros; rfl)
theorem Beside.charge (u k : Nat) (s : State) (a b n : Nat) : Beside u k s (s.charge a b n) := by
  unfold State.charge
  split
  · exact Beside.refl u k s
  · constructor <;> first | rfl | (intros; rfl)
theorem Beside.seatAfter (u k : Nat) (s : State) (seat : Nat) (x : Option SeatTick) (leaf : Nat) (last : Option Nat) :
    Beside u k s (s.seatAfter u seat x leaf last) := by
  unfold State.seatAfter
  cases x with
  | none => exact Beside.refl u k s
  | some y => exact Beside.of_setCore rfl rfl (fun j _ => rfl)
@[simp] theorem State.crew?_seatAfter (s : State) (u seat : Nat) (x : Option SeatTick) (leaf : Nat) (last : Option Nat) (k : Nat) :
    (s.seatAfter u seat x leaf last).crew? u k = s.crew? u k := by
  unfold State.seatAfter
  cases x <;> simp [State.crew?]
@[simp] theorem awake_otherIssued (w : Crew) (own : Bool) (parts : List Nat) : awake (w.otherIssued own parts) = awake w := by
  cases own
  · simp [Crew.otherIssued, awake]
  · simp only [Crew.otherIssued, awake, if_true]
    congr 1
    exact map_imap _ _ _ (fun k x => by split; rfl; split <;> rfl)
theorem State.crew?_wakeYields (s : State) (u slot : Nat) (parts : List Nat) (k : Nat) :
    (s.wakeYields u slot parts).crew? u k =
      (s.crew? u k).map (fun w => if k / 12 = slot / 12 then w.otherIssued (k == slot) parts else w) := by
  have := SMap.find?_map (s.core u).crews (fun j w => if j / 12 = slot / 12 then w.otherIssued (j == slot) parts else w) k
  simp only [State.crew?, State.wakeYields, State.core_modCore]
  rw [← this]
  congr 1
  apply List.map_congr_left
  intro p _
  split <;> simp
theorem Beside.wakeYields (u k : Nat) (s : State) (slot : Nat) (parts : List Nat) : Beside u k s (s.wakeYields u slot parts) := by
  refine Beside.of_setCore rfl rfl (fun j _ => ?_)
  have := State.crew?_wakeYields s u slot parts j
  simp only [State.crew?, State.wakeYields, State.core_modCore] at this
  dsimp only
  rw [this]
  cases SMap.find? (s.core u).crews j with
  | none => rfl
  | some w => simp only [Option.map_some]; split <;> simp

/-! Recording. -/

/-- A crew apart from where its recording stands. -/
def unrec (w : Crew) : Crew := { w with dbgctl := 0, recOk := false, recPos := 0 }
theorem foldl_putByte_cores (bs : List (Nat × Byte)) (s : State) : (bs.foldl (fun s p => s.putByte p.1 p.2) s).cores = s.cores := by
  induction bs generalizing s with
  | nil => rfl
  | cons b bs ih => rw [List.foldl_cons, ih]; rfl
theorem foldl_hitMonitors_cores (ls : List Nat) (s : State) : (ls.foldl (fun s l => s.hitMonitors (128 * l)) s).cores = s.cores := by
  induction ls generalizing s with
  | nil => rfl
  | cons l ls ih => rw [List.foldl_cons, ih]; rfl
@[simp] theorem State.writeHome_cores (s : State) (bs : List (Nat × Byte)) : (s.writeHome bs).cores = s.cores := by
  simp [State.writeHome, foldl_hitMonitors_cores, foldl_putByte_cores]
@[simp] theorem State.writeAll_cores (s : State) (bs : List (Nat × Byte)) : (s.writeAll bs).cores = s.cores := by simp [State.writeAll]
theorem State.crew?_of_cores {s t : State} (h : t.cores = s.cores) (u k : Nat) : t.crew? u k = s.crew? u k := by simp [State.crew?, State.core, h]
@[simp] theorem State.crew?_modGroup (s : State) (u g : Nat) (f : Group → Group) (n k : Nat) : (s.modGroup u g f).crew? n k = s.crew? n k := by
  by_cases h : n = u
  · subst h; simp [State.crew?, State.modGroup]
  · simp only [State.crew?, State.modGroup, State.modCore]; rw [State.core_setCore_other _ _ h]
@[simp] theorem State.crew?_recStore (s : State) (u gid ctx va : Nat) (bs : List Byte) (n k : Nat) :
    (s.recStore u gid ctx va bs).crew? n k = s.crew? n k := by
  simp only [State.recStore, State.noteEvent, State.crew?_modGroup]
  exact State.crew?_of_cores (by simp) n k
theorem State.crew?_record (s : State) (u slot : Nat) (bs : List Byte) : ((s.record u slot bs).crew? u slot).map unrec = (s.crew? u slot).map unrec := by
  unfold State.record
  cases h : s.crew? u slot with
  | none => simp [h]
  | some w =>
    simp only
    split
    · simp [h]
    · split
      · simp [h, unrec]
      · simp only [State.crew?_modCrew, State.crew?_recStore, h, Option.map_some]
        rfl
theorem State.crew?_logValue (s : State) (u slot : Nat) (val : DWord) (a b c : Nat) :
    ((s.logValue u slot val a b c).crew? u slot).map unrec = (s.crew? u slot).map unrec := by
  unfold State.logValue
  cases h : s.crew? u slot with
  | none => simp [h]
  | some w =>
    simp only
    split
    · rw [State.crew?_record, h]
    · simp [h]
theorem State.logValue_off {s : State} {u slot : Nat} {w : Crew} (h : s.crew? u slot = some w) (hr : w.recOk = false) (val : DWord) (a b c : Nat) :
    s.logValue u slot val a b c = s := by simp [State.logValue, h, hr]

/-- The issue of a group without operations: nothing, or records of the crew. -/
theorem State.crew?_groupOps (s : State) (iss : Issue) (slot : Nat) (w : Crew) (h : iss.fx.ops = []) :
    ((s.groupOps iss slot w).crew? iss.unit slot).map unrec = (s.crew? iss.unit slot).map unrec := by
  have logs : ∀ (xs : List (Nat × Nat × DWord)) (s : State),
      ((xs.foldl (fun s e => s.logValue iss.unit slot e.2.2 w.stroke e.1 e.2.1) s).crew? iss.unit slot).map unrec = (s.crew? iss.unit slot).map unrec := by
    intro xs
    induction xs with
    | nil => intro s; rfl
    | cons x xs ih => intro s; rw [List.foldl_cons, ih, State.crew?_logValue]
  have paths : ∀ (xs : List Nat) (s : State),
      ((xs.foldl (fun s k => s.logRunning iss.unit slot w k) s).crew? iss.unit slot).map unrec =
        (s.crew? iss.unit slot).map unrec := by
    intro xs
    induction xs with
    | nil => intro s; rfl
    | cons x xs ih =>
      intro s
      rw [List.foldl_cons, ih]
      unfold State.logRunning State.logChoice
      split
      · split
        · exact State.crew?_logValue _ _ _ _ _ _ _
        · rfl
      · rfl
  simp only [State.groupOps, h, List.filterMap_nil, flagOnce, List.flatMap_nil, List.foldl_nil, ite_self]
  rw [logs, paths]
theorem State.groupOps_off (s : State) (iss : Issue) (slot : Nat) (w w' : Crew) (h : iss.fx.ops = []) (hw : s.crew? iss.unit slot = some w')
    (hr : w'.recOk = false) : s.groupOps iss slot w = s := by
  have logs : ∀ xs : List (Nat × Nat × DWord), xs.foldl (fun s e => s.logValue iss.unit slot e.2.2 w.stroke e.1 e.2.1) s = s := by
    intro xs
    induction xs with
    | nil => rfl
    | cons x xs ih => rw [List.foldl_cons, State.logValue_off hw hr, ih]
  have paths : ∀ xs : List Nat, xs.foldl (fun s k => s.logRunning iss.unit slot w k) s = s := by
    intro xs
    induction xs with
    | nil => rfl
    | cons x xs ih =>
      rw [List.foldl_cons]
      have : s.logRunning iss.unit slot w x = s := by
        unfold State.logRunning State.logChoice
        split
        · split
          · exact State.logValue_off hw hr _ _ _ _
          · rfl
        · rfl
      rw [this, ih]
  simp only [State.groupOps, h, List.filterMap_nil, flagOnce, List.flatMap_nil, List.foldl_nil, ite_self, paths, logs]

/-! The group's effect on its crew. -/

/-- Effects that raise no cause and move no thread but to the next PC: registers, conditions, falls, logs, suspicion. -/
structure Fx.plain (fx : Fx) : Prop where
  raises : fx.raises = []
  jumps : fx.jumps = []
  rets : fx.rets = []
  gone : fx.gone = []
  again : fx.again = []
  parks : fx.parks = []
  ops : fx.ops = []

@[simp] theorem Crew.checkPart_regs (w : Crew) : w.checkPart.regs = w.regs := by unfold Crew.checkPart; dsimp only; split; rfl; split <;> rfl
@[simp] theorem Crew.checkPart_sculls (w : Crew) : w.checkPart.sculls = w.sculls := by unfold Crew.checkPart; dsimp only; split; rfl; split <;> rfl
@[simp] theorem Crew.checkPart_threads (w : Crew) : w.checkPart.threads = w.threads := by unfold Crew.checkPart; dsimp only; split; rfl; split <;> rfl
@[simp] theorem Crew.checkPart_control (w : Crew) : controls w.checkPart = controls w := by unfold Crew.checkPart; dsimp only; split; rfl; split <;> rfl
@[simp] theorem Crew.replayStop_regs (w : Crew) : w.replayStop.regs = w.regs := by unfold Crew.replayStop; split; split <;> rfl; rfl
@[simp] theorem Crew.replayStop_sculls (w : Crew) : w.replayStop.sculls = w.sculls := by unfold Crew.replayStop; split; split <;> rfl; rfl
@[simp] theorem Crew.replayStop_threads (w : Crew) : w.replayStop.threads = w.threads := by unfold Crew.replayStop; split; split <;> rfl; rfl
@[simp] theorem Crew.replayStop_control (w : Crew) : controls w.replayStop = controls w := by unfold Crew.replayStop; split; split <;> rfl; rfl
@[simp] theorem Crew.moveOn_regs (w : Crew) (iss : Issue) (p : List (Nat × Pend)) (g : List (Nat × Goal)) (h k x : List Nat) :
    (w.moveOn iss p g h k x).regs = w.regs := by simp [Crew.moveOn]
theorem Crew.moveOn_control (w : Crew) (iss : Issue) (p : List (Nat × Pend)) (g : List (Nat × Goal)) (h k : List Nat) :
    controls (w.moveOn iss p g h k []) = controls w :=
  (Crew.replayStop_control _).trans ((Crew.checkPart_control _).trans (by simp [controls, maskOf]))
@[simp] theorem Crew.afterGroup_control (w : Crew) (iss : Issue) (good shd : List Nat) : controls (w.afterGroup iss good shd) = controls w := rfl
@[simp] theorem Crew.stepDone_regs (w : Crew) : w.stepDone.regs = w.regs := by unfold Crew.stepDone; split <;> rfl
@[simp] theorem Crew.stepDone_sculls (w : Crew) : w.stepDone.sculls = w.sculls := by unfold Crew.stepDone; split <;> rfl
@[simp] theorem Crew.stepDone_threads (w : Crew) : w.stepDone.threads = w.threads := by unfold Crew.stepDone; split <;> rfl
@[simp] theorem Crew.stepDone_control (w : Crew) : controls w.stepDone = controls w := by unfold Crew.stepDone; split <;> rfl
@[simp] theorem Crew.otherIssued_regs (w : Crew) (o : Bool) (p : List Nat) : (w.otherIssued o p).regs = w.regs := by cases o <;> rfl
@[simp] theorem Crew.otherIssued_threads (w : Crew) (o : Bool) (p : List Nat) : (w.otherIssued o p).threads = w.threads := by cases o <;> rfl
@[simp] theorem Crew.otherIssued_control (w : Crew) (o : Bool) (p : List Nat) : controls (w.otherIssued o p) = controls w := by cases o <;> rfl

@[simp] theorem Crew.otherIssued_length (w : Crew) (o : Bool) (p : List Nat) : (w.otherIssued o p).sculls.length = w.sculls.length := by
  cases o <;> simp [Crew.otherIssued]

/-- Two sculls agree but in their paths, age and yield. -/
def Scull.like (x y : Scull) : Prop := y.cf = x.cf ∧ y.pkmask = x.pkmask ∧ y.fstat = x.fstat ∧ y.losspc = x.losspc
theorem Scull.foldl_pushPath_like (gs : List Goal) (mk : Goal → Path) (x : Scull) : x.like (gs.foldl (fun x g => x.pushPath (mk g)) x) := by
  induction gs generalizing x with
  | nil => exact ⟨rfl, rfl, rfl, rfl⟩
  | cons g gs ih => exact ih (x.pushPath (mk g))
theorem Scull.refill_like (x : Scull) : x.like x.refill := by
  unfold Scull.refill
  split
  · exact ⟨rfl, rfl, rfl, rfl⟩
  · split
    · exact ⟨rfl, rfl, rfl, rfl⟩
    · exact ⟨rfl, rfl, rfl, rfl⟩
theorem Scull.split_like (x : Scull) (k : Nat) (p : Path) (pc : Nat) (dest : List (Nat × Goal)) (moved held : List Nat) :
    x.like (x.split k p pc dest moved held) := by
  unfold Scull.split
  dsimp only
  generalize List.foldl (fun gs (d : Nat × Goal) => insertGoal gs d.2) [] (dest.filter (fun d => d.1 / 4 == k)) = goals
  cases goals with
  | nil => exact ⟨rfl, rfl, rfl, rfl⟩
  | cons g gs =>
    dsimp only
    split
    · exact Scull.foldl_pushPath_like gs _ ⟨_, _, _, _, _, _, _, _, _⟩
    · exact Scull.foldl_pushPath_like gs _ ⟨_, _, _, _, _, _, _, _, _⟩
theorem Scull.like_trans {x y z : Scull} (h : x.like y) (g : y.like z) : x.like z :=
  ⟨g.1.trans h.1, g.2.1.trans h.2.1, g.2.2.1.trans h.2.2.1, g.2.2.2.trans h.2.2.2⟩

/-- A group that parks no thread changes only the paths of its sculls. -/
theorem Crew.moveOn_scull (w : Crew) (iss : Issue) (p : List (Nat × Pend)) (g : List (Nat × Goal)) (h x : List Nat) (k : Nat) :
    (w.scull k).like ((w.moveOn iss p g h [] x).scull k) := by
  simp only [Crew.moveOn, Crew.scull, Crew.replayStop_sculls, Crew.checkPart_sculls]
  rw [imap_getD _ _ _ ⟨none, [], [], 0, 0, 0, 0, false, none⟩]
  split
  · split
    · split
      · have := Scull.like_trans (Scull.split_like (w.sculls.getD k ⟨none, [], [], 0, 0, 0, 0, false, none⟩) k ‹_› iss.pc.toNat g iss.moved h) (Scull.refill_like _)
        exact ⟨this.1, by simp [scullMask, maskOf], this.2.2.1, this.2.2.2⟩
      · exact ⟨rfl, rfl, rfl, rfl⟩
    · exact ⟨rfl, rfl, rfl, rfl⟩
  · rename_i hk
    simp only [getD_beyond _ (Nat.le_of_not_lt hk)]
    exact ⟨rfl, rfl, rfl, rfl⟩
/-- Two threads agree in what no instruction of the register families changes. -/
def Thread.like (x y : Thread) : Prop := y.live = x.live ∧ y.hlvl = x.hlvl ∧ y.bara = x.bara ∧ y.mark = x.mark
theorem Crew.moveOn_thread (w : Crew) (iss : Issue) (p : List (Nat × Pend)) (g : List (Nat × Goal)) (h k : List Nat) (t : Nat) :
    (w.thread t).like ((w.moveOn iss p g h k []).thread t) := by
  simp only [Crew.moveOn, Crew.thread, Crew.replayStop_threads, Crew.checkPart_threads]
  rw [imap_getD _ _ _ ⟨false, 0, none, false, [], 0, none, none⟩]
  split
  · simp only [List.contains_nil, Bool.false_eq_true, if_false]
    split <;> exact ⟨rfl, rfl, rfl, rfl⟩
  · rename_i hk
    simp only [getD_beyond _ (Nat.le_of_not_lt hk)]
    exact ⟨rfl, rfl, rfl, rfl⟩
theorem Crew.afterGroup_thread (w : Crew) (iss : Issue) (good shd : List Nat) (t : Nat) : (w.thread t).like ((w.afterGroup iss good shd).thread t) := by
  simp only [Crew.afterGroup, Crew.thread, Crew.writes]
  rw [imap_getD _ _ _ ⟨false, 0, none, false, [], 0, none, none⟩]
  split
  · split <;> exact ⟨rfl, rfl, rfl, rfl⟩
  · rename_i hk
    simp only [getD_beyond _ (Nat.le_of_not_lt hk)]
    exact ⟨rfl, rfl, rfl, rfl⟩
theorem Crew.afterGroup_scull (w : Crew) (iss : Issue) (good shd : List Nat) (k : Nat) (hk : k < w.sculls.length) :
    (w.afterGroup iss good shd).scull k = (w.scull k).conditions k iss.pc.toNat
      (iss.fx.conds.filter (fun c => !iss.fx.bad c.1) ++ shd.map (fun j => (4 * j, condSHD))) (iss.fx.falls.filter (fun c => !iss.fx.bad c.1)) := by
  simp only [Crew.afterGroup, Crew.scull, Crew.writes]
  rw [imap_getD _ _ _ ⟨none, [], [], 0, 0, 0, 0, false, none⟩, if_pos hk]
theorem Scull.conditions_rest (x : Scull) (k pc : Nat) (c : List (Nat × BitVec 7)) (f : List (Nat × Nat)) :
    (x.conditions k pc c f).cf = x.cf ∧ (x.conditions k pc c f).pkmask = x.pkmask := by
  unfold Scull.conditions
  dsimp only
  generalize f.filter (fun p => p.1 / 4 == k) = mine
  cases mine with
  | nil => exact ⟨rfl, rfl⟩
  | cons p ps => dsimp only; split <;> exact ⟨rfl, rfl⟩

theorem unrec_parts {w w' : Crew} (h : unrec w' = unrec w) : w'.regs = w.regs ∧ w'.sculls = w.sculls ∧ w'.threads = w.threads := by
  have a := congrArg Crew.regs h
  have b := congrArg Crew.sculls h
  have c := congrArg Crew.threads h
  exact ⟨a, b, c⟩
theorem Fx.plain_bad {fx : Fx} (p : fx.plain) (t : Nat) : fx.bad t = false := by simp [Fx.bad, p.raises]
theorem Scull.like_refl (x : Scull) : x.like x := ⟨rfl, rfl, rfl, rfl⟩
theorem Thread.like_refl (x : Thread) : x.like x := ⟨rfl, rfl, rfl, rfl⟩
theorem Thread.like_trans {x y z : Thread} (h : x.like y) (g : y.like z) : x.like z :=
  ⟨g.1.trans h.1, g.2.1.trans h.2.1, g.2.2.1.trans h.2.2.1, g.2.2.2.trans h.2.2.2⟩
theorem Crew.otherIssued_scull (w : Crew) (o : Bool) (ps : List Nat) (k : Nat) : (w.scull k).like ((w.otherIssued o ps).scull k) := by
  cases o
  · by_cases hk : k < w.sculls.length
    · simp [Crew.otherIssued, Crew.scull, List.getD, hk]; exact ⟨rfl, rfl, rfl, rfl⟩
    · simp [Crew.otherIssued, Crew.scull, List.getD, hk]; exact ⟨rfl, rfl, rfl, rfl⟩
  · simp only [Crew.otherIssued, Crew.scull, if_true]
    rw [imap_getD _ _ _ ⟨none, [], [], 0, 0, 0, 0, false, none⟩]
    split
    · split
      · exact ⟨rfl, rfl, rfl, rfl⟩
      · split <;> exact ⟨rfl, rfl, rfl, rfl⟩
    · rename_i hk
      rw [getD_beyond _ (Nat.le_of_not_lt hk)]; exact ⟨rfl, rfl, rfl, rfl⟩
theorem Scull.conditions_like {x y : Scull} (h : x.like y) (k pc : Nat) (c : List (Nat × BitVec 7)) (f : List (Nat × Nat)) :
    (x.conditions k pc c f).like (y.conditions k pc c f) := by
  obtain ⟨a, b, e, d⟩ := h
  unfold Scull.conditions
  dsimp only
  generalize f.filter (fun p => p.1 / 4 == k) = mine
  cases mine with
  | nil => exact ⟨a, b, by rw [e], d⟩
  | cons p ps =>
    simp only [e]
    split
    · exact ⟨a, b, rfl, d⟩
    · exact ⟨a, b, rfl, rfl⟩
@[simp] theorem Crew.stepDone_replay (w : Crew) : w.stepDone.replay = w.replay := by unfold Crew.stepDone; split <;> rfl
@[simp] theorem Crew.otherIssued_replay (w : Crew) (o : Bool) (p : List Nat) : (w.otherIssued o p).replay = w.replay := by cases o <;> rfl
@[simp] theorem Crew.stepDone_recOk (w : Crew) : w.stepDone.recOk = w.recOk := by unfold Crew.stepDone; split <;> rfl
@[simp] theorem Crew.otherIssued_recOk (w : Crew) (o : Bool) (p : List Nat) : (w.otherIssued o p).recOk = w.recOk := by cases o <;> rfl
@[simp] theorem Early.wrote_nil (e : Early) : e.wrote [] = e := by simp [Early.wrote]
@[simp] theorem Crew.writes_nil (w : Crew) : w.writes [] = w := by cases w; simp [Crew.writes]
theorem filter_all {α : Type} (xs : List α) (f : α → Bool) (h : ∀ x, f x = true) : xs.filter f = xs := by
  rw [List.filter_eq_self]; intro a _; exact h a

theorem State.crew?_latch (s : State) (x : Option Issue) (u k : Nat) : ({ s with issue := x } : State).crew? u k = s.crew? u k := rfl
theorem State.crew?_pushIf (s : State) (c : Prop) [Decidable c] (i : Instr) (u k : Nat) : (if c then s.push i else s).crew? u k = s.crew? u k := by split <;> rfl
theorem State.crew?_pushNextIf (s : State) (c : Prop) [Decidable c] (i : Instr) (u k : Nat) :
    (if c then s.pushNext i else s).crew? u k = s.crew? u k := by split <;> rfl
theorem State.crew?_pushIf' (s : State) (c : Prop) [Decidable c] (i : Instr) (u k : Nat) : (if c then s else s.push i).crew? u k = s.crew? u k := by split <;> rfl
theorem Beside.pushIf {u k : Nat} {s t : State} (h : Beside u k s t) (c : Prop) [Decidable c] (i : Instr) : Beside u k s (if c then t.push i else t) := by
  split
  · exact h.trans (Beside.push _ _ _ _)
  · exact h
theorem Beside.pushNextIf {u k : Nat} {s t : State} (h : Beside u k s t) (c : Prop) [Decidable c] (i : Instr) :
    Beside u k s (if c then t.pushNext i else t) := by
  split
  · exact h.trans (by constructor <;> first | rfl | (intros; rfl))
  · exact h
theorem Beside.pushIf' {u k : Nat} {s t : State} (h : Beside u k s t) (c : Prop) [Decidable c] (i : Instr) : Beside u k s (if c then t else t.push i) := by
  split
  · exact h
  · exact h.trans (Beside.push _ _ _ _)

/-- What committing a group of plain effects does. -/
theorem State.commitCrew_plain (s : State) (iss : Issue) (slot : Nat) (w : Crew) (hw : s.crew? iss.unit slot = some w)
    (p : iss.fx.plain) (hr : w.replay = none) :
    ∃ w', (s.commitCrew iss slot w).crew? iss.unit slot = some w' ∧
      (∀ key, w'.get key = (lastWrite iss.fx.wr key).getD (w.get key)) ∧
      (∃ shd : List Nat, ∀ k, k < w.sculls.length →
        ((w.scull k).conditions k iss.pc.toNat (iss.fx.conds ++ shd.map (fun j => (4 * j, condSHD))) iss.fx.falls).like (w'.scull k)) ∧
      (∀ k, w.sculls.length ≤ k → (w.scull k).like (w'.scull k)) ∧
      (w.recOk = false → Beside iss.unit slot s (s.commitCrew iss slot w) ∧ controls w' = controls w ∧ ∀ t, (w.thread t).like (w'.thread t)) := by
  have hbad : ∀ t, iss.fx.bad t = false := Fx.plain_bad p
  unfold State.commitCrew
  extract_lets fx u g act good seat s1 w0 raised deferred trapped s2 shd w2 s3 s4 stays stepped pends goes parked gone s4z s5 s6 s7 s8 s9
  have hraised : raised = [] := by simp [raised, fx, Fx.causeOf, p.raises]
  have hdef : deferred = [] := by simp [deferred, hraised]
  have htrap : trapped = [] := by simp [trapped, hraised]
  have hs2 : s2 = s1 := by simp [s2, hdef]
  have hgone : gone = [] := by simp [gone, fx, p.gone]
  have hpark : parked = [] := by simp [parked, fx, p.parks, hdef]
  have hw0 : w0 = (w.stepDone).otherIssued true iss.parts := rfl
  have hz : s4z = s4 := by simp [s4z, hgone, State.zeroLogs]
  have c1 : s1.crew? iss.unit slot = some (w.otherIssued true iss.parts) := by
    simp [s1, u, State.crew?_wakeYields, hw]
  have b1 : Beside iss.unit slot s s1 :=
    (Beside.seatAfter _ _ _ _ _ _ _).trans (Beside.wakeYields _ _ _ _ _)
  have c2 : (s2.modCrew u slot (fun _ => w2)).crew? iss.unit slot = some w2 := by simp [u, hs2, c1]
  have c3 : (s3.crew? iss.unit slot).map unrec = some (unrec w2) := by
    rw [State.crew?_groupOps _ _ _ _ p.ops, c2]; rfl
  obtain ⟨w3, hw3, hu3⟩ : ∃ w3, s3.crew? iss.unit slot = some w3 ∧ unrec w3 = unrec w2 := by
    cases h : s3.crew? iss.unit slot with
    | none => rw [h] at c3; simp at c3
    | some w3 => rw [h] at c3; exact ⟨w3, rfl, by simpa using c3⟩
  obtain ⟨r3, k3, t3⟩ := unrec_parts hu3
  have c4 : s4.crew? iss.unit slot = some w3 := by
    rw [← hw3]; simp only [s4, State.charge]; split <;> rfl
  let w4 := w3.moveOn iss pends goes (trapped.map (·.t) ++ stepped) parked gone
  have c5 : s5.crew? iss.unit slot = some w4 := (State.crew?_modCrew s4z u slot _).trans (by rw [hz, c4]; rfl)
  have c6 : (if (gone.isEmpty && parked.isEmpty) = true then s9 else s9.afterExit u slot) = s9 := by simp [hgone, hpark]
  have c9 : s9.crew? iss.unit slot = some w4 := by
    have h6 : s6.crew? iss.unit slot = some w4 := (State.crew?_latch s5 none _ _).trans c5
    have h7 : s7.crew? iss.unit slot = some w4 := (State.crew?_pushIf _ _ _ _ _).trans h6
    have h8 : s8.crew? iss.unit slot = some w4 := (State.crew?_pushNextIf _ _ _ _ _).trans h7
    exact (State.crew?_pushIf' _ _ _ _ _).trans h8
  have w2regs : w2.regs = (w.writes iss.fx.wr).regs := by
    have h1 : w0.replayWrites good = [] := by simp [Crew.replayWrites, hw0, hr]
    have h2 : (iss.fx.wr.filter (fun x => !iss.fx.bad x.t)) = iss.fx.wr := filter_all _ _ (fun x => by simp [hbad])
    simp only [w2, Crew.afterGroup, h1, h2, Crew.writes_nil]
    simp [Crew.writes, hw0]
  rw [c6]
  refine ⟨w4, c9, ?_, ⟨shd, ?_⟩, ?_, ?_⟩
  · intro key
    have : w4.regs = (w.writes iss.fx.wr).regs := by rw [show w4.regs = w3.regs from Crew.moveOn_regs _ _ _ _ _ _ _, r3, w2regs]
    rw [show w4.get key = (w.writes iss.fx.wr).get key by simp only [Crew.get, this]]
    simp
  · intro k hk
    have hk0 : k < w0.sculls.length := by
      rw [hw0]; simp [hk]
    have h1 := Crew.afterGroup_scull w0 iss good shd k hk0
    have f1 : iss.fx.conds.filter (fun c => !iss.fx.bad c.1) = iss.fx.conds := filter_all _ _ (fun x => by simp [hbad])
    have f2 : iss.fx.falls.filter (fun c => !iss.fx.bad c.1) = iss.fx.falls := filter_all _ _ (fun x => by simp [hbad])
    rw [f1, f2] at h1
    have h2 : (w.scull k).like (w0.scull k) := by
      rw [hw0]
      have : w.scull k = w.stepDone.scull k := by simp [Crew.scull]
      rw [this]; exact Crew.otherIssued_scull _ _ _ _
    have h3 : w3.scull k = w2.scull k := by simp [Crew.scull, k3]
    have h4 : (w3.scull k).like (w4.scull k) := by simp only [w4, hpark]; exact Crew.moveOn_scull _ _ _ _ _ _ _
    suffices hs : ((w.scull k).conditions k iss.pc.toNat (iss.fx.conds ++ shd.map (fun j => (4 * j, condSHD))) iss.fx.falls).like (w3.scull k) from Scull.like_trans hs h4
    rw [h3, show w2.scull k = _ from h1]
    exact Scull.conditions_like h2 _ _ _ _
  · intro k hk
    have h2 : (w.scull k).like (w0.scull k) := by
      rw [hw0]
      have : w.scull k = w.stepDone.scull k := by simp [Crew.scull]
      rw [this]; exact Crew.otherIssued_scull _ _ _ _
    have h4 : (w3.scull k).like (w4.scull k) := by simp only [w4, hpark]; exact Crew.moveOn_scull _ _ _ _ _ _ _
    suffices hs : (w0.scull k).like (w3.scull k) from Scull.like_trans h2 (Scull.like_trans hs h4)
    have h5 : w2.scull k = w0.scull k := by
      have : w0.sculls.length ≤ k := by rw [hw0]; simpa using hk
      simp only [w2, Crew.afterGroup, Crew.scull, Crew.writes]
      rw [getD_beyond _ this, getD_beyond _ (by simpa using this)]
    rw [show w3.scull k = w2.scull k by simp [Crew.scull, k3], h5]
    exact Scull.like_refl _
  · intro hrec
    have e3 : s3 = s2.modCrew u slot (fun _ => w2) := State.groupOps_off _ _ _ _ _ p.ops c2 (by
      have : w2.recOk = w0.recOk := rfl
      rw [this, hw0]; simpa using hrec)
    have e3' : w3 = w2 := by rw [e3] at hw3; rw [c2] at hw3; exact (Option.some.inj hw3).symm
    have b2 : Beside iss.unit slot s s3 := by
      rw [e3, hs2]; exact b1.trans (Beside.modCrew _ _ _ _)
    have b5 : Beside iss.unit slot s s5 := by
      rw [show s5 = s4.modCrew u slot (fun w => w.moveOn iss pends goes (trapped.map (·.t) ++ stepped) parked gone) by simp only [s5, hz]]
      exact (b2.trans (Beside.charge _ _ _ _ _ _)).trans (Beside.modCrew _ _ _ _)
    have b6 : Beside iss.unit slot s s6 := b5.trans (Beside.latch _ _ _ _)
    have b7 : Beside iss.unit slot s s7 := b6.pushIf _ _
    have b8 : Beside iss.unit slot s s8 := b7.pushNextIf _ _
    have b9 : Beside iss.unit slot s s9 := b8.pushIf' _ _
    refine ⟨b9, ?_, ?_⟩
    · simp only [w4, hgone]
      rw [Crew.moveOn_control, e3']
      simp only [w2, Crew.afterGroup_control, hw0, Crew.otherIssued_control, Crew.stepDone_control]
    · intro t
      have h1 : w.thread t = w0.thread t := by simp [hw0, Crew.thread]
      rw [h1]
      have hh : (w0.thread t).like (w2.thread t) := Crew.afterGroup_thread w0 iss good shd t
      apply Thread.like_trans hh
      simp only [w4, hgone, e3']
      exact Crew.moveOn_thread _ _ _ _ _ _ _
/-! A member that is alone in its group. -/

theorem State.view_issue {s : State} {v : View} (h : s.view = some v) : s.issue = some v.iss := by
  unfold State.view at h
  split at h
  · simp at h
  · rename_i iss hi
    dsimp only at h
    split at h
    · split at h
      · simp at h
      · simp only [Option.some.injEq] at h; rw [hi, ← h]
    · split at h
      · simp at h
      · simp only [Option.some.injEq] at h; rw [hi, ← h]
theorem State.view_crew {s : State} {v : View} {k : Nat} (h : s.view = some v) (hw : v.iss.who = .crew k) :
    s.crew? v.iss.unit k = some v.crew ∧ v.core = s.core v.iss.unit ∧ v.grp = v.core.groups.get Group.blank v.crew.gid := by
  unfold State.view at h
  split at h
  · simp at h
  · rename_i iss hi
    dsimp only at h
    split at h
    · rename_i slot hs
      split at h
      · simp at h
      · rename_i w hf
        simp only [Option.some.injEq] at h
        subst h
        simp only at hw
        rw [hs] at hw
        injection hw with e
        subst e
        exact ⟨hf, rfl, rfl⟩
    · split at h
      · simp at h
      · rename_i g' hs _ _ _
        simp only [Option.some.injEq] at h
        subst h
        simp only at hw
        rw [hs] at hw; cases hw
theorem State.view_cox {s : State} {v : View} {g : Nat} (h : s.view = some v) (hw : v.iss.who = .cox g) :
    s.group? v.iss.unit g = some v.grp ∧ v.crew = Crew.blank ∧ v.core = s.core v.iss.unit := by
  unfold State.view at h
  split at h
  · simp at h
  · rename_i iss hi
    dsimp only at h
    split at h
    · rename_i slot hs
      split at h
      · simp at h
      · simp only [Option.some.injEq] at h
        subst h
        simp only at hw
        rw [hs] at hw; cases hw
    · rename_i g' hs
      split at h
      · simp at h
      · rename_i x hf
        simp only [Option.some.injEq] at h
        subst h
        simp only at hw
        rw [hs] at hw
        injection hw with e
        subst e
        exact ⟨hf, rfl, rfl⟩

@[simp] theorem Fx.append_empty (fx : Fx) : Fx.empty.append fx = fx := by cases fx; simp [Fx.append, Fx.empty]
@[simp] theorem State.group?_modGroup (s : State) (u g : Nat) (f : Group → Group) : (s.modGroup u g f).group? u g = (s.group? u g).map f := by
  simp [State.group?, State.modGroup, SMap.find?_modify_same]
theorem State.group?_modGroup_other (s : State) (u : Nat) {g j : Nat} (f : Group → Group) (h : j ≠ g) : (s.modGroup u g f).group? u j = s.group? u j := by
  simp [State.group?, State.modGroup, SMap.find?_modify_other _ _ h]

theorem or_and7 (a b c : BitVec 7) : (a ||| b) &&& c = (a &&& c) ||| (b &&& c) := by ext i h; simp [Bool.and_or_distrib_right]

/-- An instruction alone in its group commits its effects. -/
theorem emit_last {s : State} {v : View} (h : Alone s v) (fx : Fx) : emit s fx = .next (s.commit { v.iss with fx := fx }) := by
  simp only [emit, State.view_issue h.view, h.first, Fx.append_empty]
  simp [h.last, Issue.mustRerun, h.only]
theorem State.commit_crew {s : State} {iss : Issue} {k : Nat} {w : Crew} (h : iss.who = .crew k) (hw : s.crew? iss.unit k = some w) :
    s.commit iss = s.commitCrew iss k w := by simp [State.commit, h, hw]
theorem State.commit_cox {s : State} {iss : Issue} {g : Nat} (h : iss.who = .cox g) : s.commit iss = s.commitCox iss g := by simp [State.commit, h]

theorem foldl_append_wr (ts : List Nat) (f : Nat → Fx) (a : Fx) :
    (ts.foldl (fun a t => a.append (f t)) a).wr = a.wr ++ ts.flatMap (fun t => (f t).wr) ∧
    (ts.foldl (fun a t => a.append (f t)) a).conds = a.conds ++ ts.flatMap (fun t => (f t).conds) ∧
    (ts.foldl (fun a t => a.append (f t)) a).falls = a.falls ++ ts.flatMap (fun t => (f t).falls) := by
  induction ts generalizing a with
  | nil => simp
  | cons t ts ih =>
    obtain ⟨h1, h2, h3⟩ := ih (a.append (f t))
    rw [List.foldl_cons, h1, h2, h3]
    simp [Fx.append]
theorem fxAll_plain (ts : List Nat) (f : Nat → Fx) (h : ∀ t, (f t).plain) : (fxAll ts f).plain := by
  have : ∀ (ts : List Nat) (a : Fx), a.plain → (ts.foldl (fun a t => a.append (f t)) a).plain := by
    intro ts
    induction ts with
    | nil => intro a ha; exact ha
    | cons t ts ih =>
      intro a ha
      refine ih _ ⟨?_, ?_, ?_, ?_, ?_, ?_, ?_⟩ <;> simp [Fx.append, ha.raises, ha.jumps, ha.rets, ha.gone, ha.again, ha.parks, ha.ops,
        (h t).raises, (h t).jumps, (h t).rets, (h t).gone, (h t).again, (h t).parks, (h t).ops]
  exact this ts _ ⟨rfl, rfl, rfl, rfl, rfl, rfl, rfl⟩

theorem shd_fold (xs : List Nat) (j : Nat) (a : BitVec 7) :
    (((xs.map (fun j => (4 * j, condSHD))).filter (fun p => p.1 / 4 == j)).foldl (fun a p => a ||| p.2) a) &&& ~~~condSHD = a &&& ~~~condSHD := by
  induction xs generalizing a with
  | nil => rfl
  | cons x xs ih =>
    simp only [List.map_cons, List.filter_cons]
    split
    · rw [List.foldl_cons, ih]
      have : condSHD &&& ~~~condSHD = 0 := by decide
      rw [or_and7, this]; simp
    · exact ih a
theorem and_shd_bit5 {a b : BitVec 7} (h : a &&& ~~~condSHD = b &&& ~~~condSHD) : bitAt a.toNat 5 = b.getLsbD 5 := by
  have h5 : (a &&& ~~~condSHD).getLsbD 5 = (b &&& ~~~condSHD).getLsbD 5 := by rw [h]
  have e : (~~~condSHD).getLsbD 5 = true := by decide
  simp only [BitVec.getLsbD_and, e, Bool.and_true] at h5
  rw [← h5, BitVec.getLsbD, Nat.testBit_eq_decide_div_mod_eq]
  simp only [bitAt, Nat.shiftRight_eq_div_pow]
  rfl
theorem conds_fold (ts : List Nat) (c : Nat → BitVec 7) (j : Nat) (a : BitVec 7) :
    ((ts.flatMap (fun t => if c t = 0 then [] else [(t, c t)])).filter (fun p => p.1 / 4 == j)).foldl (fun a p => a ||| p.2) a =
      (ts.filter (fun i => i / 4 == j)).foldl (fun a i => a ||| c i) a := by
  induction ts generalizing a with
  | nil => rfl
  | cons t ts ih =>
    simp only [List.flatMap_cons, List.filter_append, List.foldl_append, ih, List.filter_cons]
    by_cases ht : (t / 4 == j) = true
    · simp only [ht, if_true, List.foldl_cons]
      split
      · rename_i h0; simp [h0]
      · simp [ht]
    · simp only [ht]
      split
      · simp
      · simp [ht]
theorem falls_filter (ts : List Nat) (b : Nat → Bool) (idx j : Nat) :
    (ts.flatMap (fun t => if b t then [(t, idx)] else [])).filter (fun p => p.1 / 4 == j) =
      ((ts.filter (fun i => i / 4 == j)).filter b).map (fun t => (t, idx)) := by
  induction ts with
  | nil => rfl
  | cons t ts ih =>
    simp only [List.flatMap_cons, List.filter_append, ih, List.filter_cons]
    by_cases ht : (t / 4 == j) = true <;> by_cases hb : b t = true <;> simp [ht, hb]
theorem min_const (ps : List Nat) (idx : Nat) : (ps.map (fun t => (t, idx))).foldl (fun m q => min m q.2) idx = idx := by
  induction ps with
  | nil => rfl
  | cons p ps ih => simpa using ih

/-- What an instruction alone in its group does with plain effects: registers, the sculls' conditions, and nothing else. -/
theorem emit_alone {s : State} {v : View} (h : Alone s v) (fx : Fx) (p : fx.plain) :
    ∃ t, emit s fx = .next t ∧ Landed s t v (lastWrite fx.wr) ∧
      (∀ k w, v.iss.who = .crew k → t.crew? v.iss.unit k = some w →
        (∃ shd : List Nat, ∀ j, j < v.crew.sculls.length →
          ((v.crew.scull j).conditions j v.iss.pc.toNat (fx.conds ++ shd.map (fun i => (4 * i, condSHD))) fx.falls).like (w.scull j)) ∧
        (∀ j, v.crew.sculls.length ≤ j → (v.crew.scull j).like (w.scull j))) ∧
      (v.crew.recOk = false → Quiet s t v) := by
  have hi := State.view_issue h.view
  refine ⟨_, emit_last h fx, ?_⟩
  generalize hiss : ({ v.iss with fx := fx } : Issue) = iss
  have hu : iss.unit = v.iss.unit := by rw [← hiss]
  have hpc : iss.pc = v.iss.pc := by rw [← hiss]
  have hwho : iss.who = v.iss.who := by rw [← hiss]
  have hfx : iss.fx = fx := by rw [← hiss]
  cases hw : v.iss.who with
  | crew k =>
    obtain ⟨hcw, hcore, hgrp⟩ := State.view_crew h.view hw
    have hv : v.isCox = false := by simp [View.isCox, hw]
    rw [State.commit_crew (hwho.trans hw) (by rw [hu]; exact hcw)]
    obtain ⟨w', c, r, ⟨shd, f⟩, f', q⟩ := State.commitCrew_plain s iss k v.crew (by rw [hu]; exact hcw) (by rw [hfx]; exact p) h.live
    rw [hu] at c
    rw [hfx] at r
    refine ⟨?_, ?_, ?_⟩
    · intro key old ho
      simp only [hw, regOf, hcw, Option.map_some, Option.some.injEq] at ho
      simp only [hw, regOf, c, Option.map_some, r, hv, ho]
      cases lastWrite fx.wr key <;> simp
    · intro k' w hk' hw'
      have : k' = k := by injection hk' with e; exact e.symm
      subst this
      rw [c] at hw'; injection hw' with e; subst e
      rw [hfx, hpc] at f
      exact ⟨⟨shd, f⟩, f'⟩
    · intro hrec
      obtain ⟨b, cc, th⟩ := q hrec
      rw [hu] at b
      refine ⟨b.free, b.mem, b.poison, b.origins, b.contexts, b.graphs, b.pushes, b.rounds, b.roundOf, b.monitors, b.clusters, b.copies, b.iod,
        b.routes, b.modnum, b.cores, b.core, ?_, ?_, ?_⟩
      · intro g _; simp [State.group?, b.groups]
      · intro j hj
        exact b.crews j (fun e => hj (by rw [hw, e]))
      · intro k' w hk' hw'
        have : k' = k := by rw [hw] at hk'; injection hk' with e; exact e.symm
        subst this
        rw [c] at hw'; injection hw' with e; subst e
        refine ⟨cc, ?_, th⟩
        intro j
        by_cases hj : j < v.crew.sculls.length
        · obtain ⟨a, b, -, -⟩ := f j hj
          have := Scull.conditions_rest (v.crew.scull j) j iss.pc.toNat (iss.fx.conds ++ shd.map (fun j => (4 * j, condSHD))) iss.fx.falls
          exact ⟨a.trans this.1, b.trans this.2⟩
        · obtain ⟨a, b, -, -⟩ := f' j (Nat.le_of_not_lt hj)
          exact ⟨a, b⟩
  | cox g =>
    obtain ⟨hg, hcrew, hcore⟩ := State.view_cox h.view hw
    have hv : v.isCox = true := by simp [View.isCox, hw]
    obtain ⟨x, hx⟩ : ∃ x, v.grp.cox = some x := by
      have := h.here
      rw [hw] at this
      simp only [regOf, hg, Option.bind_some] at this
      cases hx : v.grp.cox with
      | none => rw [hx] at this; simp at this
      | some x => exact ⟨x, rfl⟩
    rw [State.commit_cox (hwho.trans hw)]
    simp only [State.commitCox, hfx, hu, p.raises, p.ops, p.jumps, p.gone, List.foldl_nil, List.isEmpty_nil, if_true]
    refine ⟨?_, ?_, ?_⟩
    · intro key old ho
      simp only [hw, regOf, hg, Option.bind_some, hx, Option.map_some, Option.some.injEq] at ho
      subst ho
      have : ∀ (t : State) (y : Option Issue) (u g : Nat), ({ t with issue := y } : State).group? u g = t.group? u g := fun _ _ _ _ => rfl
      simp only [hw, regOf, this, State.group?_modGroup, State.applyWrites, hg, hx, Option.map_some, Option.bind_some, get_foldl_setc, hv, if_true]
      cases lastWrite fx.wr key <;> simp
    · intro k w hk; cases hk
    · intro _
      constructor <;> try rfl
      · intro n hn
        have : ∀ (t : State) (y : Option Issue) (u : Nat), ({ t with issue := y } : State).core u = t.core u := fun _ _ _ => rfl
        simp only [this, State.applyWrites, State.modGroup, State.modCore]
        rw [State.core_setCore_other _ _ hn, State.core_setCore_other _ _ hn]
      · have : ∀ (t : State) (y : Option Issue) (u : Nat), ({ t with issue := y } : State).core u = t.core u := fun _ _ _ => rfl
        simp only [this, State.applyWrites, State.modGroup, State.modCore, State.core_setCore, uncore]
      · intro j hj
        have hne : j ≠ g := fun e => hj (by rw [hw, e])
        have : ∀ (t : State) (y : Option Issue) (u g : Nat), ({ t with issue := y } : State).group? u g = t.group? u g := fun _ _ _ _ => rfl
        simp only [this, State.applyWrites]
        rw [State.group?_modGroup_other _ _ _ hne, State.group?_modGroup_other _ _ _ hne]
      · intro j _
        have : ∀ (t : State) (y : Option Issue) (u k : Nat), ({ t with issue := y } : State).crew? u k = t.crew? u k := fun _ _ _ _ => rfl
        have h2 : ∀ (t : State) (u g k : Nat) (f : Group → Group), (t.modGroup u g f).crew? u k = t.crew? u k := by
          intros; simp [State.crew?, State.modGroup]
        simp only [this, State.applyWrites, h2]
      · intro k w hk; rw [hw] at hk; cases hk

/-- Without conditions and falls, FSTAT and LOSSPC stand. -/
theorem emit_plain {s : State} {v : View} (h : Alone s v) (fx : Fx) (p : fx.plain) (hc : fx.conds = []) (hf : fx.falls = []) :
    ∃ t, emit s fx = .next t ∧ Landed s t v (lastWrite fx.wr) ∧ FlagsKept t v ∧ (v.crew.recOk = false → Quiet s t v) := by
  obtain ⟨t, e, l, f, q⟩ := emit_alone h fx p
  refine ⟨t, e, l, ?_, q⟩
  intro k w hk hw j
  obtain ⟨⟨shd, f1⟩, f2⟩ := f k w hk hw
  by_cases hj : j < v.crew.sculls.length
  · have := f1 j hj
    rw [hc, hf, List.nil_append] at this
    obtain ⟨-, -, a, b⟩ := this
    rw [a, b]
    constructor
    · simp only [Scull.conditions, List.filter_nil]
      rw [or_and7, shd_fold]; simp
    · simp [Scull.conditions]
  · obtain ⟨-, -, a, b⟩ := f2 j (Nat.le_of_not_lt hj)
    rw [a, b]; exact ⟨rfl, rfl⟩
/-- Conditions and falls of the threads `ts`, gathered scull by scull. -/
theorem emit_float {s : State} {v : View} (h : Alone s v) (fx : Fx) (p : fx.plain) (ts : List Nat) (c : Nat → BitVec 7) (b : Nat → Bool)
    (hc : fx.conds = ts.flatMap (fun t => if c t = 0 then [] else [(t, c t)])) (hf : fx.falls = ts.flatMap (fun t => if b t then [(t, v.iss.idx)] else [])) :
    ∃ t, emit s fx = .next t ∧ Landed s t v (lastWrite fx.wr) ∧ FlagsSet t v ts c b ∧ (v.crew.recOk = false → Quiet s t v) := by
  obtain ⟨t, e, l, f, q⟩ := emit_alone h fx p
  refine ⟨t, e, l, ?_, q⟩
  intro k w hk hw j hj
  obtain ⟨⟨shd, f1⟩, -⟩ := f k w hk hw
  obtain ⟨-, -, a, l'⟩ := f1 j hj
  dsimp only
  rw [a, l']
  simp only [Scull.conditions, hc, hf, falls_filter, List.filter_append, List.foldl_append, conds_fold]
  have key : ((v.crew.scull j).fstat ||| (((shd.map (fun j => (4 * j, condSHD))).filter (fun p => p.1 / 4 == j)).foldl (fun a p => a ||| p.2)
      ((ts.filter (fun i => i / 4 == j)).foldl (fun a i => a ||| c i) 0))) &&& ~~~condSHD =
      ((ts.filter (fun i => i / 4 == j)).foldl (fun c' i => c' ||| c i) (v.crew.scull j).fstat) &&& ~~~condSHD := by
    rw [or_and7, shd_fold, ← or_and7]
    have : ∀ (xs : List Nat) (a b : BitVec 7), a ||| xs.foldl (fun a i => a ||| c i) b = xs.foldl (fun a i => a ||| c i) (a ||| b) := by
      intro xs
      induction xs with
      | nil => intro a b; rfl
      | cons x xs ih => intro a b; rw [List.foldl_cons, List.foldl_cons, ih, BitVec.or_assoc]
    rw [this]; simp
  have bit := and_shd_bit5 key
  cases hm : (ts.filter (fun i => i / 4 == j)).filter b with
  | nil => simp only [List.map_nil, if_true, true_or]; exact ⟨key, trivial⟩
  | cons y ys =>
    simp only [List.map_cons, reduceCtorEq, if_false, false_or, bit]
    split
    · rename_i h5
      have h5' : (List.foldl (fun c' i => c' ||| c i) (v.crew.scull j).fstat (List.filter (fun i => i / 4 == j) ts)).getLsbD 5 = true := h5
      have : (List.foldl (fun c' i => c' ||| c i) (v.crew.scull j).fstat (List.filter (fun i => i / 4 == j) ts)) ||| condSIG =
          List.foldl (fun c' i => c' ||| c i) (v.crew.scull j).fstat (List.filter (fun i => i / 4 == j) ts) := by
        generalize List.foldl (fun c' i => c' ||| c i) (v.crew.scull j).fstat (List.filter (fun i => i / 4 == j) ts) = z at h5' ⊢
        revert z; decide
      rw [this]
      exact ⟨key, rfl⟩
    · constructor
      · rw [or_and7, key, ← or_and7]
      · have hm' : ∀ xs : List Nat, (xs.map (fun t => (t, v.iss.idx))).foldl (fun m q => min m q.2) v.iss.idx = v.iss.idx := fun xs => min_const xs _
        have hfil : ∀ xs : List Nat, (((xs.map (fun t => (t, v.iss.idx))).filter (fun q => q.2 == v.iss.idx)).map (·.1)) = xs := by
          intro xs; induction xs with
          | nil => rfl
          | cons x xs ih => simp [ih]
        have hmem : ∀ x ∈ y :: ys, x / 4 = j := by
          intro x hx
          rw [← hm] at hx
          simpa using (List.mem_filter.mp (List.mem_filter.mp hx).1).2
        have hall : (y :: ys).filter (fun t => t / 4 == j) = y :: ys := by
          rw [List.filter_eq_self]; intro x hx; simpa using hmem x hx
        simp only [hm']
        rw [show ((y, v.iss.idx) :: ys.map (fun t => (t, v.iss.idx))) = (y :: ys).map (fun t => (t, v.iss.idx)) from rfl, hfil]
        simp only [scullMask, hall, lineOf, slotOf, List.map_cons]

/-! Register results of the threads. -/

theorem View.active_nodup (v : View) : v.active.Nodup := by
  unfold View.active bitsOf
  exact List.Pairwise.filter _ List.nodup_range
theorem View.lanes_inj {s : State} {v : View} (h : Alone s v) (g : Guard) (d : Reg) (k : Nat) :
    ∀ i ∈ v.lanes g d, ∀ j ∈ v.lanes g d, v.key i d = some k → v.key j d = some k → i = j := by
  intro i hi j hj ki kj
  by_cases hc : v.isCox = true
  · have ha := h.one hc
    have m : ∀ x ∈ v.lanes g d, x = 0 := by
      intro x hx
      have : x ∈ v.active := by
        unfold View.lanes at hx
        split at hx
        · exact (List.mem_filter.mp (List.mem_of_mem_take hx)).1
        · exact (List.mem_filter.mp hx).1
      rw [ha] at this; simpa using this
    rw [m i hi, m j hj]
  · cases d with
    | v n =>
      simp only [View.key, hc, Option.some.injEq] at ki kj
      simp at ki kj; omega
    | k n =>
      simp only [View.lanes, Reg.isCrew, if_true] at hi hj
      cases hv : v.acting g with
      | nil => rw [hv] at hi; simp at hi
      | cons x xs => rw [hv] at hi hj; simp at hi hj; rw [hi, hj]
    | _ => simp [View.key] at ki
theorem View.w1_eq (v : View) (t : Nat) (r : Reg) (x : Word) (g : Tag) :
    v.w1 t r x g = (match v.key t r with | some k => [⟨t, k, x, g⟩] | none => []) := rfl
/-- The writes of one register in each thread are what `single` says. -/
theorem lastWrite_lanes {s : State} {v : View} (h : Alone s v) (g : Guard) (d : Reg) (f : Nat → Word × Tag) (k : Nat) :
    lastWrite ((v.lanes g d).flatMap (fun t => v.w1 t d (f t).1 (f t).2)) k = single v g d f k :=
  lastWrite_single (v.lanes g d) (fun t => v.key t d) f k (View.lanes_inj h g d k)

theorem lastWrite_none {ws : List RegW} {k : Nat} (h : ∀ x ∈ ws, x.key ≠ k) : lastWrite ws k = none := by
  induction ws with
  | nil => rfl
  | cons x xs ih =>
    rw [lastWrite_cons, ih (fun y hy => h y (by simp [hy])), if_neg (h x (by simp))]; rfl
theorem lastWrite_left (ts : List Nat) (A B : Nat → List RegW) (k : Nat) (h : ∀ t ∈ ts, ∀ x ∈ B t, x.key ≠ k) :
    lastWrite (ts.flatMap (fun t => A t ++ B t)) k = lastWrite (ts.flatMap A) k := by
  induction ts with
  | nil => rfl
  | cons t ts ih =>
    simp only [List.flatMap_cons, lastWrite_append]
    rw [ih (fun t ht => h t (by simp [ht])), lastWrite_none (h t (by simp))]; simp
theorem lastWrite_right (ts : List Nat) (A B : Nat → List RegW) (k : Nat) (h : ∀ t ∈ ts, ∀ x ∈ A t, x.key ≠ k) :
    lastWrite (ts.flatMap (fun t => A t ++ B t)) k = lastWrite (ts.flatMap B) k := by
  induction ts with
  | nil => rfl
  | cons t ts ih =>
    simp only [List.flatMap_cons, lastWrite_append]
    rw [ih (fun t ht => h t (by simp [ht])), lastWrite_none (h t (by simp))]; simp

theorem View.active_lt (v : View) {t : Nat} (h : t ∈ v.active) : t < 32 := by
  unfold View.active bitsOf at h
  exact List.mem_range.mp (List.mem_filter.mp h).1
theorem View.lanes_active {v : View} {g : Guard} {d : Reg} {t : Nat} (h : t ∈ v.lanes g d) : t ∈ v.active := by
  unfold View.lanes at h
  split at h
  · exact (List.mem_filter.mp (List.mem_of_mem_take h)).1
  · exact (List.mem_filter.mp h).1

theorem regPlus_v (n : Fin 224) : regPlus (.v n) 1 = .v ⟨(n.val + 1) % 224, Nat.mod_lt _ (by omega)⟩ := rfl
theorem regPlus_k (n : Fin 24) : regPlus (.k n) 1 = .k ⟨(n.val + 1) % 24, Nat.mod_lt _ (by omega)⟩ := rfl
theorem View.key_v (v : View) (t : Nat) (n : Fin 224) : v.key t (.v n) = some (if v.isCox then n.val else 32 * n.val + t) := rfl
theorem View.key_k (v : View) (t : Nat) (n : Fin 24) : v.key t (.k n) = some (crewKey n.val) := rfl
theorem View.key_vz (v : View) (t : Nat) : v.key t .vz = none := rfl
theorem regPlus_isCrew (d : Reg) : (regPlus d 1).isCrew = d.isCrew := by cases d <;> rfl
theorem View.lanes_regPlus (v : View) (g : Guard) (d : Reg) : v.lanes g (regPlus d 1) = v.lanes g d := by
  simp only [View.lanes, regPlus_isCrew]
/-- No register of a pair is the other register of a pair of any thread. -/
theorem View.key_pair {v : View} (g : Guard) (d : Reg) (k : Nat) :
    ∀ i ∈ v.lanes g d, ∀ j ∈ v.lanes g d, v.key i (regPlus d 1) = some k → v.key j d ≠ some k := by
  intro i hi j hj ki kj
  have li := v.active_lt (View.lanes_active hi)
  have lj := v.active_lt (View.lanes_active hj)
  cases d with
  | v n =>
    have hn := n.isLt
    rw [regPlus_v, View.key_v] at ki
    rw [View.key_v] at kj
    injection ki with ki
    injection kj with kj
    dsimp only at ki
    cases hc : v.isCox
    · simp only [hc, Bool.false_eq_true, if_false] at ki kj; omega
    · simp only [hc, if_true] at ki kj; omega
  | k n =>
    have hn := n.isLt
    rw [regPlus_k, View.key_k] at ki
    rw [View.key_k] at kj
    injection ki with ki
    injection kj with kj
    simp only [crewKey] at ki kj
    omega
  | vz => cases kj
  | tid => cases kj
  | widlo => cases kj
  | widhi => cases kj
  | role => cases kj
  | lmask => cases kj
  | tfp => cases kj

theorem lastWrite_pairs {s : State} {v : View} (h : Alone s v) (g : Guard) (d : Reg) (f : Nat → DWord × Tag × Tag) (k : Nat) :
    lastWrite ((v.lanes g d).flatMap (fun t => v.w2 t d (f t).1 (f t).2.1 (f t).2.2)) k = double v g d f k := by
  by_cases hz : d = .vz
  · subst hz
    have h2 : ∀ ts : List Nat, ts.find? (fun i => v.key i .vz == some k) = none := by
      intro ts; rw [List.find?_eq_none]; intro t _; rw [View.key_vz]; simp
    have h3 : ∀ ts : List Nat, ts.flatMap (fun _ => ([] : List RegW)) = [] := by intro ts; induction ts <;> simp_all
    simp only [View.w2, double, show regPlus Reg.vz 1 = Reg.vz from rfl, h2, h3, lastWrite_nil, Option.map_none]
  · have e : ∀ t, v.w2 t d (f t).1 (f t).2.1 (f t).2.2 = v.w1 t d (loWord (f t).1) (f t).2.1 ++ v.w1 t (regPlus d 1) (hiWord (f t).1) (f t).2.2 := by
      intro t; cases d <;> rfl
    simp only [e]
    cases hf : (v.lanes g d).find? (fun i => v.key i (regPlus d 1) == some k) with
    | some i =>
      have hi := List.mem_of_find?_eq_some hf
      have ki : v.key i (regPlus d 1) = some k := by simpa using List.find?_some hf
      rw [lastWrite_right]
      · have := lastWrite_lanes h g (regPlus d 1) (fun t => (hiWord (f t).1, (f t).2.2)) k
        rw [View.lanes_regPlus] at this
        rw [this]
        simp only [single, double, View.lanes_regPlus, hf, Option.map_some]
      · intro t ht x hx e
        have kt := View.key_pair g d k i hi t ht ki
        rw [View.w1_eq] at hx
        split at hx
        · rename_i q hq
          simp at hx; subst hx; simp at e; subst e; exact kt hq
        · simp at hx
    | none =>
      rw [lastWrite_left]
      · have := lastWrite_lanes h g d (fun t => (loWord (f t).1, (f t).2.1)) k
        rw [this]
        simp only [single, double, hf]
      · intro t ht x hx e
        rw [View.w1_eq] at hx
        split at hx
        · rename_i q hq
          simp at hx; subst hx; simp at e; subst e
          have := List.find?_eq_none.mp hf t ht
          simp [hq] at this
        · simp at hx

/-- An instruction that gives one register a value in each thread it runs for. -/
theorem writes_single {s : State} {v : View} (h : Alone s v) (i : Instr) (g : Guard) (d : Reg) (f : Nat → Word × Tag)
    (e : exec i s = emit s { Fx.empty with wr := (v.lanes g d).flatMap (fun t => v.w1 t d (f t).1 (f t).2) }) : Writes i s v (single v g d f) := by
  obtain ⟨t, a, b, c, q⟩ := emit_plain h { Fx.empty with wr := (v.lanes g d).flatMap (fun t => v.w1 t d (f t).1 (f t).2) }
    ⟨rfl, rfl, rfl, rfl, rfl, rfl, rfl⟩ rfl rfl
  refine ⟨t, e.trans a, ?_, c, q⟩
  intro key old ho
  have := b key old ho
  rwa [lastWrite_lanes h] at this
theorem writes_double {s : State} {v : View} (h : Alone s v) (i : Instr) (g : Guard) (d : Reg) (f : Nat → DWord × Tag × Tag)
    (e : exec i s = emit s { Fx.empty with wr := (v.lanes g d).flatMap (fun t => v.w2 t d (f t).1 (f t).2.1 (f t).2.2) }) : Writes i s v (double v g d f) := by
  obtain ⟨t, a, b, c, q⟩ := emit_plain h { Fx.empty with wr := (v.lanes g d).flatMap (fun t => v.w2 t d (f t).1 (f t).2.1 (f t).2.2) }
    ⟨rfl, rfl, rfl, rfl, rfl, rfl, rfl⟩ rfl rfl
  refine ⟨t, e.trans a, ?_, c, q⟩
  intro key old ho
  have := b key old ho
  rwa [lastWrite_pairs h] at this
theorem withView_eq {s : State} {v : View} (h : s.view = some v) (f : View → Host.Outcome State Fault Refusal) : withView s f = f v := by
  simp [withView, h]

end Sys2Proof.Machine
end

