-- ==== Sys2Proof/Laws/Results.lean ====
section
/-! SUPPORT. What the shapes of meanings do that only write registers: one lemma for each shape (R56, R64, R104, R119). -/
namespace Sys2Proof.Machine
open Safety

/-- A binary integer instruction, whose function is `g`. -/
theorem writes_binary {s : State} {v : View} (h : Alone s v) (i : Instr) (o : R2) (f g : Word → Word → Word)
    (e : exec i s = run2 s o f) (fg : ∀ a b, f a b = g a b) : Writes i s v (binary v o g) := by
  have : f = g := by funext a b; exact fg a b
  subst this
  exact writes_single h i o.g o.d _ (e.trans (withView_eq h.view _))
/-- A unary integer instruction. -/
theorem writes_unary {s : State} {v : View} (h : Alone s v) (i : Instr) (o : R1) (f g : Word → Word)
    (e : exec i s = run1 s o f) (fg : ∀ a, f a = g a) : Writes i s v (unary v o g) := by
  have : f = g := by funext a; exact fg a
  subst this
  exact writes_single h i o.g o.d _ (e.trans (withView_eq h.view _))

/-- One register with the integer tag in each thread. -/
theorem writes_each {s : State} {v : View} (h : Alone s v) (i : Instr) (g : Guard) (d : Reg) (F : View → Nat → Word) (k : Nat → Word)
    (e : exec i s = withView s (fun v => emit s (setEach v g d (F v)))) (fk : ∀ t, F v t = k t) : Writes i s v (single v g d (fun t => (k t, 0xFE))) := by
  have : F v = k := by funext t; exact fk t
  subst this
  exact writes_single h i g d _ (e.trans (withView_eq h.view _))
/-- A pair with the integer tags in each thread. -/
theorem writes_pair {s : State} {v : View} (h : Alone s v) (i : Instr) (g : Guard) (d : Reg) (F : View → Nat → DWord) (k : Nat → DWord)
    (e : exec i s = withView s (fun v => emit s (setEachPair v g d (F v)))) (fk : ∀ t, F v t = k t) : Writes i s v (double v g d (fun t => (k t, 0xFE, 0xFE))) := by
  have : F v = k := by funext t; exact fk t
  subst this
  exact writes_double h i g d _ (e.trans (withView_eq h.view _))
/-- A floating instruction whose threads write `wr`, raise `c` and fall where `b` says. -/
theorem computes_all {s : State} {v : View} (h : Alone s v) (i : Instr) (ts : List Nat) (wr : Nat → List RegW) (c : Nat → BitVec 7) (b : Nat → Bool)
    (new : Nat → Option (Word × Tag)) (hn : ∀ k, lastWrite (ts.flatMap wr) k = new k)
    (e : exec i s = emit s (fxAll ts (fun t => floatFx v t (wr t) (c t) (b t)))) : Computes i s v ts new c b := by
  have hp := fxAll_plain ts (fun t => floatFx v t (wr t) (c t) (b t)) (fun t => ⟨rfl, rfl, rfl, rfl, rfl, rfl, rfl⟩)
  have hw := foldl_append_wr ts (fun t => floatFx v t (wr t) (c t) (b t)) Fx.empty
  obtain ⟨t, a, l, f, q⟩ := emit_float h _ hp ts c b (by rw [fxAll, hw.2.1]; rfl) (by rw [fxAll, hw.2.2]; rfl)
  refine ⟨t, e.trans a, ?_, f, q⟩
  intro key old ho
  have := l key old ho
  rw [fxAll, hw.1] at this
  have e2 : (Fx.empty.wr ++ ts.flatMap (fun t => (floatFx v t (wr t) (c t) (b t)).wr)) = ts.flatMap wr := rfl
  rw [e2, hn] at this
  exact this
/-- An FP32 result in each thread. -/
theorem floats32 {s : State} {v : View} (h : Alone s v) (i : Instr) (g : Guard) (d : Reg) (r : Nat → FOut)
    (e : exec i s = emit s (fxAll (v.lanes g d) (fun t => out32 v t d (r t)))) : Floats32 i s v g d r := by
  refine computes_all h i _ (fun t => v.w1 t d (BitVec.ofNat 32 (r t).bits) (r t).tr.tag) _ _ _ (fun k => lastWrite_lanes h g d (fun t => (BitVec.ofNat 32 (r t).bits, (r t).tr.tag)) k) (e.trans ?_)
  congr 2; funext t
  simp only [out32, fallsBelow, sfloor, bitsAt, Nat.shiftRight_eq_div_pow] <;> rfl
/-- An FP64 result in each thread. -/
theorem floats64 {s : State} {v : View} (h : Alone s v) (i : Instr) (g : Guard) (d : Reg) (r : Nat → FOut)
    (e : exec i s = emit s (fxAll (v.lanes g d) (fun t => out64 v t d (r t)))) : Floats64 i s v g d r := by
  refine computes_all h i _ (fun t => v.w2 t d (BitVec.ofNat 64 (r t).bits) (r t).tr.tag oddTag) _ _ _ (fun k => lastWrite_pairs h g d (fun t => (BitVec.ofNat 64 (r t).bits, (r t).tr.tag, 0xFF)) k) (e.trans ?_)
  congr 2; funext t
  simp only [out64, fallsBelow, dfloor, bitsAt, Nat.shiftRight_eq_div_pow] <;> rfl
/-- A packed-half result in each thread. -/
theorem floatsHalf {s : State} {v : View} (h : Alone s v) (i : Instr) (g : Guard) (d : Reg) (lo hi : Nat → FOut)
    (e : exec i s = emit s (fxAll (v.lanes g d) (fun t => outHalves v t d (lo t) (hi t)))) : FloatsHalf i s v g d lo hi := by
  refine computes_all h i _ (fun t => v.w1 t d (BitVec.ofNat 32 ((hi t).bits * 2 ^ 16 + (lo t).bits)) (halfTag (hi t).tr (lo t).tr)) _ _ _
    (fun k => lastWrite_lanes h g d (fun t => (BitVec.ofNat 32 ((hi t).bits * 2 ^ 16 + (lo t).bits), halfTag (hi t).tr (lo t).tr)) k) (e.trans ?_)
  congr 2; funext t
  simp only [outHalves, fallsBelow, hfloor, bitsAt, Nat.shiftRight_eq_div_pow] <;> rfl
/-- An integer result with conditions in each thread. -/
theorem floatsInt {s : State} {v : View} (h : Alone s v) (i : Instr) (g : Guard) (d : Reg) (f : Nat → Word) (c : Nat → BitVec 7)
    (e : exec i s = emit s (fxAll (v.lanes g d) (fun t => floatFx v t (v.w1 t d (f t) intTag) (c t) false))) : FloatsInt i s v g d f c :=
  computes_all h i _ (fun t => v.w1 t d (f t) intTag) _ _ _ (fun k => lastWrite_lanes h g d (fun t => (f t, 0xFE)) k) e
theorem bitAt_getLsbD {n : Nat} (x : BitVec n) (i : Nat) : bitAt x.toNat i = x.getLsbD i := by
  rw [BitVec.getLsbD, Nat.testBit_eq_decide_div_mod_eq]
  simp only [bitAt, Nat.shiftRight_eq_div_pow]; rfl

end Sys2Proof.Machine
end

