-- ==== Sys2Proof/Tests/Slice0.lean ====
section
/-! SUPPORT. Tests: ill-formed terms, slots written out from the encoding tables, worked examples of the spec, and for
every statement a concrete state that meets its hypotheses. -/
namespace Sys2Proof.Tests
open Machine Safety

/-! States. -/

/-- Core 0 with one crew at its instruction, thread 0 alone issuing from scull 0, in context 1 whose first gigabyte is
mapped through one leaf at level 2 (R144, R145). -/
def state (f : Crew → Crew) (h : Group → Group) (c : Core → Core) : State :=
  { State.reset with
    mem := [(0x1000, 0x3B)]
    contexts := [(1, { State.reset.ctx 1 with root := 0x1000 })]
    cores := [(0, c { State.reset.core 0 with crews := [(0, f { probeCrew with regs := [] })], groups := [(0, h probeGroup)], nextGid := 1 })]
    issue := some { probeIssue 0 with words := [], mask := 1, parts := [0] } }
def same {α : Type} : α → α := id
/-- What an instruction sees in a state. -/
def seen (s : State) : View := s.view.getD ⟨probeIssue 0, Core.reset, probeCrew, probeGroup, Cox.blank⟩
def base : State := state same same same

def isAlone (s : State) : Bool := s.view.isSome && ((seen s).iss.words == []) && ((seen s).iss.nmem == 1) && ((seen s).iss.fx == Fx.empty) && (regOf s (seen s).iss.unit (seen s).iss.who 0).isSome &&
  (seen s).crew.replay.isNone && (seen s).crew.threads.length == 32 && (seen s).crew.sculls.length == 8 && !(seen s).isCox
def isRunning (v : View) : Bool := v.active.all (fun t => decide (t < 32 ∧ t / 4 ∈ v.iss.parts) && (v.crew.scull (t / 4)).stack.all (fun e => !bitAt e.2.mask (t % 4))) &&
  v.iss.parts.all (fun k => ((v.crew.scull k).run).isSome && decide ((v.crew.scull k).stack.length ≤ 12)) && !v.crew.dbgctl.getLsbD 8
theorem alone_of (s : State) (h : isAlone s = true) : Alone s (seen s) := by
  unfold isAlone at h
  simp only [Bool.and_eq_true, beq_iff_eq, Bool.not_eq_true', Option.isNone_iff_eq_none] at h
  obtain ⟨⟨⟨⟨⟨⟨⟨⟨h0, h1⟩, hn⟩, h2⟩, h3⟩, h4⟩, h5⟩, h6⟩, h7⟩ := h
  refine ⟨?_, h1, hn, h2, h3, h4, ⟨h5, h6⟩, fun e => by rw [h7] at e; cases e⟩
  unfold seen
  cases e : s.view with
  | none => rw [e] at h0; cases h0
  | some v => rfl

theorem runs_of (v : View) (h : isRunning v = true) : Runs v := by
  unfold isRunning at h
  simp only [Bool.and_eq_true, List.all_eq_true, decide_eq_true_eq, Bool.not_eq_true'] at h
  obtain ⟨⟨h1, h2⟩, h3⟩ := h
  exact ⟨fun t ht => (h1 t ht).1.1, fun _ t ht => (h1 t ht).1.2, fun _ k hk => (h2 k hk).1, fun _ k hk => (h2 k hk).2, fun _ t ht e he => (h1 t ht).2 e he, h3⟩

theorem base_alone : Alone base (seen base) := alone_of base (by decide)
theorem base_runs : Runs (seen base) := runs_of _ (by decide)
/-- Thread 0's v0, v1 (and crew registers of the same numbers) hold two words. -/
def holding (lo hi : Word) (f : Crew → Crew) : Crew → Crew := fun w => f { w with regs := [(0, lo, 0xFE), (32, hi, 0xFE)] }
/-- A state whose agent is ready to run its instruction. -/
def Ready (s : State) : Prop := Alone s (seen s) ∧ Runs (seen s) ∧ (seen s).iss.who = .crew 0
theorem ready_of (s : State) (h : (isAlone s && isRunning (seen s) && decide ((seen s).iss.who = .crew 0)) = true) : Ready s := by
  simp only [Bool.and_eq_true, decide_eq_true_eq] at h
  exact ⟨alone_of s h.1.1, runs_of _ h.1.2, h.2⟩
theorem ready_each (l : List State) (h : l.all (fun s => isAlone s && isRunning (seen s) && decide ((seen s).iss.who = .crew 0)) = true) : ∀ s ∈ l, Ready s :=
  fun s hs => ready_of s (List.all_eq_true.mp h s hs)
theorem each {α : Type} (l : List α) (p : α → Prop) [∀ x, Decidable (p x)] (h : l.all (fun x => decide (p x)) = true) : ∀ x ∈ l, p x :=
  fun x hx => of_decide_eq_true (List.all_eq_true.mp h x hx)
def always : Guard := Guard.always
/-- A guard that no thread of `base` meets. -/
def never : Guard := ⟨.v 2, false⟩
/-- A line of code with five slots and no joined pair (R38, R39), held in the line cache at address 0 of context 1. -/
def coded (word : Byte) (c : Core) : Core := { c with icache := [(2 ^ 56, word :: List.replicate 63 0)] }
/-- Threads 0 and 1 with different values in v0. -/
def two : State := { state (fun w => { w with regs := [(0, 1, 0xFE), (1, 2, 0xFE)] }) same same with issue := some { probeIssue 0 with words := [], mask := 3, parts := [0] } }

/-! Slots written out from the encoding tables of the spec. -/

/-- The bits of a slot from its fields, where R50 places them: OPC, D, A, B, C, P, then MOD, TY, IMM32 and FSEL. -/
def slot (opc d a b c p : Nat) (mod ty imm fsel : Nat := 0) : Nat :=
  opc + d * 2 ^ 10 + a * 2 ^ 18 + b * 2 ^ 26 + c * 2 ^ 34 + p * 2 ^ 42 + fsel * 2 ^ 51 + mod * 2 ^ 52 + ty * 2 ^ 60 + imm * 2 ^ 64
/-- The words decode to their instructions. -/
abbrev Decodes (l : List (Nat × Instr)) : Prop := ∀ x ∈ l, decodeTableWord 96 x.1 = some x.2
/-- D = v4, A = v2, B = v6, C = v8 under the guard of v10; with a crew register, and with an immediate. -/
def r1 : R1 := ⟨⟨.v 10, false⟩, .v 4, .v 2⟩
def r2 : R2 := ⟨⟨.v 10, false⟩, .v 4, .v 2, .reg (.v 6)⟩
def r2i : R2 := ⟨always, .k 4, .k 2, .imm 0xFFFFFF85⟩
def r3 : R3 := ⟨⟨.v 10, false⟩, .v 4, .v 2, .reg (.v 6), .v 8⟩

/-- R50 to R55, R60, R385, R334, R341 and the other entries of group 0x000. -/
theorem test_decode_integer : Decodes [
  (slot 0x000 4 2 6 248 10, .iadd .i32 r2), (slot 0x000 228 226 255 248 248 0 0 0xFFFFFF85, .iadd .i32 r2i), (slot 0x001 4 2 6 248 10 0 2, .iadd64 .i64 r2), (slot 0x002 4 2 6 248 10, .isub .i32 r2),
  (slot 0x003 4 2 6 248 10, .imul .i32 r2), (slot 0x004 4 2 6 248 10 0 1, .imulhi .u32 r2), (slot 0x005 4 2 6 8 10, .imad .i32 r3), (slot 0x006 4 2 6 8 10 0 1, .imad64 .u32 r3), (slot 0x007 4 2 6 248 10 0 1, .imin .u32 r2),
  (slot 0x008 4 2 6 248 10 0 0, .imax .i32 r2), (slot 0x009 4 2 248 248 10, .iabs r1), (slot 0x00A 4 2 248 248 10, .ineg .i32 r1), (slot 0x00B 4 2 6 248 10, .and r2), (slot 0x00C 4 2 6 248 10, .or r2),
  (slot 0x00D 4 2 6 248 10, .xor r2), (slot 0x00E 4 2 248 248 10, .not r1), (slot 0x00F 4 2 6 248 10, .shl r2), (slot 0x010 4 2 6 248 10, .shr r2), (slot 0x011 4 2 6 248 10, .sar r2), (slot 0x012 4 2 6 248 10 1, .bfx true r2),
  (slot 0x013 4 2 6 8 10, .bfi r3), (slot 0x014 4 2 248 248 10, .popc r1), (slot 0x015 4 2 248 248 10, .clz r1), (slot 0x016 4 2 248 248 10, .brev r1), (slot 0x017 4 2 6 248 10 5 1, .icmp .ge .u32 r2),
  (slot 0x018 4 2 6 8 10 0 2, .sel .i64 r3), (slot 0x019 4 2 248 248 10 0 2, .mov .i64 r1), (slot 0x01A 4 248 255 248 10 0 4 0x3F800000, .movi .f32 ⟨.v 10, false⟩ (.v 4) 0x3F800000)] := by decide +kernel
/-- R363, R364, R383, R359, R362: groups 0x040 and 0x080; MOD[7:5] is the rounding. -/
theorem test_decode_float : Decodes [
  (slot 0x040 4 2 6 248 10 0x20 4, .fadd .rn r2), (slot 0x041 4 2 6 248 10 0x40 4, .fsub .rz r2), (slot 0x042 4 2 6 248 10 0x60 4, .fmul .ru r2), (slot 0x043 4 2 6 8 10 0x80 4, .ffma .rd r3), (slot 0x044 4 2 6 248 10 0 4, .fmin r2),
  (slot 0x045 4 2 6 248 10 0 4, .fmax r2), (slot 0x046 4 2 6 248 10 1 4, .fcmp .ne r2), (slot 0x047 4 2 6 248 10 0 4, .fdiv .fmtr r2), (slot 0x048 4 2 248 248 10 0 4, .fsqrt .fmtr r1), (slot 0x049 4 2 248 248 10 0 4, .frcp .fmtr r1),
  (slot 0x04A 4 2 248 248 10 0 4, .frsq .fmtr r1), (slot 0x04B 4 2 248 248 10 0 4, .fexp2 .fmtr r1), (slot 0x04C 4 2 248 248 10 0 4, .flog2 .fmtr r1), (slot 0x04D 4 2 248 248 10 0 4, .frnd .fmtr r1),
  (slot 0x080 4 2 6 248 10 0 5, .dadd .fmtr r2), (slot 0x081 4 2 6 248 10 0 5, .dsub .fmtr r2), (slot 0x082 4 2 6 248 10 0 5, .dmul .fmtr r2), (slot 0x083 4 2 6 8 10 0 5, .dfma .fmtr r3), (slot 0x084 4 2 6 248 10 0 5, .ddiv .fmtr r2),
  (slot 0x085 4 2 248 248 10 0 5, .dsqrt .fmtr r1), (slot 0x086 4 2 6 248 10 0 5, .dcmp .eq r2), (slot 0x088 4 2 6 248 10, .hadd2 .fmtr r2), (slot 0x089 4 2 6 248 10, .hmul2 .fmtr r2), (slot 0x08A 4 2 6 8 10, .hfma2 .fmtr r3),
  (slot 0x08B 4 2 6 248 10, .hmax2 r2), (slot 0x08C 4 2 6 248 10 2, .hcmp2 .lt r2), (slot 0x090 4 2 6 248 10 0x24 6, .cvt .bf16x2 .f32 false .rn r2)] := by decide +kernel
/-- R426, R107, R108, R427, R439, R420, R347, R407: group 0x0C0. -/
theorem test_decode_cross : Decodes [
  (slot 0x0C0 4 2 248 248 10, .sigget r1), (slot 0x0C1 4 2 6 248 10 0 4, .sigset .f32 r2), (slot 0x0C2 4 2 6 248 10 0 5, .sigmin .f64 r2), (slot 0x0C3 248 2 248 248 10 0x4C 0 0x41, .bsig .f64 12 ⟨.v 10, false⟩ (.v 2) 0x41),
  (slot 0x0C8 4 2 6 248 10 0x17 0, .shfl .i32 5 .xor r2), (slot 0x0C9 4 2 248 248 10 3, .vote .ballot r1), (slot 0x0CA 4 2 248 248 10 2 1, .redx .max .fmtr .u32 r1), (slot 0x0CB 4 2 248 248 10 0x48 4, .scanx .add true .rn .f32 r1),
  (slot 0x0CC 4 2 248 248 10 0x1A 4, .bxch .f32 3 2 r1), (slot 0x0CD 4 2 248 248 10 0 4, .mrgk .f32 r1)] := by decide +kernel
def mv (w : Width) (sp : Space) (sc : Scope) : MAddr := ⟨⟨.v 10, false⟩, sp, w, sc, .v 2, .reg (.v 6)⟩
def mi (w : Width) (sp : Space) (sc : Scope) (off : BitVec 24) : MAddr := ⟨always, sp, w, sc, .k 2, .imm off⟩
/-- R52, R391, R428, R432, R376, R416, R388, R399, R408, R440, R375, R419, R335: MOD is space, width, scope; the extension byte is IMM[31:24]. -/
theorem test_decode_memory : Decodes [
  (slot 0x100 4 2 6 8 10 0x4C 3 0 1, .ld .u64 (mv .b8 .global .module) true 0 (.v 4) (.v 8)), (slot 0x100 4 226 255 248 248 0x06 1 0x00FFFFFE, .ld .u32 (mi .b2 .vault .core 0xFFFFFE) false 0 (.v 4) .vz),
  (slot 0x101 4 2 6 8 10 0x8A 1 0x0C000000, .st .u32 (mv .b4 .vault .system) (.v 12) (.v 4) (.v 8)), (slot 0x102 4 226 255 8 248 0x09 0 0x10, .spill (mi .b4 .priv .core 0x10) (.v 4) (.v 8)),
  (slot 0x103 4 226 255 248 248 0x09 0 0x10 1, .fill (mi .b4 .priv .core 0x10) true (.v 4)), (slot 0x104 248 226 255 248 248 0x20 0 0x40, .pref true (mi .b1 .global .core 0x40)), (slot 0x105 4 2 6 248 10 0, .l1wb (mv .b1 .global .core) (.v 4)),
  (slot 0x106 4 2 6 248 10 0, .l1inv (mv .b1 .global .core) (.v 4)), (slot 0x107 248 2 6 248 10 0, .monitor (mv .b1 .global .core)), (slot 0x108 4 248 248 248 10 0 0 100, .mwait ⟨.v 10, false⟩ 100 (.v 4)),
  (slot 0x110 4 2 6 248 10 1, .wmerge .cluster ⟨.v 10, false⟩ (.v 4) (.v 2) (.v 6)), (slot 0x111 248 2 248 248 10 2, .wwait .module ⟨.v 10, false⟩ (.v 2)), (slot 0x112 4 2 248 248 10 4, .wtest .system r1),
  (slot 0x118 248 248 248 248 10 3 0 0x0305, .fence .domain ⟨.v 10, false⟩ 5 3), (slot 0x119 248 248 248 248 10 0 0 6, .qfence ⟨.v 10, false⟩ 6), (slot 0x140 4 2 6 8 10 0x28 1 0x0C000000, .atomAdd .u32 (mv .b4 .global .cluster) false (.v 12) (.v 4) (.v 8)),
  (slot 0x141 4 2 6 8 10 0x08 0 0xF8000000, .atomMin .i32 (mv .b4 .global .core) false .vz (.v 4) (.v 8)), (slot 0x142 4 2 6 8 10 0x08 0 0xF8000000, .atomMax .i32 (mv .b4 .global .core) false .vz (.v 4) (.v 8)),
  (slot 0x143 4 2 6 8 10 0x0C 3 0xF8000000, .atomAnd .u64 (mv .b8 .global .core) false .vz (.v 4) (.v 8)), (slot 0x144 4 2 6 8 10 0x08 1 0xF8000000, .atomOr .u32 (mv .b4 .global .core) false .vz (.v 4) (.v 8)),
  (slot 0x145 4 2 6 8 10 0x08 1 0xF8000000, .atomXor .u32 (mv .b4 .global .core) false .vz (.v 4) (.v 8)), (slot 0x146 4 2 6 8 10 0x08 1 0x0C000000, .atomXchg .u32 (mv .b4 .global .core) false (.v 12) (.v 4) (.v 8)),
  (slot 0x147 4 2 6 8 10 0x08 1 0x0C000000, .atomCas .u32 (mv .b4 .global .core) false (.v 12) (.v 4) (.v 8))] := by decide +kernel
/-- R434, R424, R425, R421, R437, R396, R397, R438, R343: group 0x180. -/
theorem test_decode_matrix : Decodes [
  (slot 0x180 3 226 248 248 10 1, .tcfg ⟨.v 10, false⟩ true 3 (.k 2)), (slot 0x181 3 4 6 8 10 0x61 0 0x0504, .tld ⟨.v 10, false⟩ false true true .vault .system 5 3 (.v 4) (.v 6) (.v 8)),
  (slot 0x182 3 2 6 8 10 0 0 0x0C02 1, .tst ⟨.v 10, false⟩ true false .global .module 3 (.v 2) (.v 6) (.v 8) (.v 12)), (slot 0x183 15 248 248 248 10, .tzero ⟨.v 10, false⟩ false 15),
  (slot 0x184 3 4 5 6 10 0x0D, .mma ⟨.v 10, false⟩ false ⟨true, false, true, true⟩ false 3 4 5 6), (slot 0x184 4 0 8 4 248 0x0B, .mma always false ⟨true, true, false, true⟩ false 4 0 8 4), (slot 0x185 3 4 5 6 10 0 0 0xE3E2, .mmas ⟨.v 10, false⟩ false ⟨false, false, false, false⟩ false 3 4 5 6 2 3),
  (slot 0x186 4 3 248 248 10 7 0 0x0102, .ttov ⟨.v 10, false⟩ 7 1 2 (.v 4) 3), (slot 0x187 3 4 248 248 10 1 0 0x0102, .vtot ⟨.v 10, false⟩ 1 1 2 3 (.v 4)), (slot 0x188 3 2 248 8 10 0x20 0 1, .scld ⟨.v 10, false⟩ false false .vault .cluster 3 (.v 2) (.v 8)),
  (slot 0x189 248 248 248 248 10, .blgive ⟨.v 10, false⟩), (slot 0x18A 248 248 248 248 10, .bltake ⟨.v 10, false⟩)] := by decide +kernel
/-- R344, R345, R348, R422, R418, R371, R409, R442, R349, R395, R380, R350, R338, R339, R429, R430: group 0x1C0. -/
theorem test_decode_control : Decodes [
  (slot 0x1C0 248 248 248 248 10 0 0 0xFFFFFFF8, .bra ⟨.v 10, false⟩ 0xFFFFFFF8), (slot 0x1C1 248 2 248 248 10 0 0 8, .brd ⟨.v 10, false⟩ (.v 2) 8), (slot 0x1C2 248 2 248 248 10, .brx ⟨.v 10, false⟩ (.v 2)), (slot 0x1C3 4 248 248 248 10 0 0 9, .call ⟨.v 10, false⟩ (.v 4) (.direct 9)),
  (slot 0x1C3 4 2 248 248 10 1, .call ⟨.v 10, false⟩ (.v 4) (.indirect (.v 2))), (slot 0x1C4 248 2 248 248 10, .ret ⟨.v 10, false⟩ (.v 2)), (slot 0x1C5 248 248 248 248 248 0 0 0x801, .recv 0x801), (slot 0x1C6 248 248 248 248 248, .regang),
  (slot 0x1C7 248 248 248 248 10, .exit ⟨.v 10, false⟩), (slot 0x1C8 248 248 248 248 10, .nop ⟨.v 10, false⟩), (slot 0x1C9 248 248 248 248 248 0 0 0xFFFF, .yield 0xFFFF), (slot 0x1CA 248 248 248 248 10 0 0 7, .catch ⟨.v 10, false⟩ 7),
  (slot 0x1CB 248 248 248 248 10 0 0 0xFFFFFF, .mark ⟨.v 10, false⟩ 0xFFFFFF), (slot 0x1D0 248 248 248 248 10 0 0 8, .give ⟨.v 10, false⟩ 8), (slot 0x1D1 248 248 248 248 10 0 0 16, .claim ⟨.v 10, false⟩ 16), (slot 0x1D8 4 248 248 6 10, .bar ⟨.v 10, false⟩ 6 (.v 4)),
  (slot 0x1D9 4 248 248 0 10, .bara ⟨.v 10, false⟩ 0 (.v 4)), (slot 0x1DA 248 248 248 1 10, .barw ⟨.v 10, false⟩ 1 .vz), (slot 0x1DB 4 2 6 248 10 0x0C 1, .sltake (mv .b8 .global .core) (.v 4)),
  (slot 0x1DC 4 2 6 8 10 0x0C 1 0x0C000000, .slput (mv .b8 .global .core) (.v 12) (.v 4) (.v 8))] := by decide +kernel
/-- Groups 0x200 and 0x240: R206 to R212, R354, R377, R351, R370, R368, R367, R331, R411, R431, R386, R413, R381. -/
theorem test_decode_tasks : Decodes [
  (slot 0x200 4 2 6 248 248 2, .enum true false (.v 4) (.v 2) (.reg (.v 6))), (slot 0x201 4 2 6 248 248 1, .smerge true (.v 4) (.v 2) (.v 6)), (slot 0x202 4 2 6 248 248, .compose (.v 4) (.v 2) (.v 6)), (slot 0x203 4 2 6 248 248, .mapat (.v 4) (.v 2) (.v 6)),
  (slot 0x204 4 2 6 248 10 0x0C, .logst (mv .b8 .global .core) (.v 4)), (slot 0x205 228 226 6 248 248 4, .logcmt .system (.k 4) (.k 2) (.v 6)), (slot 0x206 248 248 248 248 248, .logdrop),
  (slot 0x240 248 2 248 8 10 0x48, .cpy ⟨.v 10, false⟩ false .module .vault .global (.v 2) (.v 8)), (slot 0x241 248 2 248 8 10 0x22 0 0 1, .gath ⟨.v 10, false⟩ true .cluster .global .vault (.v 2) (.v 8)), (slot 0x242 248 2 248 8 10 3, .coll ⟨.v 10, false⟩ false .domain (.v 2) (.v 8)),
  (slot 0x243 8 248 248 248 10 1, .evpop ⟨.v 10, false⟩ true (.v 8)), (slot 0x244 248 2 255 248 10 0 0 31, .dqpush ⟨.v 10, false⟩ (.v 2) (.imm 31)), (slot 0x245 4 248 248 248 10, .dqpop ⟨.v 10, false⟩ (.v 4)), (slot 0x246 248 2 248 248 10 0 0 0xFFFFFFF8, .aestart ⟨.v 10, false⟩ (.v 2) 0xFFFFFFF8),
  (slot 0x247 4 248 3 248 10, .oqpop ⟨.v 10, false⟩ 3 (.v 4)), (slot 0x250 248 2 248 8 10, .spawn ⟨.v 10, false⟩ (.v 2) (.v 8)), (slot 0x251 4 2 248 248 10, .join ⟨.v 10, false⟩ (.v 4) (.v 2)), (slot 0x252 248 226 248 248 248 0 0 0x100003, .park always (.k 2) .vz 3 16),
  (slot 0x253 4 2 248 248 10, .grtrig ⟨.v 10, false⟩ (.v 4) (.v 2))] := by decide +kernel
/-- R357, R358, R402 to R404, R369, R436, R435, R342, R261, R264: group 0x280; a MOVC write of some control registers has a row of its own. -/
theorem test_decode_system : Decodes [
  (slot 0x280 4 2 248 248 10 0 1, .csacc .u32 r1), (slot 0x281 248 2 6 248 10 0 5 20, .cschk .f64 20 ⟨.v 10, false⟩ (.v 2) (.v 6)), (slot 0x288 4 248 248 248 10 0 0 0xD, .movc ⟨.v 10, false⟩ false 0xD (.v 4)),
  (slot 0x288 248 236 248 248 248 1 0 0xA, .movc always true 0xA (.k 12)), (slot 0x289 248 248 248 248 10, .eret ⟨.v 10, false⟩), (slot 0x28A 248 248 248 248 10 0 0 0xDEADBEEF, .trap ⟨.v 10, false⟩ 0xDEADBEEF), (slot 0x28B 248 248 248 248 248, .tfence),
  (slot 0x28C 248 248 248 248 10 0 0 5, .bkpt ⟨.v 10, false⟩ 5), (slot 0x290 4 2 8 248 10 0x10 1 16, .hprobe ⟨⟨.v 10, false⟩, .global, .b16, .core, .v 2, .reg .vz⟩ false 16 (.v 4) (.v 8)), (slot 0x291 4 2 6 8 10 0 4, .noise .f32 r3),
  (slot 0x288 248 226 248 248 10 1 0 0x40, .dmbWrite ⟨.v 10, false⟩ 0 (.k 2)), (slot 0x288 248 226 248 248 10 1 0 0x6F, .dmbDoorbell ⟨.v 10, false⟩ (.k 2)), (slot 0x288 248 2 248 248 10 1 0 0x14, .trbaseWrite ⟨.v 10, false⟩ (.v 2)),
  (slot 0x288 248 2 248 248 10 1 0 0x16, .tracePointerWrite ⟨.v 10, false⟩ true (.v 2)), (slot 0x288 248 2 248 248 10 1 0 0x80, .sctrClear ⟨.v 10, false⟩ 0 (.v 2)), (slot 0x288 248 2 248 248 10 1 0 0x04, .dtblWrite ⟨.v 10, false⟩ (.v 2)),
  (slot 0x288 248 2 248 248 10 1 0 0x06, .fstatWrite ⟨.v 10, false⟩ (.v 2)), (slot 0x288 248 226 248 248 10 1 0 0x2F, .tfWrite ⟨.v 10, false⟩ 15 (.k 2))] := by decide +kernel

/-! Terms that a check of WellFormed refuses, with the ILLEGAL_FIELD subcode the spec names. -/

abbrev Refuses (l : List (Instr × Nat)) : Prop := ∀ x ∈ l, x.2 ∈ x.1.bad ∧ x.1.wf = false
def per (d a : Reg) (b : Src) : R2 := ⟨always, d, a, b⟩
def one (d a : Reg) : R1 := ⟨always, d, a⟩
/-- R26, R27, R55: a pair at an odd register, a pair past the last register, a read-only name in D, and registers of the wrong kind. -/
theorem test_ill_registers : Refuses [
  (.iadd64 .i64 (per (.v 5) (.v 2) (.reg (.v 6))), 10), (.iadd64 .i64 (per (.v 4) (.v 3) (.reg (.v 6))), 18), (.iadd64 .i64 (per (.v 4) (.v 2) (.reg (.v 7))), 26), (.dfma .fmtr ⟨always, .v 4, .v 2, .imm 0, .v 9⟩, 34),
  (.ld .u32 (mv .b16 .global .core) false 0 (.v 222) .vz, 10), (.iadd .i32 (per .tid (.v 2) (.imm 1)), 10), (.iadd64 .i64 (per .widlo (.v 2) (.imm 1)), 10), (.brx always .tid, 18),
  (.shfl .i32 0 .idx (per (.k 4) (.v 2) (.imm 1)), 10), (.mwait always 0 (.k 4), 10), (.tcfg always false 0 (.v 2), 18), (.enum false false (.k 4) (.v 2) (.imm 1), 10), (.logcmt .core (.v 4) .vz .vz, 10),
  (.evpop always false (.v 4), 10), (.tld always false true false .global .core 0 0 (.v 2) .vz .vz, 18), (.st .u32 (mv .b4 .global .core) (.v 3) (.v 4) .vz, 88), (.tst always false false .global .core 0 (.v 2) .vz .vz (.v 5), 72),
  (.hprobe ⟨always, .global, .b16, .core, .v 2, .reg .vz⟩ false 1 (.v 4) (.v 6), 26), (.nop ⟨.vz, true⟩, 50), (.dmbWrite always 3 (.v 2), 18), (.tfWrite always 3 (.v 2), 18), (.movc always true 0x001 (.v 2), 18)] := by decide +kernel
/-- R385 and the other entries of groups 0x000 to 0x0C0: a type, a format or a field out of the range its entry gives. -/
theorem test_ill_fields : Refuses [
  (.iadd .i64 r2, 60), (.iadd64 .i32 r2, 60), (.mov .u32 r1, 60), (.shfl .u32 0 .idx r2, 60), (.shfl .i32 6 .idx r2, 54), (.movi .u32 always (.v 4) 0, 60), (.cvt .f32 .f32 false .rn r2, 60), (.cvt .f32 .bf16 false .rn r2, 52),
  (.cvt .f64 .f32 true .rn r2, 56), (.cvt .f32 .i32 false .rn r2, 26), (.sigset .i32 r2, 60), (.sigset .f32 ⟨always, .v 4, .v 2, .imm 256⟩, 64), (.sigmin .f32 ⟨always, .v 4, .v 2, .imm 25⟩, 64),
  (.bsig .f32 25 always (.v 2) 0, 52), (.bsig .f32 3 always (.v 2) 5, 64), (.redx .and .fmtr .f32 r1, 52), (.redx .min .rz .f32 r1, 55), (.redx .add .fmtr .bf16x2 r1, 60), (.bxch .i32 1 0 r1, 60), (.bxch .f32 1 1 r1, 52),
  (.bxch .f32 6 1 r1, 55), (.mrgk .i32 r1, 60)] := by decide +kernel
/-- The same of groups 0x100 to 0x280. -/
theorem test_ill_memory : Refuses [
  (.ld .u64 (mv .b4 .global .core) false 0 (.v 4) .vz, 60), (.ld .f32 (mv .b4 .global .core) false 26 (.v 4) .vz, 88), (.ld .u32 (mv .b4 .global .core) false 1 (.v 4) .vz, 88), (.st .f64 (mv .b4 .global .core) .vz (.v 4) .vz, 60),
  (.spill (mv .b4 .global .core) (.v 4) .vz, 52), (.spill (mv .b2 .priv .core) (.v 4) .vz, 54), (.fill (mv .b4 .priv .cluster) false (.v 4), 57), (.pref false (mv .b1 .vault .core), 52), (.pref false (mv .b4 .global .core), 54),
  (.l1wb (mv .b1 .vault .core) (.v 4), 52), (.l1inv (mv .b1 .global .system) (.v 4), 57), (.monitor (mv .b1 .priv .core), 52), (.atomAdd .u32 (mv .b4 .priv .core) false .vz (.v 4) .vz, 52), (.atomAnd .f32 (mv .b4 .global .core) false .vz (.v 4) .vz, 60),
  (.atomCas .bf16x2 (mv .b4 .global .core) false .vz (.v 4) .vz, 60), (.atomAdd .u64 (mv .b4 .global .core) false .vz (.v 4) .vz, 54), (.tld always false false false .priv .core 0 0 (.v 2) .vz .vz, 56),
  (.mma always false ⟨false, false, false, false⟩ true 0 1 2 3, 34), (.mma always false ⟨false, false, false, true⟩ true 0 1 2 0, 55), (.bra always 5, 64), (.call always (.v 4) (.direct 7), 64), (.sltake (mv .b4 .global .core) (.v 4), 54),
  (.slput (mv .b8 .priv .core) .vz (.v 4) .vz, 52), (.enum false true (.v 4) (.v 2) (.reg (.v 6)), 26), (.enum false false (.v 4) (.v 2) (.imm 33), 64), (.logst (mv .b16 .global .core) (.v 4), 54), (.logst (mv .b4 .priv .core) (.v 4), 52),
  (.cpy always false .core .global .priv (.v 2) .vz, 52), (.gath always false .core .priv .global (.v 2) .vz, 54), (.dqpush always (.v 2) (.imm 32), 64), (.aestart always (.v 2) 4, 64), (.ttov always 3 0 0 (.v 221) 0, 10),
  (.vtot always 3 0 0 0 (.v 221), 18), (.park always (.v 2) .vz 0x8000 209, 64), (.csacc .i32 r1, 60), (.cschk .f32 0 always (.v 2) (.v 4), 60), (.cschk .f64 53 always (.v 2) (.v 4), 64), (.movc always false 0x017 (.v 2), 64),
  (.movc always true 0x014 (.v 2), 64), (.hprobe ⟨always, .priv, .b16, .core, .v 2, .reg .vz⟩ false 1 (.v 4) (.v 8), 52), (.hprobe ⟨always, .global, .b16, .core, .v 2, .reg .vz⟩ false 17 (.v 4) (.v 8), 64), (.noise .i32 r3, 60),
  (.dmbWrite always 47 (.k 2), 64)] := by decide +kernel

/-! Worked examples of the spec. -/

/-- Value and tag of register v n of thread t after one instruction. -/
def after (i : Instr) (s : State) (n t : Nat) : Option (Word × Tag) :=
  match exec i s with
  | .next s' => (s'.crew? 0 0).map (fun w => w.get (32 * n + t))
  | _ => none
/-- `base` with v1 of threads 0, 1, … (and v2 at 64, v3 at 96, …) holding the given words and tags, and the first n threads issuing. -/
def lanes (n : Nat) (l : List (Nat × Word × Tag)) : State :=
  { state (fun w => { w with regs := l }) same same with issue := some { probeIssue 0 with words := [], mask := 2 ^ n - 1, parts := [0, 1, 2, 3, 4, 5, 6, 7] } }

def onlyOne (w : Word) (g : Tag) : State := lanes 1 [(64, w, g)]
/-- R341: A = 0xABCD_1234 and B = 0x0000_0C08; BFI with C = 0 and A = 0x0000_0FFF. -/
theorem test_bit_fields : after (.bfx false (per (.v 4) (.v 2) (.imm 0xC08))) (onlyOne 0xABCD1234 0xFE) 4 0 = some (0xD12, 0xFE) ∧
    after (.bfx true (per (.v 4) (.v 2) (.imm 0xC08))) (onlyOne 0xABCD1234 0xFE) 4 0 = some (0xFFFFFD12, 0xFE) ∧
    after (.bfi ⟨always, .v 4, .v 2, .imm 0xC08, .vz⟩) (onlyOne 0xFFF 0xFE) 4 0 = some (0x000FFF00, 0xFE) := by decide +kernel
/-- R385's table: A = 0xFFFF_FFFF with the immediate 2, under TY 0 and TY 1. -/
theorem test_integer_types : (let f (i : R2 → Instr) := after (i (per (.v 4) (.v 2) (.imm 2))) (onlyOne 0xFFFFFFFF 0xFE) 4 0
    f (.imul .i32) = some (0xFFFFFFFE, 0xFE) ∧ f (.imul .u32) = some (0xFFFFFFFE, 0xFE) ∧ f (.imulhi .i32) = some (0xFFFFFFFF, 0xFE) ∧ f (.imulhi .u32) = some (1, 0xFE) ∧
    f (.imin .i32) = some (0xFFFFFFFF, 0xFE) ∧ f (.imin .u32) = some (2, 0xFE) ∧ f (.icmp .lt .i32) = some (1, 0xFE) ∧ f (.icmp .lt .u32) = some (0, 0xFE)) := by decide +kernel
theorem test_imad64 : (let f (ty : Ty) (n : Nat) := after (.imad64 ty ⟨always, .v 4, .v 2, .imm 2, .v 6⟩) (lanes 1 [(64, 0xFFFFFFFF, 0xFE), (192, 1, 0xFE)]) n 0
    f .i32 4 = some (0xFFFFFFFF, 0xFE) ∧ f .i32 5 = some (0xFFFFFFFF, 0xFE) ∧ f .u32 4 = some (0xFFFFFFFF, 0xFE) ∧ f .u32 5 = some (1, 0xFE)) := by decide +kernel
/-- R97's steps 3 to 5. -/
theorem test_tag_steps : after (.fadd .rn (per (.v 4) (.v 2) (.reg (.v 3)))) (lanes 1 [(64, 0x3FC00000, 0x30), (96, 0xBFB80000, 0x60)]) 4 0 = some (0x3D800000, 0x20) ∧
    after (.fmul .rn (per (.v 5) (.v 2) (.imm 0x40400000))) (onlyOne 0x3D800000 0x20) 5 0 = some (0x3E400000, 0x20) ∧
    (after (.fdiv .rn (per (.v 6) (.v 2) (.imm 0x40E00000))) (onlyOne 0x3E400000 0x20) 6 0).map (·.2) = some 0x21 := by decide +kernel
/-- R420: 1.0 and three times 2^-24, reduced and scanned. -/
def ulps : State := lanes 4 [(32, 0x3F800000, 0x60), (33, 0x33800000, 0x60), (34, 0x33800000, 0x60), (35, 0x33800000, 0x60)]
theorem test_reduce : [0, 1, 2, 3].map (after (.redx .add .rn .f32 (one (.v 2) (.v 1))) ulps 2) = List.replicate 4 (some (0x3F800001, 0x61)) := by decide +kernel
theorem test_scan : [0, 1, 2, 3].map (after (.scanx .add false .rn .f32 (one (.v 2) (.v 1))) ulps 2) =
    [some (0x3F800000, 0x60), some (0x3F800000, 0x61), some (0x3F800001, 0x60), some (0x3F800001, 0x61)] := by decide +kernel
theorem test_scan_exclusive : ([0, 1, 2, 3].map (after (.scanx .add true .rn .f32 (one (.v 2) (.v 1))) ulps 2)).map (·.map (·.1)) =
    [some 0x80000000, some 0x3F800000, some 0x3F800000, some 0x3F800001] ∧ after (.scanx .add true .rn .f32 (one (.v 2) (.v 1))) ulps 2 3 = some (0x3F800001, 0x60) := by decide +kernel
/-- R427: SHFL.down.seg=8 of tid by 1. -/
theorem test_shuffle : ∀ t < 32, after (.shfl .i32 3 .down (per (.v 2) .tid (.imm 1))) (lanes 32 []) 2 t = some (BitVec.ofNat 32 (if t % 8 ≠ 7 then t + 1 else t), 0xFE) := by decide +kernel
/-- R407: heads (2.0, 9), (5.0, 40), (5.0, 12) and (NaN, 0). -/
theorem test_merge_head : ∀ t < 4, after (.mrgk .f32 (one (.v 4) (.v 2))) (lanes 4 [(64, 0x40000000, 0x60), (65, 0x40A00000, 0x60), (66, 0x40A00000, 0x60), (67, 0x7FC00000, 0x60),
    (96, 9, 0xFE), (97, 40, 0xFE), (98, 12, 0xFE), (99, 0, 0xFE)]) 4 t = some (2, 0xFE) := by decide +kernel

/-! For every statement, a state and operands that meet its hypotheses. -/

theorem meets_IntegerArithmetic : Alone base (seen base) := base_alone
theorem meets_LogicShiftField : Alone base (seen base) := base_alone
theorem meets_MovesAndTags : Alone base (seen base) ∧ Ty.packed .f32 = false ∧ Ty.packed .f16x2 = true ∧ Ty.wide .f16x2 = false := ⟨base_alone, by decide⟩
theorem meets_FloatMembers : Alone base (seen base) := base_alone
theorem meets_ComparesAndHalves : Alone base (seen base) := base_alone
theorem meets_Conversions : Alone base (seen base) ∧ Ty.packed .bf16x2 = true ∧ Ty.packed .e4m3 = false ∧ Ty.e4m3 ∉ [Ty.f32, .f64, .i64, .u64, .i8] := ⟨base_alone, by decide⟩
theorem ratOf_one : ratOf (.fin false 1 0) = 1 := by simp [ratOf]
theorem ratOf_lessOne : ratOf (.fin true 1 0) = -1 := by simp [ratOf]
theorem meets_RoundingIsCorrect : fp32 ∈ [fp64, fp32, fp16, bf16, e5m2, e4m3, e2m1] ∧ (1 : Nat) ≠ 0 ∧ (1 : Int) ≠ 0 ∧ 8 ≤ 32 ∧ fp32.value 0x3F800000 = .fin false 0x800000 (-23) ∧ 0x3F800000 < 2 ^ 32 := by decide
theorem meets_RoundingIsCorrect_sums : ratOf (.fin false 1 0) + ratOf (.fin false 1 0) ≠ 0 ∧ ratOf (.fin false 1 0) + ratOf (.fin true 1 0) = 0 ∧
    ratOf (.fin false 1 0) * ratOf (.fin false 1 0) + ratOf (.fin false 1 0) ≠ 0 ∧ ratOf (.fin false 1 0) * ratOf (.fin false 1 0) + ratOf (.fin true 1 0) = 0 := by
  rw [ratOf_one, ratOf_lessOne]; refine ⟨?_, ?_, ?_, ?_⟩ <;> grind
theorem meets_ReductionAndScan : Alone base (seen base) ∧ (∀ t ∈ (seen base).active, t < 32) ∧ (seen base).acting never = [] ∧ (seen base).acting always ≠ [] ∧
    (tree (redCombine .add .u32 .near) (position (seen base) always .u32 (.v 0))).isSome ∧ (Reg.v 1).isCrew = false := ⟨base_alone, by decide⟩
theorem meets_ShuffleVoteSort :
    (Alone base (seen base) ∧ (∀ t ∈ (seen base).acting always, ((seen base).val t (.v 0)).getLsbD 0 = false) ∧ (seen base).acting always ≠ [] ∧
      (∀ t ∈ (seen base).acting always, ∀ q ∈ (seen base).acting always, (seen base).val t (.v 0) = (seen base).val q (.v 0))) ∧
    (Alone two (seen two) ∧ (∃ t ∈ (seen two).acting always, ((seen two).val t (.v 0)).getLsbD 0 = true) ∧ (∃ t ∈ (seen two).acting always, ((seen two).val t (.v 0)).getLsbD 0 = false) ∧
      (∃ t ∈ (seen two).acting always, ∃ q ∈ (seen two).acting always, (seen two).val t (.v 0) ≠ (seen two).val q (.v 0)) ∧
      (∀ t, t < 32 → ((1 : Word).getLsbD t = true ↔ t ∈ (seen two).acting always ∧ ((seen two).val t (.v 0)).getLsbD 0 = true))) :=
  ⟨⟨base_alone, by decide⟩, alone_of two (by decide), by decide, by decide, by decide, by decide⟩
theorem meets_NoiseAndChecksums : Alone base (seen base) ∧ (∀ t ∈ (seen base).acting always, (seen base).pair t (.v 0) = (seen base).pair t (.v 2)) ∧
    (∀ t ∈ (seen base).acting always, (fp64.value ((seen base).pair t (.v 0)).toNat).isNan = false ∧
      cmpVal (fp64.value ((seen base).pair t (.v 0)).toNat) (fp64.value ((seen base).pair t (.v 2)).toNat) = 0) := ⟨base_alone, by decide⟩

def atLine : State := state same same (coded 0x1F)
theorem meets_ControlTransfer : Ready atLine ∧ (seen atLine).acting always = [0] ∧ atLine.badTarget 0 1 0 = none ∧ (∀ t ∈ (seen atLine).acting always, ((seen atLine).pair t (.v 0)).toNat < 2 ^ 56 ∧
    ((seen atLine).pair t (.v 0)).toNat / 8 % 8 = 0 ∧ ((seen atLine).pair t (.v 0)).toNat % 8 < 5) := ⟨ready_of _ (by decide), by decide⟩
def jump (lo hi : Word) (line : Byte) : State := state (holding lo hi same) same (coded line)
theorem meets_BadTargetsTrap :
    (Ready (jump 0 0x01000000 0) ∧ ((seen (jump 0 0x01000000 0)).pair 0 (.v 0)).toNat = 2 ^ 56) ∧
    (Ready (jump 5 0 0) ∧ ((seen (jump 5 0 0)).pair 0 (.v 0)).toNat = 5) ∧
    (Ready (jump 4 0 0x0F) ∧ ((seen (jump 4 0 0x0F)).pair 0 (.v 0)).toNat = 4 ∧ (jump 4 0 0x0F).codeLine 0 1 0 = .ok (0x0F :: List.replicate 63 0)) ∧
    (Ready (jump 1 0 0x3F) ∧ ((seen (jump 1 0 0x3F)).pair 0 (.v 0)).toNat = 1 ∧ (jump 1 0 0x3F).codeLine 0 1 0 = .ok (0x3F :: List.replicate 63 0)) ∧
    (seen (jump 1 0 0x3F)).acting always = [0] ∧ (seen (jump 1 0 0x3F)).crew.enm = false ∧ (seen (jump 5 0 0)).val 0 (.v 0) ≠ 1 ∧
    (BitVec.ofInt 64 ((0 : Int) + (-8 : Word).toInt / 8 * 64 + (-8 : Word).toNat % 8)).toNat ≥ 2 ^ 56 ∧ (BitVec.ofInt 64 ((0 : Int) + (4 : Word).toInt / 8 * 64 + (4 : Word).toNat % 8)).toNat = 4 :=
  ⟨⟨ready_of _ (by decide), by decide⟩, ⟨ready_of _ (by decide), by decide⟩, ⟨ready_of _ (by decide), by decide, rfl⟩,
    ⟨ready_of _ (by decide), by decide, rfl⟩, by decide⟩
theorem meets_GoesOnOrLeaves : Ready base ∧ (seen base).crew.converged = true ∧ (∀ k ∈ (seen base).iss.parts, ∀ f, f < 12 → ((seen base).crew.scull k).cf.getD f 0 = 0) ∧
    (base.ctx (seen base).grp.ctx).cut = none ∧ (seen base).crew.dbgctl.getLsbD 9 = false ∧ (seen base).core.queues.getD 0 [] = [] ∧
    (∀ t ∈ (seen base).active, tfenceBits ((seen base).crew.scull (t / 4)).fstat ((seen base).fmtr t) = 0) ∧ (seen base).core.loads = [] ∧ (base.origin 0).pend = [] ∧
    (∀ q ∈ (seen base).core.queues, q = []) ∧ (seen base).core.l1 = [] ∧ (seen base).acting never = [] := ⟨ready_of _ (by decide), by decide⟩
def noisy : State := state (fun w => { w with fmtr := 0x200, sculls := setNth w.sculls 0 { (w.scull 0) with fstat := 1, cf := List.replicate 12 255 }, parted := true }) same same
def unequal : State := state (holding 1 0 same) same same
theorem meets_SoftwareTraps : Ready base ∧ hdrBound (seen base).grp.hdr 0 < 5 ∧ (seen base).core.queues.getD 0 [] = [] ∧ (7 : Word).toNat % 8 ≠ 0 ∧ (seen base).crew.count < (224 : Word).toNat + 8 ∧
    224 < (seen base).crew.count + (8 : Word).toNat ∧ (Ready unequal ∧ (seen unequal).pair 0 (.v 0) ≠ (seen unequal).pair 0 (.v 2)) :=
  ⟨ready_of _ (by decide), by decide, by decide, by decide, by decide, by decide, ready_of _ (by decide), by decide⟩
/-- A store event of unit 0 in flight. -/
def event (seq scope : Nat) (bytes : List SByte) : StoreEv := ⟨seq, some (.crew 0), 1, scope, scope, [], true, 0, bytes, [], false, false, 0, false, []⟩
/-- v0 and v1 of thread 0 hold the witness of event 1 of unit 0, which waits in its origin. -/
def awaited : State := { state (holding (loWord (mkWit 1 1 0 0 0 1)) (hiWord (mkWit 1 1 0 0 0 1)) same) same same with origins := [(0, ⟨1, 0, [event 1 1 []], none⟩)] }
/-- An event 2^28 behind the next one (R158). -/
def behind : State := { base with origins := [(0, ⟨0, 0, [event (2 ^ 30 - 2 ^ 28 + 1) 1 []], none⟩)] }
def watching : State := { base with monitors := [⟨0, 0, 0, 0, 0, 0, false, false⟩] }
def lean : State := state (fun w => { w with count := 216 }) same same
theorem meets_HeldBack : Ready noisy ∧ (∃ j ∈ (seen noisy).iss.parts, ∃ f, f < 12 ∧ ((seen noisy).crew.scull j).cf.getD f 0 ≠ 0) ∧ (seen noisy).crew.converged = false ∧ (seen noisy).flagFull true = true ∧
    (seen noisy).acting always ≠ [] ∧ Ready lean ∧ (seen lean).acting always ≠ [] ∧ (seen lean).crew.count + 8 ≤ 224 ∧
    Ready base ∧ (seen base).acting always ≠ [] ∧ 5 ≤ hdrBound (seen base).grp.hdr 1 ∧ hdrBound (seen base).grp.hdr 1 ≤ hdrBG (seen base).grp.hdr ∧
    (∀ t ∈ (seen base).acting always, t ∈ (seen base).fresh ((seen base).acting always)) ∧
    Ready watching ∧ (∀ t ∈ (seen watching).acting always, watching.monitorDone 0 0 t = false) ∧
    Ready awaited ∧ (seen awaited).lanes always (.v 0) = [0] ∧ (seen awaited).witCheck awaited ((seen awaited).pair 0 (.v 0)) 1 = none ∧ awaited.satisfied ((seen awaited).pair 0 (.v 0)) 1 = false ∧
    Ready behind ∧ (behind.origin 0).stalls = true ∧ (seen behind).crew.enm = false :=
  ⟨ready_of _ (by decide), by decide, by decide, by decide, by decide, ready_of _ (by decide), by decide, by decide, ready_of _ (by decide), by decide, by decide, by decide, by decide,
    ready_of _ (by decide), by decide, ready_of _ (by decide), by decide, by decide, by decide, ready_of _ (by decide), by decide, by decide⟩
def noSibling : State := state (fun w => { w with dbgsel := 31 }) (fun g => { g with hdr := List.replicate 6 0 ++ [16] ++ List.replicate 9 0 }) same
theorem meets_ControlReads : Alone base (seen base) ∧ ((seen base).sibling ((seen base).crew.dbgsel.toNat % 32)).isSome ∧ hdrTiles (seen base).grp.hdr ≤ 0 ∧
    Alone noSibling (seen noSibling) ∧ (seen noSibling).sibling ((seen noSibling).crew.dbgsel.toNat % 32) = none ∧ 15 < hdrTiles (seen noSibling).grp.hdr :=
  ⟨base_alone, by decide, by decide, alone_of _ (by decide), by decide, by decide⟩
/-- v0 and v1 of the only thread hold the two words of a value to be written. -/
def value (p : Word × Word) : State := state (holding p.1 p.2 same) same same
def written : List (Word × Word) := [(0, 0), (0x35180B00, 0), (0x36000000, 0), (0xC000, 0), (0x7800, 0), (0xFFFFFFC4, 0xFFFFFF), (0, 0x1000000), (0xFF1F001F, 0), (0x20, 0), (0x8000FE0F, 0), (0x80, 0), (0xC100, 0), (0x10, 0), (0, 0x20000000), (0, 0x10000000)]
theorem written_ready : ∀ s ∈ written.map value, Ready s := ready_each _ (by decide)
theorem meets_ControlWrites : (∀ p ∈ written, ((seen (value p)).acting always).head? = some 0 ∧ (seen (value p)).val 0 (.v 0) = p.1 ∧
      (seen (value p)).pair 0 (.v 0) = joinPair p.1 p.2 ∧ (seen (value p)).crew.recOk = false ∧ (seen (value p)).crew.enm = false) ∧
    (let y : Word := 0x35180B00; y &&& 0xC0E0F0FF = 0 ∧ y.toNat / 2 ^ 24 % 64 = 53 ∧ y.toNat / 2 ^ 16 % 32 = 24 ∧ y.toNat / 2 ^ 8 % 16 = 11) ∧
    (let y : Word := 0x36000000; y.toNat / 2 ^ 24 % 64 > 53) ∧
    (let y : Word := 0xC000; y &&& 0xFFFF017F = 0 ∧ y.toNat / 2 ^ 11 = 24) ∧ (let y : Word := 0x7800; y.toNat / 2 ^ 11 % 32 < 16) ∧
    (let x : DWord := joinPair 0xFFFFFFC4 0xFFFFFF; x.toNat < 2 ^ 56 ∧ x.toNat / 8 % 8 = 0 ∧ x.toNat % 8 = 4) ∧ (let x : DWord := joinPair 0 0x1000000; x.toNat = 2 ^ 56) ∧
    (let y : Word := 0xFF1F001F; y &&& 0x00E0FFE0 = 0) ∧ (let y : Word := 0x20; y &&& 0x00E0FFE0 ≠ 0) ∧ (let y : Word := 0x8000FE0F; y &&& 0x7FFF01F0 = 0) ∧ (let y : Word := 0x10; y &&& 0x7FFF01F0 ≠ 0) ∧
    (let y : Word := 0xC100; y &&& 0xFFFF007F = 0 ∧ y.getLsbD 8 = true ∧ y.toNat / 2 ^ 11 = 24) ∧ (joinPair 0 0x20000000).getLsbD 61 = true ∧ (joinPair 0 0x10000000).getLsbD 60 = true := ⟨each _ _ (by decide), by decide⟩
/-- The crew writes y to DBGCMD with a value in DBGSEL; crew 1 of its group stands at a halt, and crew 2 is not there. -/
def debugs (y sel : Word) (halt : Halt) : State :=
  state (holding y 0 (fun w => { w with dbgsel := sel, dbgdata := 1 })) (fun g => { g with slots := [0, 1], cnums := [0, 1] }) (fun c => { c with crews := c.crews ++ [(1, { probeCrew with cnum := 1, halt := halt })] })
def commands : List (Word × Word × Halt) := [(0, 1, .none), (1, 1, .none), (4, 1, .halted), (4, 1, .none), (1, 0, .none), (1, 2, .none), (5, 0xE0000001, .halted), (7, 1, .halted)]
theorem commands_ready : ∀ s ∈ commands.map (fun c => debugs c.1 c.2.1 c.2.2), Ready s := ready_each _ (by decide)
def sib (y sel : Word) (halt : Halt) : Option (Nat × Crew) := (seen (debugs y sel halt)).sibling ((seen (debugs y sel halt)).crew.dbgsel.toNat % 32)
theorem meets_ControlWrites_debug : sib 1 1 .none = some (1, { probeCrew with cnum := 1 }) ∧ sib 4 1 .halted = some (1, { probeCrew with cnum := 1, halt := .halted }) ∧
    (sib 1 0 .none).map (·.1) = some 0 ∧ sib 1 2 .none = none ∧ ((seen (debugs 4 1 .halted)).val 0 (.v 0)).toNat % 8 = 4 ∧ (1 : Word).toNat / 2 ^ 24 < 224 ∧
    probeCrew.count ≤ (0xE0000001 : Word).toNat / 2 ^ 24 ∧ (seen (debugs 7 1 .halted)).crew.dbgdata = 1 ∧ { probeCrew with cnum := 1, halt := .halted }.replayBad 1 = true ∧ { probeCrew with recOk := true }.replayBad 0 = false := by decide
/-- The issuing crew in the system context. -/
def sys (p : Word × Word) : State := state (holding p.1 p.2 same) (fun g => { g with ctx := 0 }) (fun c => { c with trbase := 1 })
def pointers : List (Word × Word) := [(0, 0), (3, 0), (4, 0), (0x7F, 0), (0x80, 0), (0xFFF8, 0), (0x10000, 0), (0xFFFFFFFF, 0xFFFFFF)]
theorem pointers_ready : ∀ s ∈ pointers.map sys, Ready s := ready_each _ (by decide)
theorem meets_PrivilegedWrites : (∀ p ∈ pointers, (seen (sys p)).grp.ctx = 0 ∧ ((seen (sys p)).acting always).head? = some 0 ∧ (seen (sys p)).pair 0 (.v 0) = joinPair p.1 p.2) ∧
    (seen (value (0, 0))).grp.ctx ≠ 0 ∧ (joinPair 0xFFF8 0).toNat % 8 = 0 ∧ (joinPair 0xFFF8 0).toNat < 65536 * ((seen (sys (0, 0))).core.trbase.toNat % 2 ^ 16) ∧
    65536 * ((seen (sys (0, 0))).core.trbase.toNat % 2 ^ 16) ≤ (joinPair 0x10000 0).toNat ∧ 63 / 16 < (seen (sys (0, 0))).core.seats.length ∧
    63 % 16 < (((seen (sys (0, 0))).core.seats.getD 3 Seat.reset).ctr).length := ⟨each _ _ (by decide), by decide⟩
/-- Thread 0 in its first handler, with the save slots of its crew in mapped memory. -/
def handler (h : Nat) : State := { state (fun w => { w with threads := setNth w.threads 0 { Thread.fresh with hlvl := h }, tbase := 4 }) same (coded 0x1F) with poison := [] }
/-- Its RPC is no slot; a store of its own to the RPC is in flight; the word of the RPC is poisoned. -/
def illFramed : State := { handler 1 with mem := [(72, 5), (0x1000, 0x3B)] }
def storing : State := { handler 1 with origins := [(0, ⟨1, 0, [event 1 0 [⟨72, 0, .l1⟩]], none⟩)] }
def tainted : State := { handler 1 with poison := [9] }
def frameOf (s : State) : Except ReadStop (FrameRead × List Nat) := (seen s).readFrame s (maskOf ((seen s).acting always)) 0
theorem meets_HandlerReturn : (Ready (handler 1) ∧ Ready (handler 0) ∧ Ready illFramed ∧ Ready storing ∧ Ready tainted) ∧
    (0 < ((seen (handler 1)).crew.thread 0).hlvl ∧ (seen (handler 1)).acting always = [0] ∧ (seen (handler 1)).crew.killed = false ∧ (seen (handler 1)).crew.exited = false) ∧
    (∃ f l, frameOf (handler 1) = .ok (f, l) ∧ f.rpc.toNat < 2 ^ 56 ∧ f.rpc.toNat / 8 % 8 = 0 ∧ f.rpc.toNat % 8 < 5 ∧ f.rfmtr &&& 0x7FFF01F0 = 0) ∧
    ((seen (handler 0)).crew.thread 0).hlvl = 0 ∧ (∃ f l, frameOf illFramed = .ok (f, l) ∧ f.rpc = 5) ∧ frameOf storing = .error .busy ∧ frameOf tainted = .error (.poison 7 72 72) :=
  ⟨⟨ready_of _ (by decide), ready_of _ (by decide), ready_of _ (by decide), ready_of _ (by decide), ready_of _ (by decide)⟩, by decide, ⟨_, _, rfl, by decide⟩, by decide, ⟨_, _, rfl, by decide⟩, rfl, rfl⟩
def cause : Pend := ⟨0x33, 7, 0, 1, 0, 0, 0, 0, false, 0, true, false, false⟩
theorem meets_FrameLayout : (2303 : Nat) < 2 ^ 12 ∧ 47 < 48 ∧ probeCrew.cnum < 2 ^ 5 ∧ [0, 31] ≠ [] ∧ (∀ t ∈ [0, 31], t < 32) ∧ [0, 31].Pairwise (· < ·) ∧ cause.sub < 2 ^ 32 ∧ cause.cause < 2 ^ 8 ∧
    cause.faddr < 2 ^ 64 ∧ cause.stroke < 2 ^ 32 := by decide
/-- Thread 0 with a cause to be delivered. -/
def causing (h ctx : Nat) (tbase : DWord) (p : Pend) : State :=
  state (fun w => { w with threads := setNth w.threads 0 { Thread.fresh with hlvl := h, pend := some p }, tbase := tbase, parted := false }) (fun g => { g with ctx := ctx }) (coded 0x1F)
def trapped (s : State) : Crew := (s.crew? 0 0).getD probeCrew
/-- Crew 0 of core 0 is to take cause `p`. -/
abbrev Due (s : State) (p : Pend) : Prop :=
  s.crew? 0 0 = some (trapped s) ∧ (s.group? 0 (trapped s).gid).isSome ∧ (trapped s).threads.length = 32 ∧ (trapped s).sculls.length = 8 ∧ (trapped s).sculls.all (fun x => decide (x.stack.length ≤ 12)) = true ∧
  (trapped s).killed = false ∧ (trapped s).exited = false ∧ (trapped s).halt ≠ .halted ∧ (s.origin 0).stallsBy 2 = false ∧ (trapped s).markWaited.nextDelivery = some 0 ∧ ((trapped s).markWaited.thread 0).pend = some p
theorem meets_TrapDelivery : Due (causing 1 1 4 cause) cause ∧ Due (causing 0 1 4 cause) cause ∧ Due (causing 2 1 4 cause) cause ∧ Due (causing 0 1 0 cause) cause := by decide
theorem meets_TrapDelivery_more : Due (causing 0 1 5 cause) cause ∧ Due (causing 0 0 4 cause) cause ∧ Due (causing 0 0 4 { cause with ganged := false }) { cause with ganged := false } := by decide
theorem meets_TrapDelivery_handler : ((trapped (causing 1 1 4 cause)).thread 0).hlvl = 1 ∧ (trapped (causing 1 1 4 cause)).tbase ≠ 0 ∧ (causing 1 1 4 cause).badTarget 0 1 4 = none ∧
    (((causing 1 1 4 cause).core 0).icache.find? (lineKey 1 4)).isSome ∧ ((trapped (causing 2 1 4 cause)).thread 0).hlvl = 2 ∧ (trapped (causing 0 1 0 cause)).tbase = 0 ∧
    ((causing 0 1 5 cause).badTarget 0 1 5).isSome ∧ (((causing 0 1 5 cause).core 0).icache.find? (lineKey 1 5)).isSome := by decide
theorem meets_TrapDelivery_page : (causing 1 1 4 cause).locChunks 0 1 (frbase probeGroup.hdr 0 + 128) .store 16 =
    .ok ((List.range 16).map (fun i => ⟨frbase probeGroup.hdr 0 + 128 + 8 * i, 8, 0, frbase probeGroup.hdr 0 + 128 + 8 * i, .l1, false⟩)) := rfl
theorem meets_TrapDelivery_noPage : ∃ f, ({ causing 0 1 4 cause with contexts := [] }).locChunks 0 1 (frbase probeGroup.hdr 0) .store 16 = .error f := ⟨_, rfl⟩
/-- Context 1 with another leaf over its first gigabyte. -/
def mapped (leaf : Byte) : State := { base with mem := [(0x1000, leaf)] }
def goneAll : State := { base with ras := { State.reset.ras with hbmRetired := [(0, 2 ^ 36)] } }
/-- A group with 16 private words for each thread, at 1 MiB, and one page of vault. -/
def shaped (g : Group) : Group := { g with hdr := (([0, 0, 0, 32, 0x100000, 0, 5 * 2 ^ 22 + 1 * 2 ^ 19 + 224 * 2 ^ 11, 16 * 2 ^ 44 + 1 * 2 ^ 29 + 1 * 2 ^ 14, 0, 0, 0, 0, 0, 0, 0, 0] : List Nat).map (BitVec.ofNat 64)) }
def spaced : State := state same shaped same
theorem meets_AddressRules :
    (let v := seen base; let x (e : Nat) := base.trans v.cluster v.grp.ctx e
      0 / 2 ^ 46 = base.modnum ∧ (x 0).fault = none ∧ (x (2 ^ 30)).fault = some (0x10, 0) ∧ 2 ^ 30 < 2 ^ 56 ∧ base.hbmGone 0 = false ∧ Perm.ok .load (x 0).flags = true ∧ (5 : Nat) % 2 ≠ 0) ∧
    (let x := goneAll.trans (seen goneAll).cluster 1 0; x.fault = none ∧ goneAll.hbmGone x.pa = true) ∧
    (let x := (mapped 0x0B).trans (seen (mapped 0x0B)).cluster 1 0; x.fault = none ∧ Perm.ok .store x.flags = false) ∧
    (let x := (mapped 0x7B).trans (seen (mapped 0x7B)).cluster 1 0; x.fault = none ∧ x.flags.testBit 6 = true) ∧
    (let h := (seen spaced).grp.hdr; hdrWords h = 16 ∧ 16 < 64 / 4 + (4 + 3) / 4 ∧ 4095 < 4096 * hdrVbase h ∧ 4096 * hdrVbase h ≤ 8176 ∧ 8176 + 16 ≤ 4096 * (hdrVbase h + hdrVlen h) ∧
      8176 / 0x200000 ∉ (spaced.cluster (seen spaced).cluster).retiredVaults) := by decide
def at0 (sp : Space) : MAddr := ⟨always, sp, .b4, .core, .v 2, .imm 0⟩
theorem meets_LoadsAndStoresIssue : Ready spaced ∧ (∀ q ∈ (seen spaced).iss.parts, ((seen spaced).crew.scull q).cf.length = 12) ∧ (seen spaced).iss.parts.Nodup ∧ (seen spaced).flagFull false = false ∧
    (seen spaced).lanes always (.v 0) = [0] ∧ (seen spaced).witFault spaced 0 .vz 0 = none ∧ (seen spaced).access spaced 0 2 .global 0 4 .load = .ok [⟨0, 4, 0, 0, .l1, false⟩] ∧
    (seen spaced).access spaced 0 1 .vault (2 ^ 12) 4 .store = .ok [⟨vaultKey 0 4096, 4, 0, 4096, .home, false⟩] ∧
    (∃ p q, (seen spaced).privPieces spaced 0 2 (at0 .priv) .load = .ok (p, q) ∧ p.length = 1 ∧ q.length = 1) ∧ (∃ p q, (seen spaced).privPieces spaced 0 1 (at0 .priv) .store = .ok (p, q) ∧ p.length = 1) ∧
    (spaced.origin 0).stalls = false ∧ (seen spaced).crew.enm = false :=
  ⟨ready_of _ (by decide), by decide, by decide, by decide, by decide, by decide, rfl, rfl, ⟨_, _, rfl, rfl, rfl⟩, ⟨_, _, rfl, rfl⟩, by decide, by decide⟩
def byte0 : SByte := ⟨64, 0xAB, .l1⟩
/-- Unit 0 with one event in flight and one dirty byte in its L1. -/
def stored (e : StoreEv) (l1 : SMap L1Byte) : State := { state same same (fun c => { c with l1 := l1 }) with origins := [(0, ⟨1, 0, [e], none⟩)] }
def dirtyByte : SMap L1Byte := [(64, ⟨0xAB, [1], 0⟩)]
theorem meets_StorePath :
    (let e := event 1 1 [byte0]; let s := stored e []
      s.event? 0 1 = some e ∧ (e.bytes.map (·.ha)).Nodup ∧ e.held = false ∧ e.entered = false ∧ e.inL1 = true ∧ s.needOver 0 e.waits = true ∧ e.after = []) ∧
    (let e := { event 1 1 [byte0] with entered := true }; let s := stored e dirtyByte
      s.event? 0 1 = some e ∧ e.wit = true ∧ 1 ≤ e.scope ∧ e.swept = false ∧ (s.core 0).l1.Pairwise (fun a b => a.1 < b.1)) ∧
    (let e := { event 1 1 [byte0, ⟨65, 1, .home⟩] with entered := true, swept := true }; let s := stored e dirtyByte; s.event? 0 1 = some e ∧ s.mayGo 0 e = true) ∧
    (let e := event 1 1 [⟨64, 9, .home⟩]; let s := { base with origins := [(4032, ⟨1, 0, [e], none⟩)] }; s.event? 4032 1 = some e ∧ (s.origin 4032).pend.head? = some e ∧ s.lineCopied 0 = false) :=
  ⟨by decide, by decide, by decide, by decide⟩
def waitingLoad (e : LElem) : Load := ⟨.crew 0, 0, false, none, [0], [e], [], ⟨0, 0, false, 0, 0, 0⟩⟩
def part (ha : Nat) (d : Dest) : LPart := ⟨ha, 4, d, some 0, true, 0xFE, none, false, none⟩
def loading (d : Dest) (l1 : SMap L1Byte) : State := state same same (fun c => { c with l1 := l1, loads := [(1, waitingLoad ⟨0, 64, [part 64 d], 1, 0⟩)] })
theorem meets_CacheSteps :
    (let s := stored (event 1 1 []) dirtyByte; (s.core 0).l1.Pairwise (fun a b => a.1 < b.1) ∧ (s.core 0).l1.find? 64 = some ⟨0xAB, [1], 0⟩ ∧ s.isPoisoned 64 1 = false) ∧
    (loading .l1 []).misses 0 64 = true ∧
    (let e := event 1 1 [⟨128, 7, .repl⟩]; let s := { stored { e with swept := true } [] with copies := [(3 * 2 ^ 40 + 1, ⟨List.replicate 128 0, none, []⟩)] }
      s.event? 0 1 = some { e with swept := true } ∧ e.line = some 1 ∧ s.mayGo 0 { e with swept := true } = true ∧ e.locks < 12 ∧ s.copyLocked e.locks 1 = false ∧ s.copyLocked 3 1 = false) ∧
    (let e := { event 1 1 [⟨128, 7, .repl⟩] with swept := true, locks := 12 }; let s := { stored e [] with copies := [(3 * 2 ^ 40 + 1, ⟨List.replicate 128 0, some (0, 1), []⟩)] }
      s.event? 0 1 = some e ∧ e.line = some 1 ∧ e.locks = 12 ∧ (e.bytes.map (·.ha)).Nodup ∧ (s.copies.find? (3 * 2 ^ 40 + 1)).isSome) := by decide
theorem meets_LoadBinds :
    (let s := loading .home []; let e : LElem := ⟨0, 64, [part 64 .home], 1, 0⟩; let l := waitingLoad e
      (s.core 0).loads.find? 1 = some l ∧ l.elems.find? (fun x => x.t == 0) = some e ∧ l.who = .crew 0 ∧ (s.crew? 0 0).isSome ∧ s.satisfied e.after l.scope = true ∧ s.needOver 0 l.need = true ∧
        (∀ p ∈ e.parts, s.partReady 0 l.forced p = true ∧ p.dest ≠ .remote ∧ p.tagAt = none) ∧ (∀ p ∈ e.parts, ∀ i, i < p.n → s.isPoisoned (p.ha + i) 1 = false ∧ (p.ha + i) / 8 ∉ (s.core 0).l1poison) ∧
        (∀ p ∈ e.parts, 1 ≤ p.n ∧ p.n ≤ 4 ∧ p.ha % 128 + p.n ≤ 128) ∧ (e.parts.filterMap (·.dst)).Nodup) := by decide
/-- A line with one slot. -/
def lineWith (w : Slot) : List Byte := [0x1F, 0, 0, 0] ++ (List.range 12).map (fun i => w.extractLsb' (8 * i) 8) ++ List.replicate 48 0
def loadWord : Slot := (encode (.ld .i32 ⟨always, .global, .b4, .core, .v 2, .imm 0⟩ false 0 (.v 4) .vz)).getD 0
def early : State := state same same (fun c => { c with icache := [(2 ^ 56, lineWith loadWord)], l1 := (List.range 4).map (fun a => (a, ⟨0, [], 0⟩)) })
def earlyCrew : Crew := (early.crew? 0 0).getD probeCrew
def earlyElem : LElem := ⟨0, 0, [⟨0, 4, .l1, some 128, true, 0xFE, none, false, none⟩], 1, 0⟩
def earlyPart (i : Nat) : LPart := ⟨i, 1, .l1, some 0, false, intTag, none, false, none⟩
theorem meets_LoadBinds_early : ((early.crew? 0 0).isSome ∧ (earlyCrew.thread 0).live = true ∧ (earlyCrew.thread 0).pend = none ∧ earlyCrew.halt = .none ∧ earlyCrew.replay = none ∧ (early.core 0).loads = [] ∧
      early.poisonAhead 0 (.crew 0) (fun _ => true) = false) ∧ early.partReady 0 false (earlyPart 0) = true ∧ early.partDead 0 false (earlyPart 0) = none ∧
    (let l : Load := waitingLoad earlyElem; (Early.mk 0 [(0, 1), (1, 2), (2, 3), (3, 4)] [] []).binds 1 l earlyElem = true ∧ { early with issue := none }.recStalls 0 earlyCrew = false) := ⟨by decide, by decide, by decide, by decide⟩
theorem meets_LoadBinds_elem : early.xlate (clusterOf 0) 1 0 .load = .ok ⟨0, .l1, false⟩ := rfl
theorem meets_LoadBinds_known : (let e : LElem := ⟨0, 64, [⟨0, 0, .home, some 128, false, 0xFE, none, false, some 7⟩], 1, 0⟩; ∀ p ∈ e.parts, p.tagAt = none ∧ p.known.isSome = true ∧ p.n = 0 ∧ p.dest = .home ∧ (loading .home []).partReady 0 false p = true) := by decide
/-- An atomic operation of thread 0, or of threads 0 and 1 at one word, in flight with its event. -/
def atom (op : Nat) (ty : Ty) (several flushed : Bool) : Atom := ⟨.crew 0, op, ty, some 1, 0, false, [], [], some (.v 4), none, [0],
  if several then [⟨0, 64, 64, false, 1, 2⟩, ⟨1, 64, 64, false, 1, 2⟩] else [⟨0, 64, 64, false, 1, 2⟩], 0, ⟨0, 0, false, 0, 0, 0⟩, probeGroup, [], none, flushed⟩
def performing (a : Atom) : State := { state same same (fun c => { c with atoms := [(1, a)] }) with origins := [(0, ⟨1, 0, [{ event 1 0 [] with held := true }], none⟩)] }
def atoms : List Atom := (List.range 8).flatMap (fun op => [atom op .i32 false true, atom op .u64 true true]) ++
  [atom 0 .u32 false true, atom 0 .i64 true true, atom 0 .f32 false true, atom 0 .f64 true true, atom 0 .bf16x2 true true, atom 0 .f16x2 false true, atom 7 .bf16x2 false true, atom 0 .i32 true false, { atom 0 .bf16x2 true true with half := some (0, 5) }, atom 6 .bf16x2 true true, atom 6 .f16x2 false true, { atom 2 .f16x2 false true with half := some (1, 5), got := [(7, 1)] }]
theorem meets_AtomicsPerform : ∀ a ∈ atoms, (((performing a).core 0).atoms.find? 1 = some a ∧ a.seq = some 1 ∧ a.op ≤ 7 ∧ a.elems ≠ [] ∧ a.who = .crew 0) ∧
    (((performing a).crew? 0 0).isSome ∧ (performing a).atomReady 0 a = true ∧ ((performing a).dropEvent 0 1).recHolds 0 (.crew 0) = false ∧ (a.flushed = true → (performing a).atomApplies 0 a 1 = true) ∧ ((performing a).core 0).l1 = [] ∧ (performing a).poison = [] ∧ (1 : DWord).toNat < 2 ^ 32) := each _ _ (by decide)
/-- v0, v1 and v2, v3 of thread 0 hold two witnesses. -/
def witnessed (a b : DWord) : State := state (fun w => { w with regs := [(0, loWord a, 0xFE), (32, hiWord a, 0xFE), (64, loWord b, 0xFE), (96, hiWord b, 0xFE)] }) same same
theorem meets_WitnessInstructions :
    (∀ s ∈ [witnessed 0 0, witnessed (mkWit 1 1 0 0 0 0) 0, witnessed (mkWit 1 1 0 0 0 0) (mkWit 2 1 0 0 0 0), witnessed (mkWit 2 2 0 0 0 0) (mkWit 3 2 0 1 0 0),
      witnessed (mkWit 2 1 0 0 0 0) (mkWit 3 3 0 4032 0 0), witnessed (mkWit 0 2 0 0 0 0) 0, witnessed (mkWit 2 1 0 4095 0 0) 0], Ready s) ∧
    (let s := witnessed (mkWit 1 1 0 0 0 0) (mkWit 2 1 0 0 0 0); let v := seen s
      v.lanes always (.v 4) = [0] ∧ witKind (v.pair 0 (.v 0)) = 1 ∧ s.expired (v.pair 0 (.v 0)) = false ∧ s.witBad 0 (v.pair 0 (.v 0)) 1 = none ∧ s.witBad 0 (v.pair 0 (.v 2)) 1 = none ∧
        s.satisfied (v.pair 0 (.v 0)) 1 = true ∧ s.satisfied (v.pair 0 (.v 2)) 1 = true) ∧
    (let s := witnessed (mkWit 1 1 0 0 0 0) (mkWit 2 1 0 0 0 0); let v := seen s; 1 ≤ witScope (v.pair 0 (.v 0)) ∧ 1 ≤ witScope (v.pair 0 (.v 2))) ∧
    (let s := witnessed (mkWit 0 2 0 0 0 0) 0; let w := (seen s).pair 0 (.v 0); witKind w = 2 ∧ isOrigin (witOrigin w) = true ∧ witScope w < 1 ∧ (seen s).crew.enm = false) ∧
    (let w := (seen (witnessed (mkWit 2 1 0 4095 0 0) 0)).pair 0 (.v 0); witKind w ≠ 0 ∧ isOrigin (witOrigin w) = false) :=
  ⟨ready_each _ (by decide), by decide⟩
theorem meets_AtomicsIssue : Ready spaced ∧ (seen spaced).lanes always (.v 0) ≠ [] ∧ (seen spaced).crew.enm = false ∧ (seen spaced).flagFull false = false ∧ (spaced.origin 0).stalls = false ∧
    (seen spaced).access spaced 0 3 .global ((seen spaced).ea 0 (at0 .global)) 4 .atomic = .ok [⟨0, 4, 0, 0, .l1, false⟩] ∧
    (seen spaced).locate spaced 0 .global 0 8 .load = .ok [⟨0, 8, 0, 0, .l1, false⟩] ∧ (seen spaced).access spaced 0 3 .global 0 8 .atomic = .ok [⟨0, 8, 0, 0, .l1, false⟩] :=
  ⟨ready_of _ (by decide), by decide, by decide, by decide, by decide, rfl, rfl, rfl⟩
theorem meets_LinesAndMonitors : Ready base ∧ (seen base).core.l1.Pairwise (fun a b => a.1 < b.1) ∧ (seen base).locate base 0 .global ((seen base).ea 0 (at0 .global)) 1 .load = .ok [⟨0, 1, 0, 0, .l1, false⟩] ∧
    (seen base).l1Range base (at0 .global) (.v 0) 0 = .ok [] ∧ (∃ t ∈ (seen base).acting always, base.monitorDone 0 0 t = true) ∧
    (let s := state (holding 64 0 same) same (fun c => { c with l1 := dirtyByte }); Ready s ∧ ∃ r, (seen s).l1Range s (at0 .global) (.v 0) 0 = .ok r ∧ r ≠ []) :=
  ⟨ready_of _ (by decide), by decide, rfl, rfl, by decide, ready_of _ (by decide), ⟨_, rfl, by decide⟩⟩
/-- The crew's only path, in scull 0, waits. -/
def parked (x : Wait) (f : Crew → Crew) : Crew → Crew := fun w => f { w with sculls := { Scull.fresh with run := some ⟨0, 1, 0, 0, true, x, 0, 0⟩ } :: List.replicate 7 Scull.fresh }
def wakes (x : Wait) (f : Crew → Crew) (h : Group → Group) (c : Core → Core) : State := { state (parked x f) h c with issue := none }
theorem wakes_parked (x : Wait) : ((wakes x same same same).crew? 0 0).isSome = true ∧
    (∀ w, (wakes x same same same).crew? 0 0 = some w → Parked (wakes x same same same) 0 0 0 w ⟨0, 1, 0, 0, true, x, 0, 0⟩ ∧ (∀ q, q ≠ 0 → (w.scull q).run = none) ∧ ∀ q, (w.scull q).stack = []) := by
  refine ⟨rfl, ?_⟩
  intro w h
  cases h
  refine ⟨⟨rfl, rfl, (by decide : dbgctlStart.getLsbD 8 = false), by decide⟩, ?_, ?_⟩ <;> intro q
  · intro hq
    rcases q with _ | _ | _ | _ | _ | _ | _ | _ | q
    · exact absurd rfl hq
    all_goals rfl
  · rcases q with _ | _ | _ | _ | _ | _ | _ | _ | q <;> rfl
theorem meets_WaitsEnd :
    (let s := wakes (.mwait (some 0) (.v 2) 1) same same same; let w := (s.crew? 0 0).getD probeCrew; (0 : Nat) ≤ w.ctime.toNat ∧ w.halt ≠ .halted) ∧
    (let m : Monitor := ⟨1, 0, 0, 0, 0, 0, true, false⟩; let s := { wakes (.mwait none (.v 2) 1) same same same with monitors := [m] }
      s.monitors.find? (fun y => y.id == m.id && y.hit && !y.triggered) = some m ∧ Nat.testBit 1 m.thread = true ∧ (∀ y ∈ s.monitors, y.id = m.id)) ∧
    (let s := wakes (.claim 8) (fun w => { w with count := 216 }) same (fun c => { c with claims := [0] }); let g := (s.group? 0 0).getD probeGroup
      (s.core 0).claims = [0] ∧ s.group? 0 0 = some g ∧ 32 * 8 ≤ g.regxFree + (s.core 0).pool) ∧
    (let b : Barrier := ⟨5, 0, 0, List.range 32⟩; let s := wakes (.bar 5 0 0 (.v 2) 1 0) same (fun g => { g with bars := [b] }) same; let g := (s.group? 0 0).getD probeGroup
      s.group? 0 0 = some g ∧ g.barrier b.bnd b.key = b ∧ b.arrived ≠ [] ∧ s.barrierFull 0 0 b = true ∧ g.slots = [0]) ∧
    (let b : Barrier := ⟨5, 0, 0, List.range 32⟩; let s := wakes (.bara 5 0 0) same (fun g => { g with bars := [b] }) same; let g := (s.group? 0 0).getD probeGroup
      s.group? 0 0 = some g ∧ g.barrier b.bnd b.key = b ∧ s.barrierFull 0 0 b = true) ∧
    (let a : Atom := { atom 9 .u64 false false with seq := none, elems := [⟨0, 64, 64, false, 0, 0⟩] }; let s := { wakes (.sltake (.v 4)) same same (fun c => { c with atoms := [(1, a)] }) with mem := [(64, 1), (0x1000, 0x3B)] }
      (s.core 0).atoms.find? 1 = some a ∧ a.op = 9 ∧ a.who = .crew 0 ∧ a.dst = some (.v 4) ∧ a.ty = .u64 ∧ (s.core 0).atomBefore a = false ∧ s.takesBefore a ⟨0, 64, 64, false, 0, 0⟩ = false ∧ s.atomHeld 0 a = false ∧ s.poison = [] ∧
        (s.core 0).l1 = [] ∧ s.num 64 8 % 2 ^ 32 ≠ 0) ∧
    (let s := wakes (.queue 0 0) (fun w => { w with dq := [(1, 0xFE)] }) same same; ((s.crew? 0 0).getD probeCrew).dq ≠ []) ∧
    (let s := wakes (.queue 1 0) same same (fun c => { c with evq := [[]] }); (s.core 0).evq ≠ []) ∧
    (∀ x ∈ [((0 : DWord), 4)], (wakes (.wit [(0, 4)] true) same same same).satisfied x.1 x.2 = true) ∧
    (wakes (.regang) same same same).crew? 0 0 ≠ none ∧ (let s := wakes .none (fun w => { w with yielded := some 1 }) same (fun c => { c with ccyc := 1 }); ((s.crew? 0 0).getD probeCrew).yielded = some 1 ∧ 1 ≤ (s.core 0).ccyc) :=
  ⟨by decide, by decide, by decide, by decide, by decide, by decide, by decide, by decide, by decide, by decide, by decide⟩
/-- Thread 0's v0 holds a crew number, v1 is zero. -/
def queued (to_ : Word) (dq : List (Word × Tag)) (evq : List (List DWord)) : State :=
  state (holding to_ 0 (fun w => { w with dq := dq })) (fun g => { g with slots := [0, 1], cnums := [0, 1, 2] }) (fun c => { c with crews := c.crews ++ [(1, { probeCrew with cnum := 1, dq := dq })], evq := evq })
theorem queued_ready : ∀ s ∈ [queued 1 [] [], queued 2 [] [], queued 31 [] [], queued 1 [(7, 0x60)] [[1, 2, 3, 4]], queued 1 (List.replicate 16 (7, 0x60)) [[1, 2, 3, 4]]], Ready s := ready_each _ (by decide)
theorem meets_QueuesAndTokens :
    (let v := seen (queued 1 [(7, 0x60)] [[1, 2, 3, 4]]); (v.acting always).head? = some 0 ∧ v.core.evq = [[1, 2, 3, 4]] ∧ v.crew.dq = [(7, 0x60)] ∧ v.isCox = false ∧ (v.src 0 (.reg (.v 0))).1.toNat = 1 ∧
      1 ∈ v.grp.cnums ∧ v.sibling 1 = some (1, { probeCrew with cnum := 1, dq := [(7, 0x60)] }) ∧ v.crew.enm = false) ∧
    (let v := seen (queued 1 [] []); v.core.evq = [] ∧ v.crew.dq = []) ∧
    (let v := seen (queued 1 (List.replicate 16 (7, 0x60)) [[1, 2, 3, 4]]); v.sibling 1 = some (1, { probeCrew with cnum := 1, dq := List.replicate 16 (7, 0x60) })) ∧
    (let v := seen (queued 2 [] []); 2 ∈ v.grp.cnums ∧ v.sibling 2 = none) ∧ (let v := seen (queued 31 [] []); 31 ∉ v.grp.cnums) := ⟨by decide, by decide, by decide, by decide, by decide⟩
/-- An access descriptor of no loops and one stream (R331, R332) at address 0x2000: one element of 4 bytes for queue 3. -/
def aeMem : List Host.Cell := [(0x1000, 0x3B), (0x2001, 1), (0x2048, 3), (0x2049, 4)]
def streams (ae : Option AeRun) (q : List (List OqElem)) : State :=
  { state same (fun g => { g with ae := ae, oq := [q, [], [], []], aeStarted := true }) same with mem := aeMem }
def aeRun : AeRun := ⟨0, [], [⟨0, 3, 4, List.replicate 6 0⟩], [], 0, [[], [], [], []], []⟩
def elem (cause : Nat) : OqElem := ⟨7, cause, 0, 0, 0⟩
theorem streams_ready : ∀ s ∈ [streams none [], streams (some aeRun) [], streams none [List.replicate 32 (elem 0)], streams none [List.replicate 32 (elem 0x10)]], Ready s := ready_each _ (by decide)
theorem meets_AffineEngine :
    (let s := streams none []; let v := seen s; s.group? 0 v.gid = some v.grp ∧ v.grp.ae = none ∧
      (∃ hd bs xs ys, v.desc s 0 (directTarget v.iss.pc.toNat (BitVec.ofNat 32 0x400)) 64 8 = .ok (hd, xs) ∧ v.readChunks s 0 2 true .global (0x2000 + 64) 8 = .ok (bs, ys) ∧ hd.length = 64 ∧ bs.length = 64 ∧ field hd 0 1 = 0 ∧ field hd 1 1 = 1 ∧
        field hd 2 2 = 0 ∧ field hd 28 36 = 0 ∧ field (hd ++ bs) 72 1 = 3 ∧ field (hd ++ bs) 73 1 = 4 ∧ field (hd ++ bs) 74 6 = 0)) ∧
    (seen (streams (some aeRun) [])).grp.ae.isSome ∧ (seen (streams none [List.replicate 32 (elem 0)])).grp.oq.getD 0 [] = [List.replicate 32 (elem 0)] ∧ (seen (streams none [])).grp.oq.getD 0 [] = [] ∧
    (seen (streams none [List.replicate 32 (elem 0x10)])).crew.enm = false ∧ (seen base).grp.aeStarted = false ∧
    (let s := { streams (some aeRun) [] with mem := [(0x1000, 0xBB)] }; s.group? 0 0 = some (seen s).grp ∧ (seen s).grp.ae = some aeRun ∧ s.locGlobal 0 1 0 4 .load = .ok [⟨0, 4, 0, 0, .home, false⟩]) ∧
    (let s := { streams (some aeRun) [] with mem := [] }; s.locGlobal 0 1 0 4 .load = .error (0x10, 0, 0)) :=
  ⟨⟨by decide, by decide, ⟨_, _, _, _, rfl, rfl, rfl, rfl, by decide, by decide, by decide, by decide, by decide, by decide, by decide⟩⟩, by decide, by decide, by decide, by decide, by decide, ⟨by decide, by decide, rfl⟩, rfl⟩
/-- The same descriptor with seven loops. -/
def badStreams : State := { streams none [] with mem := [(0x1000, 0x3B), (0x2000, 7), (0x2001, 1), (0x2048, 3), (0x2049, 4)] }
theorem meets_AffineEngine_bad : Ready badStreams ∧ ∃ hd bs xs ys, (seen badStreams).desc badStreams 0 (directTarget (seen badStreams).iss.pc.toNat (BitVec.ofNat 32 0x400)) 64 8 = .ok (hd, xs) ∧
    (seen badStreams).readChunks badStreams 0 2 true .global (0x2000 + 64) 8 = .ok (bs, ys) ∧ hd.length = 64 ∧ bs.length = 64 ∧ 6 < field hd 0 1 := ⟨ready_of _ (by decide), ⟨_, _, _, _, rfl, rfl, rfl, rfl, by decide⟩⟩
/-- Three tiles: 4 by 4 FP32, 4 by 4 FP8 with the K direction along the columns, the same along the rows (R220 to R222). -/
def tileWord (fmt kdir : Nat) : Word := BitVec.ofNat 32 (fmt + 3 * 2 ^ 8 + 3 * 2 ^ 16 + kdir * 2 ^ 24)
def tiled (q : List Entry) (blade : Option Nat) : State :=
  state (fun w => { w with regs := [(0, 0x2000, 0xFE)] }) (fun g => { g with tiles := [0, 1, 2], hdr := ((List.range 16).map (fun i => if i = 6 then BitVec.ofNat 64 (5 * 2 ^ 22 + 1 * 2 ^ 19 + 224 * 2 ^ 11 + 3) else 0)) })
    (fun c => { c with tiles := [(0, Tile.fresh (tileWord 4 0)), (1, Tile.fresh (tileWord 8 0)), (2, Tile.fresh (tileWord 8 1))], queues := [q, [], []], blade := blade })
def entry (k : EKind) : Entry := ⟨9, .crew 0, 0, probeGroup, 0, 0, 0, none, [], k, 0, false, 0, false, 0, 0, 0, 0, false, [], ⟨0, 0, false, 0, 0, 0⟩⟩
theorem tiled_ready : ∀ s ∈ [tiled [] none, tiled [entry (.tst 0 [] [])] none, tiled [] (some 5)], Ready s := ready_each _ (by decide)
theorem meets_Tiles :
    (let v := seen (tiled [] none); (v.acting always).filter (fun t => t / 8 == 0) = [0] ∧ (v.acting always).head? = some 0 ∧ 0 < hdrTiles v.grp.hdr ∧ v.grp.tiles.length = 3 ∧ v.core.queues.getD 0 [] = [] ∧
      tfBad (tileWord 4 0) = false ∧ tfFmt (tileWord 4 0) ∈ [0, 4, 5, 8, 9] ∧ tfRows (tileWord 4 0) = 4 ∧ 3 + 0 % 8 < tfRows (tileWord 4 0) ∧ 3 + 1 ≤ tfCols (tileWord 4 0) ∧ 220 + 1 ≤ v.crew.count ∧
      (v.core.tiles.get Tile.reset 0).poisoned = false) ∧
    (let v := seen (tiled [entry (.tst 0 [] [])] none); v.isCox = false ∧ ((v.core.queues.getD 0 []).filter (fun e => decide (0 ∈ e.kind.writes ∨ 0 ∈ e.kind.reads))).map (·.id) = [9]) := by decide
theorem meets_MatrixEntriesIssue :
    (let s := tiled [] none; let v := seen s; v.core.queues.length = 3 ∧ v.iss.parts.Nodup ∧ (∀ j ∈ v.iss.parts, ((v.crew.scull j).cf).length = 12) ∧ v.flagFull false = false ∧
      v.grp.tiles.length = 3 ∧ hdrTiles v.grp.hdr = 3 ∧ tfFmt (tileWord 4 0) ≠ 15 ∧ sigBad (tileWord 4 0) 25 = false ∧ v.witFault s 0 .vz 0 = none ∧ v.crew.enm = false ∧ (s.origin 0).stalls = false ∧
      mmaFits false (tileWord 4 0) (tileWord 8 0) (tileWord 8 1) (some (tileWord 4 0)) = true ∧ v.core.blade = none) ∧
    (∃ l, (seen (tiled [] none)).tileXfer (tiled [] none) .global .load 0 (.v 0) .vz (tileWord 4 0) = .ok l ∧ l.length = 4) ∧
    (∃ l, (seen (tiled [] none)).tileXfer (tiled [] none) .global .store 0 (.v 0) .vz (tileWord 4 0) = .ok l ∧ ∀ x ∈ l.flatten, x.dest ≠ .remote) ∧
    (∃ l, (seen (tiled [] none)).scaleXfer (tiled [] none) .global 0x2000 (tileWord 4 0) = .ok l) ∧
    (∃ x, (seen (tiled [] (some 5))).core.blade = some x ∧ x ≠ (seen (tiled [] (some 5))).crew.gid) :=
  ⟨by decide, ⟨_, rfl, rfl⟩, ⟨_, rfl, by decide⟩, ⟨_, rfl⟩, ⟨5, rfl, by decide⟩⟩
def token (b : Option Nat) (ws : List Nat) : State := state same same (fun c => { c with blade := b, bladeWait := ws, crews := c.crews ++ [(1, { probeCrew with gid := 7 })] })
def few : State := state (fun w => { w with count := 216 }) same same
/-- A load on its way to register 216. -/
def pendingLoad : State := state same same (fun c => { c with loads := [(1, waitingLoad ⟨0, 64, [{ part 64 .l1 with dst := some (32 * 216) }], 1, 0⟩)] })
theorem token_ready : ∀ s ∈ [token none [], token (some 0) [], token (some 7) [], token (some 0) [1], few, pendingLoad], Ready s := ready_each _ (by decide)
theorem meets_TokenAndRegisters :
    (seen (token none [])).acting always ≠ [] ∧ (seen (token none [])).core.blade = none ∧ (seen (token (some 0) [])).core.blade = some 0 ∧ (seen (token (some 0) [])).crew.gid = 0 ∧
    (seen (token (some 7) [])).core.blade = some 7 ∧ (seen (token (some 0) [1])).core.bladeWait = [1] ∧ ((token (some 0) [1]).crew? 0 1).isSome ∧
    (seen base).crew.count = 8 + 216 ∧ (seen base).core.pendingKeys (seen base).iss.who = [] ∧ base.group? 0 (seen base).crew.gid = some (seen base).grp ∧
    (∃ x ∈ (seen pendingLoad).core.pendingKeys (.crew 0), 32 * 216 ≤ x ∧ x < 7168) ∧
    (seen few).crew.count + 8 ≤ 224 ∧ (seen few).crew.recOk = false ∧ (seen few).core.claims = [] ∧ 32 * 8 ≤ (seen few).grp.regxFree + (seen few).core.pool := by decide
/-- A descriptor at 0x2000: zero but for the bytes listed. -/
def described (l : List Host.Cell) : State := { state (fun w => { w with regs := [(0, 0x2000, 0xFE)] }) same same with mem := (0x1000, 0x3B) :: l }
theorem described_ready : ∀ s ∈ [described [], described [(0x2014, 1)], described [(0x2010, 1), (0x2014, 1)], described [(0x2002, 1)], described [(0x2001, 5)], described [(0x201C, 5)]], Ready s := ready_each _ (by decide)
theorem meets_EngineCommands :
    (seen (described [])).core.queues.length = 3 ∧ ((seen (described [])).acting always).head? = some 0 ∧ (seen (described [])).flagFull false = false ∧ (seen (described [])).crew.enm = false ∧
    (seen (described [])).witFault (described []) 0 .vz 1 = none ∧
    (∃ bs xs, (seen (described [(0x2014, 1)])).desc (described [(0x2014, 1)]) 0 0x2000 32 4 = .ok (bs, xs) ∧ field bs 16 8 = 2 ^ 32) ∧
    (∃ bs xs, (seen (described [(0x2010, 1), (0x2014, 1)])).desc (described [(0x2010, 1), (0x2014, 1)]) 0 0x2000 32 4 = .ok (bs, xs) ∧ 2 ^ 32 < field bs 16 8) ∧
    (∃ bs xs, (seen (described [])).desc (described []) 0 0x2000 64 8 = .ok (bs, xs) ∧ field bs 28 1 ≤ 4 ∧ field bs 29 1 ≤ 1 ∧ field bs 24 4 ≤ 2 ^ 24 ∧ field bs 30 2 = 0 ∧ field bs 40 24 = 0 ∧ field bs 0 8 % 2 ^ field bs 28 1 = 0 ∧ field bs 16 8 % 4 = 0) ∧
    (∃ bs xs, (seen (described [(0x201C, 5)])).desc (described [(0x201C, 5)]) 0 0x2000 64 8 = .ok (bs, xs) ∧ ¬ field bs 28 1 ≤ 4) ∧
    (∃ bs xs, (seen (described [(0x2002, 1)])).desc (described [(0x2002, 1)]) 0 0x2000 64 8 = .ok (bs, xs) ∧ field bs 1 1 ∈ [0, 1, 2, 3, 4, 5, 8, 9] ∧ field bs 0 1 = 0 ∧ field bs 4 2 < field bs 2 2) ∧
    (∃ bs xs, (seen (described [])).desc (described []) 0 0x2000 64 8 = .ok (bs, xs) ∧ ¬ field bs 4 2 < field bs 2 2) :=
  ⟨by decide, by decide, by decide, by decide, by decide, ⟨_, _, rfl, by decide⟩, ⟨_, _, rfl, by decide⟩, ⟨_, _, rfl, by decide⟩, ⟨_, _, rfl, by decide⟩, ⟨_, _, rfl, by decide⟩, ⟨_, _, rfl, by decide⟩⟩
/-- Thread 0 is the only one of its crew; its log of one entry lies in the group's vault page (R201 to R204). -/
def alone (f : Crew → Crew) (w : Crew) : Crew :=
  f { w with sculls := { Scull.fresh with run := some ⟨0, 1, 0, 0, true, .none, 0, 0⟩ } :: List.replicate 7 Scull.fresh, threads := Thread.fresh :: List.replicate 31 { Thread.fresh with live := false }, logctl := 0x800100 }
def logging (enm : Bool) (map : Word) (l : List Host.Cell) : State := { state (alone (fun w => { w with enm := enm, regs := [(32, map, 0xFE)] })) shaped same with mem := (0x1000, 0x3B) :: l }
/-- One logged byte store to 0x40. -/
def logged : List Host.Cell := [(vaultKey 0 4096, 1), (vaultKey 0 (4096 + 32), 0x40)]
theorem logging_ready : ∀ s ∈ [logging false 0 [], logging true 0 [], logging true 0x01000000 logged], Ready s := ready_each _ (by decide)
theorem logging_mine : ∀ q, q < 8 → ((seen (logging true 0 [])).crew.scull q).stack = [] ∧ (∀ p ∈ ((seen (logging true 0 [])).crew.scull q).run, ∀ j, j < 4 → (p.mask.testBit j = true ↔ 4 * q + j ∈ (seen (logging true 0 [])).active)) := by decide
theorem meets_EnumerationAndMerge :
    (let v := seen (logging false 0 []); v.crew.enm = false ∧ v.crew.logctl.toNat / 2 ^ 23 = 1 ∧ 4096 * hdrVbase v.grp.hdr ≤ 16 * (v.crew.logctl.toNat % 2 ^ 23) ∧
      16 * (v.crew.logctl.toNat % 2 ^ 23) + 512 * 3 ≤ 4096 * hdrVbase v.grp.hdr + 4096 * hdrVlen v.grp.hdr ∧ (∀ t, t < 32 → ((v.crew.thread t).live = true ↔ t ∈ v.active)) ∧ v.active = [0] ∧ (v.val 0 (.v 0)).toNat.testBit 15 = false) ∧
    (let s := logging true 0 []; (seen s).crew.enm = true ∧ ∀ t, t < 32 → s.num (vaultKey 0 (4096 + 48 * t)) 16 / 2 ^ 16 % 2 = 0) := ⟨by decide, by decide⟩
theorem meets_TentativeLog :
    (let s := logging true 0 []; (seen s).logTarget s .global 0 4 = none ∧ s.num (vaultKey 0 4096) 16 % 2 ^ 16 < 1 ∧ (seen s).mapFind (.v 1) 0 = none) ∧
    (let s := logging true 0x01000000 logged; let v := seen s; v.mapFind (.v 1) ((v.val 0 (.v 0)).toNat % 4096) = some 0 ∧ s.logPlaces v 33 0 0 = [(0, 0)] ∧ s.num (vaultKey 0 4096) 16 / 2 ^ 48 % 2 ^ 16 = 0 ∧ (s.origin 0).pend = [] ∧
      s.num (vaultKey 0 (4096 + 32)) 16 / 2 ^ 56 % 2 ^ 8 = 0 ∧ s.num (vaultKey 0 (4096 + 32)) 16 % 2 ^ 56 = 0x40) ∧
    (let s := logging true 0x01000000 logged; (seen s).access s 0 1 .global 0x40 1 .store = .ok [⟨0x40, 1, 0, 0x40, .l1, false⟩]) := ⟨by decide, by decide, rfl⟩
/-- A hash table at 0 with 2^L buckets of four entries, all alike (R257). -/
def table (L : Byte) (e : List Host.Cell) : State :=
  { base with mem := (if L = 0 then [] else [(8, L)]) ++ (List.range 8).flatMap (fun i => e.map (fun c => (64 + 16 * i + c.1, c.2))) ++ [(0x1000, 0x3B)] }
def emptyEntry : List Host.Cell := [(0, 0xFF), (1, 0xFF), (2, 0xFF), (3, 0xFF)]
/-- The entry of the key of one zero byte under seed 0, whose bytes lie at offset 0 of the table. -/
def found : List Host.Cell := [(8, 0xbb), (9, 0x5d), (10, 1)]
theorem table_ready : ∀ s ∈ [table 0 [], table 1 emptyEntry, table 1 [], table 1 [(10, 1)], table 1 found], Ready s := ready_each _ (by decide)
theorem meets_HashProbe :
    (∃ hd xs, (seen (table 0 [])).readChunks (table 0 []) 0 2 true .global 0 2 = .ok (hd, xs) ∧ natOfBytes (hd.drop 8) = 0) ∧
    (∃ hd xs, (seen (table 1 emptyEntry)).readChunks (table 1 emptyEntry) 0 2 true .global 0 2 = .ok (hd, xs) ∧ natOfBytes (hd.drop 8) = 1) ∧
    (∀ i, i < 8 → ∃ bs xs, (seen (table 1 emptyEntry)).readChunks (table 1 emptyEntry) 0 2 true .global (64 + 16 * i) 2 = .ok (bs, xs) ∧ natOfBytes bs % 2 ^ 32 = 0xFFFFFFFF) ∧
    (∀ i, i < 8 → ∃ bs xs, (seen (table 1 [])).readChunks (table 1 []) 0 2 true .global (64 + 16 * i) 2 = .ok (bs, xs) ∧ natOfBytes bs % 2 ^ 32 ≠ 0xFFFFFFFF ∧ natOfBytes bs / 2 ^ 80 % 2 ^ 8 = 0) ∧
    (∀ i, i < 8 → ∃ bs xs, (seen (table 1 [(10, 1)])).readChunks (table 1 [(10, 1)]) 0 2 true .global (64 + 16 * i) 2 = .ok (bs, xs) ∧ natOfBytes bs % 2 ^ 32 ≠ 0xFFFFFFFF ∧ natOfBytes bs / 2 ^ 80 % 2 ^ 8 = 1) ∧
    (∀ i, i < 8 → ∃ bs xs, (seen (table 1 found)).readChunks (table 1 found) 0 2 true .global (64 + 16 * i) 2 = .ok (bs, xs) ∧
      natOfBytes bs / 2 ^ 64 % 2 ^ 16 = (let h0 := 0xCBF29CE484222325 * 0x00000100000001B3 % 2 ^ 64; h0 ^^^ (h0 / 2 ^ 29)) % 2 ^ 16 ∧ natOfBytes bs / 2 ^ 80 % 2 ^ 8 = 1) ∧
    (seen (table 1 found)).readKey (table 1 found) 0 true .global 0 1 = .ok ([0], [0]) := by
  refine ⟨⟨_, _, rfl, by decide⟩, ⟨_, _, rfl, by decide⟩, ?_, ?_, ?_, ?_, rfl⟩ <;> intro i hi <;> rcases i with _ | _ | _ | _ | _ | _ | _ | _ | i <;> first | omega | exact ⟨_, _, rfl, by decide⟩
def arriving (bara : List (Nat × Nat)) (bars : List Barrier) : State := state (alone (fun w => { w with threads := setNth w.threads 0 { Thread.fresh with bara := bara } })) (fun g => { g with bars := bars }) same
theorem arriving_ready : ∀ s ∈ [arriving [] [], arriving [(5, 0)] [], arriving [(5, 0)] [⟨5, 0, 1, []⟩]], Ready s := ready_each _ (by decide)
theorem meets_Barriers :
    (let v := seen (arriving [] []); v.acting always = [0] ∧ (arriving [] []).group? 0 v.crew.gid = some v.grp ∧ hdrBound v.grp.hdr 1 = 5 ∧ hdrBG v.grp.hdr = 5 ∧ (v.grp.barrier 5 0).phase ∉ ((v.crew.thread 0).bara.filter (fun p => p.1 == 5)).map (·.2) ∧
      v.grp.slots = [0] ∧ v.crew.recOk = false ∧ (∀ t, t < 32 → (v.crew.thread t).live = true → t ∈ v.acting always) ∧
      (∀ j, j < 8 → (v.crew.scull j).stack = [] ∧ (v.crew.scull j).run.isSome = decide (j ∈ v.iss.parts)) ∧ v.active = [0] ∧ (v.crew.scull 0).run = some ⟨0, 1, 0, 0, true, .none, 0, 0⟩) ∧
    (let v := seen (arriving [(5, 0)] []); (((v.crew.thread 0).bara.filter (fun p => p.1 == 5)).map (·.2)).head? = some (v.grp.barrier 5 0).phase) ∧
    (let v := seen (arriving [(5, 0)] [⟨5, 0, 1, []⟩]); (((v.crew.thread 0).bara.filter (fun p => p.1 == 5)).map (·.2)).head? = some 0 ∧ 0 < (v.grp.barrier 5 0).phase) := ⟨by decide, by decide, by decide⟩
def installed (run : Option Run) (waiting : List DWord) (evs : List StoreEv) : State :=
  { state (alone same) same same with graphs := [(0, { Graph.reset with installed := true, ctx := 1, run := run, waiting := waiting })], origins := [(0, ⟨1, 0, evs, none⟩)] }
def running : Run := ⟨1, 0, true, [], 0, 0⟩
theorem installed_ready : ∀ s ∈ [installed none [] [], installed (some running) [] [], installed (some running) [0, 0, 0, 0] [], installed none [] [event 1 1 []], state (alone same) same same], Ready s := ready_each _ (by decide)
theorem meets_PushesAndTriggers :
    (let s := state (alone same) same same; let v := seen s; v.crew.enm = false ∧ v.crew.recOk = false ∧ (v.acting always).head? = some 0 ∧ v.witFault s 0 .vz 2 = none ∧ (∀ j ∈ v.active, (v.crew.thread j).hlvl = 0) ∧
      v.core.pendingKeys v.iss.who = [] ∧ (s.origin 0).stalls = false ∧ v.core.l1 = [] ∧ v.grp.prio < 8 ∧ v.crew.count < 2 ^ 64 ∧ (v.pair 0 (.v 0)).toNat = 0) ∧
    (let s := state (alone same) same same; (seen s).checkAt s 0 64 .load = .ok ⟨0, .l1, false⟩ ∧ s.span 0 (seen s).grp .global .store 2 0 64 = .ok [⟨0, 64, .l1⟩]) ∧ (List.range 64).Nodup ∧
    (let s := installed none [] []; let g := s.graph 0; g.installed = true ∧ g.ctx = (seen s).grp.ctx ∧ (s.origin 0).pend = [] ∧ g.run = none ∧ g.waiting = []) ∧
    ((installed (some running) [] []).graph 0).run.isSome ∧ ((installed (some running) [0, 0, 0, 0] []).graph 0).waiting.length = 4 ∧ ((installed none [] [event 1 1 []]).origin 0).pend ≠ [] ∧
    (seen (installed none [] [event 1 1 []])).iss.resume = .none := ⟨by decide, ⟨rfl, rfl⟩, List.nodup_range, by decide, by decide, by decide, by decide, by decide⟩
theorem meets_JoinsAndSlots :
    (let s := { state (alone same) same same with mem := [(0, 1), (0x1000, 0x3B)] }; let v := seen s; Ready s ∧ v.crew.enm = false ∧ v.crew.recOk = false ∧ s.poison = [] ∧ v.core.l1 = [] ∧ (s.origin 0).pend = [] ∧ v.core.atoms = [] ∧ v.core.loads = [] ∧
      v.acting always = [0] ∧ v.checkAt s 0 64 .atomic = .ok ⟨0, .l1, false⟩ ∧ v.watched s 0 3 .global [⟨0, 4, 0, 0, .l1, false⟩] = none ∧
      v.counterElem s (at0 .global) (fun _ => 0) 0 = .ok ⟨0, 0, 0, false, 0, 0⟩ ∧ v.crew.halt ≠ .halted ∧ s.num 0 8 % 2 ^ 32 ≠ 0) :=
  ⟨ready_of _ (by decide), by decide, by decide, by decide, by decide, by decide, by decide, by decide, by decide, rfl, by decide, rfl, by decide, by decide⟩
def traced (base head : DWord) : State :=
  { state (fun w => { w with dbgctl := 0xA200 }) same (fun c => { c with trbase := base, trhead := head }) with contexts := [(0, { State.reset.ctx 0 with root := 0x1000 }), (1, { State.reset.ctx 1 with root := 0x1000 })] }
theorem meets_TraceMarks : (∀ s ∈ [traced 0 0, traced 1 0, traced 1 0xFFF8], Ready s) ∧
    (let v := seen (traced 1 0xFFF8); v.crew.dbgctl.getLsbD 9 = true ∧ v.crew.recOk = false ∧ v.acting always ≠ [] ∧ (v.core.trhead.toNat % 2 ^ 32 + 8) % (65536 * (v.core.trbase.toNat % 2 ^ 16)) = v.core.trtail.toNat % 2 ^ 32) ∧
    (let v := seen (traced 1 0); (v.core.trhead.toNat % 2 ^ 32 + 8) % (65536 * (v.core.trbase.toNat % 2 ^ 16)) ≠ v.core.trtail.toNat % 2 ^ 32) ∧ (seen (traced 0 0)).core.trbase.toNat % 2 ^ 16 = 0 ∧
    (traced 1 0).locGlobal (seen (traced 1 0)).cluster 0 0 8 .store = .ok [⟨0, 8, 0, 0, .l1, false⟩] := ⟨ready_each _ (by decide), by decide, by decide, by decide, rfl⟩
theorem meets_HashProbe_flag : (seen (table 1 found)).flagFull false = false := by decide
theorem meets_Barriers_fresh : (seen (arriving [] [])).fresh ((seen (arriving [] [])).acting always) = (seen (arriving [] [])).acting always ∧
    (let s := { state (alone same) same same with mem := [(0, 1), (0x1000, 0x3B)] }; (seen s).fresh [0] = [0] ∧ ∀ c ∈ s.cores, c.2.atoms = []) ∧ (base.graph 0).installed = false := by decide
theorem meets_TraceMarks_umpire : ((traced 1 0).core 0).trbase.toNat = 1 ∧ (0xFFF8 : DWord).toNat % 8 = 0 ∧ (0xFFF8 : DWord).toNat < 65536 ∧ ((traced 1 0).origin 0).stalls = false := by decide
/-- The queues of core 0 with one entry at the head of a queue. -/
def engine (q : Nat) (e : Entry) (f : Core → Core) (l : List Host.Cell) : State :=
  { state same same (fun c => f { c with queues := setNth [[], [], []] q [e], tiles := [(0, Tile.fresh (tileWord 4 0)), (1, Tile.fresh (tileWord 8 0)), (2, Tile.fresh (tileWord 8 1))] }) with mem := l, issue := none }
def doing (k : EKind) : Entry := { entry k with begun := true, sculls := [0] }
def lines4 : List (List Seg) := (List.range 4).map (fun i => [⟨0x2000 + 16 * i, 16, .home⟩])
def uncached : List Host.Cell := [(0x1000, 0xBB)]
def ranks : List Contrib := [⟨0, 0, 9, 1, true, 0, 1, 2, 1, [1, 0, 0, 0], []⟩, ⟨1, 0, 10, 1, true, 0, 1, 2, 1, [2, 0, 0, 0], []⟩]
def rounds (l : List Contrib) : State := { engine 2 (entry (.coll [])) same [] with rounds := [⟨5, 0, l, false⟩] }
theorem meets_EngineSteps :
    (let e := { entry (.tst 0 [] []) with after := mkWit 1 1 0 0 0 1 }; let s := { engine 0 e same [] with origins := [(0, ⟨1, 0, [event 1 1 []], none⟩)] }; s.satisfied e.after 0 = false ∧ e.finished = false ∧ e.begun = false) ∧
    (let e := doing (.tld 0 lines4 [] 24); let s := engine 0 e same []; (s.core 0).queues.length = 3 ∧ (s.core 0).queues.getD 0 [] = e :: [] ∧ ((lines4.getD e.pos []).map (·.n)).sum = tfLineBytes (tileWord 4 0) ∧
      s.poison = [] ∧ e.finished = false ∧ e.begun = true) ∧
    (let e := doing (.tst 0 lines4 [1, 2, 3, 4]); let s := engine 0 e same []; lines4.getD e.pos [] = [⟨0x2000, 16, .home⟩] ∧ 16 = tfLineBytes (tileWord 4 0) ∧ s.event? 0 1 = none) ∧
    (mmaFits false (tileWord 4 0) (tileWord 8 0) (tileWord 8 1) (some (tileWord 4 0)) = true ∧ tfBad (tileWord 4 0) = false ∧ mmaFits false (tileWord 0 0) (tileWord 13 0) (tileWord 13 1) none = true) ∧
    (let e := doing (.cpy 0x4000 0x2000 256 false false); let s := engine 1 e same uncached; e.pos < 256 ∧ min (256 - e.pos) (128 - (0x4000 + e.pos) % 128) = 128 ∧ s.poison = []) ∧
    (let e := doing (.fence 3 2); let s := engine 1 e same []; (s.core 0).queues.getD 1 [] = e :: [] ∧ bitAt 2 0 = false ∧ bitAt 2 1 = true ∧ bitAt 2 2 = false) ∧
    (let e := { doing (.tst 0 [] [1]) with finished := true }; let s := engine 0 e same []; s.tstOver 0 e = true ∧ (s.core 0).evq.length < 64 ∧ e.who = .crew 0 ∧ (s.crew? 0 0).isSome ∧ e.sculls.Nodup ∧ e.drop = false) ∧
    (64 ≤ ((engine 1 { doing (.cpy 0 0 0 false false) with finished := true } (fun c => { c with evq := List.replicate 64 [] }) []).core 0).evq.length) ∧
    (let r : Round := ⟨5, 0, ranks, false⟩; (rounds ranks).rounds.find? (fun x => x.group == 5 && x.round == 0) = some r ∧ r.agrees = true ∧ (∀ k, k < 2 → ∃ p ∈ r.parts, p.rank = k) ∧ 2 ≤ 1024) ∧
    (1 < 2 ∧ ∀ p ∈ ranks.take 1, p.rank ≠ 1) ∧ (Round.agrees ⟨5, 0, { ranks.headD ⟨0, 0, 0, 0, true, 0, 0, 0, 0, [], []⟩ with ok := false } :: [], false⟩ = false) :=
  ⟨by decide, by decide, by decide, by decide, by decide, by decide, by decide, by decide, by decide, by decide, by decide⟩
theorem meets_EngineSteps_full : Round.full ⟨5, 0, ranks, false⟩ = true := by simp [Round.full, ranks, List.range_succ]
theorem meets_EngineSteps_copy : (let e := doing (.cpy 0x4000 0x2000 256 false false); let s := engine 1 e same uncached
    s.engSpan 0 e false .load 0x2000 128 = .ok [⟨0x2000, 128, .home⟩] ∧ s.engSpan 0 e false .store 0x4000 128 = .ok [⟨0x4000, 128, .home⟩]) ∧
  (let e := doing (.cpy 0x4000 0x2000 256 false false); (engine 1 e same []).engSpan 0 e false .load 0x2000 128 = .error (0x10, 0, 0x2000)) := ⟨⟨rfl, rfl⟩, rfl⟩
theorem meets_EngineSteps_wait :
    (let s := { state (parked (.tile [9]) same) same (fun c => { c with queues := [[entry (.tst 0 [] [])], [], []] }) with issue := none }; ∃ e ∈ (s.core 0).queues.getD 0 [], e.id ∈ [9]) ∧
    (∀ e ∈ ((wakes (.tile [9]) same same same).core 0).queues.getD 0 [], e.id ∉ [9]) := ⟨by decide, by decide⟩
def probeHdr : List DWord := probeGroup.hdr
/-- A seat's crew of eight sculls at PC 0 of a line in the cache. -/
def seated (cf : Nat) (ic : SMap (List Byte)) : State :=
  { state (fun w => { w with parted := false, sculls := List.replicate 8 { Scull.fresh with cf := List.replicate 12 cf, run := some ⟨0, 15, 0, 0, false, .none, 0, 0⟩ } }) same (fun c => { c with icache := ic, seatPtr := 0 }) with issue := none }
/-- A line word with even parity: five valid slots, no pair, and WAIT of flag 0 or none (R38, R39, R45). -/
def lineOf5 (wait : Bool) : SMap (List Byte) := [(2 ^ 56, [0x1F, if wait then 2 else 0, 0, if wait then 0 else 0x80] ++ List.replicate 60 0)]
theorem meets_CoreEvents :
    (let s := seated 0 (lineOf5 false); let w := (s.crew? 0 0).getD probeCrew; (s.core 0).seatPtr = 0 ∧ (s.core 0).crews = [(0, w)] ∧ s.group? 0 w.gid = some probeGroup ∧ w.killed = false ∧ w.replay = none ∧ w.halt = .none ∧ w.parted = false ∧
      w.timer = false ∧ w.yielded = none ∧ (∃ x ∈ w.threads, x.live = true) ∧ w.sculls.length = 8 ∧ (∀ k, k < 8 → (w.scull k).stack = [] ∧ (w.scull k).run = some ⟨0, 15, 0, 0, false, .none, 0, 0⟩)) := by decide
theorem meets_CoreEvents_core : (∀ k, k < 8 → (((seated 0 (lineOf5 false)).core 0).seats.getD 0 Seat.reset).lanes.getD k [] = []) ∧ probeGroup.cox = none ∧
    ((seated 0 []).ctx 1).brk.all (fun b => !b.getLsbD 63) ∧ ((seated 0 []).core 0).pendingKeys (.crew 0) = [] ∧ groupBad ((seated 0 []).ctx 1) [0] = false := by decide
theorem meets_CoreEvents_line : (seated 0 (lineOf5 false)).badTarget 0 1 0 = none ∧ (lineOf5 false).all (fun x => !lineBad x.2 && bitsAt (lineWord x.2) 9 12 == 0) := by decide
theorem meets_CoreEvents_flags : (((seated 1 (lineOf5 true)).crew? 0 0).getD probeCrew).sculls.all (fun x => x.cf.getD 0 0 != 0) ∧ (lineOf5 true).all (fun x => !lineBad x.2 && bitAt (lineWord x.2) 9) := by decide
theorem meets_CoreEvents_miss : { seated 0 [] with mem := [(0, 0x1F), (0x1000, 0x3B)] }.badTarget 0 1 0 = none ∧ ((seated 0 []).core 0).icache = [] := by decide
def turned (n : Nat) : State := { State.reset with cores := [(0, { Core.reset with seatPtr := n, dbg := [(0, .nop always)] })] }
theorem meets_CoreEvents_idle : (State.reset.core 2303).crews = [] ∧ (State.reset.core 2303).groups = [] ∧ (State.reset.core 2303).seatPtr = 4 ∧ ∀ n, n < 6 → ((turned n).core 0).seatPtr = n ∧ ((turned n).core 0).groups = [] := by decide
theorem meets_CoreEvents_fetch : (∃ l, (seated 0 []).xlate (clusterOf 0) 1 0 .fetch = .ok l) ∧ (∃ l, (mapped 0xBB).xlate (clusterOf 0) 1 0 .fetch = .ok l ∧ l.dest = .home ∧ (mapped 0xBB).isPoisoned l.ha 64 = false ∧
    parityBad ((mapped 0xBB).bytes l.ha 64) = false ∧ (mapped 0xBB).fetchers 0 (2 ^ 56) = []) := ⟨⟨_, rfl⟩, ⟨_, rfl, rfl, by decide, by decide +kernel, by decide⟩⟩
def crewWith (f : Crew → Crew) : Crew := f probeCrew
theorem meets_CoreEvents_crew :
    (let w := crewWith (fun w => { w with stroke := 2 ^ 20 }); 2 ^ w.plog ≤ w.stroke ∧ w.dbgctl.getLsbD 10 = false) ∧ probeCrew.stroke < 2 ^ probeCrew.plog ∧
    (let w := crewWith (fun w => { w with tcmp := 5, ctime := 5 }); w.tcmp ≠ 0 ∧ w.tcmp.toNat ≤ w.ctime.toNat) ∧ probeCrew.tcmp = 0 ∧
    (let s := state (fun w => { w with halt := .requested }) same same; (s.core 0).loads = [] ∧ (s.core 0).atoms = [] ∧ ∀ t, t < 32 → (((s.crew? 0 0).getD probeCrew).thread t).pend = none) ∧
    (∃ l ∈ ((loading .l1 []).core 0).loads, l.2.who = .crew 0) := ⟨by decide, by decide, by decide, by decide, by decide, by decide⟩
theorem meets_EngineSteps_pass : (let e := doing (.mma 0 1 2 0 true false 0 0 0 0); let s := engine 0 e same []; s.writeOver e = true ∧ s.passOf 0 0 = [e] ∧ (((s.core 0).queues.getD 0 []).map (·.id)).Nodup ∧
      (∀ n ∈ e.kind.reads, ((s.core 0).tiles.get Tile.reset n).poisoned = false)) ∧
    (let e := { doing (.mma 0 1 2 0 true false 0 0 0 0) with finished := true }; let s := engine 0 e same []; s.writeOver e = true ∧ s.tstOver 0 e = true ∧ (s.passOf 0 0).takeWhile (·.finished) = [e]) ∧
    (let e := { doing (.cpy 0 0 0 false false) with finished := true }; let s := engine 1 e same []; s.writeOver e = true ∧ s.tstOver 0 e = true ∧ (s.passOf 0 1).takeWhile (·.finished) = [e] ∧ (s.core 0).evq.length < 64) ∧
    ((engine 1 (doing (.cpy 0x4000 0x2000 256 false false)) same []).origin (doing (.cpy 0 0 0 false false)).origin).stalls = false := by decide
theorem meets_CoreEvents_start : (((seated 0 (lineOf5 false)).crew? 0 0).getD probeCrew).sculls.all (fun x => !x.stopped) = true ∧ (seated 0 (lineOf5 false)).poisonAhead 0 (.crew 0) (fun _ => true) = false := by decide
/-! The scheduler, the host, the mailbox and the rest of the module. -/

/-- The module ready, with one graph of one node in context 1. -/
def ready (r : Nat) (g : Graph) : State := { base with issue := none, iod := { State.reset.iod with ready := r }, graphs := [(0, g)] }
def oneNode (run : Option Run) (waiting : List DWord) : Graph := { Graph.reset with installed := true, ctx := 1, pblen := 64, nodes := [⟨probeHdr, 0, []⟩], run := run, waiting := waiting }
def newRun (plist : Nat) : Run := ⟨1, plist, false, [⟨0, 0, false, false⟩], 0, 0⟩
def allReady : Nat := 2 ^ 28 - 1
theorem meets_SchedulerEvents_trigger :
    (¬ (3 : DWord).toNat % 8 = 0) ∧ (let s := ready allReady (oneNode none []); (s.graph 0).installed = true ∧ bitAt s.iod.ready 26 = true ∧ (s.graph 0).run = none ∧ (s.graph 0).waiting = []) ∧
    (let s := ready allReady (oneNode (some (newRun 0)) [0, 0, 0]); (s.graph 0).run ≠ none ∧ (s.graph 0).waiting.length < 4) ∧ (4 ≤ ((ready allReady (oneNode (some (newRun 0)) [0, 0, 0, 0])).graph 0).waiting.length) := by decide
theorem meets_SchedulerEvents_run :
    launchRejected probeHdr = false ∧ hdrCount probeHdr = 32 ∧ hdrBase probeHdr / 2 ^ hdrBG probeHdr = (hdrBase probeHdr + hdrCount probeHdr - 1) / 2 ^ hdrBG probeHdr ∧
    (ready allReady (oneNode none [])).eligible probeHdr = List.range 12 ∧ ((ready allReady (oneNode none [])).cluster 0).queues.length = 8 ∧
    (let g := oneNode (some (newRun 0)) []; (ready allReady g).graph 0 = g ∧ g.run = some (newRun 0) ∧ (newRun 0).begun = false ∧ (newRun 0).status = 0) ∧
    (let g := oneNode none [0]; g.run = none ∧ g.waiting = [0] ∧ (0 : DWord).toNat / 8 % 2 ^ 53 = 0) := by decide
/-- A patch list of one pair (offset 8, value 7) at 0x2000 (R180). -/
theorem meets_SchedulerEvents_patch : (let s := { ready allReady (oneNode (some (newRun 0x400)) []) with mem := [(0x1000, 0x3B), (0x2000, 1), (0x2008, 8), (0x2010, 7)] }
    (newRun 0x400).plist ≠ 0 ∧ (s.setGraph 0 { oneNode (some (newRun 0x400)) [] with run := some { newRun 0x400 with begun := true } }).patchPairs (oneNode (some (newRun 0x400)) []) (8 * 0x400) = some [(8, 7)]) := by decide +kernel
/-- A record at 0 for one crew whose header lies at 0x3000, and that header. -/
def recordMem : List Host.Cell := [(32, 32), (49, 0x30), (0x1000, 0x3B), (0x3018, 32), (0x3032, 0x4F), (0x3033, 1)]
def pushed (after : DWord) : State := { ready allReady (oneNode (some { newRun 0 with begun := true }) []) with mem := recordMem, pushes := [(1, ⟨0, 1, 0, 1, 0, 0, 0, 0, some 0, 0, after, none⟩)], origins := [(0, ⟨1, 0, [event 1 1 []], none⟩)] }
theorem meets_SchedulerEvents_push :
    ((pushed 0).pushes.find? 1).isSome ∧ (pushed 0).satisfied 0 2 = true ∧ (pushed 0).runOpen 0 1 = true ∧ hdrRejected probeHdr = false ∧
    (pushed (mkWit 2 1 0 0 0 1)).satisfied (mkWit 2 1 0 0 0 1) 2 = false := by decide
theorem meets_SchedulerEvents_record :
    (let t : State := { pushed 0 with pushes := [] }; ∃ bs, t.fetchVa 0 1 0 64 = some bs ∧ recBad (dwordsOf 8 bs) probeHdr = false ∧ recHdr (dwordsOf 8 bs) = 0x3000 ∧
      hdrFits probeHdr (recCrews (dwordsOf 8 bs)) (recCount (dwordsOf 8 bs) probeHdr) = true ∧ (t.fetchVa 0 1 0x3000 128).map (dwordsOf 16) = some probeHdr) := ⟨_, rfl, by decide +kernel⟩
theorem meets_SchedulerEvents_header (t : State) (h : t = { pushed 0 with pushes := [] }) : t.readHeader 0 1 0 0 0x3000 = some probeHdr := by
  subst h
  unfold State.readHeader
  split
  · rfl
  · exact meets_SchedulerEvents_record.choose_spec.2.2.2.2
def aRecord : QRec := ⟨mkRec 0 0 0 0 32 0 0 0 0 0 0, probeHdr, 1, 0, 1, 0, 0, 0, false⟩
def placing : State := { ready (2 ^ 44 - 1) (oneNode (some { newRun 0 with begun := true }) []) with clusters := [(0, { Cluster.reset with queues := [[], [aRecord, aRecord]] ++ List.replicate 6 [] })] }
theorem placing_room : (placing.room 1 aRecord).isSome := by decide +kernel
theorem meets_Placing : Placing placing 0 1 1 aRecord [aRecord] ((placing.room 1 aRecord).get placing_room) [] where
  offered := by decide +kernel
  queue := rfl
  eight := rfl
  low := by decide
  above k h := by rcases k with _ | _ | _ | _ | _ | _ | _ | _ | k <;> first | omega | rfl
  good := by decide +kernel
  taken := by decide +kernel
  fresh := by decide
  room := (Option.some_get placing_room).symm
  clean i := by
    refine List.filterMap_eq_nil_iff.mpr (fun t _ => ?_)
    rfl
  frame := rfl
theorem meets_GroupsStart : (recLive aRecord.words = 0 ∧ recRregs aRecord.words = 0 ∧ recCode aRecord.words = hdrW probeHdr 0 ∧ (probeIssue 0).who = .crew 0 ∧ (base.crew? (probeIssue 0).unit 0).isSome) ∧
    (let s := ready allReady (oneNode (some (newRun 0)) []); ((s.graph 0).nodes.getD 0 ⟨[], 0, []⟩).hdr = probeHdr ∧ (s.graph 0).run = some (newRun 0) ∧ launchRejected probeHdr = false ∧ hdrCount probeHdr ≠ 0 ∧
    hdrBase probeHdr + hdrCount probeHdr ≤ 2 ^ 64 ∧ s.eligible probeHdr ≠ []) ∧ (∀ c, ((ready allReady (oneNode none [])).cluster c).queues.length = 8) := ⟨by decide +kernel, by decide, fun _ => rfl⟩
def leaving (h : Group → Group) (live : Bool) : State := state (fun w => { w with threads := List.replicate 32 { Thread.fresh with live := live }, sculls := if live then w.sculls else List.replicate 8 Scull.fresh }) h same
theorem meets_SchedulerEvents_end : (leaving same true).liveCrews 0 0 ≠ 0 ∧ (leaving same false).liveCrews 0 0 = 0 ∧ probeGroup.join = 0 ∧ probeGroup.joined = false ∧ probeGroup.lastSeq = none ∧
    (∀ q ∈ ((leaving same false).core 0).queues, q = []) ∧ (leaving (fun g => { g with join := 64 }) false).liveCrews 0 0 = 0 := by decide
def cutting (c : Cut) (x : Wait) : State := { state (parked x same) same (fun c => { c with ccyc := 2 ^ 20 }) with issue := none, contexts := [(1, { State.reset.ctx 1 with cut := some c, draining := some [(0, 5)] })] }
theorem meets_SchedulerEvents_cut :
    (let s := cutting ⟨some 7, [(0, 0)], false, false⟩ (.catch 7); s.ctxCrews 1 = [(0, 0)] ∧ ((s.crew? 0 0).getD probeCrew).caughtAt 7 = true) ∧
    (let s := cutting ⟨some 7, [(0, 0)], false, false⟩ (.catch 6); ((s.crew? 0 0).getD probeCrew).exited = false ∧ ((s.core 0).groups.get Group.blank 0).ctx = 1) ∧
    (let s := cutting ⟨none, [(0, 0)], false, false⟩ .regang; 0 + 2 ^ 20 ≤ (s.core 0).ccyc ∧ (s.ctx 1).draining = some [(0, 5)] ∧ (s.ctx 1).cut = some ⟨none, [(0, 0)], false, false⟩) ∧ State.reset.ctxCrews 1 = [] := by decide
theorem meets_HostAccess : (let s := ready allReady Graph.reset; s.unsupported 0x40 1 = false ∧ s.unsupported (12 * 2 ^ 36) 1 = true ∧ (s.origin 4032).stalls = false ∧ s.iod.mailbox.length = 64 ∧ bitAt s.iod.ready 26 = true ∧ s.iod.doorbell = 0 ∧
    2 ^ 36 - 1 + 1 ≤ 2 ^ 36) ∧ bitAt State.reset.iod.ready 26 = false := by decide
def rung (code : Word) (l : List (Nat × Word)) (f : State → State) : State :=
  f { State.reset with iod := { State.reset.iod with doorbell := code, ready := allReady, mailbox := l.foldl (fun m p => setNth m p.1 p.2) (List.replicate 64 0) } }
def cleanBut (s : State) (used : List Nat) : Bool := (List.range 64).all (fun i => i == 0 || used.contains i || (s.iod.mailbox.getD i 0).toNat == 0)
/-- A graph image (R178) of one node in context 1 whose header is for 32 identifiers. -/
def image : List Byte := ([0x510001, 0x7FFF0000, 0, 0, 0, 0, 0, 0, 0x20000000, 0, 0, 0x20, 0, 0, 0x01484000, 0, 0, 0, 0, 0, 0, 0, 0, 0, 0x10000000000, 0, 0, 0, 0, 0, 0, 0, 0] : List Nat).flatMap (bytesOf 8)
theorem meets_MailboxCommands_install : (let s := rung 1 [(1, 255), (4, 0x108)] same; cleanBut s [1, 2, 3, 4] = true ∧ s.iod.cmd = none ∧ (s.graph 255).installed = false) ∧ image.length = 0x108 ∧
    (graphOfImage image).any pblockOk = true ∧ (graphOfImage []).isNone ∧ (let s := rung 1 [] (fun s => { s with graphs := [(0, oneNode none [])] }); (s.graph 0).installed = true) := by decide +kernel
theorem meets_MailboxCommands : (∀ p ∈ [((2 : Word), ([] : List (Nat × Word))), (4, [(1, 1)]), (5, [(1, 15)]), (6, [(1, 1)]), (7, [(1, 15)]), (7, [(1, 0xFFFFFFFF)])], cleanBut (rung p.1 p.2 same) [1] = true ∧ (rung p.1 p.2 same).iod.cmd = none) ∧
    cleanBut (rung 2 [(2, 1)] same) [1] = false ∧
    (let s := rung 2 [] (fun s => { s with graphs := [(0, oneNode none [])] }); (s.graph 0).installed = true ∧ (s.graph 0).run = none ∧ (s.graph 0).waiting = []) ∧
    (let s := rung 2 [] (fun s => { s with graphs := [(0, oneNode (some (newRun 0)) [])] }); (s.graph 0).run ≠ none) ∧
    (let s := rung 3 [(1, 15)] same; cleanBut s [1, 2, 3, 4, 5, 6, 7, 8, 9] = true ∧ s.ctxIdle 15 = true) ∧ ({ base with iod := (rung 3 [(1, 1)] same).iod }.ctxIdle 1 = false) ∧
    (base.groupsOf (fun g => g.ctx == 1) ≠ [] ∧ State.reset.groupsOf (fun g => g.ctx == 1) = []) ∧
    (let s := rung 8 [(1, 7), (2, 0)] (fun s => { s with cores := base.cores }); cleanBut s [1, 2, 3, 4, 5] = true ∧ (s.crew? 0 0).isSome) ∧ State.reset.crew? 2303 47 = none ∧
    (∀ w ∈ base.crew? 0 0, w.dbgRefused 3 0 0 = none) ∧ (let s := rung 9 [(1, 1)] same; cleanBut s [1, 2, 3, 4, 5, 6, 7, 8, 9, 10] = true ∧ bitAt s.iod.ready 27 = true) ∧
    (let s := rung 10 [(1, 7), (4, 0x108)] same; cleanBut s [1, 2, 3, 4] = true) ∧ 10 < (rung 0xFFFFFFFF [] same).iod.doorbell.toNat ∧
    (let c : Cmd := ⟨4, 1, [0], []⟩; c.reply.getD 0 0 = 0 ∧ (State.reset.ctx 1).draining = none ∧ ((cutting ⟨some 7, [], false, false⟩ .none).ctx 1).draining ≠ none) ∧
    (∀ c ∈ [(⟨some 7, [], true, false⟩ : Cut), ⟨some 7, [], false, true⟩, ⟨none, [], false, false⟩], ((cutting c .none).ctx 1).cut = some c) := by decide +kernel
theorem meets_SchedulerEvents_more :
    (∀ p ∈ (pushed 0).pushes, (pushed 0).pushHeld p.2 = false ∧ p.2.seq = none) ∧ (pushed 0).pushes.Pairwise (fun a b => a.1 < b.1) ∧
    (let s := leaving (fun g => { g with join := 64 }) false; ((s.sweepAll 0).origin 0).stalls = false) ∧
    (let s := { leaving (fun g => { g with join := 64 }) false with origins := [(0, ⟨0, 0, [event (2 ^ 30 - 2 ^ 28 + 1) 1 []], none⟩)] }; s.liveCrews 0 0 = 0 ∧ ((s.sweepAll 0).origin 0).stalls = true) ∧
    (let s := { pushed (mkWit 2 1 0 0 0 1) with contexts := (cutting ⟨none, [(0, 0)], false, false⟩ .regang).contexts }; (s.ctx 1).draining = some [(0, 5)] ∧ (∃ g, s.group? 0 0 = some g ∧ g.ctx = 1) ∧
      (s.pushes.find? 1).any (fun p => !s.satisfied p.after 2) = true) := by decide +kernel
theorem meets_SchedulerEvents_waits : ∀ x ∈ [Wait.bar 5 0 0 (.v 2) 1 0, .regang, .wit [] false, .sltake (.v 2), .mwait none (.v 2) 1],
    ∀ p ∈ ((((cutting ⟨none, [(0, 0)], false, false⟩ x).crew? 0 0).getD probeCrew).scull 0).run, p.wait = x ∧ p.since + 2 ^ 20 ≤ ((cutting ⟨none, [(0, 0)], false, false⟩ x).core 0).ccyc := by decide +kernel
/-- Command 3 with SEL 3 and a table in a stack that is down, not aligned, or up. -/
def describing (r : Nat) (w : Word) : State := rung 3 [(1, 15), (2, 0x30), (6, w)] (fun s => { s with iod := { s.iod with ready := r } })
def longOf (s : State) (i : Nat) : Nat := (s.iod.mailbox.getD i 0).toNat + (s.iod.mailbox.getD (i + 1) 0).toNat * 2 ^ 32
theorem meets_MailboxCommands_descriptor :
    (let s := describing (allReady - 1) 0x800; longOf s 2 / 16 % 4 = 3 ∧ longOf s 6 = 0x800 ∧ bitAt s.iod.ready 0 = false) ∧ (longOf (describing allReady 1) 6 % 2048 ≠ 0) ∧
    (let s := describing allReady 0x800; bitAt s.iod.ready 0 = true ∧ s.unsupported 0x800 2048 = false ∧ s.isPoisoned 0x800 2048 = false ∧ s.ctxIdle 15 = true) := by decide +kernel
theorem meets_MailboxCommands_more :
    (graphOfImage (setNth image 2 0x50)).any (fun g => g.ctx == 0) = true ∧ (graphOfImage image).any (fun g => g.ctx == 1) = true ∧
    (let w := (base.crew? 0 0).getD probeCrew; ((base.group? 0 w.gid).getD Group.blank).ctx ≠ 0 ∧ w.exited = false ∧ w.killed = false ∧ (w.dbgRefused 4 0 0).isSome) ∧
    (let s := state same (fun g => { g with ctx := 0 }) same; ((s.group? 0 (((s.crew? 0 0).getD probeCrew).gid)).getD Group.blank).ctx = 0) ∧
    (∃ p ∈ ((state same same (fun c => { c with dbg := [(32, .nop always)] })).core (0 / 64)).dbg, p.1 = 32) ∧ (∀ p ∈ (base.core (0 / 64)).dbg, p.1 ≠ 32) ∧
    State.reset.iod.umpire.find? 1 = none ∧ bitAt (rung 9 [] (fun s => { s with iod := { s.iod with ready := 0 } })).iod.ready 27 = false := by decide +kernel
theorem meets_DebugCommands :
    (let w := ((debugs 0 1 .halted).crew? 0 1).getD probeCrew; (debugs 0 1 .halted).crew? 0 1 = some w ∧ ¬ ((0 : Nat) = 0 ∧ 0 = 1) ∧ ((debugs 0 1 .halted).crew? 0 0).isSome ∧ w.replay = none ∧ (w.scull (31 / 4)).run = some ⟨0, 15, 0, 0, true, .none, 0, 0⟩ ∧
      (debugs 0 1 .halted).group? 0 w.gid = some { probeGroup with slots := [0, 1], cnums := [0, 1] } ∧ (debugs 0 1 .halted).fetchVa 0 1 (recBase w) w.recPos = some [] ∧ imageNum [] 4 1 ≤ 224 ∧ imageNum [] 8 4 = (1 : DWord).toNat / 2 ^ 24 ∧ (1 : DWord).toNat % 2 ^ 24 ≠ 0) ∧
    ((State.reset.crew? 0 0).isNone ∧ (2304 : Nat) ≤ 4064) ∧ (((leaving same false).crew? 0 0).getD probeCrew).sculls.all (fun x => x.run.isNone) ∧ State.reset.iod.dmb.length = 64 ∧ State.reset.iod.reports = [] := by decide +kernel
/-- A module with suspects of every kind and nothing running. -/
def suspects : State := { State.reset with iod := { State.reset.iod with ready := 2 ^ 44 - 1 }, ras := { State.reset.ras with suspect := (List.range 6).map (fun k => 2 ^ 20 * k), due := [0, 2 ^ 20], rowErrs := [(7, 2)], spareRows := [(0, 1)] } }
theorem meets_RasEvents :
    (∀ kind ∈ List.range 6, 0 < [9216, 2304, 576, 768, 768, 24].getD kind 0 ∧ 2 ^ 20 * kind ∈ suspects.ras.suspect ∧ 2 ^ 20 * kind ∉ State.reset.ras.suspect) ∧ suspects.coreIdle 0 = true ∧ suspects.vaultGone 0 = false ∧
    (∀ k ∈ [0, 1], 2 ^ 20 * k ∈ suspects.ras.due) ∧ SMap.wf 0 suspects.ras.score = true ∧ 0 ∉ suspects.ras.retiredCores ∧ 2 ^ 32 ≤ suspects.iod.ready ∧
    (∀ b ∈ ((state same same (fun c => { c with l1 := [(64, ⟨1, [], 0⟩)] })).core 0).l1, b.2.dirty = []) ∧ (∃ b ∈ ((stored (event 1 1 []) dirtyByte).core 0).l1, b.1 / 8 = 64 / 8 ∧ b.2.dirty ≠ []) ∧
    (0 ∉ (State.reset.cluster 0).retiredSlices ∧ State.reset.sliceLocked 0 0 = false ∧ 1 ∉ (State.reset.cluster 0).retiredSlices) ∧
    (let s := { suspects with clusters := [(0, { Cluster.reset with retiredSlices := (List.range 64).drop 1 })] }; 0 ∉ (s.cluster 0).retiredSlices ∧ (∀ k, k < 64 → k ≠ 0 → k ∈ (s.cluster 0).retiredSlices) ∧ bitAt s.iod.ready 0 = true) ∧
    (0 < suspects.ras.spareRows.get 1024 0 ∧ 2 ≤ suspects.ras.rowErrs.get 0 (0 * 2 ^ 32 + 7) ∧ State.reset.ras.rowErrs.get 0 7 < 2) ∧
    (let p : Port := { Port.reset with retries := [(8, 7)] }; 8 = p.retries.get 0 8 + 1 ∧ p.retries.get 0 1000 + 1 < 64) ∧ (8 ≤ ({ Port.reset with retries := [(8, 8)] } : Port).retries.get 0 8) := by decide +kernel
theorem meets_FabricEvents :
    (base.portHeld 1 = false ∧ (1 : Nat) < 1024 ∧ 1 ≠ base.modnum ∧ 120 % 128 + 8 ≤ 128 ∧ base.copies = []) ∧
    (let e := event 1 4 [⟨2 ^ 46, 1, .remote⟩, ⟨64, 1, .home⟩]; let s := stored { e with swept := true } []; s.event? 0 1 = some { e with swept := true } ∧ s.mayGo 0 { e with swept := true } = true ∧
      (∃ b ∈ e.bytes, b.dest = .remote) ∧ (∃ b ∈ e.bytes, b.dest ≠ .remote) ∧ (∀ b ∈ e.bytes, s.portHeld (bitsAt b.ha 46 10) = false)) ∧
    (let s := State.reset; s.iod.umpire.find? 0 = none ∧ s.iod.bootFailed = false ∧ bitAt s.iod.ready 27 = false ∧ s.graphs = [] ∧ s.iod.ready < 2 ^ 32 ∧ (s.origin 2303).pend = [] ∧ s.coreIdle 2303 = true) ∧
    (let s := { State.reset with ras := { State.reset.ras with retiredCores := [5], ports := [(23, { Port.reset with retraining := true })] } }; 5 ∈ s.ras.retiredCores ∧ s.vaultGone 5 = false ∧ (s.ras.ports.find? 23).isSome) := by decide +kernel
theorem meets_FabricEvents_access : (∃ l, base.xlate ioDie 1 (0 * 2 ^ 46 + 120) .load = .ok l) ∧ (∃ l, base.xlate ioDie 1 120 .store = .ok l) ∧ (∃ f, base.xlate ioDie 1 (2 ^ 30) .load = .error f) := ⟨⟨_, rfl⟩, ⟨_, rfl⟩, ⟨_, rfl⟩⟩
/-- The latch holds one word. -/
def latched (w : Slot) : State := { base with issue := some { probeIssue w with mask := 1, parts := [0] } }
theorem meets_StepRunsDecoded :
    (let now : Issue := { probeIssue (BitVec.ofNat 96 0x400003E3E3FC242800) with mask := 1, parts := [0], words := [] }; let t := { base with issue := some now, free := 1 }; t.view.isSome ∧ isAlone t = true) ∧
    base.issue.isSome ∧ base.agenda = [] ∧ State.reset.issue = none := by decide
theorem meets_StepRunsDecoded_words : (∃ i, base.decode (probeIssue 0) (BitVec.ofNat 96 (0x40 * 2 ^ 64 + 0x0003E3E3FC242800)) = .ok i) ∧ (∃ d, base.decode (probeIssue 0) 0x3FF = .error d) := ⟨⟨_, rfl⟩, ⟨_, rfl⟩⟩
theorem meets_DecodeEncode : (Instr.nop always).isEvent = false ∧ (Instr.nop always).wf = true ∧ (encode (.nop always)).isSome ∧ Instr.moduleReset.isEvent = true := by decide
theorem meets_StepKeepsMemory : Memory.wf base.mem = true ∧ ∃ t, step { base with agenda := [.moduleReset] } = .next t := ⟨by decide, ⟨_, rfl⟩⟩
theorem meets_StepNeverStops : (∀ iss, base.issue = some iss → iss.words = [] ∨ base.view.isSome = true) ∧ (∀ i ∈ base.agenda, encode i = none) := ⟨fun _ _ => .inr rfl, by decide⟩
theorem meets_PairingTemplates : (15 : Nat) < 16 ∧ 0 ≤ 4 := by decide
/-- An L1 extension holds line 0, and cluster 0 a copy of it. -/
def extended : State := { state same same (fun c => { c with ways := [(0, 4)], l1 := [(64, ⟨1, [], 0⟩)] }) with copies := [(copyKey 0 0, ⟨List.replicate 128 0, none, []⟩)], iod := { State.reset.iod with umpire := [(0, [])] } }
theorem meets_RasEvents_errors : (extended.core 0).inFlex 64 = true ∧ (base.core 0).inFlex 64 = false ∧ (∃ b ∈ (extended.core 0).l1, b.1 / 8 = 64 / 8) ∧ (extended.copies.find? (copyKey 0 (64 / 128))).isSome ∧
    base.copies.find? (copyKey 0 0) = none ∧ State.reset.iod.umpire.find? 0 = none ∧ extended.iod.umpire.find? 0 = some [] ∧ ({ Port.reset with retries := [(8, 7)] } : Port).retries.get 0 8 = 7 ∧
    (∀ n, n < 12 → suspects.ras.stackGone n = false) := by decide +kernel
theorem meets_FabricEvents_requests : (reqAtom 41 [1] 64).any (fun x => x.1.op == 9) = true ∧ (reqAtom 32 [1] 64).any (fun x => x.1.op == 0 && x.1.halves.isNone && x.1.size == 4) = true ∧
    base.num 64 8 % 2 ^ 32 = 0 ∧ { base with poison := [8] }.isPoisoned 64 4 = true ∧ base.isPoisoned 64 4 = false ∧ (State.reset.origin 4071).pend = [] ∧ (State.reset.origin (2304 + 32 * 11 + 16)).pend = [] ∧
    (∀ q ∈ (State.reset.cluster 11).queues, q = []) := by decide +kernel
theorem meets_FabricEvents_replicated : ∃ l, (mapped 0x7B).xlate ioDie 1 120 .store = .ok l ∧ l.dest = .repl := ⟨_, rfl, rfl⟩
theorem meets_DecodeEncode_registers : (let i : Instr := .iadd .i32 ⟨always, .v 10, .v 9, .imm 64⟩; i.wf = true ∧ i.needsConverged = false ∧ (encode i).isSome ∧ (∀ u ∈ i.uses, ∀ n, u.r = .v n → n.val + u.n ≤ 224) ∧ i.reach = []) ∧
    (let i : Instr := .give always 8; i.wf = true ∧ (8 : Word).toNat + 8 ≤ 224) ∧ (let i : Instr := .claim always 8; i.wf = true ∧ 216 + (8 : Word).toNat ≤ 224) ∧ Instr.needsConverged (.iadd .i32 ⟨always, .k 2, .k 0, .imm 64⟩) = true := by decide +kernel
theorem meets_DecodeEncode_slots : decodeSlot ⟨false, 224, true, false⟩ 2 [] (BitVec.ofNat 96 (0x40 * 2 ^ 64 + 0x0003E3E3FC242800)) = .ok (.iadd .i32 ⟨always, .v 10, .v 9, .imm 64⟩) ∧
    decodeSlot ⟨true, 64, true, false⟩ 2 [] (BitVec.ofNat 96 (0x40 * 2 ^ 64 + 0x0003E3E3FC242800)) = .ok (.iadd .i32 ⟨always, .v 10, .v 9, .imm 64⟩) ∧ decodeSlot ⟨false, 224, true, false⟩ 2 [] 0x3FF = .error .illegalOp ∧
    decodeSlot ⟨true, 64, true, false⟩ 2 [] 0x200 = .error .illegalOp := ⟨rfl, rfl, rfl, rfl⟩
/-- Two members, IADD v4, v2, 1 and IADD v6, v2, 2, the first to be executed. -/
def member (n : Fin 224) (w : Word) : Instr := .iadd .i32 ⟨always, .v n, .v 2, .imm w⟩
def paired : State := { base with issue := some { probeIssue ((encode (member 4 1)).getD 0) with words := [(encode (member 6 2)).getD 0], mask := 1, parts := [0], nmem := 2 } }
/-- The last member is executed; an earlier one raised a cause in thread 0, which `off` may count as predicated off. -/
def ending (raises : List Raise) (n off : Nat) : State :=
  { base with issue := some { probeIssue 0 with words := [], mask := 3, parts := [0], nmem := n, off := off, fx := { Fx.empty with wr := [⟨1, 129, 7, 0xFE⟩], raises := raises } } }
theorem meets_GroupsOfMembers : (paired.view.isSome ∧ (seen paired).iss.words = [(encode (member 6 2)).getD 0] ∧ (seen paired).iss.nmem = 2 ∧ (seen paired).iss.fx = Fx.empty ∧ (seen paired).iss.off = 0 ∧
      (seen paired).iss.who = .crew 0 ∧ (seen paired).crew.replay = none) ∧
    (∀ i ∈ [member 4 1, member 6 2], (encode i).isSome ∧ ((encode i).getD 0).toNat % 1024 < 0x100) ∧ (∀ x ∈ (member 4 1).uses, ∀ y ∈ (member 6 2).uses, x.wr = true → y.wr = true → x.r.num + x.n ≤ y.r.num) ∧
    (∀ s ∈ [ending [] 1 0, ending [⟨0, 0x14, 0, 0, false, 0⟩] 2 0, ending [⟨0, 0x14, 0, 0, false, 0⟩] 2 1], s.view.isSome ∧ (seen s).iss.words = [] ∧ (seen s).crew.enm = false ∧ (seen s).crew.threads.length = 32 ∧
      (seen s).iss.fx.ops = [] ∧ (seen s).iss.fx.gone = [] ∧ (seen s).iss.fx.parks = []) ∧
    maskOf ((seen (ending [⟨0, 0x14, 0, 0, false, 0⟩] 2 0)).iss.fx.raises.map (·.t)) = 1 := by decide
/-! Witnesses of the clauses about reads, halts, copies and retired units. -/

/-- The frame of the handler's thread lies in the L1. -/
def framed : State := { handler 1 with cores := ((handler 1).cores.map (fun c => (c.1, { c.2 with l1 := (List.range 128).map (fun i => (i, ⟨0, [], 0⟩)) }))) }
theorem meets_HandlerReturn_valid : Ready framed ∧ (tainted.origin 0).stalls = false ∧ ∃ f l, frameOf framed = .ok (f, l) ∧ l ≠ [] ∧ ∀ a ∈ l, a < 2 ^ 57 ∧ framed.l1Valid 0 a 1 = true :=
  ⟨ready_of _ (by decide), by decide, ⟨_, _, rfl, by decide, by decide⟩⟩
theorem meets_WaitsEnd_more :
    (let s := wakes .regang same same same; let w := (s.crew? 0 0).getD probeCrew; s.recStalls 0 w = false ∧ w.halt = .none ∧ w.recOk = false ∧ w.dbgctl.getLsbD 10 = false) ∧
    (((wakes .regang (fun w => { w with halt := .requested }) same same).crew? 0 0).getD probeCrew).halt = .requested ∧
    (∀ h ∈ [Halt.halted, .step], let b : Barrier := ⟨5, 0, 0, List.range 32⟩; let s := wakes (.bar 5 0 0 (.v 2) 1 0) (fun w => { w with halt := h }) (fun g => { g with bars := [b] }) same; let g := (s.group? 0 0).getD probeGroup
      (((s.crew? 0 0).getD probeCrew).halt = .halted ∨ ((s.crew? 0 0).getD probeCrew).halt = .step) ∧ s.group? 0 0 = some g ∧ g.barrier b.bnd b.key = b ∧ b.arrived ≠ [] ∧ s.barrierFull 0 0 b = true ∧ g.slots = [0]) := by decide
theorem meets_QueuesAndTokens_more : (let v := seen (queued 1 [] []); v.core.blade = none ∧ v.crew.halt = .none ∧ v.crew.dbgctl.getLsbD 10 = false ∧ v.crew.replay = none ∧ v.core.claims = [] ∧ v.core.pendingKeys v.iss.who = []) ∧
    (let s := state (parked .bltake same) same (fun c => { c with crews := c.crews ++ [(1, { probeCrew with gid := 1, sculls := { Scull.fresh with run := some ⟨0, 1, 0, 0, true, .bltake, 0, 0⟩ } :: List.replicate 7 Scull.fresh })], blade := some 0, bladeWait := [1] });
      (seen s).core.blade = some (seen s).crew.gid ∧ (seen s).core.bladeWait = [1] ∧ ∃ w, s.crew? 0 1 = some w ∧ w.dbgctl.getLsbD 8 = false ∧ w.halt = .none ∧ w.dbgctl.getLsbD 10 = false ∧ w.replay = none ∧
        (w.scull 0).run = some ⟨0, 1, 0, 0, true, .bltake, 0, 0⟩) := ⟨by decide, by decide, by decide, ⟨_, rfl, by decide⟩⟩
/-- A route to module 1; a retired vault over the granted page; a unit of near scratch. -/
def routed : State := { base with routes := [(1, 0)] }
def noVault : State := { spaced with clusters := [(0, { Cluster.reset with retiredVaults := [0] })] }
def scratched : State := state same (fun g => shaped { g with nscr := [3] }) same
theorem meets_AddressRules_more :
    (1 * 2 ^ 46 / 2 ^ 46 ≠ base.modnum ∧ base.routes.find? 1 = none ∧ (routed.routes.find? (2 ^ 46 / 2 ^ 46)).isSome = true ∧ 2 ^ 46 < 2 ^ 56) ∧
    (let x := (mapped 0x7B).trans (seen (mapped 0x7B)).cluster 1 0; x.fault = none ∧ (mapped 0x7B).hbmGone x.pa = false ∧ Perm.ok .atomic x.flags = true ∧ x.flags.testBit 6 = true) ∧
    (let x := base.trans (seen base).cluster 1 0; x.fault = none ∧ Perm.ok .atomic x.flags = true ∧ x.flags.testBit 6 = false ∧ ¬ 15 * 2 ^ 36 ≤ x.pa) ∧
    (let h := (seen noVault).grp.hdr; 4096 * hdrVbase h ≤ 4096 ∧ 4096 + 4 ≤ 4096 * (hdrVbase h + hdrVlen h) ∧ 4096 < 0x6000000 ∧ 4096 / 0x200000 ∈ (noVault.cluster (seen noVault).cluster).retiredVaults) ∧
    ((seen scratched).grp.nscr[(0x6000000 - 0x6000000) / 0x10000]? = some 3 ∧ (seen base).grp.nscr.length = 0) ∧ (4 / 4 + (4 + 3) / 4 ≤ hdrWords (seen spaced).grp.hdr) := by decide
theorem meets_AddressRules_host : (let s := { base with mem := [(0x1000, 0x3B), (0x1004, 0xF0)] }; let x := s.trans (seen s).cluster 1 0
    x.fault = none ∧ s.hbmGone x.pa = false ∧ Perm.ok .atomic x.flags = true ∧ x.flags.testBit 6 = false ∧ 15 * 2 ^ 36 ≤ x.pa ∧ x.pa < 2 ^ 40) := by decide
/-- An event of a host stream at a line that a cluster holds a copy of. -/
theorem meets_StorePath_copied : (let e := event 1 1 [⟨64, 9, .home⟩, ⟨130, 9, .home⟩]; let s := { base with origins := [(4032, ⟨1, 0, [e], none⟩)], copies := [(copyKey 0 0, ⟨List.replicate 128 0, none, []⟩)] }
      s.event? 4032 1 = some e ∧ (s.origin 4032).pend.head? = some e ∧ s.lineCopied (64 / 128) = true ∧ (e.bytes.map (·.ha)).Nodup ∧ (∀ b ∈ e.bytes, b.dest ≠ .repl) ∧ (∀ c ∈ e.bytes, 64 / 128 ≤ c.ha / 128)) ∧
    (let e := { event 1 1 [byte0] with after := [mkWit 1 1 0 0 0 0] }; (stored e []).eventHeld 0 e = false) ∧ base.satisfied (mkWit 1 1 0 0 0 0) 1 = true := ⟨by decide, by decide, by decide⟩
theorem meets_CoreEvents_calm : (let s := seated 0 (lineOf5 false); let w := (s.crew? 0 0).getD probeCrew; w.stroke < 2 ^ w.plog ∧ s.recStalls 0 w = false) ∧ (mapped 0xBB).tornLine 0 = false := by decide
theorem meets_SchedulerEvents_done : (∀ ps, (ready allReady (oneNode (some (newRun 0)) [0, 0, 0, 0])).emptyCaches.locGlobal ioDie 1 0 8 .store = .ok ps → ∀ p ∈ ps, p.dest ≠ .repl) ∧
    (∃ ha host, { mapped 0x7B with graphs := [(0, oneNode (some (newRun 0)) [0, 0, 0, 0])], iod := { State.reset.iod with ready := allReady } }.emptyCaches.locGlobal ioDie 1 0 8 .store = .ok [⟨ha, 8, 0, 0, .repl, host⟩]) :=
  ⟨fun ps h => by cases h; decide, ⟨_, _, rfl⟩⟩
theorem meets_SchedulerEvents_release : (let s := cutting ⟨some 7, [(0, 0)], false, false⟩ (.catch 6); let w := (s.crew? 0 0).getD probeCrew; (w.halt = .none ∨ w.halt = .requested) ∧ w.dbgctl.getLsbD 10 = false ∧ w.replay = none ∧ w.exited = false) := by decide
theorem meets_RasEvents_slices :
    (let s := { State.reset with ras := { State.reset.ras with suspect := [3 * 2 ^ 20] }, copies := [(copyKey 0 0, ⟨List.replicate 128 0, some (0, 1), []⟩)] }; s.sliceLocked (0 / 64) (0 % 64) = true ∧ 3 * 2 ^ 20 + 0 ∈ s.ras.suspect) ∧
    suspects.sliceLocked 0 0 = false ∧ 0 / 64 = homeCluster 64 ∧ 64 / 64 ≠ homeCluster 64 ∧ base.copies.find? (copyKey (64 / 64) (64 / 128)) = none := by decide +kernel
theorem meets_FabricEvents_halves : (∀ k ∈ [118, 118 + 8192], (reqAtom k [1] 64).any (fun x => x.1.op == 6 && x.1.halves.isSome) = true) ∧ ({ State.reset with ras := { State.reset.ras with hbmRetired := [(0, 12 * 2 ^ 36)] } } : State).ras.stackGone 0 = true ∧ State.reset.ras.stackGone 0 = false := by decide +kernel
theorem meets_JoinsAndSlots_free : (let v := seen (state (alone same) same same); v.crew.halt = .none ∧ v.crew.dbgctl.getLsbD 10 = false ∧ ∀ q ∈ v.core.queues, q = []) := by decide
theorem meets_ControlWrites_wait : (sib 1 1 .none).isSome ∧ (seen (debugs 1 1 .none)).crew.recOk = false ∧ (∀ c ∈ [(4 : Nat), 5], c = 4 ∨ c = 5) ∧ { probeCrew with halt := .halted, recOk := true }.replayBad 0 = false := by decide
theorem meets_EngineSteps_begin : (let e := doing (.tld 0 lines4 [] 24); (engine 0 e same []).needOver 0 e.need = true) ∧
    (let e := entry (.tst 0 [] []); let s := engine 0 e same []; s.satisfied e.after e.scope = true ∧ s.needOver 0 e.need = true ∧ s.poisonAhead 0 e.who (fun x => decide (x.ord < e.src.ord)) = false) := by decide
/-- Watchpoint 0 covers the descriptor of an AESTART. -/
def watched : State := { streams (some aeRun) [] with contexts := [(1, { State.reset.ctx 1 with root := 0x1000, watch := [BitVec.ofNat 64 (0x2000 + 2 ^ 63), 0, 0, 0] })] }
theorem meets_AffineEngine_watch : Ready watched ∧ (seen watched).aeWatch watched 0 0x2000 = some (0x31, 0, 0x2000) ∧ (seen (streams (some aeRun) [])).aeWatch (streams (some aeRun) []) 0 0x2000 = none ∧
    (streams (some aeRun) []).needOver 0 aeRun.need = true := ⟨ready_of _ (by decide), rfl, rfl, by decide⟩
theorem meets_TentativeLog_lost : (let s := { logging true 0 [] with clusters := [(0, { Cluster.reset with retiredVaults := [0] })] }; Ready s ∧ ((seen s).lost s ((seen s).headers (seen s).present)).isSome = true) ∧
    (∀ t, t < 32 → 16 * (0x800100 % 2 ^ 23) + 16 * 3 * t < 0x6000000) ∧ ((logging true 0 []).cluster 0).retiredVaults = [] := ⟨⟨ready_of _ (by decide), by decide⟩, by decide, by decide⟩
theorem meets_Barriers_calm : (seen (arriving [] [])).crew.dbgctl.getLsbD 10 = false ∧ (seen (arriving [] [])).crew.halt = .none := by decide
theorem meets_DebugCommands_more :
    (let w := ((debugs 0 1 .halted).crew? 0 1).getD probeCrew; w.exited = false ∧ w.killed = false ∧ w.halt = .halted ∧ { w with recOk := true }.replayBad 1 = true ∧ { w with recOk := true, stroke := 1 }.replayBad 1 = false ∧
      (∀ y ∈ w.threads, y.resume = none) ∧ ∀ k, k < 8 → ∀ p ∈ (w.scull k).paths, p.isOver = false) ∧
    (let c := ((wakes .command same same same).crew? 0 0).getD probeCrew; (c.halt = .none ∨ c.halt = .requested) ∧ c.recOk = false ∧ c.dbgctl.getLsbD 10 = false ∧ c.replay = none) ∧
    (let w := { probeCrew with threads := setNth probeCrew.threads 0 { Thread.fresh with resume := some 3 }, sculls := { Scull.fresh with run := some ⟨0, 1, 0, 0, true, .trap, 0, 0⟩, stopped := true } :: List.replicate 7 Scull.fresh }
      ∀ p ∈ (w.scull 0).run, p.wait = .trap ∧ p.mask ≠ 0 ∧ ∀ t ∈ p.threads 0, (w.thread t).pend = none ∧ (w.thread t).resume = some 3) := by decide
/-- R124: infinities of both signs in one chunk raise invalid wherever a NaN stands among them. -/
theorem test_chunk_infinities : ∀ l ∈ [[FVal.nan false, .inf false, .inf true], [.inf false, .nan false, .inf true], [.inf false, .inf true, .nan false]],
    (chunkSum .near (l.map (fun x => (some x, false)))).nv = true := by decide
/-- R442: after YIELD 2 in cycle c the crew is passed over in cycles c + 1 and c + 2. -/
theorem test_yield : (match exec (.yield 2) base with | .next t => (t.crew? 0 0).map (·.yielded) | _ => none) = some (some (base.core 0).ccyc.succ.succ.succ) := by decide
end Sys2Proof.Tests
end

section
/-!
THE PAIRING TEMPLATE (R39): where the issue group of a slot begins and ends. Two slots have one group exactly when every bit of TMPL between
them is set; `SlotsJoined` says so, and the first slot of the group decides it by the recursion of `groupStart`. The last slot of the group lies in
that same group, so it names the group as well.
-/
namespace Sys2Proof.Machine

/-- Every bit of the template from slot `i` up to slot `j` is set: the template joins the slots `i` to `j`. -/
def SlotsJoined (tmpl i j : Nat) : Prop := ∀ b, i ≤ b → b < j → bitAt tmpl b = true

theorem slotsJoined_refl (tmpl i : Nat) : SlotsJoined tmpl i i := by
  intro b hib hbi
  omega

theorem slotsJoined_succ {tmpl i j : Nat} (hij : i ≤ j) :
    SlotsJoined tmpl i (j + 1) ↔ SlotsJoined tmpl i j ∧ bitAt tmpl j = true := by
  constructor
  · intro h
    exact ⟨fun b hib hbj => h b hib (by omega), h j hij (by omega)⟩
  · rintro ⟨h, hj⟩ b hib hbj
    obtain hlt | rfl := Nat.lt_succ_iff_lt_or_eq.mp hbj
    · exact h b hib hlt
    · exact hj

/-! The first slot of a group. -/

theorem groupStart_succ_of_joined {tmpl i : Nat} (h : bitAt tmpl i = true) : groupStart tmpl (i + 1) = groupStart tmpl i := by
  simp [groupStart, h]

theorem groupStart_succ_of_not_joined {tmpl i : Nat} (h : bitAt tmpl i = false) : groupStart tmpl (i + 1) = i + 1 := by
  simp [groupStart, h]

theorem groupStart_le (tmpl i : Nat) : groupStart tmpl i ≤ i := by
  induction i with
  | zero => exact Nat.le_refl 0
  | succ i ih =>
    cases hb : bitAt tmpl i with
    | true =>
      rw [groupStart_succ_of_joined hb]
      omega
    | false => exact Nat.le_of_eq (groupStart_succ_of_not_joined hb)

theorem groupStart_eq_iff_joined {tmpl i j : Nat} (hij : i ≤ j) : groupStart tmpl i = groupStart tmpl j ↔ SlotsJoined tmpl i j := by
  induction hij with
  | refl => exact iff_of_true rfl (slotsJoined_refl tmpl i)
  | @step j hij ih =>
    rw [slotsJoined_succ hij]
    cases hb : bitAt tmpl j with
    | true => simp only [groupStart_succ_of_joined hb, ih, and_true]
    | false =>
      have hle : groupStart tmpl i ≤ j := Nat.le_trans (groupStart_le tmpl i) hij
      simp only [groupStart_succ_of_not_joined hb, Bool.false_eq_true, and_false, iff_false]
      omega

/-! The last slot of a group: what the search of `groupEndFrom` keeps, for every fuel. -/

theorem groupEndFrom_succ_of_joined {tmpl fuel i : Nat} (hi : i < 4) (h : bitAt tmpl i = true) :
    groupEndFrom tmpl (fuel + 1) i = groupEndFrom tmpl fuel (i + 1) := by
  simp [groupEndFrom, hi, h]

theorem groupEndFrom_of_stop {tmpl i : Nat} (fuel : Nat) (h : ¬ (i < 4 ∧ bitAt tmpl i = true)) : groupEndFrom tmpl fuel i = i := by
  cases fuel with
  | zero => rfl
  | succ fuel => exact if_neg h

/-- Once the fuel reaches slot 4, one more unit changes nothing. -/
theorem groupEndFrom_fuel_succ {tmpl fuel i : Nat} (h : 4 ≤ i + fuel) : groupEndFrom tmpl (fuel + 1) i = groupEndFrom tmpl fuel i := by
  induction fuel generalizing i with
  | zero => exact groupEndFrom_of_stop 1 (by omega)
  | succ fuel ih =>
    by_cases hs : i < 4 ∧ bitAt tmpl i = true
    · obtain ⟨hi, hb⟩ := hs
      rw [groupEndFrom_succ_of_joined hi hb, groupEndFrom_succ_of_joined hi hb, ih (by omega)]
    · rw [groupEndFrom_of_stop _ hs, groupEndFrom_of_stop _ hs]

/-- The search ends in the group it begins in, at or after its first slot and not past slot 4. -/
theorem groupEndFrom_in_group {tmpl i : Nat} (fuel : Nat) (hi : i ≤ 4) :
    i ≤ groupEndFrom tmpl fuel i ∧ groupEndFrom tmpl fuel i ≤ 4 ∧ groupStart tmpl (groupEndFrom tmpl fuel i) = groupStart tmpl i := by
  induction fuel generalizing i with
  | zero => exact ⟨Nat.le_refl i, hi, rfl⟩
  | succ fuel ih =>
    by_cases hs : i < 4 ∧ bitAt tmpl i = true
    · obtain ⟨hlt, hb⟩ := hs
      obtain ⟨hle, hfour, hstart⟩ := ih (i := i + 1) hlt
      rw [groupEndFrom_succ_of_joined hlt hb]
      exact ⟨by omega, hfour, hstart.trans (groupStart_succ_of_joined hb)⟩
    · rw [groupEndFrom_of_stop _ hs]
      exact ⟨Nat.le_refl i, hi, rfl⟩

theorem groupLast_succ_of_joined {tmpl i : Nat} (hi : i < 4) (h : bitAt tmpl i = true) : groupLast tmpl (i + 1) = groupLast tmpl i :=
  calc groupEndFrom tmpl 5 (i + 1)
    _ = groupEndFrom tmpl 4 (i + 1) := groupEndFrom_fuel_succ (by omega)
    _ = groupEndFrom tmpl 5 i := (groupEndFrom_succ_of_joined hi h).symm

theorem groupLast_eq_of_joined {tmpl i j : Nat} (hij : i ≤ j) (hj : j ≤ 4) (h : SlotsJoined tmpl i j) : groupLast tmpl i = groupLast tmpl j := by
  induction hij with
  | refl => rfl
  | @step j hij ih =>
    obtain ⟨hjoined, hb⟩ := (slotsJoined_succ hij).mp h
    exact (ih (by omega) hjoined).trans (groupLast_succ_of_joined hj hb).symm

theorem groupStart_groupLast {tmpl i : Nat} (hi : i ≤ 4) : groupStart tmpl (groupLast tmpl i) = groupStart tmpl i := by
  obtain ⟨_, _, hstart⟩ := groupEndFrom_in_group (tmpl := tmpl) 5 hi
  exact hstart

/-- The last slot names its group, by `groupStart_groupLast`: slots that share it share their first slot too. -/
theorem groupLast_eq_iff_joined {tmpl i j : Nat} (hij : i ≤ j) (hj : j ≤ 4) : groupLast tmpl i = groupLast tmpl j ↔ SlotsJoined tmpl i j := by
  constructor
  · intro h
    have hstart : groupStart tmpl i = groupStart tmpl j := by
      rw [← groupStart_groupLast (Nat.le_trans hij hj), h, groupStart_groupLast hj]
    exact (groupStart_eq_iff_joined hij).mp hstart
  · exact groupLast_eq_of_joined hij hj

/-- Settles O59: the group of a slot is the run of joined slots around it, by its first slot and by its last; R39's four templates are
finite tables of five slots each. -/
theorem pairingTemplates : Obligations.PairingTemplates := by
  refine ⟨fun tmpl i j _ hij hj => ?_, by decide, by decide, by decide, by decide⟩
  obtain ⟨hle, hfour, hstart⟩ := groupEndFrom_in_group (tmpl := tmpl) 5 (Nat.le_trans hij hj)
  exact ⟨groupStart_eq_iff_joined hij, groupLast_eq_iff_joined hij hj, groupStart_le tmpl i, hle, hfour, hstart⟩

end Sys2Proof.Machine
end

section
/-!
HOW A RECORD'S CREWS START (R69, R187): a starter whose next record heads its queue starts that record's group, and every slot of the group
then holds a crew as `startCrew` makes it. A record that saves no register reads no frame, so nothing of memory enters.
-/
namespace Sys2Proof.Machine
open Safety

/-! Lists and maps: the members of an indexed map, an element set to the default, and a map after a list of entries has been put in it. -/

theorem mem_imapFrom {α β : Type} {f : Nat → α → β} {xs : List α} {i : Nat} {y : β} (h : y ∈ imapFrom f i xs) : ∃ j, ∃ x ∈ xs, y = f j x := by
  induction xs generalizing i with
  | nil => cases h
  | cons x xs ih =>
    obtain rfl | h := List.mem_cons.mp h
    · exact ⟨i, x, List.mem_cons_self, rfl⟩
    · obtain ⟨j, z, hz, rfl⟩ := ih h
      exact ⟨j, z, List.mem_cons_of_mem x hz, rfl⟩

theorem mem_imap {α β : Type} {f : Nat → α → β} {xs : List α} {y : β} (h : y ∈ imap xs f) : ∃ j, ∃ x ∈ xs, y = f j x := mem_imapFrom h

theorem setNth_getD_default {α : Type} (xs : List α) (i : Nat) (d : α) : (setNth xs i d).getD i d = d := by
  by_cases h : i < xs.length
  · exact setNth_getD_same xs i d d h
  · exact getD_beyond _ (by simpa using h)

theorem SMap.find?_foldl_put_other {α : Type} (m : SMap α) {ps : List (Nat × α)} {k : Nat} (h : k ∉ ps.map (·.1)) :
    (ps.foldl (fun m p => m.put p.1 p.2) m).find? k = m.find? k := by
  induction ps generalizing m with
  | nil => rfl
  | cons p ps ih =>
    obtain ⟨hp, hps⟩ := not_or.mp (mt List.mem_cons.mpr h)
    exact (ih _ hps).trans (SMap.find?_put_other m p.2 hp)

/-- Of the entries put in a map one after another, the last with a key is what the map then holds there. -/
theorem SMap.find?_foldl_put {α : Type} (m : SMap α) {ps : List (Nat × α)} {k : Nat} (h : k ∈ ps.map (·.1)) :
    ∃ p ∈ ps, p.1 = k ∧ (ps.foldl (fun m p => m.put p.1 p.2) m).find? k = some p.2 := by
  induction ps generalizing m with
  | nil => cases h
  | cons p ps ih =>
    by_cases hps : k ∈ ps.map (·.1)
    · obtain ⟨x, hx, hk, hfind⟩ := ih (m.put p.1 p.2) hps
      exact ⟨x, List.mem_cons_of_mem p hx, hk, hfind⟩
    · obtain rfl : k = p.1 := (List.mem_cons.mp h).resolve_right hps
      exact ⟨p, List.mem_cons_self, rfl, (SMap.find?_foldl_put_other _ hps).trans (SMap.find?_put_same m p.1 p.2)⟩

/-! A crew as it starts (R69). -/

theorem startCrew_get (gid cnum pos count n code : Nat) (park : Bool) (h : List DWord) (ctime : DWord) (key : Nat) :
    (startCrew gid cnum pos count n code park h ctime []).get key = (0, 0xFE) := rfl

theorem startCrew_path {gid cnum pos count n code : Nat} {park : Bool} {h : List DWord} {ctime : DWord} {regs : List (Nat × (Word × Tag))}
    {j : Nat} {p : Path} (hp : ((startCrew gid cnum pos count n code park h ctime regs).scull j).run = some p) :
    p.pc = BitVec.ofNat 64 code ∧ p.fmtr = hdrFmtr h := by
  by_cases hj : j < 8
  · simp only [startCrew, Crew.scull, List.getD_eq_getElem?_getD, List.getElem?_map, List.getElem?_range hj, Option.map_some, Option.getD_some] at hp
    split at hp
    · cases hp
    · cases hp
      exact ⟨rfl, rfl⟩
  · have hgone : (startCrew gid cnum pos count n code park h ctime regs).scull j = ⟨none, [], [], 0, 0, 0, 0, false, none⟩ :=
      getD_beyond _ (by simpa [startCrew] using hj)
    rw [hgone] at hp
    cases hp

/-! The crews of a record: one for each slot of the group, each as `startCrew` makes it. -/

@[simp] theorem liveRegs_zero (base : Nat) : liveRegs 0 base = [] := rfl

theorem mem_recordCrews {q : QRec} {gid : Nat} {slots : List Nat} {frame : List Byte} {p : Nat × Crew} (h : p ∈ recordCrews q gid slots frame) :
    ∃ cnum pos n regs, p.2 = startCrew gid cnum pos (recCount q.words q.hdr) n (recCode q.words) q.park q.hdr (recCtime q.words) regs ∧
      (recLive q.words = 0 → regs = []) := by
  obtain ⟨i, slot, -, rfl⟩ := mem_imap h
  exact ⟨_, _, _, _, rfl, fun hlive => by rw [hlive]; rfl⟩

theorem recordCrews_slots (q : QRec) (gid : Nat) (slots : List Nat) (frame : List Byte) : (recordCrews q gid slots frame).map (·.1) = slots := by
  have from_ (f : Nat → Nat → Crew) (xs : List Nat) (i : Nat) : (imapFrom (fun i x => (x, f i x)) i xs).map (·.1) = xs := by
    induction xs generalizing i with
    | nil => rfl
    | cons x xs ih => simp [imapFrom, ih]
  exact from_ _ slots 0

theorem State.startGroup_crews (s : State) (u : Nat) (q : QRec) (room : Room) (frame : List Byte) :
    ∃ m gid, ((s.startGroup u q room frame).core u).crews = (recordCrews q gid room.slots frame).foldl (fun m p => m.put p.1 p.2) m :=
  ⟨_, _, congrArg Core.crews (SMap.get_put_same _ _ _ _)⟩

/-- Every slot that a started group takes holds one of the record's crews. -/
theorem State.startGroup_crew (s : State) (u : Nat) (q : QRec) (room : Room) (frame : List Byte) {k : Nat} (hk : k ∈ room.slots) :
    ∃ gid, ∃ p ∈ recordCrews q gid room.slots frame, (s.startGroup u q room frame).crew? u k = some p.2 := by
  obtain ⟨m, gid, hcrews⟩ := s.startGroup_crews u q room frame
  obtain ⟨p, hp, -, hfind⟩ := SMap.find?_foldl_put m (show k ∈ (recordCrews q gid room.slots frame).map (·.1) by rwa [recordCrews_slots])
  exact ⟨gid, p, hp, by rw [State.crew?, hcrews, hfind]⟩

/-! What the tick of a starter leaves alone. -/

@[simp] theorem State.cluster_setCluster_same (s : State) (n : Nat) (x : Cluster) : (s.setCluster n x).cluster n = x := SMap.get_put_same _ _ _ _
theorem State.cluster_setCluster_other (s : State) {n m : Nat} (x : Cluster) (h : m ≠ n) : (s.setCluster n x).cluster m = s.cluster m :=
  SMap.get_put_other _ _ _ h

theorem State.starterTick_cluster (s : State) (cl c : Nat) : ∃ now, (s.starterTick cl).cluster c = { s.cluster c with cyc := now } := by
  by_cases h : c = cl
  · subst h
    exact ⟨_, State.cluster_setCluster_same _ _ _⟩
  · exact ⟨_, State.cluster_setCluster_other s _ h⟩

@[simp] theorem State.starterTick_queues (s : State) (cl c : Nat) : ((s.starterTick cl).cluster c).queues = (s.cluster c).queues := by
  obtain ⟨now, h⟩ := s.starterTick_cluster cl c
  rw [h]

@[simp] theorem State.starterTick_retiredVaults (s : State) (cl c : Nat) : ((s.starterTick cl).cluster c).retiredVaults = (s.cluster c).retiredVaults := by
  obtain ⟨now, h⟩ := s.starterTick_cluster cl c
  rw [h]

@[simp] theorem State.starterTick_offered (s : State) (cl c u : Nat) : (s.starterTick cl).offered c u = s.offered c u := rfl
@[simp] theorem State.starterTick_runGood (s : State) (cl gr run : Nat) : (s.starterTick cl).runGood gr run = s.runGood gr run := rfl
@[simp] theorem State.starterTick_skips (s : State) (cl : Nat) (q : QRec) : (s.starterTick cl).skips q = s.skips q := rfl
@[simp] theorem State.starterTick_core (s : State) (cl u : Nat) : (s.starterTick cl).core u = s.core u := rfl
@[simp] theorem State.starterTick_slotFree (s : State) (cl u : Nat) : (s.starterTick cl).slotFree u = s.slotFree u := rfl
@[simp] theorem State.starterTick_room (s : State) (cl u : Nat) (q : QRec) : (s.starterTick cl).room u q = s.room u q := by
  simp only [State.room, State.starterTick_core, State.starterTick_slotFree, State.starterTick_retiredVaults]

/-! A scan picks the record that heads the highest level with records (R187). -/

theorem State.scanLevel_head {s : State} {u : Nat} (level : Nat) {q : QRec} (qs : List QRec) {x : Room} (good : s.runGood q.graph q.run = true)
    (taken : s.skips q = false) (room : s.room u q = some x) : s.scanLevel u level none (q :: qs) = ⟨qs, [], some ⟨q, x, level, 0⟩⟩ := by
  simp [State.scanLevel, good, taken, room]

theorem State.scan_head {s : State} {u l n : Nat} {qs : List (List QRec)} {q : QRec} {rest : List QRec} {x : Room} (hl : l < n)
    (queue : qs.getD l [] = q :: rest) (above : ∀ k, l < k → qs.getD k [] = []) (good : s.runGood q.graph q.run = true)
    (taken : s.skips q = false) (room : s.room u q = some x) : ∃ keep, s.scan u none qs n = ⟨keep, [], some ⟨q, x, l, 0⟩⟩ := by
  induction n generalizing qs with
  | zero => omega
  | succ n ih =>
    obtain hlt | rfl := Nat.lt_succ_iff_lt_or_eq.mp hl
    · have hrest : ∀ k, l < k → (setNth qs n []).getD k [] = [] := by
        intro k hk
        by_cases hkn : k = n
        · rw [hkn, setNth_getD_default]
        · rw [setNth_getD_other qs n k [] [] hkn, above k hk]
      obtain ⟨keep, hscan⟩ := ih hlt ((setNth_getD_other qs n l [] [] (by omega)).trans queue) hrest
      exact ⟨keep, by simp only [State.scan, above n hlt, State.scanLevel, hscan, List.nil_append]⟩
    · exact ⟨setNth qs l rest, by simp only [State.scan, queue, State.scanLevel_head l rest good taken room]⟩

/-- No record of a starter that places its head record has been passed over 64 times, so none holds a reservation. -/
theorem reservedRec_of_placing {s : State} {cl u l : Nat} {q : QRec} {rest : List QRec} {room : Room} {frame : List Byte}
    (h : Placing s cl u l q rest room frame) (t : State) {c : Cluster} (hc : c.queues = (s.cluster cl).queues) : t.reservedRec c = none := by
  have young : ∀ x ∈ (s.cluster cl).queues.getD 7 [], x.bypass < 64 := by
    obtain hlt | rfl : l < 7 ∨ l = 7 := by have := h.low; omega
    · rw [h.above 7 hlt]
      exact fun x hx => nomatch hx
    · rw [h.queue]
      exact List.forall_mem_cons.mpr h.fresh
  rw [State.reservedRec, hc, List.find?_eq_none]
  intro x hx
  simp [show ¬ 64 ≤ x.bypass from Nat.not_le.mpr (young x hx)]

/-! A record that saves no register. -/

theorem State.frameMarks_of_no_live (s : State) (cl : Nat) {q : QRec} (i : Nat) (h : recLive q.words = 0) : s.frameMarks cl q i = [] := by
  simp [State.frameMarks, State.frameMark, h]

theorem State.frameKills_of_no_live (s : State) (u cl : Nat) {q : QRec} (slots : List Nat) (h : recLive q.words = 0) :
    s.frameKills u cl q slots = s := by
  have quiet : ∀ p ∈ imap slots (fun i k => (k, s.frameMarks cl q i)), p.2 = [] := by
    intro p hp
    obtain ⟨i, k, -, rfl⟩ := mem_imap hp
    exact s.frameMarks_of_no_live cl i h
  rw [State.frameKills]
  generalize imap slots (fun i k => (k, s.frameMarks cl q i)) = ps at quiet
  induction ps with
  | nil => rfl
  | cons p ps ih =>
    obtain ⟨hp, hps⟩ := List.forall_mem_cons.mp quiet
    rw [List.foldl_cons, hp]
    exact ih hps

theorem exec_recordPlace (cl u : Nat) (s : State) : exec (.recordPlace cl u) s = execRecordPlace cl u s := by
  rfl

/-- The starter places the record: its group starts, from a frame without a byte. -/
theorem recordPlace_starts {s : State} {cl u l : Nat} {q : QRec} {rest : List QRec} {room : Room} {frame : List Byte}
    (h : Placing s cl u l q rest room frame) (hlive : recLive q.words = 0) :
    ∃ t : State, exec (.recordPlace cl u) s = .next (t.startGroup u q room []) := by
  have hcl : cl < 12 := by
    have := h.offered
    simp only [State.offered, Bool.and_eq_true, decide_eq_true_eq] at this
    omega
  obtain ⟨keep, hscan⟩ := (s.starterTick cl).scan_head (u := u) (qs := (s.cluster cl).queues) h.low h.queue h.above h.good h.taken
    (by rw [State.starterTick_room]; exact h.room)
  have hfree := reservedRec_of_placing h (s.starterTick cl) (s.starterTick_queues cl cl)
  have hquiet : (List.range (recCrews q.words)).any (fun i => !((s.starterTick cl).frameMarks cl q i).isEmpty) = false :=
    List.any_eq_false.mpr fun i _ => by simp [State.frameMarks_of_no_live _ cl i hlive]
  simp only [exec_recordPlace, execRecordPlace, hcl, if_true, State.starterTick_offered, h.offered, Bool.not_true, Bool.false_eq_true, if_false,
    State.starterTick_queues, hfree, hscan, hquiet, Bool.and_false, hlive, liveRegs_zero, List.length_nil, Nat.mul_zero, Nat.zero_mul, State.fetchVa,
    State.frameKills_of_no_live _ _ _ _ hlive]
  exact ⟨_, rfl⟩

/-- R69: every slot of the group holds a crew with the count, FMTR, registers and paths that the group starts with. -/
theorem recordPlace_crews {s : State} {cl u l : Nat} {q : QRec} {rest : List QRec} {room : Room} {frame : List Byte}
    (h : Placing s cl u l q rest room frame) (hlive : recLive q.words = 0) :
    Completes (.recordPlace cl u) s (fun r => ∀ k ∈ room.slots, ∃ w, r.crew? u k = some w ∧ w.count = recCount q.words q.hdr ∧ w.fmtr = hdrFmtr q.hdr ∧
      (∀ key, w.get key = (0, 0xFE)) ∧ ∀ j p, (w.scull j).run = some p → p.pc = BitVec.ofNat 64 (recCode q.words) ∧ p.fmtr = hdrFmtr q.hdr) := by
  obtain ⟨t, ht⟩ := recordPlace_starts h hlive
  refine ⟨_, ht, fun k hk => ?_⟩
  obtain ⟨gid, p, hp, hcrew⟩ := t.startGroup_crew u q room [] hk
  obtain ⟨cnum, pos, n, regs, hstart, hregs⟩ := mem_recordCrews hp
  rw [hregs hlive] at hstart
  rw [hstart] at hcrew
  exact ⟨_, hcrew, rfl, rfl, startCrew_get _ _ _ _ _ _ _ _ _, fun _ _ => startCrew_path⟩

end Sys2Proof.Machine
end

section
/-!
HOW A READY NODE'S GROUPS ARE CUT AND SPREAD (R66, R184): the records of the groups go to the starters of the eligible clusters in turn, so each
starter's queue of the header's priority grows by the records of the group numbers that fall to it, in ascending order. A group holds at most
2^10 identifiers and lies below 2^64, so the record's fields hold its first identifier, its count and its priority without loss.
-/
namespace Sys2Proof.Machine

/-! The cut of a launch into groups (R66). -/

theorem hdrW_lt (h : List DWord) (i : Nat) : hdrW h i < 2 ^ 64 := (h.getD i 0).isLt
theorem hdrPrio_lt (h : List DWord) : hdrPrio h < 8 := Nat.mod_lt _ (by decide)

theorem hdrBG_le_of_not_rejected {h : List DWord} (ok : launchRejected h = false) : hdrBG h ≤ 10 := by
  have hbound : ¬ (hdrBG h < 5 ∨ hdrBG h > 10) := by
    intro hbad
    simp [launchRejected, hdrRejected, hbad] at ok
  omega

theorem groupSpan_count_le (h : List DWord) (k : Nat) : (groupSpan h k).2 ≤ 2 ^ hdrBG h := by
  have hsucc : (hdrBase h / 2 ^ hdrBG h + k + 1) * 2 ^ hdrBG h = (hdrBase h / 2 ^ hdrBG h + k) * 2 ^ hdrBG h + 2 ^ hdrBG h := Nat.succ_mul _ _
  have hpos := Nat.two_pow_pos (hdrBG h)
  simp only [groupSpan]
  omega

theorem groupSpan_first_lt {h : List DWord} {k : Nat} (hk : k < groupCount h) (hend : hdrBase h + hdrCount h ≤ 2 ^ 64) : (groupSpan h k).1 < 2 ^ 64 := by
  have hcount : hdrCount h ≠ 0 := by
    intro hzero
    simp [groupCount, hzero] at hk
  have hnumber : hdrBase h / 2 ^ hdrBG h + k ≤ (hdrBase h + hdrCount h - 1) / 2 ^ hdrBG h := by
    simp only [groupCount, hcount, if_false] at hk
    have := Nat.div_le_div_right (c := 2 ^ hdrBG h) (show hdrBase h ≤ hdrBase h + hdrCount h - 1 by omega)
    omega
  have hfirst : (hdrBase h / 2 ^ hdrBG h + k) * 2 ^ hdrBG h ≤ hdrBase h + hdrCount h - 1 :=
    Nat.le_trans (Nat.mul_le_mul_right _ hnumber) (Nat.div_mul_le_self _ _)
  exact Nat.max_lt.mpr ⟨hdrW_lt h 2, by omega⟩

theorem groupSpan_count_small {h : List DWord} (ok : launchRejected h = false) (k : Nat) : (groupSpan h k).2 < 2 ^ 32 := by
  have hlevel := hdrBG_le_of_not_rejected ok
  exact Nat.lt_of_le_of_lt (groupSpan_count_le h k) (Nat.pow_lt_pow_right (by decide) (by omega))

/-! The record of a group, and its fields read back. -/

/-- The record that `pushGroups` makes for group `k` of a node. -/
def groupRecord (gr run node ctx : Nat) (h : List DWord) (k : Nat) : QRec :=
  ⟨mkRec (hdrW h 0) 0 0 (groupSpan h k).1 (groupSpan h k).2 0 0 (hdrPrio h) 0 (Config.nodeHeader gr node) 0, h, ctx, gr, run, node, 0, 0, false⟩

section
variable (gr run node ctx : Nat) {h : List DWord} (k : Nat)

theorem recCode_groupRecord : recCode (groupRecord gr run node ctx h k).words = hdrW h 0 := Nat.mod_eq_of_lt (hdrW_lt h 0)

theorem recWbase_groupRecord (hlt : (groupSpan h k).1 < 2 ^ 64) : recWbase (groupRecord gr run node ctx h k).words = (groupSpan h k).1 :=
  Nat.mod_eq_of_lt hlt

theorem recW_four_groupRecord (hcount : (groupSpan h k).2 < 2 ^ 32) :
    recW (groupRecord gr run node ctx h k).words 4 = (groupSpan h k).2 + hdrPrio h * 2 ^ 56 := by
  have hprio := hdrPrio_lt h
  have hword : recW (groupRecord gr run node ctx h k).words 4 = ((groupSpan h k).2 + 0 * 2 ^ 32 + 0 * 2 ^ 48 + hdrPrio h * 2 ^ 56) % 2 ^ 64 :=
    BitVec.toNat_ofNat _ _
  rw [hword]
  omega

theorem recWcount_groupRecord (hcount : (groupSpan h k).2 < 2 ^ 32) : recWcount (groupRecord gr run node ctx h k).words = (groupSpan h k).2 := by
  rw [recWcount, recW_four_groupRecord gr run node ctx k hcount, bitsAt, Nat.shiftRight_zero]
  omega

theorem recPrio_groupRecord (hcount : (groupSpan h k).2 < 2 ^ 32) : recPrio (groupRecord gr run node ctx h k).words = hdrPrio h := by
  have hprio := hdrPrio_lt h
  rw [recPrio, recW_four_groupRecord gr run node ctx k hcount, bitsAt, Nat.shiftRight_eq_div_pow]
  omega
end

/-- The records that the launch of a node leaves to the starter of a cluster: those of the groups whose turn falls on it, in ascending order. -/
def State.launchRecords (s : State) (gr run node : Nat) (h : List DWord) (c : Nat) : List QRec :=
  ((List.range (groupCount h)).filter (fun k => (s.eligible h).getD (k % (s.eligible h).length) 0 == c)).map
    (fun k => { groupRecord gr run node (s.graph gr).ctx h k with pushed := s.free })

theorem State.launchRecords_spans (s : State) (gr run node : Nat) {h : List DWord} (c : Nat) (ok : launchRejected h = false)
    (hend : hdrBase h + hdrCount h ≤ 2 ^ 64) : (s.launchRecords gr run node h c).map (fun q => (recWbase q.words, recWcount q.words)) =
      ((List.range (groupCount h)).filter (fun k => (s.eligible h).getD (k % (s.eligible h).length) 0 == c)).map (groupSpan h) := by
  rw [State.launchRecords, List.map_map]
  refine List.map_congr_left fun k hk => ?_
  have hlt : k < groupCount h := List.mem_range.mp (List.mem_filter.mp hk).1
  exact Prod.ext (recWbase_groupRecord gr run node (s.graph gr).ctx k (groupSpan_first_lt hlt hend))
    (recWcount_groupRecord gr run node (s.graph gr).ctx k (groupSpan_count_small ok k))

theorem State.mem_launchRecords {s : State} {gr run node : Nat} {h : List DWord} {c : Nat} {q : QRec} (ok : launchRejected h = false)
    (hq : q ∈ s.launchRecords gr run node h c) : q.hdr = h ∧ q.graph = gr ∧ q.run = run ∧ q.node = node ∧ q.ctx = (s.graph gr).ctx ∧
      recCode q.words = hdrW h 0 ∧ recPrio q.words = hdrPrio h := by
  obtain ⟨k, -, rfl⟩ := List.mem_map.mp hq
  exact ⟨rfl, rfl, rfl, rfl, rfl, recCode_groupRecord gr run node (s.graph gr).ctx k,
    recPrio_groupRecord gr run node (s.graph gr).ctx k (groupSpan_count_small ok k)⟩

/-! What pushing a record changes (R184): one queue of one cluster. -/

@[simp] theorem State.enqueue_free (s : State) (cl : Nat) (q : QRec) : (s.enqueue cl q).free = s.free := rfl
@[simp] theorem State.enqueue_mem (s : State) (cl : Nat) (q : QRec) : (s.enqueue cl q).mem = s.mem := rfl
@[simp] theorem State.enqueue_cores (s : State) (cl : Nat) (q : QRec) : (s.enqueue cl q).cores = s.cores := rfl
@[simp] theorem State.enqueue_graphs (s : State) (cl : Nat) (q : QRec) : (s.enqueue cl q).graphs = s.graphs := rfl

theorem State.enqueue_queues_same (s : State) (cl : Nat) (q : QRec) : ((s.enqueue cl q).cluster cl).queues =
    setNth (s.cluster cl).queues (recPrio q.words) ((s.cluster cl).queues.getD (recPrio q.words) [] ++ [{ q with bypass := 0, pushed := s.free }]) := by
  simp [State.enqueue]

theorem State.enqueue_cluster_other (s : State) {cl c : Nat} (q : QRec) (h : c ≠ cl) : (s.enqueue cl q).cluster c = s.cluster c :=
  State.cluster_setCluster_other s _ h

theorem State.enqueue_levels (s : State) (cl c : Nat) (q : QRec) : ((s.enqueue cl q).cluster c).queues.length = (s.cluster c).queues.length := by
  by_cases h : c = cl
  · subst h
    rw [State.enqueue_queues_same, setNth_length]
  · rw [State.enqueue_cluster_other s q h]

theorem State.enqueue_level_other (s : State) (cl c : Nat) (q : QRec) {p : Nat} (hp : p ≠ recPrio q.words) :
    ((s.enqueue cl q).cluster c).queues.getD p [] = (s.cluster c).queues.getD p [] := by
  by_cases h : c = cl
  · subst h
    rw [State.enqueue_queues_same, setNth_getD_other _ _ _ _ _ hp]
  · rw [State.enqueue_cluster_other s q h]

/-- The queue of the record's priority: it grows by the record in the cluster that takes it. -/
theorem State.enqueue_level (s : State) (cl c : Nat) {q : QRec} (hlevel : recPrio q.words < (s.cluster cl).queues.length) :
    ((s.enqueue cl q).cluster c).queues.getD (recPrio q.words) [] =
      (s.cluster c).queues.getD (recPrio q.words) [] ++ if cl == c then [{ q with bypass := 0, pushed := s.free }] else [] := by
  by_cases h : c = cl
  · subst h
    rw [State.enqueue_queues_same, setNth_getD_same _ _ _ _ hlevel, beq_self_eq_true, if_pos rfl]
  · rw [State.enqueue_cluster_other s q h, if_neg (by simpa using Ne.symm h), List.append_nil]

/-! What pushing the records of a node's groups changes. -/

section
variable {gr run node ctx : Nat} {h : List DWord} {el : List Nat}

theorem State.pushGroups_succ (s : State) (n k : Nat) : s.pushGroups gr run node ctx h el (n + 1) k =
    (s.enqueue (el.getD (k % el.length) 0) (groupRecord gr run node ctx h k)).pushGroups gr run node ctx h el n (k + 1) := rfl

@[simp] theorem State.pushGroups_mem (s : State) (n k : Nat) : (s.pushGroups gr run node ctx h el n k).mem = s.mem := by
  induction n generalizing s k with
  | zero => rfl
  | succ n ih => rw [State.pushGroups_succ, ih, State.enqueue_mem]

@[simp] theorem State.pushGroups_cores (s : State) (n k : Nat) : (s.pushGroups gr run node ctx h el n k).cores = s.cores := by
  induction n generalizing s k with
  | zero => rfl
  | succ n ih => rw [State.pushGroups_succ, ih, State.enqueue_cores]

@[simp] theorem State.pushGroups_graphs (s : State) (n k : Nat) : (s.pushGroups gr run node ctx h el n k).graphs = s.graphs := by
  induction n generalizing s k with
  | zero => rfl
  | succ n ih => rw [State.pushGroups_succ, ih, State.enqueue_graphs]

variable (small : ∀ k, (groupSpan h k).2 < 2 ^ 32)
include small

theorem State.pushGroups_level_other (s : State) (n k c : Nat) {p : Nat} (hp : p ≠ hdrPrio h) :
    ((s.pushGroups gr run node ctx h el n k).cluster c).queues.getD p [] = (s.cluster c).queues.getD p [] := by
  induction n generalizing s k with
  | zero => rfl
  | succ n ih =>
    rw [State.pushGroups_succ, ih, State.enqueue_level_other]
    rwa [recPrio_groupRecord gr run node ctx k (small k)]

/-- R184: of the groups from `k` on, a cluster takes those whose turn falls on it, in ascending order. -/
theorem State.pushGroups_level (s : State) (n k c : Nat) (eight : ∀ c, (s.cluster c).queues.length = 8) :
    ((s.pushGroups gr run node ctx h el n k).cluster c).queues.getD (hdrPrio h) [] = (s.cluster c).queues.getD (hdrPrio h) [] ++
      ((List.range' k n).filter (fun k => el.getD (k % el.length) 0 == c)).map (fun k => { groupRecord gr run node ctx h k with pushed := s.free }) := by
  induction n generalizing s k with
  | zero => simp [State.pushGroups]
  | succ n ih =>
    have hprio := recPrio_groupRecord gr run node ctx k (small k)
    have hlevel := s.enqueue_level (el.getD (k % el.length) 0) c (q := groupRecord gr run node ctx h k) (by rw [hprio, eight]; exact hdrPrio_lt h)
    rw [hprio] at hlevel
    rw [State.pushGroups_succ, ih _ _ (fun c => by rw [State.enqueue_levels, eight]), hlevel, List.append_assoc, List.range'_succ, List.filter_cons]
    split <;> rfl
end

/-! A node of a run is marked launched. -/

theorem State.modNode_cases (s : State) (gr run node : Nat) (f : RNode → RNode) :
    s.modNode gr run node f = s ∨ ∃ g, s.modNode gr run node f = s.setGraph gr g := by
  simp only [State.modNode]
  split
  · split
    · exact .inr ⟨_, rfl⟩
    · exact .inl rfl
  · exact .inl rfl

section
variable (s : State) (gr run node : Nat) (f : RNode → RNode)

@[simp] theorem State.modNode_mem : (s.modNode gr run node f).mem = s.mem := by
  obtain h | ⟨g, h⟩ := s.modNode_cases gr run node f <;> simp [h]
@[simp] theorem State.modNode_cores : (s.modNode gr run node f).cores = s.cores := by
  obtain h | ⟨g, h⟩ := s.modNode_cases gr run node f <;> simp [h]
@[simp] theorem State.modNode_cluster (c : Nat) : (s.modNode gr run node f).cluster c = s.cluster c := by
  obtain h | ⟨g, h⟩ := s.modNode_cases gr run node f <;> simp [h, State.cluster]
@[simp] theorem State.modNode_free : (s.modNode gr run node f).free = s.free := by
  obtain h | ⟨g, h⟩ := s.modNode_cases gr run node f <;> simp [h]
end

theorem State.modNode_run {s : State} {gr node : Nat} {run : Run} (f : RNode → RNode) (h : (s.graph gr).run = some run) :
    ((s.modNode gr run.seq node f).graph gr).run = some { run with nodes := imap run.nodes (fun i x => if i = node then f x else x) } := by
  simp only [State.modNode, h, if_true]
  exact congrArg Graph.run (SMap.get_put_same _ _ _ _)

section
variable {s : State} {gr node : Nat} {run : Run} {h : List DWord}
  (hdr : ((s.graph gr).nodes.getD node ⟨[], 0, []⟩).hdr = h) (ok : launchRejected h = false)
include hdr ok

/-! The launch of a node whose header is not rejected. -/

theorem State.launchNode_accepted : s.launchNode gr node run =
    (s.modNode gr run.seq node (fun x => { x with launched := true, left := groupCount h })).pushGroups gr run.seq node (s.graph gr).ctx h (s.eligible h)
      (groupCount h) 0 := by
  simp only [State.launchNode, hdr, ok, Bool.false_eq_true, if_false]

theorem State.launchNode_mem : (s.launchNode gr node run).mem = s.mem := by
  rw [State.launchNode_accepted hdr ok, State.pushGroups_mem, State.modNode_mem]

theorem State.launchNode_cores : (s.launchNode gr node run).cores = s.cores := by
  rw [State.launchNode_accepted hdr ok, State.pushGroups_cores, State.modNode_cores]

theorem State.launchNode_run (hrun : (s.graph gr).run = some run) : ((s.launchNode gr node run).graph gr).run =
    some { run with nodes := imap run.nodes (fun i x => if i = node then { x with launched := true, left := groupCount h } else x) } := by
  rw [State.launchNode_accepted hdr ok, State.graph, State.pushGroups_graphs]
  exact State.modNode_run _ hrun

theorem State.launchNode_level_other (c : Nat) {p : Nat} (hp : p ≠ hdrPrio h) :
    ((s.launchNode gr node run).cluster c).queues.getD p [] = (s.cluster c).queues.getD p [] := by
  rw [State.launchNode_accepted hdr ok, State.pushGroups_level_other (groupSpan_count_small ok) _ _ _ _ hp, State.modNode_cluster]

/-- R184: the starter of a cluster takes the records of the groups whose turn falls on it. -/
theorem State.launchNode_level (eight : ∀ c, (s.cluster c).queues.length = 8) (c : Nat) :
    ((s.launchNode gr node run).cluster c).queues.getD (hdrPrio h) [] = (s.cluster c).queues.getD (hdrPrio h) [] ++ s.launchRecords gr run.seq node h c := by
  rw [State.launchNode_accepted hdr ok, State.pushGroups_level (groupSpan_count_small ok) _ _ _ _ (fun c => by rw [State.modNode_cluster, eight]),
    State.modNode_cluster, State.modNode_free, ← List.range_eq_range']
  rfl
end

end Sys2Proof.Machine
end

section
/-! HOW GROUPS START (R69, R184): the crews of a group, the count that the decoder checks, and the records of a launch. -/
namespace Sys2Proof.Machine

/-- The decoder checks a crew's word against that crew's own register count (R55, R69). -/
theorem State.decode_crew {s : State} {iss : Issue} {k : Nat} {w : Crew} (hwho : iss.who = .crew k) (hcrew : s.crew? iss.unit k = some w) (x : Slot) :
    s.decode iss x = decodeSlot ⟨false, w.count, w.converged, w.parted⟩ (s.ctx (s.issueCtx iss)).sel (s.ctx (s.issueCtx iss)).held x := by
  simp [State.decode, State.decEnv, hwho, hcrew]

/-- Settles O60. A record with no live register starts crews with nothing in their registers, at its own CODE, which here is the header's entry point;
the records of a launch are those that `launchRecords` names, one starter at a time. -/
theorem groupsStart : Obligations.GroupsStart := by
  refine ⟨fun s cl u l q rest room frame h hlive hregs hcode => ?_, fun s iss k w hwho hcrew => State.decode_crew hwho hcrew iss.cur, ?_⟩
  · have hcount : recCount q.words q.hdr = hdrRegs q.hdr := if_pos hregs
    have hstart := recordPlace_crews h hlive
    rwa [hcount, hcode] at hstart
  · intro s gr node run h hrun hdr ok hcount hend heligible eight size n to_ lo hi t
    have hn : groupCount h = n := if_neg hcount
    refine ⟨fun c => ⟨s.launchRecords gr run.seq node h c, State.launchNode_level hdr ok eight c, ?_, fun q => State.mem_launchRecords ok, fun p =>
      State.launchNode_level_other hdr ok c⟩, State.launchNode_mem hdr ok, State.launchNode_cores hdr ok, fun x hx => ?_⟩
    · rw [State.launchRecords_spans s gr run.seq node c ok hend, hn]
      rfl
    · obtain rfl := Option.some.inj ((State.launchNode_run hdr ok hrun).symm.trans hx)
      refine ⟨rfl, fun hnode => ?_⟩
      rw [imap_length] at hnode
      simp [imap_getD _ run.nodes node (⟨0, 0, false, false⟩ : RNode), hnode, hn, -List.getD_eq_getElem?_getD]

end Sys2Proof.Machine
end

section
/-!
THE LAYOUT OF A TRAP FRAME (R240): a frame is the little-endian image of sixteen numbers. Each of them lies below 2^64, so a doubleword reads back as
the number itself; the fields of a doubleword are then those of that number.
-/
namespace Sys2Proof.Machine

/-! Little-endian images (R4): the number that they hold, and one element of a sequence of them. -/

@[simp] theorem bytesOf_length (n x : Nat) : (bytesOf n x).length = n := by
  induction n generalizing x with
  | zero => rfl
  | succ n ih => rw [bytesOf, List.length_cons, ih]

@[simp] theorem natOfBytes_bytesOf (n x : Nat) : natOfBytes (bytesOf n x) = x % 256 ^ n := by
  induction n generalizing x with
  | zero => rw [bytesOf, natOfBytes, Nat.pow_zero, Nat.mod_one]
  | succ n ih => rw [bytesOf, natOfBytes, ih, BitVec.toNat_ofNat, show 256 ^ (n + 1) = 256 * 256 ^ n from Nat.pow_succ', Nat.mod_mul]

theorem flatMap_bytesOf_length (n : Nat) (xs : List Nat) : (xs.flatMap (bytesOf n)).length = xs.length * n := by
  induction xs with
  | nil => rw [List.flatMap_nil, List.length_nil, List.length_nil, Nat.zero_mul]
  | cons x xs ih => rw [List.flatMap_cons, List.length_append, bytesOf_length, ih, List.length_cons, Nat.succ_mul, Nat.add_comm]

/-- Element `i` of a sequence of images of `n` bytes lies `n * i` bytes into it. -/
theorem flatMap_bytesOf_slice (n : Nat) {i : Nat} {xs : List Nat} (hi : i < xs.length) :
    ((xs.flatMap (bytesOf n)).drop (n * i)).take n = bytesOf n (xs.getD i 0) := by
  induction xs generalizing i with
  | nil => cases hi
  | cons x xs ih =>
    rw [List.flatMap_cons]
    cases i with
    | zero => rw [Nat.mul_zero, List.drop_zero, List.take_left' (bytesOf_length n x), List.getD_cons_zero]
    | succ i =>
      rw [Nat.mul_succ, Nat.add_comm, ← List.drop_drop, List.drop_left' (bytesOf_length n x), ih (Nat.lt_of_succ_lt_succ hi), List.getD_cons_succ]

/-! The mask of a list of threads: bit `t` names thread `t`. -/

theorem testBit_foldl_mask (ts : List Nat) (m i : Nat) : (ts.foldl (fun m t => m ||| 2 ^ t) m).testBit i = (m.testBit i || decide (i ∈ ts)) := by
  induction ts generalizing m with
  | nil => rw [List.foldl_nil, decide_eq_false List.not_mem_nil, Bool.or_false]
  | cons t ts ih =>
    rw [List.foldl_cons, ih, Nat.testBit_or, Nat.testBit_two_pow, Bool.or_assoc, ← Bool.decide_or]
    simp only [List.mem_cons, eq_comm]

theorem testBit_maskOf (ts : List Nat) (i : Nat) : (maskOf ts).testBit i = decide (i ∈ ts) := by
  rw [maskOf, testBit_foldl_mask, Nat.zero_testBit, Bool.false_or]

theorem maskOf_lt {ts : List Nat} {n : Nat} (h : ∀ t ∈ ts, t < n) : maskOf ts < 2 ^ n := by
  refine Nat.lt_pow_two_of_testBit _ fun i hi => ?_
  rw [testBit_maskOf, decide_eq_false_iff_not]
  exact fun hmem => absurd (h i hmem) (Nat.not_lt.mpr hi)

/-- In an ascending list the first element is the least. -/
theorem headD_le_of_pairwise {ts : List Nat} (h : ts.Pairwise (· < ·)) : ∀ t ∈ ts, ts.headD 0 ≤ t := by
  intro t ht
  cases h with
  | nil => exact absurd ht List.not_mem_nil
  | cons hlt _ =>
    obtain rfl | hmem := List.mem_cons.mp ht
    · exact Nat.le_refl _
    · exact Nat.le_of_lt (hlt t hmem)

section
variable (u slot : Nat) (w : Crew) (p : Pend) (ts : List Nat) (fmtr : Word) (n : Nat) (waited : Bool)

/-! The sixteen doublewords of a frame. -/

/-- The place that WHO gives below TMASK: UNIT, SCULL, SLOTC and CNUM. -/
def framePlace : Nat := u * 2 ^ 20 + (if p.cox then 15 else ts.headD 0 / 4) * 2 ^ 16 + slot * 2 ^ 8 + w.cnum

/-- FLAGS. -/
def frameFlags : Nat :=
  (if w.parted then 2 ^ 15 else 0) + (if p.grp then 2 ^ 14 else 0) + (if waited then 2 ^ 10 else 0) + n * 2 ^ 9 + (if p.cox then 2 ^ 8 else 0) +
    (w.scull (ts.headD 0 / 4)).fstat.toNat

/-- The numbers of the sixteen doublewords. -/
def frameWords : List Nat :=
  [p.sub * 2 ^ 32 + p.cause, maskOf ts * 2 ^ 32 + framePlace u slot w p ts, p.pc.toNat, p.instr.toNat % 2 ^ 64, p.instr.toNat / 2 ^ 64, p.faddr,
   (w.scull (ts.headD 0 / 4)).losspc.toNat, p.stroke, frameFlags w p ts n waited, p.rpc.toNat, fmtr.toNat, 0, 0, 0, 0, 0]

theorem frameBytes_eq : frameBytes u slot w p ts fmtr n waited = (frameWords u slot w p ts fmtr n waited).flatMap (bytesOf 8) := by
  simp only [frameBytes, frameWords, framePlace, frameFlags, Nat.add_assoc]

theorem frameBytes_length : (frameBytes u slot w p ts fmtr n waited).length = 128 := by
  rw [frameBytes_eq, flatMap_bytesOf_length]
  rfl

/-- Doublewords 11 to 15 are reserved. -/
theorem frameWords_reserved {i : Nat} (hlo : 11 ≤ i) (hhi : i < 16) : (frameWords u slot w p ts fmtr n waited).getD i 0 = 0 := by
  obtain rfl | rfl | rfl | rfl | rfl : i = 11 ∨ i = 12 ∨ i = 13 ∨ i = 14 ∨ i = 15 := by omega
  all_goals rfl

/-- A doubleword of a frame holds its number modulo 2^64. -/
theorem frameBytes_doubleword {i : Nat} (hi : i < 16) :
    natOfBytes (((frameBytes u slot w p ts fmtr n waited).drop (8 * i)).take 8) = (frameWords u slot w p ts fmtr n waited).getD i 0 % 2 ^ 64 := by
  rw [frameBytes_eq, flatMap_bytesOf_slice 8 hi, natOfBytes_bytesOf, show 256 ^ 8 = 2 ^ 64 from rfl]
end

section
variable {u slot : Nat} {w : Crew} {p : Pend} {ts : List Nat} {n : Nat}

/-! Each number fits its doubleword. -/

theorem halves_lt {hi lo : Nat} (hhi : hi < 2 ^ 32) (hlo : lo < 2 ^ 32) : hi * 2 ^ 32 + lo < 2 ^ 64 := by omega

theorem headD_div_lt (hts : ∀ t ∈ ts, t < 32) : ts.headD 0 / 4 < 8 := by
  cases ts with
  | nil => decide
  | cons t ts => exact Nat.div_lt_of_lt_mul (hts t List.mem_cons_self)

theorem framePlace_lt (hu : u < 2 ^ 12) (hslot : slot < 48) (hcnum : w.cnum < 2 ^ 5) (hts : ∀ t ∈ ts, t < 32) : framePlace u slot w p ts < 2 ^ 32 := by
  have hscull := headD_div_lt hts
  unfold framePlace
  split <;> omega

theorem frameFlags_lt (ts : List Nat) (waited : Bool) (hn : n < 2) : frameFlags w p ts n waited < 2 ^ 16 := by
  have hparted : (if w.parted then 2 ^ 15 else 0) ≤ 2 ^ 15 := by split <;> decide
  have hgrp : (if p.grp then 2 ^ 14 else 0) ≤ 2 ^ 14 := by split <;> decide
  have hpend : (if waited then 2 ^ 10 else 0) ≤ 2 ^ 10 := by split <;> decide
  have hcox : (if p.cox then 2 ^ 8 else 0) ≤ 2 ^ 8 := by split <;> decide
  have hsticky := (w.scull (ts.headD 0 / 4)).fstat.isLt
  unfold frameFlags
  omega

theorem frameWords_lt (hu : u < 2 ^ 12) (hslot : slot < 48) (hcnum : w.cnum < 2 ^ 5) (hts : ∀ t ∈ ts, t < 32) (hsub : p.sub < 2 ^ 32)
    (hcause : p.cause < 2 ^ 8) (hfaddr : p.faddr < 2 ^ 64) (hstroke : p.stroke < 2 ^ 32) (hn : n < 2) (fmtr : Word) (waited : Bool) :
    ∀ x ∈ frameWords u slot w p ts fmtr n waited, x < 2 ^ 64 := by
  have hhead : p.sub * 2 ^ 32 + p.cause < 2 ^ 64 := halves_lt hsub (Nat.lt_trans hcause (by decide))
  have hwho : maskOf ts * 2 ^ 32 + framePlace u slot w p ts < 2 ^ 64 := halves_lt (maskOf_lt hts) (framePlace_lt hu hslot hcnum hts)
  have hinstlo : p.instr.toNat % 2 ^ 64 < 2 ^ 64 := Nat.mod_lt _ (by decide)
  have hinsthi : p.instr.toNat / 2 ^ 64 < 2 ^ 64 := Nat.div_lt_of_lt_mul (Nat.lt_trans p.instr.isLt (by decide))
  have hflags : frameFlags w p ts n waited < 2 ^ 64 := Nat.lt_trans (frameFlags_lt ts waited hn) (by decide)
  have hrfmtr : fmtr.toNat < 2 ^ 64 := Nat.lt_trans fmtr.isLt (by decide)
  have hzero : 0 < 2 ^ 64 := by decide
  simp only [frameWords, List.forall_mem_cons]
  exact ⟨hhead, hwho, p.pc.isLt, hinstlo, hinsthi, hfaddr, BitVec.isLt _, Nat.lt_trans hstroke (by decide), hflags, p.rpc.isLt, hrfmtr,
    hzero, hzero, hzero, hzero, hzero, fun x hx => absurd hx List.not_mem_nil⟩
end

/-- Settles O20. Every doubleword reads back as its number of `frameWords`; the two halves of WHO come apart because the place lies below 2^32. -/
theorem frameLayout : Obligations.FrameLayout := by
  intro u slot w p ts fmtr n waited hu hslot hcnum _ hts hsorted hsub hcause hfaddr hstroke hn b at_ k bit
  have hplace : framePlace u slot w p ts < 2 ^ 32 := framePlace_lt hu hslot hcnum hts
  have hword : ∀ i, i < 16 → at_ (8 * i) = (frameWords u slot w p ts fmtr n waited).getD i 0 := by
    intro i hi
    refine (frameBytes_doubleword u slot w p ts fmtr n waited hi).trans (Nat.mod_eq_of_lt ?_)
    rw [List.getD_eq_getElem?_getD, List.getElem?_eq_getElem hi, Option.getD_some]
    exact frameWords_lt hu hslot hcnum hts hsub hcause hfaddr hstroke hn fmtr waited _ (List.getElem_mem hi)
  have hwho : at_ 8 = maskOf ts * 2 ^ 32 + framePlace u slot w p ts := by
    simpa only [frameWords, List.getD_cons_succ, List.getD_cons_zero] using hword 1 (by decide)
  have hmask : at_ 8 / 2 ^ 32 = maskOf ts := by omega
  refine ⟨frameBytes_length u slot w p ts fmtr n waited, hword 0 (by decide), fun t ht => Nat.div_le_div_right (headD_le_of_pairwise hsorted t ht),
    fun t _ => ?_, ?_, hword 2 (by decide), hword 3 (by decide), hword 4 (by decide), hword 5 (by decide), hword 6 (by decide), hword 7 (by decide),
    hword 8 (by decide), hword 9 (by decide), hword 10 (by decide), fun i hlo hhi => ?_⟩
  · rw [hmask, testBit_maskOf, decide_eq_true_iff]
  · show at_ 8 % 2 ^ 32 = framePlace u slot w p ts
    omega
  · rw [hword i hhi, frameWords_reserved _ _ _ _ _ _ _ _ hlo hhi]

end Sys2Proof.Machine
end
